-- ==== Sys2Proof/Word.lean ====
section
/-! DEFINITION. The words of the AC Link engine (00_scope.md R8): bytes and line levels. -/
namespace Sys2Proof

/-- A byte: 8 bits, unsigned (R8). -/
abbrev Byte := BitVec 8

/-- A level of the line: `false` is 0 (low), `true` is 1 (high) (R8). -/
abbrev Level := Bool

/-- A character: what one 11-cell UART frame carries, a byte and its marker level (R8, R90). -/
structure Character where
  byte   : Byte
  marker : Level
  deriving DecidableEq, Repr, Inhabited

end Sys2Proof
end

