-- ==== Sys2Proof/Syntax.lean ====
section
/-! DEFINITION. The instructions of the AC Link engine: one constructor of `Instr` per row of
spec/opcode_table.json (14 wire commands, 9 host operations, 29 primitives, steps and handlers; 30_encoding.md R110). -/
namespace Sys2Proof

/-- The other nodes of the bus (00_scope.md R11, 20_memory.md R61): Master Controller, DSP Processor, USB Host. -/
inductive Peer where
  | mc | dsp | usb
  deriving DecidableEq, Repr, Inhabited

/-- The agents that run operations of several steps (60_exceptions.md R386). -/
inductive Agent where
  | arb
  | txa
  | lst
  /-- A command producer; there is any number of them. -/
  | host (n : Nat)
  deriving DecidableEq, Repr, Inhabited

/-- Frame bytes 0, 1 and 2 (30_encoding.md R95). The length byte and the checksum follow from the rest. -/
structure Header where
  receiver    : Byte
  transmitter : Byte
  reserved    : Byte
  deriving DecidableEq, Repr

/-- An instruction. A wire command carries its frame's header and every payload byte after the command code;
a host operation carries its caller `h`, which is `Agent.host h`; a primitive carries its operands and, where its
rule names one, the calling agent `a`. -/
inductive Instr where
  -- FRAME: wire commands, selected by frame byte 4 (30_encoding.md R100)
  | inputSourceName      (hd : Header) (args : List Byte)
  | masterVolume         (hd : Header) (args : List Byte)
  | balance              (hd : Header) (args : List Byte)
  | fader                (hd : Header) (args : List Byte)
  | subVolume            (hd : Header) (args : List Byte)
  | changeMemory         (hd : Header) (args : List Byte)
  | changeSource         (hd : Header) (args : List Byte)
  | checkPresent         (hd : Header) (args : List Byte)
  | isPresent            (hd : Header) (args : List Byte)
  | usbConnected         (hd : Header) (args : List Byte)
  | firmwareVersion      (hd : Header) (args : List Byte)
  | isDisconnected       (hd : Header) (args : List Byte)
  | getCurrentSourceName (hd : Header) (args : List Byte)
  | powerOff             (hd : Header) (args : List Byte)
  -- HOSTOP: the command port (47_host_operations.md)
  | setVolume           (h : Nat) (v : Byte)
  | setBalance          (h : Nat) (v : Byte)
  | setFader            (h : Nat) (v : Byte)
  | setSubVolume        (h : Nat) (v : Byte)
  | setMemory           (h : Nat) (bank : Byte)
  | powerOffMainUnit    (h : Nat)
  | requestSourceChange (h : Nat)
  | checkPresence       (h : Nat) (address : Byte)
  | readStatus          (h : Nat)
  -- PRIM: Frame Codec (40_frame_codec.md)
  | sum8     (bytes : List Byte)
  | build    (rx tx : Byte) (payload : List Byte)
  | validate (bytes : List Byte)
  -- PRIM: transceiver (41_line_transceiver.md)
  | bitTicks         (baud : Nat)
  | encodeChar       (b : Byte) (m : Level)
  | encodeFrameCells (bytes : List Byte)
  | encodeFrame      (bytes : List Byte)
  | decodeCells      (cells : List Level)
  | decPush          (ch : Character)
  -- PRIM: Frame Receiver (42_frame_receiver.md)
  | frxStep (b : Byte) (m : Level)
  | frxTake
  | frxReset
  -- PRIM: Transmit Queue (43_transmit_queue.md)
  | tryLock (a : Agent)
  | unlock  (a : Agent)
  | enqueue (a : Agent) (bytes : List Byte) (awaits : Bool)
  | dequeueAllReady
  -- PRIM: arbiter operations and the dispatcher (45_bus_arbiter.md, 46_dispatcher.md)
  | ping         (a : Agent) (p : Peer)
  | pushSettings (a : Agent)
  | dispatch     (bytes : List Byte)
  -- PRIM: transmit agent (44_transmit_agent.md)
  | txaDrain
  | txaStart
  /-- `contended`: whether a peer drives the line during the eleven cells (R226, 20_memory.md R80). -/
  | txaSendChar (contended : Bool)
  | txaEchoChar
  | txaEchoTimeout
  | txaRespChar
  | txaRespTimeout
  -- PRIM: listener, poll timer, boot completion
  | lstChar
  | pollTick
  | arbBootCompletion
  deriving DecidableEq, Repr

end Sys2Proof
end

