-- ==== Sys2Proof/Config.lean ====
section
/-! DEFINITION. The parameters of 00_scope.md R7: the constants the spec fixes, and the OPEN ones as fields of a
configuration record. The running machine uses `chip`, whose OPEN fields are built from an opaque constant: nothing
can be proved about them but the constraints of 92_eei_decisions.md (log 8). -/
namespace Sys2Proof

/-- R7 item 1. -/
def baud : Nat := 38400
/-- R7 item 2, 20_memory.md R61. -/
def addrMC : Byte := 0x00
def addrDSP : Byte := 0x46
def addrUSB : Byte := 0x5A
def addrRN : Byte := 0x80
/-- R7 item 3. -/
def payloadMax : Nat := 250
/-- R7 item 4. -/
def pingFailMax : Byte := 5
/-- R7 item 6. -/
def volMax : Byte := 0x78
def subMax : Byte := 0x18
def balFadMax : Byte := 0x24
/-- R7 item 7. -/
def srcNameLen : Nat := 16

/-- What the spec leaves to one `draw` (R9): characters that DEC delivers, framing faults it raises, each with its index,
and the position and bits it is left with (20_memory.md R80, 41_line_transceiver.md R162; logs 7 and 20); and the index
of a framing fault where the rules do not say from where cells are counted (log 14). -/
structure Draw where
  chars  : List Character
  faults : List Nat
  index  : Nat
  pos    : Nat
  shift  : BitVec 9
  deriving DecidableEq, Repr, Inhabited

/-- The OPEN parameters of R7 and the values the spec leaves to a `draw` (R9). -/
structure Config where
  /-- `TICK_HZ`, R7 item 5. -/
  tickHz : Nat
  /-- `Q_DEPTH`, item 8. -/
  qDepth : Nat
  /-- `ENQ_RETRY_MAX`, item 9. -/
  enqRetryMax : Nat
  /-- `DEQ_RETRY_MAX`, item 9. -/
  deqRetryMax : Nat
  /-- `RX_CAP`, item 10. -/
  rxCap : Nat
  /-- `RXF_DEPTH`, item 11. -/
  rxfDepth : Nat
  /-- `POLL_PERIOD`, item 12: time only, no rule reads it (60_exceptions.md R377). -/
  pollPeriod : Nat
  /-- `RESP_TIMEOUT`, item 13: time only. -/
  respTimeout : Nat
  /-- `ECHO_TIMEOUT`, item 13: time only. -/
  echoTimeout : Nat
  /-- `BACKOFF_DELAY`, item 14: time only. -/
  backoffDelay : Nat
  /-- `SET_DESTS`, item 15. -/
  setDests : List Peer
  /-- `SRC_CHANGE_DEST`, item 16. -/
  srcChangeDest : Peer
  /-- `MEM_BANKS`, item 17. -/
  memBanks : Nat
  /-- The `n`-th draw: any characters, any number of them, any number of faults, any position. -/
  draw : Nat → Draw
  deriving Inhabited

/-- The constraints 92_eei_decisions.md puts on the OPEN parameters (D4, D7, D11, D13, D14, D27); 19 200 is the
least tick rate with `bit_ticks 38400 >= 1`. The USB Host is sent presence checks only (20_memory.md R61), so it is no
destination of a setting or of a source change (DEDUCED, log 8). -/
structure Config.Legal (c : Config) : Prop where
  tickHz      : 19200 ≤ c.tickHz
  qDepth      : 1 ≤ c.qDepth
  enqRetryMax : 1 ≤ c.enqRetryMax
  deqRetryMax : 1 ≤ c.deqRetryMax
  rxCap_ge    : 5 ≤ c.rxCap
  rxCap_le    : c.rxCap ≤ 255
  rxfDepth    : 1 ≤ c.rxfDepth
  setDests    : c.setDests ≠ []
  noUsbDest   : Peer.usb ∉ c.setDests
  noUsbSource : c.srcChangeDest ≠ .usb
  memBanks_ge : 1 ≤ c.memBanks
  memBanks_le : c.memBanks ≤ 255

/-- What the implementation fixes, before it is brought into the legal ranges. No body: nothing is known of it. -/
opaque rawConfig : Config

/-- The first address of `SET_DESTS`, which is not empty (D27). -/
opaque rawFirstDest : Peer

/-- A destination of settings: the Master Controller or the DSP Processor (20_memory.md R61). -/
def settingsPeer : Peer → Peer
  | .mc => .mc
  | .dsp | .usb => .dsp

theorem settingsPeer_ne_usb (p : Peer) : settingsPeer p ≠ .usb := by cases p <;> decide

/-- The configuration of the machine: every legal configuration is one value of the two opaque constants. -/
def chip : Config :=
  { rawConfig with
    tickHz := rawConfig.tickHz + 19200
    qDepth := rawConfig.qDepth + 1
    enqRetryMax := rawConfig.enqRetryMax + 1
    deqRetryMax := rawConfig.deqRetryMax + 1
    rxCap := 5 + rawConfig.rxCap % 251
    rxfDepth := rawConfig.rxfDepth + 1
    setDests := (rawFirstDest :: rawConfig.setDests).map settingsPeer
    srcChangeDest := settingsPeer rawConfig.srcChangeDest
    memBanks := 1 + rawConfig.memBanks % 255 }

/-- The configuration of the machine meets the constraints of 92_eei_decisions.md. -/
theorem chip_legal : chip.Legal where
  tickHz := Nat.le_add_left _ _
  qDepth := Nat.le_add_left _ _
  enqRetryMax := Nat.le_add_left _ _
  deqRetryMax := Nat.le_add_left _ _
  rxCap_ge := Nat.le_add_right _ _
  rxCap_le := by
    have h : rawConfig.rxCap % 251 < 251 := Nat.mod_lt _ (by decide)
    show 5 + rawConfig.rxCap % 251 ≤ 255
    omega
  rxfDepth := Nat.le_add_left _ _
  setDests := List.cons_ne_nil _ _
  noUsbDest := fun h => by
    obtain ⟨p, _, hp⟩ := List.mem_map.mp h
    exact settingsPeer_ne_usb p hp
  noUsbSource := settingsPeer_ne_usb _
  memBanks_ge := Nat.le_add_right _ _
  memBanks_le := by
    have h : rawConfig.memBanks % 255 < 255 := Nat.mod_lt _ (by decide)
    show 1 + rawConfig.memBanks % 255 ≤ 255
    omega

end Sys2Proof
end

