-- ==== Sys2Proof/Machine/Codec.lean ====
section
/-! DEFINITION. The Frame Codec as pure functions (40_frame_codec.md R130 to R136). -/
namespace Sys2Proof.Machine

/-- `sum8`: the sum of the bytes mod 256, 0 for the empty sequence (R130). -/
def checksum : List Byte → Byte
  | [] => 0
  | b :: bs => b + checksum bs

/-- A frame with the given first three bytes and payload, its length byte and its checksum (30_encoding.md R95 to R97). -/
def frameBytes (rx tx rsv : Byte) (payload : List Byte) : List Byte :=
  let body := rx :: tx :: rsv :: BitVec.ofNat 8 (5 + payload.length) :: payload
  body ++ [checksum body]

/-- `build`: `none` stands for PayloadTooLarge (R131). -/
def buildFrame (rx tx : Byte) (payload : List Byte) : Option (List Byte) :=
  if payload.length > payloadMax then none else some (frameBytes rx tx 0x00 payload)

/-- What `validate` finds (R134). -/
inductive Verdict where
  | frame
  | checksumMismatch
  | frameMalformed
  deriving DecidableEq, Repr

/-- `validate`, the three checks in the order of R134 (90_conflicts.md C4). -/
def verdict (bytes : List Byte) : Verdict :=
  if bytes.length < 5 then .frameMalformed
  else if checksum bytes.dropLast ≠ bytes.getLastD 0 then .checksumMismatch
  else if (bytes.getD 3 0).toNat ≠ bytes.length then .frameMalformed
  else .frame

/-- Accessors of a frame kept as its byte sequence (R133). -/
def frameReceiver (f : List Byte) : Byte := f.getD 0 0
def frameTransmitter (f : List Byte) : Byte := f.getD 1 0
def frameReserved (f : List Byte) : Byte := f.getD 2 0
def framePayload (f : List Byte) : List Byte := (f.drop 4).dropLast

end Sys2Proof.Machine
end

