-- ==== Sys2Proof/WellFormed.lean ====
section
/-! DEFINITION. Which terms of `Instr` stand for an instruction the spec gives a meaning. -/
namespace Sys2Proof
open Machine

/-- A wire command's payload has at most 250 bytes, the command code included (30_encoding.md R96). -/
def argsFit (args : List Byte) : Bool := args.length + 1 ≤ payloadMax

/-- Who may put entries into the queue: HOST, ARB and LST; "TXA never enqueues" (43_transmit_queue.md R200). -/
def Agent.isProducer : Agent → Bool
  | .txa => false
  | .arb | .lst | .host _ => true

/-- Who may ping: ARB, and HOST through `check_presence` (45_bus_arbiter.md R254). -/
def Agent.isPinger : Agent → Bool
  | .arb | .host _ => true
  | .txa | .lst => false

/-- A frame that `build` returns for some operands: valid, with reserved byte 0 (40_frame_codec.md R131, 30_encoding.md R98). -/
def isBuilt (bytes : List Byte) : Bool := verdict bytes == .frame && frameReserved bytes == 0x00

/-- The operand conditions the rules put on an instruction: a frame's size, a producer (R200, R254), a frame that `build`
returns (R203), a validated frame (46_dispatcher.md R292), a positive baud rate (41_line_transceiver.md R150). The engine's
own callers enqueue to the addresses of 20_memory.md R61 and as 0x80 (R62); by name any addresses, payload and response
flag are taken (DESIGN CHOICE, log 26). -/
def Instr.wf : Instr → Bool
  | .inputSourceName _ args | .masterVolume _ args | .balance _ args | .fader _ args | .subVolume _ args
  | .changeMemory _ args | .changeSource _ args | .checkPresent _ args | .isPresent _ args | .usbConnected _ args
  | .firmwareVersion _ args | .isDisconnected _ args | .getCurrentSourceName _ args | .powerOff _ args => argsFit args
  | .setVolume _ _ | .setBalance _ _ | .setFader _ _ | .setSubVolume _ _ | .setMemory _ _ | .powerOffMainUnit _
  | .requestSourceChange _ | .checkPresence _ _ | .readStatus _ => true
  | .sum8 _ | .build _ _ _ | .validate _ => true
  | .bitTicks n => 0 < n
  | .encodeChar _ _ | .encodeFrameCells _ | .encodeFrame _ | .decodeCells _ | .decPush _ => true
  | .frxStep _ _ | .frxTake | .frxReset => true
  | .tryLock _ | .unlock _ => true
  | .enqueue a bytes _ => a.isProducer && isBuilt bytes
  | .dequeueAllReady => true
  | .ping a _ => a.isPinger
  | .pushSettings a => a.isProducer
  | .dispatch bytes => verdict bytes == .frame
  | .txaDrain | .txaStart | .txaSendChar _ | .txaEchoChar | .txaEchoTimeout | .txaRespChar | .txaRespTimeout => true
  | .lstChar | .pollTick | .arbBootCompletion => true

end Sys2Proof
end

