-- ==== Sys2Proof/Decode.lean ====
section
/-! DEFINITION. The decoder of wire commands, total on any bytes and rejecting by name, and after it the encoder
(30_encoding.md R95 to R101). Only the FRAME rows have a bit pattern: host operations and primitives are selected by
name (R110), so the encoder answers `none` for them. -/
namespace Sys2Proof
open Machine

/-- Why a byte sequence is no wire command. -/
inductive DecodeError where
  /-- Fewer than 5 bytes, or a length byte that is not the number of bytes (R134 steps 1 and 3). -/
  | malformed
  /-- The checksum is wrong (R134 step 2). -/
  | badChecksum
  /-- The payload is empty: no command (R99). -/
  | noCommand
  /-- The command code is none of the fourteen (R100). -/
  | unknownCommand (code : Byte)
  deriving DecidableEq, Repr

/-- The command map of R100. -/
def decodeCommand (hd : Header) (args : List Byte) (code : Byte) : Except DecodeError Instr :=
  match code.toNat with
  | 0x09 => .ok (.inputSourceName hd args)
  | 0x0A => .ok (.masterVolume hd args)
  | 0x0B => .ok (.balance hd args)
  | 0x0C => .ok (.fader hd args)
  | 0x0D => .ok (.subVolume hd args)
  | 0x0F => .ok (.changeMemory hd args)
  | 0x10 => .ok (.changeSource hd args)
  | 0x11 => .ok (.checkPresent hd args)
  | 0x12 => .ok (.isPresent hd args)
  | 0x13 => .ok (.usbConnected hd args)
  | 0x14 => .ok (.firmwareVersion hd args)
  | 0x35 => .ok (.isDisconnected hd args)
  | 0x6D => .ok (.getCurrentSourceName hd args)
  | 0x6E => .ok (.powerOff hd args)
  | _ => .error (.unknownCommand code)

/-- The command of a frame's payload (R99). -/
def decodePayload (hd : Header) : List Byte → Except DecodeError Instr
  | [] => .error .noCommand
  | code :: args => decodeCommand hd args code

/-- The header bytes of a frame that are operands of its command. -/
def headerOf (f : List Byte) : Header := ⟨frameReceiver f, frameTransmitter f, frameReserved f⟩

/-- The decoder: the bytes must be one valid frame (R134), whose byte 4 selects the command (R99). -/
def decode (bytes : List Byte) : Except DecodeError Instr :=
  match verdict bytes with
  | .frameMalformed => .error .malformed
  | .checksumMismatch => .error .badChecksum
  | .frame => decodePayload (headerOf bytes) (framePayload bytes)

/-- The parts of a wire command that its frame is written from: header, command code (R100), argument bytes (R101). -/
def Instr.wireParts : Instr → Option (Header × Byte × List Byte)
  | .inputSourceName hd args => some (hd, 0x09, args)
  | .masterVolume hd args => some (hd, 0x0A, args)
  | .balance hd args => some (hd, 0x0B, args)
  | .fader hd args => some (hd, 0x0C, args)
  | .subVolume hd args => some (hd, 0x0D, args)
  | .changeMemory hd args => some (hd, 0x0F, args)
  | .changeSource hd args => some (hd, 0x10, args)
  | .checkPresent hd args => some (hd, 0x11, args)
  | .isPresent hd args => some (hd, 0x12, args)
  | .usbConnected hd args => some (hd, 0x13, args)
  | .firmwareVersion hd args => some (hd, 0x14, args)
  | .isDisconnected hd args => some (hd, 0x35, args)
  | .getCurrentSourceName hd args => some (hd, 0x6D, args)
  | .powerOff hd args => some (hd, 0x6E, args)
  | .setVolume _ _ | .setBalance _ _ | .setFader _ _ | .setSubVolume _ _ | .setMemory _ _ | .powerOffMainUnit _
  | .requestSourceChange _ | .checkPresence _ _ | .readStatus _ => none
  | .sum8 _ | .build _ _ _ | .validate _ | .bitTicks _ | .encodeChar _ _ | .encodeFrameCells _ | .encodeFrame _
  | .decodeCells _ | .decPush _ | .frxStep _ _ | .frxTake | .frxReset | .tryLock _ | .unlock _ | .enqueue _ _ _
  | .dequeueAllReady | .ping _ _ | .pushSettings _ | .dispatch _ | .txaDrain | .txaStart | .txaSendChar _
  | .txaEchoChar | .txaEchoTimeout | .txaRespChar | .txaRespTimeout | .lstChar | .pollTick | .arbBootCompletion => none

/-- The frame with a given header, command code and arguments (R95, R99). -/
def commandFrame (hd : Header) (code : Byte) (args : List Byte) : List Byte :=
  frameBytes hd.receiver hd.transmitter hd.reserved (code :: args)

/-- The encoder: the frame of a wire command; `none` for what is selected by name (R110). -/
def encode (i : Instr) : Option (List Byte) :=
  i.wireParts.map fun p => commandFrame p.1 p.2.1 p.2.2

/-- What the table's encoding pattern of a command fixes besides the code: the receiver and transmitter bytes
(an operand byte is 0) and the number of argument bytes in the shortest form. -/
def rowShape (code : Byte) : Byte × Byte × Nat :=
  match code.toNat with
  | 0x09 => (addrRN, 0, 16)
  | 0x0A => (0, 0, 1)
  | 0x0B => (0, addrRN, 1)
  | 0x0C => (0, addrRN, 1)
  | 0x0D => (0, 0, 1)
  | 0x0F => (0, 0, 1)
  | 0x10 => (0, addrRN, 0)
  | 0x11 => (0, addrRN, 0)
  | 0x12 => (addrRN, 0, 0)
  | 0x13 => (addrRN, 0, 0)
  | 0x14 => (addrRN, 0, 0)
  | 0x35 => (addrRN, 0, 0)
  | 0x6D => (0, addrRN, 0)
  | 0x6E => (0, addrRN, 0)
  | _ => (0, 0, 0)

/-- The frame of a table word. The table numbers the bits of frame byte 4 and on (its selector): byte 0 of `w` is the
command code, later bytes the arguments, zero above `nbits`; the rest is the row's pattern, its length byte and its
checksum (log 13). -/
def tableFrame (nbits w : Nat) : List Byte :=
  let v := w % 2 ^ nbits
  let code := BitVec.ofNat 8 v
  let shape := rowShape code
  let args := (List.range shape.2.2).map fun k => BitVec.ofNat 8 (v / 2 ^ (8 * (k + 1)))
  frameBytes shape.1 shape.2.1 0x00 (code :: args)

/-- The instruction the decoder reads from a table word. -/
def decodeTableWord (nbits w : Nat) : Option Instr :=
  match decode (tableFrame nbits w) with
  | .ok i => some i
  | .error _ => none

end Sys2Proof
end

