-- ==== Sys2Proof/Machine/State.lean ====
section
/-! DEFINITION. The state of the AC Link engine as plain data (10_state.md R20 to R52), the errors, output events,
results and events it holds, the reasons a step can stop, and the state after reset (R51). -/
namespace Sys2Proof.Machine

/-- The only storage with byte addresses, `frx_buf`: cells with rising addresses, none equal to an unlisted one (log 4). -/
abbrev Memory := List Host.Cell

/-- What an unlisted address reads as. DESIGN CHOICE (log 4): the spec gives `frx_buf` no reset content (R26). -/
def memBlank : Byte := 0

/-- `frx_state` (R25). -/
inductive FrxState where
  | awaitingAddress | awaitingLength | awaitingPayload | complete
  deriving DecidableEq, Repr

/-- `dec_pos` (41_line_transceiver.md R160), and two positions after a framing fault, each with the number of idle cells
seen in a row: `faulted`, while the line has been idle ever since, and `lost`, once it has not. What DEC delivers in
`lost` is a draw until the line has idled 11 cells (R162; log 7). -/
inductive DecPos where
  | idle
  | inChar (k : Nat)
  | faulted (run : Nat)
  | lost (run : Nat)
  deriving DecidableEq, Repr

/-- A queue entry: the complete wire frame and whether a reply is awaited (R27). -/
structure QueuedFrame where
  bytes  : List Byte
  awaits : Bool
  deriving DecidableEq, Repr

/-- `lock` (R28). -/
inductive Lock where
  | free
  | held (a : Agent)
  deriving DecidableEq, Repr

/-- `txa_phase` (R30). -/
inductive TxaPhase where
  | idle | sending | echo | awaitResponse
  deriving DecidableEq, Repr

/-- `arb_state` (R32). -/
inductive ArbState where
  | booting | steadyPolling | usbPassthrough | shuttingDown
  deriving DecidableEq, Repr

/-- `bus_mode` (R33). -/
inductive BusMode where
  | busMaster | usbPassthrough
  deriving DecidableEq, Repr

/-- One peer's presence (R34); the counter is a `u8`. -/
structure PresenceOf where
  present : Bool
  fails   : BitVec 8
  deriving DecidableEq, Repr

/-- `presence` (R34). -/
structure Presence where
  mc  : PresenceOf
  dsp : PresenceOf
  usb : PresenceOf
  deriving DecidableEq, Repr

/-- The settings registers (R36 to R42). `sourceName` has 16 bytes in every state that `Settings.legal` admits. -/
structure Settings where
  masterVolume : Byte
  subVolume    : Byte
  balance      : Byte
  fader        : Byte
  memoryBank   : Byte
  sourceName   : List Byte
  usbConnected : Bool
  deriving DecidableEq, Repr

/-- The fourteen errors, in the order of their indices (60_exceptions.md R361). -/
inductive Err where
  | payloadTooLarge | checksumMismatch | bufferTooSmall | queueFull | lineEchoMismatch | presenceTimeout
  | presenceFailureTerminal | valueOutOfRange | frameMalformed | lineFramingFault | rxOverrun | engineInert
  | unknownCommand | inboundRejected
  deriving DecidableEq, Repr

/-- `err`: one sticky flag per error (R46). -/
structure ErrFlags where
  payloadTooLarge         : Bool
  checksumMismatch        : Bool
  bufferTooSmall          : Bool
  queueFull               : Bool
  lineEchoMismatch        : Bool
  presenceTimeout         : Bool
  presenceFailureTerminal : Bool
  valueOutOfRange         : Bool
  frameMalformed          : Bool
  lineFramingFault        : Bool
  rxOverrun               : Bool
  engineInert             : Bool
  unknownCommand          : Bool
  inboundRejected         : Bool
  deriving DecidableEq, Repr

/-- The names of the host operations, as `Log` records them (60_exceptions.md R361). -/
inductive HostOp where
  | setVolume | setBalance | setFader | setSubVolume | setMemory | powerOffMainUnit | requestSourceChange
  | checkPresence
  deriving DecidableEq, Repr

/-- The information an error records (60_exceptions.md R361, column "info recorded"). -/
inductive Info where
  | nothing
  | size (n : Nat)
  | sizes (declared capacity : Nat)
  | bytes (l : List Byte)
  | peer (p : Peer)
  | op (o : HostOp)
  | opValue (o : HostOp) (v : Byte)
  | char (ch : Character)
  deriving DecidableEq, Repr

/-- The fields a `SettingChanged` event may name (60_exceptions.md R380). -/
inductive SettingName where
  | masterVolume | subVolume | memoryBank | sourceName | usbConnected
  deriving DecidableEq, Repr

/-- The events of the collaborator interface (60_exceptions.md R380 to R384). -/
inductive OutEvent where
  | settingChanged (f : SettingName)
  | modeChanged (m : BusMode)
  | presenceChanged (p : Peer) (present : Bool)
  | escalation (p : Peer)
  | inputDisableReq
  | inputEnableReq
  | log (e : Err) (info : Info)
  | peerMessage (transmitter command : Byte) (args : List Byte)
  deriving DecidableEq, Repr

/-- Results of host operations (47_host_operations.md R335). -/
inductive HostResult where
  | ok | valueOutOfRange | queueFull | engineInert
  deriving DecidableEq, Repr

/-- A timed item (30_encoding.md R93): two cells, each a duration in ticks and a level. -/
structure TimedItem where
  d0 : Nat
  l0 : Level
  d1 : Nat
  l1 : Level
  deriving DecidableEq, Repr

/-- What an operation hands back to its caller. -/
inductive Value where
  | byte (b : Byte)
  | nat (n : Nat)
  | bool (b : Bool)
  | bytes (l : List Byte)
  | failed (e : Err)
  | levels (l : List Level)
  | items (l : List TimedItem)
  | chars (l : List Character)
  | batch (l : List QueuedFrame)
  | result (r : HostResult)
  | status (mode : BusMode) (mc dsp usb : PresenceOf)
  deriving DecidableEq, Repr

/-- The four settings a push sends (45_bus_arbiter.md R258). -/
inductive PushedSetting where
  | volume | subVolume | balance | fader
  deriving DecidableEq, Repr

/-- Where the payload of a frame still to be built comes from: fixed bytes, or a settings register that the step that
builds the frame reads (R258, 20_memory.md R76). -/
inductive Source where
  | fixed (payload : List Byte)
  | setting (f : PushedSetting)
  deriving DecidableEq, Repr

/-- Where a drained batch goes: to `txa_batch` (44_transmit_agent.md R223) or to the caller (43_transmit_queue.md R206). -/
inductive DrainTo where
  | batch | caller
  deriving DecidableEq, Repr

/-- A step, or an `enqueue` or drain in progress, that an agent still has to run (log 2). -/
inductive Item where
  /-- Build the frame, then enqueue it. -/
  | frame (dest : Peer) (src : Source) (awaits : Bool)
  /-- Inside `enqueue`: the attempts left, and whether this agent holds the lock (R203, R204). -/
  | enq (f : QueuedFrame) (left : Nat) (holding : Bool)
  /-- Inside `dequeue_all_ready` (R206). -/
  | drain (dest : DrainTo) (left : Nat) (holding : Bool)
  /-- The last line of `ping` (45_bus_arbiter.md R254). -/
  | markPing
  /-- The final step of boot completion (R260). -/
  | enterSteady
  /-- The final step of the detach transition (R266). -/
  | finishDetach
  /-- Hand the result of a host operation to its caller. -/
  | ret
  deriving DecidableEq, Repr

/-- What an agent has left to do; whether its last `enqueue` returned Ok, and whether all of them did. -/
structure Task where
  items  : List Item
  lastOk : Bool
  allOk  : Bool
  deriving DecidableEq, Repr

/-- A write of the collaborator's store: any settings register but `usb_connected` (60_exceptions.md R386). -/
inductive StoreWrite where
  | masterVolume (v : Byte)
  | subVolume (v : Byte)
  | balance (v : Byte)
  | fader (v : Byte)
  | memoryBank (v : Byte)
  | sourceName (v : List Byte)
  deriving DecidableEq, Repr

/-- One choice of the scheduler or the environment (10_state.md R52; log 1). -/
inductive Event where
  /-- A frame: the bytes are decoded and the command is run; bytes that are no command arrive on the line all the same. -/
  | wire (bytes : List Byte)
  /-- A peer drives cells, or the line idles: DEC hears them. -/
  | line (cells : List Level)
  /-- An operation is run, all its steps in a row. -/
  | call (i : Instr)
  /-- The first step of an operation is taken; the agent keeps the rest. -/
  | start (i : Instr)
  /-- The agent takes its next step. -/
  | agent (a : Agent)
  /-- The collaborator writes its store. -/
  | store (w : StoreWrite)
  deriving DecidableEq, Repr

/-- The state of the machine. INVENTORY.md lists each field with its rule. -/
structure State where
  lineOut         : Level
  rxf             : List Character
  decPos          : DecPos
  decShift        : BitVec 9
  frxState        : FrxState
  frxBuf          : Memory
  frxCount        : Nat
  frxLen          : Byte
  q               : List QueuedFrame
  lock            : Lock
  txaSuspended    : Bool
  txaPhase        : TxaPhase
  txaBatch        : List QueuedFrame
  txaCur          : Option QueuedFrame
  txaIdx          : Nat
  txaEidx         : Nat
  txaEchoBad      : Bool
  lstActive       : Bool
  arbState        : ArbState
  busMode         : BusMode
  presence        : Presence
  pingOutstanding : Bool
  set             : Settings
  err             : ErrFlags
  out             : List OutEvent
  waveform        : List Level
  returns         : List (Option Agent × Value)
  tasks           : List (Agent × Task)
  draws           : Nat
  faultIndices    : List Nat
  script          : List Event
  deriving DecidableEq, Repr

/-- Why the machine stops with a fault. -/
inductive Fault where
  /-- Raised by `frx_step` when it would store a byte at an index of `frx_buf` that does not exist, `RX_CAP` or above.
  Safe: 10_state.md R26 says it cannot happen, and no state that meets that rule's invariant reaches it. -/
  | frxBufIndex
  deriving DecidableEq, Repr

/-- Why a step has no meaning. -/
inductive Refusal where
  /-- Raised by an arm of `exec` for an instruction without a meaning; no arm does. Safe. -/
  | notModelled (mnemonic : String)
  /-- Raised by `frx_step` in `Complete` (42_frame_receiver.md R186, "A model may make `frx_step` in `Complete` a
  refusal"). Safe. -/
  | frxStepInComplete
  /-- Raised by `frx_take` when its precondition, `frx_state = Complete`, does not hold (R187). Safe. -/
  | frxTakeNotComplete
  /-- Raised by `unlock` when its precondition, `lock = Held(a)`, does not hold (43_transmit_queue.md R202). Safe. -/
  | unlockNotHeld
  /-- Raised by `step` for an event that stands for nothing the spec describes: an ill-formed instruction, or a store
  write that is not legal (70_reset_and_hazards.md R405). Safe. -/
  | illFormed
  deriving DecidableEq, Repr

/-- No error flag set. -/
def ErrFlags.clear : ErrFlags :=
  ⟨false, false, false, false, false, false, false, false, false, false, false, false, false, false⟩

/-- The machine right after reset (10_state.md R51). -/
def State.reset : State where
  lineOut         := true
  rxf             := []
  decPos          := .idle
  -- DESIGN CHOICE (log 5): the collected bits are hidden and not read before a start cell clears them.
  decShift        := 0
  frxState        := .awaitingAddress
  -- DESIGN CHOICE (log 4): R26 leaves the content unspecified.
  frxBuf          := []
  frxCount        := 0
  frxLen          := 0
  q               := []
  lock            := .free
  txaSuspended    := false
  txaPhase        := .idle
  txaBatch        := []
  txaCur          := none
  txaIdx          := 0
  txaEidx         := 0
  txaEchoBad      := false
  lstActive       := false
  arbState        := .booting
  busMode         := .busMaster
  presence        := ⟨⟨false, 0⟩, ⟨false, 0⟩, ⟨false, 0⟩⟩
  pingOutstanding := false
  -- DESIGN CHOICE (log 3): the collaborator supplies these (R37 to R41); `usbConnected` is the spec's (R42).
  set             := ⟨0, 0, 0, 0, 0, List.replicate 16 0, false⟩
  err             := ErrFlags.clear
  out             := []
  -- DESIGN CHOICE (logs 1, 2, 6, 7, 14): the model's own fields.
  waveform        := []
  returns         := []
  tasks           := []
  draws           := 0
  faultIndices    := []
  script          := []

end Sys2Proof.Machine
end

