-- ==== Sys2Proof/Machine/Line.lean ====
section
/-! DEFINITION. The 9-bit UART transceiver as functions on cells (41_line_transceiver.md R150 to R163). -/
namespace Sys2Proof.Machine

/-- `bit_ticks` (R150): `TICK_HZ / baud` rounded to nearest, halves up. -/
def ticksPerBit (c : Config) (rate : Nat) : Nat := (2 * c.tickHz + rate) / (2 * rate)

/-- `encode_char` (R151): start 0, eight data bits least significant first, marker, stop 1 (30_encoding.md R90). -/
def charCells (b : Byte) (m : Level) : List Level :=
  [false, b.getLsbD 0, b.getLsbD 1, b.getLsbD 2, b.getLsbD 3, b.getLsbD 4, b.getLsbD 5, b.getLsbD 6, b.getLsbD 7, m, true]

/-- The characters of a frame: marker 1 on byte 0 only (30_encoding.md R91). -/
def frameChars : List Byte → List Character
  | [] => []
  | b :: bs => ⟨b, true⟩ :: bs.map fun x => ⟨x, false⟩

/-- The cells of a sequence of characters, back to back (R92). -/
def charsCells : List Character → List Level
  | [] => []
  | ch :: chs => charCells ch.byte ch.marker ++ charsCells chs

/-- `encode_frame_cells` (R153). -/
def frameCells (bytes : List Byte) : List Level := charsCells (frameChars bytes)

/-- Cells packed two to a timed item; an odd tail gets the filler half `(0, 1)` (R154, 30_encoding.md R94). -/
def packCells (t : Nat) : List Level → List TimedItem
  | [] => []
  | [x] => [⟨t, x, 0, true⟩]
  | x :: y :: rest => ⟨t, x, t, y⟩ :: packCells t rest

/-- `encode_frame` (R154). -/
def frameItems (c : Config) (bytes : List Byte) : List TimedItem := packCells (ticksPerBit c baud) (frameCells bytes)

/-- What DEC reports at one cell. -/
inductive DecOut where
  | nothing
  | char (ch : Character)
  | fault
  /-- Lost after a framing fault: the characters delivered and the faults raised are a draw (R162). -/
  | drawn
  deriving DecidableEq, Repr

/-- One cell of the decoder (R160 to R162): the next position, the bits collected, what is reported. -/
def decCell : DecPos → BitVec 9 → Level → DecPos × BitVec 9 × DecOut
  | .idle, sh, true => (.idle, sh, .nothing)
  | .idle, _, false => (.inChar 1, 0, .nothing)
  | .inChar k, sh, l =>
    if k < 10 then
      (.inChar (k + 1), sh ||| ((BitVec.ofBool l).setWidth 9 <<< (k - 1)), .nothing)
    else if l then
      (.idle, sh, .char ⟨sh.setWidth 8, sh.getLsbD 8⟩)
    else
      (.faulted 0, sh, .fault)
  | .faulted n, sh, true => (if n + 1 < 11 then .faulted (n + 1) else .idle, sh, .nothing)
  | .faulted _, sh, false => (.lost 0, sh, .drawn)
  | .lost n, sh, true => (if n + 1 < 11 then .lost (n + 1) else .idle, sh, .drawn)
  | .lost _, sh, false => (.lost 0, sh, .drawn)

/-- DEC has raised a framing fault and the line has not idled eleven cells since (R162; log 7). -/
def DecPos.afterFault : DecPos → Bool
  | .idle | .inChar _ => false
  | .faulted _ | .lost _ => true

/-- The position DEC is left in by contention, as a draw gives it, for nothing says where DEC then stands (log 20): between
characters or in one, and where a framing fault was raised also one of the positions after a fault (R162). -/
def drawnPos (fault : Bool) (n : Nat) : DecPos :=
  let m := n % (if fault then 33 else 11)
  if m = 0 then .idle
  else if m ≤ 10 then .inChar m
  else if m ≤ 21 then .faulted (m - 11)
  else .lost (m - 22)

/-- What a run of the decoder over cells leaves and reports; of a framing fault its index. -/
structure DecRun where
  pos    : DecPos
  shift  : BitVec 9
  draws  : Nat
  chars  : List Character
  faults : List Nat
  deriving DecidableEq, Repr

/-- The decoder run over cells from where `r` stands, with `i` cells already taken: the characters and the framing faults,
in order; a character that is not complete stays in the position. The index of a fault is that of its start cell, ten cells
before its bad stop cell (R161). A fault takes a draw, which on the line gives its index (log 14), and what a lost decoder
delivers and raises is a draw (R162, log 7). -/
def decRun (c : Config) : Nat → DecRun → List Level → DecRun
  | _, r, [] => r
  | i, r, l :: ls =>
    let (p, sh, o) := decCell r.pos r.shift l
    match o with
    | .nothing => decRun c (i + 1) { r with pos := p, shift := sh } ls
    | .char ch => decRun c (i + 1) { r with pos := p, shift := sh, chars := r.chars ++ [ch] } ls
    | .fault =>
      decRun c (i + 1) { r with pos := p, shift := sh, draws := r.draws + 1,
                                faults := r.faults ++ [i - 10] } ls
    | .drawn =>
      decRun c (i + 1) { pos := p, shift := sh, draws := r.draws + 1, chars := r.chars ++ (c.draw r.draws).chars,
                         faults := r.faults ++ (c.draw r.draws).faults } ls

end Sys2Proof.Machine
end

