-- ==== Sys2Proof/Machine/Flags.lean ====
section
/-! DEFINITION. The error flags and the output trace: `emit` and `raise` (00_scope.md R9, 60_exceptions.md R360). -/
namespace Sys2Proof.Machine

/-- The flag of one error (60_exceptions.md R361). -/
def ErrFlags.get (f : ErrFlags) : Err → Bool
  | .payloadTooLarge => f.payloadTooLarge
  | .checksumMismatch => f.checksumMismatch
  | .bufferTooSmall => f.bufferTooSmall
  | .queueFull => f.queueFull
  | .lineEchoMismatch => f.lineEchoMismatch
  | .presenceTimeout => f.presenceTimeout
  | .presenceFailureTerminal => f.presenceFailureTerminal
  | .valueOutOfRange => f.valueOutOfRange
  | .frameMalformed => f.frameMalformed
  | .lineFramingFault => f.lineFramingFault
  | .rxOverrun => f.rxOverrun
  | .engineInert => f.engineInert
  | .unknownCommand => f.unknownCommand
  | .inboundRejected => f.inboundRejected

/-- Set one flag; no operation clears one (10_state.md R46). -/
def ErrFlags.mark (f : ErrFlags) : Err → ErrFlags
  | .payloadTooLarge => { f with payloadTooLarge := true }
  | .checksumMismatch => { f with checksumMismatch := true }
  | .bufferTooSmall => { f with bufferTooSmall := true }
  | .queueFull => { f with queueFull := true }
  | .lineEchoMismatch => { f with lineEchoMismatch := true }
  | .presenceTimeout => { f with presenceTimeout := true }
  | .presenceFailureTerminal => { f with presenceFailureTerminal := true }
  | .valueOutOfRange => { f with valueOutOfRange := true }
  | .frameMalformed => { f with frameMalformed := true }
  | .lineFramingFault => { f with lineFramingFault := true }
  | .rxOverrun => { f with rxOverrun := true }
  | .engineInert => { f with engineInert := true }
  | .unknownCommand => { f with unknownCommand := true }
  | .inboundRejected => { f with inboundRejected := true }

/-- `emit E` (R9): append to the output trace. -/
def State.emit (s : State) (e : OutEvent) : State := { s with out := s.out ++ [e] }

/-- `raise X(info)` (R9, R360): set the sticky flag and log; control goes on. The engine has no trap: this operation
stands where a processor would take an exception. -/
def State.raise (s : State) (e : Err) (info : Info) : State :=
  { s with err := s.err.mark e, out := s.out ++ [.log e info] }

/-- Hand a result to a caller; `none` is a caller the spec does not name. -/
def State.giveReturn (s : State) (who : Option Agent) (v : Value) : State :=
  { s with returns := s.returns ++ [(who, v)] }

end Sys2Proof.Machine
end

