-- ==== Sys2Proof/Machine/Operands.lean ====
section
/-! DEFINITION. The operand forms: bus addresses and peers, presence records, settings as payloads, inbound frames. -/
namespace Sys2Proof.Machine

/-- `addr(p)` (45_bus_arbiter.md R254). -/
def peerAddr : Peer → Byte
  | .mc => addrMC
  | .dsp => addrDSP
  | .usb => addrUSB

/-- The peer of a bus address, if it is one (20_memory.md R61). -/
def peerOf (a : Byte) : Option Peer :=
  if a = addrMC then some .mc
  else if a = addrDSP then some .dsp
  else if a = addrUSB then some .usb
  else none

/-- `presence[p]` (10_state.md R34). -/
def Presence.get (pr : Presence) : Peer → PresenceOf
  | .mc => pr.mc
  | .dsp => pr.dsp
  | .usb => pr.usb

/-- `presence[p] <- v`. -/
def Presence.put (pr : Presence) (v : PresenceOf) : Peer → Presence
  | .mc => { pr with mc := v }
  | .dsp => { pr with dsp := v }
  | .usb => { pr with usb := v }

/-- The two payload bytes that push a setting: command code and the register's value at that moment (R258). -/
def pushPayload (st : Settings) : PushedSetting → List Byte
  | .volume => [0x0A, st.masterVolume]
  | .subVolume => [0x0D, st.subVolume]
  | .balance => [0x0B, st.balance]
  | .fader => [0x0C, st.fader]

/-- The payload of a frame still to be built. -/
def Source.payload (st : Settings) : Source → List Byte
  | .fixed p => p
  | .setting f => pushPayload st f

/-- The frame the engine builds for a peer: transmitter 0x80, reserved 0x00 (20_memory.md R62, 30_encoding.md R98). -/
def engineFrame (dest : Peer) (payload : List Byte) : List Byte :=
  frameBytes (peerAddr dest) addrRN 0x00 payload

/-- A parsed inbound frame, as the routes match it (46_dispatcher.md R292): its bytes, receiver, transmitter, and the
payload after the command code. -/
structure Inbound where
  bytes       : List Byte
  receiver    : Byte
  transmitter : Byte
  args        : List Byte
  deriving DecidableEq, Repr

/-- Whether the frame goes from a transmitter to a receiver. -/
def Inbound.route (x : Inbound) (receiver transmitter : Byte) : Bool :=
  x.receiver == receiver && x.transmitter == transmitter

/-- The peer a frame is sent to, when its header is one the engine builds: transmitter 0x80 (20_memory.md R62), reserved
byte 0x00 (30_encoding.md R98), receiver one of the three peers (20_memory.md R61). -/
def sentTo (hd : Header) : Option Peer :=
  if hd.transmitter = addrRN ∧ hd.reserved = 0x00 then peerOf hd.receiver else none

/-- The legal values of the settings registers (10_state.md R37 to R41). -/
def Settings.legal (memBanks : Nat) (st : Settings) : Bool :=
  st.masterVolume ≤ volMax && st.subVolume ≤ subMax && st.balance ≤ balFadMax && st.fader ≤ balFadMax &&
    decide (st.memoryBank.toNat < memBanks) && st.sourceName.length == srcNameLen

/-- A store write with a legal value (70_reset_and_hazards.md R405, 60_exceptions.md R386). -/
def StoreWrite.legal (memBanks : Nat) : StoreWrite → Bool
  | .masterVolume v => v ≤ volMax
  | .subVolume v => v ≤ subMax
  | .balance v => v ≤ balFadMax
  | .fader v => v ≤ balFadMax
  | .memoryBank v => decide (v.toNat < memBanks)
  | .sourceName v => v.length == srcNameLen

/-- A write of one settings register by the collaborator (10_state.md R36). -/
def Settings.store (st : Settings) : StoreWrite → Settings
  | .masterVolume v => { st with masterVolume := v }
  | .subVolume v => { st with subVolume := v }
  | .balance v => { st with balance := v }
  | .fader v => { st with fader := v }
  | .memoryBank v => { st with memoryBank := v }
  | .sourceName v => { st with sourceName := v }

end Sys2Proof.Machine
end

