-- ==== Sys2Proof/Machine/Ops.lean ====
section
/-! DEFINITION. The named operations over the engine's storages: the receiver's buffer, the character FIFO, the Frame
Receiver, the queue and its lock, and how an operation of several steps is held and completed. -/
namespace Sys2Proof.Machine

/-! ### The buffer `frx_buf` (20_memory.md R60, R69) -/

/-- One byte of the buffer. -/
def Memory.read : Memory → Nat → Byte
  | [], _ => memBlank
  | (k, b) :: m, a => if k = a then b else Memory.read m a

/-- Write one byte; a write of the value an unlisted address reads as removes the entry. -/
def Memory.write : Memory → Nat → Byte → Memory
  | [], a, b => if b = memBlank then [] else [(a, b)]
  | (k, v) :: m, a, b =>
    if a < k then (if b = memBlank then (k, v) :: m else (a, b) :: (k, v) :: m)
    else if a = k then (if b = memBlank then m else (a, b) :: m)
    else (k, v) :: Memory.write m a b

/-- The canonical form: addresses strictly rising, no entry equal to an unlisted one. -/
def Memory.wf : Memory → Bool
  | [] => true
  | [(_, v)] => v != memBlank
  | (k, v) :: (k', v') :: m => v != memBlank && decide (k < k') && Memory.wf ((k', v') :: m)

/-- The first `n` bytes of the buffer. -/
def Memory.firstBytes (m : Memory) (n : Nat) : List Byte := (List.range n).map m.read

/-! ### Room in a bounded FIFO -/

/-- Whether a list has fewer than `n` elements. -/
def hasRoom {α : Type} : List α → Nat → Bool
  | _, 0 => false
  | [], _ + 1 => true
  | _ :: l, n + 1 => hasRoom l n

/-! ### The receive character FIFO -/

/-- `DEC.push` (41_line_transceiver.md R164): the newest character is dropped when `rxf` is full. -/
def pushChar (c : Config) (s : State) (ch : Character) : State :=
  if hasRoom s.rxf c.rxfDepth then { s with rxf := s.rxf ++ [ch] } else s.raise .rxOverrun (.char ch)

/-- Push characters in order. -/
def pushChars (c : Config) (s : State) (chs : List Character) : State := chs.foldl (pushChar c) s

/-! ### DEC hears cells (41_line_transceiver.md R161, R162, R164) -/

/-- `raise LineFramingFault(i)` (41_line_transceiver.md R161). `Log` has the information of the table of 60_exceptions.md
R361, which is none for this error (R384); the index is kept in the model's trace `faultIndices` (log 14). -/
def State.raiseFault (s : State) (i : Nat) : State :=
  { s.raise .lineFramingFault .nothing with faultIndices := s.faultIndices ++ [i] }

/-- Raise framing faults with these indices, in order. -/
def raiseFaults (is : List Nat) (s : State) : State := is.foldl State.raiseFault s

/-- DEC delivers a draw, faults first (20_memory.md R80, 41_line_transceiver.md R162; log 7). -/
def hearDraw (c : Config) (s : State) : State :=
  pushChars c (raiseFaults (c.draw s.draws).faults { s with draws := s.draws + 1 }) (c.draw s.draws).chars

/-- DEC hears one cell: what `decode_cells` makes of it is delivered at once, a character by `DEC.push` (R164). From where
the cells on the line are counted is not said, so the index of a fault is a draw (log 14). -/
def hearCell (c : Config) (s : State) (l : Level) : State :=
  let r := decCell s.decPos s.decShift l
  let s := { s with decPos := r.1, decShift := r.2.1 }
  match r.2.2 with
  | .nothing => s
  | .char ch => pushChar c s ch
  | .fault => ({ s with draws := s.draws + 1 } : State).raiseFault (c.draw s.draws).index
  | .drawn => hearDraw c s

/-- DEC hears cells (R164, R166), in every mode and state. -/
def hearCells (c : Config) (cells : List Level) (s : State) : State := cells.foldl (hearCell c) s

/-- DEC hears the engine and a peer at once: a draw, which gives the position and bits too (20_memory.md R80; log 20). DEC
stands after a framing fault only where the draw raises one, or where it did so before (41_line_transceiver.md R162). -/
def hearContended (c : Config) (s : State) : State :=
  let d := c.draw s.draws
  { hearDraw c s with decPos := drawnPos (s.decPos.afterFault || d.faults != []) d.pos, decShift := d.shift }

/-- DEC hears cells that a peer drives. While TXA is in `Sending` the engine drives too, which is contention
(60_exceptions.md R386, 20_memory.md R80, 70_reset_and_hazards.md R413). -/
def hearPeer (c : Config) (cells : List Level) (s : State) : State :=
  if s.txaPhase = .sending ∧ cells ≠ [] then hearContended c s else hearCells c cells s

/-! ### The Frame Receiver (42_frame_receiver.md) -/

/-- `frx_reset` (R188). -/
def State.resetFrx (s : State) : State := { s with frxCount := 0, frxState := .awaitingAddress }

/-- Store one byte at `frx_count` and count it. -/
def State.storeFrx (s : State) (b : Byte) : State :=
  { s with frxBuf := s.frxBuf.write s.frxCount b, frxCount := s.frxCount + 1 }

/-- `frx_step` (R181 to R186). -/
def stepFrx (c : Config) (b : Byte) (m : Level) (s : State) : Host.Outcome State Fault Refusal :=
  match s.frxState with
  | .awaitingAddress =>
    if m then .next { s with frxBuf := s.frxBuf.write 0 b, frxCount := 1, frxState := .awaitingLength } else .next s
  | .awaitingLength =>
    if c.rxCap ≤ s.frxCount then .fault .frxBufIndex
    else if s.frxCount + 1 = 4 then
      let s := { s.storeFrx b with frxLen := b }
      if b.toNat < 5 then .next (s.raise .frameMalformed (.size b.toNat)).resetFrx
      else if c.rxCap < b.toNat then .next (s.raise .bufferTooSmall (.sizes b.toNat c.rxCap)).resetFrx
      else .next { s with frxState := .awaitingPayload }
    else .next (s.storeFrx b)
  | .awaitingPayload =>
    if c.rxCap ≤ s.frxCount then .fault .frxBufIndex
    else if s.frxCount + 1 = s.frxLen.toNat then .next { s.storeFrx b with frxState := .complete }
    else .next (s.storeFrx b)
  | .complete => .refused .frxStepInComplete

/-- The frame `frx_take` returns (R187). -/
def State.takenFrame (s : State) : List Byte := s.frxBuf.firstBytes s.frxLen.toNat

/-- A result of `receive_frame`: a frame, or the error of an abort. -/
inductive RxResult where
  | frame (bytes : List Byte)
  | aborted (e : Err) (info : Info)
  deriving DecidableEq, Repr

/-- The errors a receiver's step has logged. -/
def abortsOf (out : List OutEvent) : List RxResult :=
  out.filterMap fun
    | .log e i => some (.aborted e i)
    | _ => none

/-- Feed characters to a receiver, `frx_take` whenever it is `Complete`; the frames and the aborts in order. -/
def receiveFrom (c : Config) : List Character → State → List RxResult
  | [], _ => []
  | ch :: chs, s =>
    match stepFrx c ch.byte ch.marker { s with out := [] } with
    | .next t =>
      abortsOf t.out ++
        if t.frxState = .complete then .frame t.takenFrame :: receiveFrom c chs t.resetFrx else receiveFrom c chs t
    | .fault _ | .refused _ => []

/-- `receive_frame` (R190), the receiver as a pure function, from `AwaitingAddress`. -/
def receiveFrames (c : Config) (chs : List Character) : List RxResult := receiveFrom c chs State.reset

/-! ### The codec's checks with their errors -/

/-- `validate` on the state: the error a verdict raises, if any (40_frame_codec.md R134). -/
def raiseVerdict (bytes : List Byte) (s : State) : State :=
  match verdict bytes with
  | .frame => s
  | .checksumMismatch => s.raise .checksumMismatch (.bytes bytes)
  | .frameMalformed => s.raise .frameMalformed (.size bytes.length)

/-! ### The queue and its lock (43_transmit_queue.md) -/

/-- Who begins an `enqueue`, a push or a ping of its own: HOST and ARB. LST enqueues only while it executes the detach
transition's push, whose steps are the rest of its `dispatch`, and TXA never (R200; 45_bus_arbiter.md R254, R271). -/
def mayEnqueue : Agent → Bool
  | .arb | .host _ => true
  | .txa | .lst => false

/-- `try_lock` (R201): the new state and whether the lock was acquired. -/
def takeLock (a : Agent) (s : State) : State × Bool :=
  match s.lock with
  | .free => ({ s with lock := .held a }, true)
  | .held _ => (s, false)

/-- Whether an uninterrupted `enqueue` finds the lock free and room in the queue (R203). -/
def State.accepts (c : Config) (s : State) : Bool := s.lock == .free && hasRoom s.q c.qDepth

/-- An `enqueue` in progress run to its end with no other agent in between (R203, R210). Every attempt then finds the
same lock and the same queue, so the first attempt that can be made decides. -/
def finishEnqueue (c : Config) (f : QueuedFrame) (left : Nat) (holding : Bool) (s : State) : State × Bool :=
  if holding then
    if hasRoom s.q c.qDepth then ({ s with q := s.q ++ [f], lock := .free }, true)
    else (({ s with lock := .free }).raise .queueFull (.bytes f.bytes), false)
  else
    match left with
    | 0 => (s.raise .queueFull (.bytes f.bytes), false)
    | _ + 1 => if s.accepts c then ({ s with q := s.q ++ [f] }, true) else (s.raise .queueFull (.bytes f.bytes), false)

/-- Where a drained batch goes. -/
def deliver (d : DrainTo) (batch : List QueuedFrame) (s : State) : State :=
  match d with
  | .batch => { s with txaBatch := batch }
  | .caller => s.giveReturn (some .txa) (.batch batch)

/-- A drain in progress run to its end with no other agent in between (R206, R207). -/
def finishDrain (d : DrainTo) (left : Nat) (holding : Bool) (s : State) : State :=
  if holding then deliver d s.q { s with q := [], lock := .free }
  else
    match left with
    | 0 => deliver d [] s
    | _ + 1 => if s.lock = .free then deliver d s.q { s with q := [] } else deliver d [] s

/-! ### Operations of several steps (45_bus_arbiter.md R271; log 2) -/

/-- The task of an agent. -/
def State.taskOf (s : State) (a : Agent) : Option Task := (s.tasks.find? fun e => e.1 == a).map (·.2)

/-- Whether an agent is inside an operation: "While an agent runs a handler it does nothing else" (R271). -/
def State.busy (s : State) (a : Agent) : Bool := (s.taskOf a).isSome

/-- Forget the task of an agent. -/
def State.clearTask (s : State) (a : Agent) : State := { s with tasks := s.tasks.filter fun e => e.1 != a }

/-- Give an agent the steps it has left; with none left it is free. -/
def State.setTask (s : State) (a : Agent) (t : Task) : State :=
  if t.items.isEmpty then s.clearTask a
  else { s with tasks := (a, t) :: s.tasks.filter fun e => e.1 != a }

/-- The first step of an operation: the state it leaves and the steps still to run. -/
structure Begun where
  state : State
  rest  : List Item

/-- An operation about to run: its agent, the outcome of its first step, and the state that is left when the agent is
inside an operation already: as it was, but for what DEC hears, which belongs to no busy agent (R166). -/
structure Opening where
  agent : Agent
  first : Host.Outcome Begun Fault Refusal
  held  : State

/-- An operation that is complete after its first step. -/
def State.done (s : State) : Begun := ⟨s, []⟩

/-- The result a host operation returns (47_host_operations.md R322, R323, R330). -/
def hostResult (allOk : Bool) : HostResult := if allOk then .ok else .queueFull

/-- Continue with a state, or stop as it stopped. -/
def andThen {σ τ : Type} (o : Host.Outcome σ Fault Refusal) (k : σ → Host.Outcome τ Fault Refusal) :
    Host.Outcome τ Fault Refusal :=
  match o with
  | .next s => k s
  | .fault r => .fault r
  | .refused r => .refused r

end Sys2Proof.Machine
end

