-- ==== Sys2Proof/Machine/Arbiter.lean ====
section
/-! DEFINITION. The Bus Arbiter (45_bus_arbiter.md): its event handlers and transitions, and the steps of the agents
that run its handlers. -/
namespace Sys2Proof.Machine

/-! ### Presence (R264) and the mode transitions (R262, R266) -/

/-- Write a peer's `present` flag and announce it when it changes (60_exceptions.md R381). -/
def setPresent (p : Peer) (v : Bool) (s : State) : State :=
  if (s.presence.get p).present = v then s
  else ({ s with presence := s.presence.put { s.presence.get p with present := v } p }).emit (.presenceChanged p v)

/-- Write a peer's failure counter. -/
def setFails (p : Peer) (n : BitVec 8) (s : State) : State :=
  { s with presence := s.presence.put { s.presence.get p with fails := n } p }

/-- `PresenceConfirm(p)` (R264); ignored in `ShuttingDown` (R257). -/
def presenceConfirm (p : Peer) (s : State) : State :=
  if s.arbState = .shuttingDown then s
  else
    let s := setPresent p true (setFails p 0 s)
    if p = .dsp then { s with pingOutstanding := false } else s

/-- The attach transition (R262), one indivisible step. -/
def attach (s : State) : State :=
  let s := presenceConfirm .usb s
  let s := ({ s with set := { s.set with usbConnected := true } }).emit (.settingChanged .usbConnected)
  let s := s.emit .inputDisableReq
  let s := { s with busMode := .usbPassthrough, arbState := .usbPassthrough, pingOutstanding := false, txaSuspended := true }
  let s := { s.resetFrx with lstActive := true }
  s.emit (.modeChanged .usbPassthrough)

/-- `UsbAttach` in every state (R262, R263). -/
def usbAttach (s : State) : State :=
  match s.arbState with
  | .booting => presenceConfirm .usb s
  | .steadyPolling => attach s
  | .usbPassthrough => presenceConfirm .usb s
  | .shuttingDown => s

/-- The final indivisible step of the detach transition (R266). -/
def detachFinal (s : State) : State :=
  let s := ({ s with set := { s.set with usbConnected := false } }).emit (.settingChanged .usbConnected)
  let s := s.emit .inputEnableReq
  let s := ({ s with presence := s.presence.put { s.presence.get .usb with present := false } .usb }).emit (.presenceChanged .usb false)
  let s := { s with busMode := .busMaster, arbState := .steadyPolling }
  let s := { ({ s with lstActive := false }).resetFrx with rxf := [] }
  let s := { s with txaSuspended := false }
  s.emit (.modeChanged .busMaster)

/-- The eight frames of a settings push (R258): volume, sub-volume, balance, fader to MC, then the same to DSP. -/
def pushItems : List Item :=
  [.frame .mc (.setting .volume) false, .frame .mc (.setting .subVolume) false,
   .frame .mc (.setting .balance) false, .frame .mc (.setting .fader) false,
   .frame .dsp (.setting .volume) false, .frame .dsp (.setting .subVolume) false,
   .frame .dsp (.setting .balance) false, .frame .dsp (.setting .fader) false]

/-- `ping(p)` (R254): CheckPresent awaiting a response; only ARB's ping of the DSP opens a polling window. -/
def pingItems (a : Agent) (p : Peer) : List Item :=
  if a = .arb ∧ p = .dsp then [.frame p (.fixed [0x11]) true, .markPing] else [.frame p (.fixed [0x11]) true]

/-- `UsbDetach` (R266, R267): in `UsbPassthrough` the push and then the final step; ignored elsewhere. -/
def usbDetach (s : State) : Begun :=
  match s.arbState with
  | .usbPassthrough => ⟨s, pushItems ++ [.finishDetach]⟩
  | .booting | .steadyPolling | .shuttingDown => s.done

/-- The indivisible part of the shutdown transition (R256): the terminal condition of 60_exceptions.md R373, the one
place where an error changes the flow of control. -/
def shutdown (s : State) : State :=
  { (s.raise .presenceFailureTerminal (.peer .dsp)).emit (.escalation .dsp) with arbState := .shuttingDown }

/-- The power-off frame of the shutdown transition (R256). -/
def powerOffItems : List Item := [.frame .mc (.fixed [0x6E]) false]

/-- The count of a failed DSP ping (R255): error, counter, then `present`. -/
def countFailure (s : State) : State :=
  let s := ({ s with pingOutstanding := false }).raise .presenceTimeout (.peer .dsp)
  setPresent .dsp false (setFails .dsp ((s.presence.get .dsp).fails + 1) s)

/-- The first step of the tick handler in each state (R253, R255, R269). -/
def tickFirst (s : State) : Begun :=
  match s.arbState with
  | .booting => if s.presence.dsp.present then s.done else ⟨s, pingItems .arb .dsp⟩
  | .steadyPolling =>
    if s.pingOutstanding then
      let s := countFailure s
      if s.presence.dsp.fails = pingFailMax then ⟨shutdown s, powerOffItems⟩
      else ⟨s, pingItems .arb .usb ++ pingItems .arb .dsp⟩
    else ⟨s, pingItems .arb .usb ++ pingItems .arb .dsp⟩
  | .usbPassthrough | .shuttingDown => s.done

/-- The last line of `ping` (R254): the polling window opens, whatever came between the ping and this line (log 16); in
`ShuttingDown` the field is not written again (R257). -/
def openWindow (s : State) : State := if s.arbState = .shuttingDown then s else { s with pingOutstanding := true }

/-! ### The steps an agent has left -/

/-- One step of an agent inside an operation (43_transmit_queue.md R203, R204, R206): `try_lock`; the access with its
`unlock`; giving up after the last attempt; a step of its own for every other item. The answer is the state and the
task that is left. -/
def itemStep (c : Config) (a : Agent) (t : Task) (s : State) : State × Task :=
  match t.items with
  | [] => (s, t)
  | .frame d src w :: rest =>
    (s, { t with items := .enq ⟨engineFrame d (src.payload s.set), w⟩ c.enqRetryMax false :: rest })
  | .enq f left true :: rest =>
    if hasRoom s.q c.qDepth then
      ({ s with q := s.q ++ [f], lock := .free }, { t with items := rest, lastOk := true })
    else ({ s with lock := .free }, { t with items := .enq f (left - 1) false :: rest })
  | .enq f 0 false :: rest =>
    (s.raise .queueFull (.bytes f.bytes), { items := rest, lastOk := false, allOk := false })
  | .enq f (left + 1) false :: rest =>
    if (takeLock a s).2 then ((takeLock a s).1, { t with items := .enq f (left + 1) true :: rest })
    else (s, { t with items := .enq f left false :: rest })
  | .drain d _ true :: rest => (deliver d s.q { s with q := [], lock := .free }, { t with items := rest })
  | .drain d 0 false :: rest => (deliver d [] s, { t with items := rest })
  | .drain d (left + 1) false :: rest =>
    if (takeLock a s).2 then ((takeLock a s).1, { t with items := .drain d (left + 1) true :: rest })
    else (s, { t with items := .drain d left false :: rest })
  | .markPing :: rest => (if t.lastOk then openWindow s else s, { t with items := rest })
  | .enterSteady :: rest => ({ s with arbState := .steadyPolling }, { t with items := rest })
  | .finishDetach :: rest => (detachFinal s, { t with items := rest })
  | .ret :: rest => (s.giveReturn (some a) (.result (hostResult t.allOk)), { t with items := rest })

/-- An agent takes its next step; an agent that has none waits. -/
def agentStep (c : Config) (a : Agent) (s : State) : State :=
  match s.taskOf a with
  | none => s
  | some t => (itemStep c a t s).1.setTask a (itemStep c a t s).2

/-- The steps an agent has left, run to their end with no other agent in between. -/
def runItems (c : Config) (a : Agent) : List Item → Bool → Bool → State → State
  | [], _, _, s => s
  | .frame d src w :: rest, _, all, s =>
    let r := finishEnqueue c ⟨engineFrame d (src.payload s.set), w⟩ c.enqRetryMax false s
    runItems c a rest r.2 (all && r.2) r.1
  | .enq f left holding :: rest, _, all, s =>
    let r := finishEnqueue c f left holding s
    runItems c a rest r.2 (all && r.2) r.1
  | .drain d left holding :: rest, last, all, s => runItems c a rest last all (finishDrain d left holding s)
  | .markPing :: rest, last, all, s => runItems c a rest last all (if last then openWindow s else s)
  | .enterSteady :: rest, last, all, s => runItems c a rest last all { s with arbState := .steadyPolling }
  | .finishDetach :: rest, last, all, s => runItems c a rest last all (detachFinal s)
  | .ret :: rest, last, all, s => runItems c a rest last all (s.giveReturn (some a) (.result (hostResult all)))

/-- An operation run whole: its first step and then all the others, no other agent in between. An agent inside an
operation does nothing else (R271; log 10). -/
def Opening.whole (o : Opening) (c : Config) (s : State) : Host.Outcome State Fault Refusal :=
  if s.busy o.agent then .next o.held
  else andThen o.first fun b => .next (runItems c o.agent b.rest true true b.state)

/-- The first step of an operation; the agent keeps the others. -/
def Opening.begin (o : Opening) (s : State) : Host.Outcome State Fault Refusal :=
  if s.busy o.agent then .next o.held
  else andThen o.first fun b => .next (if b.rest.isEmpty then b.state else b.state.setTask o.agent ⟨b.rest, true, true⟩)

/-! ### Meanings -/

/-- The agent that owns `rxf` and so dispatches frames (44_transmit_agent.md R222). -/
def State.owner (s : State) : Agent :=
  match s.busMode with
  | .busMaster => .txa
  | .usbPassthrough => .lst

/-- Whether that agent parses what it pops: TXA in its response wait only, LST while it is active (44_transmit_agent.md
R222, R231; 46_dispatcher.md R290). -/
def State.parses (s : State) : Bool :=
  match s.busMode with
  | .busMaster => s.txaPhase == .awaitResponse
  | .usbPassthrough => s.lstActive

/-- `PollTick` (R252): a tick that occurs while a handler runs is lost. -/
def openPollTick (s : State) : Opening := ⟨.arb, .next (tickFirst s), s⟩
def execPollTick (s : State) : Host.Outcome State Fault Refusal := (openPollTick s).whole chip s

/-- Boot completion (R260): enabled in `Booting` when the DSP is present. -/
def openBootCompletion (s : State) : Opening :=
  ⟨.arb, .next (if s.arbState = .booting ∧ s.presence.dsp.present then ⟨s, pushItems ++ [.enterSteady]⟩ else s.done), s⟩
def execArbBootCompletion (s : State) : Host.Outcome State Fault Refusal := (openBootCompletion s).whole chip s

/-- `ping(p)` by ARB or by a caller of `check_presence` (R254). Begun by name it queues in `ShuttingDown` too (DESIGN CHOICE,
log 23). -/
def openPing (a : Agent) (p : Peer) (s : State) : Opening :=
  ⟨a, .next (if mayEnqueue a then ⟨s, pingItems a p⟩ else s.done), s⟩
def execPing (a : Agent) (p : Peer) (s : State) : Host.Outcome State Fault Refusal := (openPing a p s).whole chip s

/-- `push_settings()` (R258) called by a producer; LST's push is the rest of its detach handler (`usbDetach`, R266).
Begun by name it queues in `ShuttingDown` too (DESIGN CHOICE, log 23). -/
def openPushSettings (a : Agent) (s : State) : Opening :=
  ⟨a, .next (if mayEnqueue a then ⟨s, pushItems⟩ else s.done), s⟩
def execPushSettings (a : Agent) (s : State) : Host.Outcome State Fault Refusal := (openPushSettings a s).whole chip s

end Sys2Proof.Machine
end

