-- ==== Sys2Proof/Machine/Dispatcher.lean ====
section
/-! DEFINITION. The Message Dispatcher (46_dispatcher.md R292 to R312): one route per wire command, and `dispatch`. -/
namespace Sys2Proof.Machine

/-- Discard: unknown command or no route (R310). -/
def discard (x : Inbound) (s : State) : State := s.raise .unknownCommand (.bytes x.bytes)

/-- Bad payload on a known route (R311). -/
def rejectInbound (x : Inbound) (s : State) : State := s.raise .inboundRejected (.bytes x.bytes)

/-- InputSourceName from the DSP Processor (R296); bytes beyond the sixteenth are ignored. -/
def recvInputSourceName (x : Inbound) (s : State) : State :=
  if x.route addrRN addrDSP then
    if x.args.length < srcNameLen then rejectInbound x s
    else ({ s with set := { s.set with sourceName := x.args.take srcNameLen } }).emit (.settingChanged .sourceName)
  else discard x s

/-- MasterVolume from the USB Host to the Master Controller, sniffed (R300). -/
def recvMasterVolume (x : Inbound) (s : State) : State :=
  if x.route addrMC addrUSB then
    match x.args with
    | v :: _ =>
      if volMax < v then rejectInbound x s
      else ({ s with set := { s.set with masterVolume := v } }).emit (.settingChanged .masterVolume)
    | [] => rejectInbound x s
  else discard x s

/-- SubVolume from the USB Host to the Master Controller, sniffed (R301). -/
def recvSubVolume (x : Inbound) (s : State) : State :=
  if x.route addrMC addrUSB then
    match x.args with
    | v :: _ =>
      if subMax < v then rejectInbound x s
      else ({ s with set := { s.set with subVolume := v } }).emit (.settingChanged .subVolume)
    | [] => rejectInbound x s
  else discard x s

/-- ChangeMemory from the USB Host to the Master Controller, sniffed; the wire value is 1-based (R302). -/
def recvChangeMemory (c : Config) (x : Inbound) (s : State) : State :=
  if x.route addrMC addrUSB then
    match x.args with
    | v :: _ =>
      if v.toNat < 1 then rejectInbound x s
      else if c.memBanks < v.toNat then rejectInbound x s
      else ({ s with set := { s.set with memoryBank := v - 1 } }).emit (.settingChanged .memoryBank)
    | [] => rejectInbound x s
  else discard x s

/-- IsPresent from the Master Controller, the DSP Processor or the USB Host (R293, R294, R295). -/
def recvIsPresent (x : Inbound) (s : State) : State :=
  if x.route addrRN addrMC then presenceConfirm .mc s
  else if x.route addrRN addrDSP then presenceConfirm .dsp s
  else if x.route addrRN addrUSB then usbAttach s
  else discard x s

/-- IsDisconnected from the USB Host (R297). -/
def recvIsDisconnected (x : Inbound) (s : State) : Begun :=
  if x.route addrRN addrUSB then usbDetach s else (discard x s).done

/-- FirmwareVersion from the USB Host (R298). -/
def recvFirmwareVersion (x : Inbound) (s : State) : State :=
  if x.route addrRN addrUSB then s.emit (.peerMessage addrUSB 0x14 x.args) else discard x s

/-- UsbConnected from the USB Host (R299): a message, no mode transition. -/
def recvUsbConnected (x : Inbound) (s : State) : State :=
  if x.route addrRN addrUSB then s.emit (.peerMessage addrUSB 0x13 x.args) else discard x s

/-- The route of a command code; Balance, Fader, ChangeSource, CheckPresent, GetCurrentSourceName and PowerOff have
none (R303), nor has any code outside the fourteen (R310). -/
def routeCommand (c : Config) (code : Byte) (x : Inbound) (s : State) : Begun :=
  match code.toNat with
  | 0x09 => (recvInputSourceName x s).done
  | 0x0A => (recvMasterVolume x s).done
  | 0x0D => (recvSubVolume x s).done
  | 0x0F => (recvChangeMemory c x s).done
  | 0x12 => (recvIsPresent x s).done
  | 0x13 => (recvUsbConnected x s).done
  | 0x14 => (recvFirmwareVersion x s).done
  | 0x35 => recvIsDisconnected x s
  | _ => (discard x s).done

/-- `dispatch(f)` (R292): an empty payload has no command and is discarded. -/
def dispatchFrame (c : Config) (f : List Byte) (s : State) : Begun :=
  match framePayload f with
  | [] => (discard ⟨f, frameReceiver f, frameTransmitter f, []⟩ s).done
  | code :: args => routeCommand c code ⟨f, frameReceiver f, frameTransmitter f, args⟩ s

/-- A frame that a consumer has taken from the receiver: validated, and dispatched when it is a frame
(44_transmit_agent.md R232, R233; 46_dispatcher.md R290, R291). -/
def receiveFrame (c : Config) (bytes : List Byte) (s : State) : Begun :=
  match verdict bytes with
  | .frame => dispatchFrame c bytes s
  | .checksumMismatch | .frameMalformed => (raiseVerdict bytes s).done

/-- `dispatch` is executed by the agent that received the frame (R292), the owner of `rxf`, and so only where that agent
parses: TXA in its response wait, or LST (44_transmit_agent.md R222, 45_bus_arbiter.md R261; log 10). Called by name,
outside `TXA.resp_char` and an arrival, it ends no response wait (DESIGN CHOICE, log 24). -/
def openDispatch (c : Config) (f : List Byte) (s : State) : Opening :=
  ⟨s.owner, .next (if s.parses then dispatchFrame c f s else s.done), s⟩
def execDispatch (f : List Byte) (s : State) : Host.Outcome State Fault Refusal := (openDispatch chip f s).whole chip s

end Sys2Proof.Machine
end

