-- ==== Sys2Proof/Machine/Txa.lean ====
section
/-! DEFINITION. The transmit agent's steps (44_transmit_agent.md R220 to R238) and the listener's (46_dispatcher.md R290).
A step that is not enabled leaves the state as it is: the agent is held or waits (R224; log 10). -/
namespace Sys2Proof.Machine

/-- A step of TXA that is one indivisible step; inside a drain TXA does nothing else. -/
def txaStep (f : State → State) (s : State) : Host.Outcome State Fault Refusal :=
  if s.busy .txa then .next s else .next (f s)

/-- `finish` (R230). -/
def finishEntry (s : State) : State := { s with txaCur := none, txaPhase := .idle }

/-- `echo_done` (R229). -/
def echoDone (cur : QueuedFrame) (s : State) : State :=
  let s := if s.txaEchoBad then s.raise .lineEchoMismatch (.bytes cur.bytes) else s
  if cur.awaits then { s with txaPhase := .awaitResponse } else finishEntry s

/-- Step `TXA.drain` (R223). -/
def openTxaDrain (c : Config) (s : State) : Opening :=
  ⟨.txa, .next (if s.txaPhase = .idle ∧ s.txaBatch = [] ∧ s.txaSuspended = false then
      ⟨s, [.drain .batch c.deqRetryMax false]⟩ else s.done), s⟩
def execTxaDrain (s : State) : Host.Outcome State Fault Refusal := (openTxaDrain chip s).whole chip s

/-- Step `TXA.start` (R225): the next entry, `rxf` flushed, the receiver reset. -/
def txaStart (s : State) : State :=
  if s.txaPhase = .idle ∧ s.txaSuspended = false then
    match s.txaBatch with
    | [] => s
    | e :: rest =>
      { ({ s with txaBatch := rest, txaCur := some e, rxf := [] }).resetFrx with
        txaIdx := 0, txaEidx := 0, txaEchoBad := false, txaPhase := .sending }
  else s
def execTxaStart (s : State) : Host.Outcome State Fault Refusal := txaStep txaStart s

/-- What DEC makes of the eleven cells of a character of the engine. Under contention: a draw (20_memory.md R80).
Otherwise the character, exactly (R226), but for a DEC that is lost after a framing fault: it hears these cells as any
others, so that the echo may be lost (R228, 41_line_transceiver.md R162). The rules say nothing of DEC's position
here; this model's choice (DESIGN CHOICE, log 20): after contention a drawn position, one after a framing fault only if
one was raised; a character DEC is inside is given up, so that DEC stands between characters after the echo; after a
framing fault DEC hears them as any others. -/
def hearOwn (c : Config) (contended : Bool) (ch : Character) (s : State) : State :=
  if contended then hearContended c s
  else
    hearCells c (charCells ch.byte ch.marker) (if s.decPos.afterFault then s else { s with decPos := .idle })

/-- Step `TXA.send_char` (R226): eleven cells on the line, then the line is 1 again; what DEC hears goes to `rxf`. What
the cells do to DEC's position is the model's choice (DESIGN CHOICE, log 20). -/
def txaSendChar (c : Config) (contended : Bool) (s : State) : State :=
  if s.txaPhase = .sending then
    match s.txaCur with
    | none => s
    | some cur =>
      match cur.bytes[s.txaIdx]? with
      | none => s
      | some b =>
        let ch : Character := ⟨b, s.txaIdx == 0⟩
        let s := hearOwn c contended ch
          { s with lineOut := true, waveform := s.waveform ++ charCells ch.byte ch.marker }
        { s with txaIdx := s.txaIdx + 1,
                  txaPhase := if s.txaIdx + 1 = cur.bytes.length then .echo else .sending }
  else s
def execTxaSendChar (contended : Bool) (s : State) : Host.Outcome State Fault Refusal :=
  txaStep (txaSendChar chip contended) s

/-- Step `TXA.echo_char` (R227): bytes are compared, the marker is not. TXA pops only while it owns `rxf` (R222). -/
def txaEchoChar (s : State) : State :=
  if (s.txaPhase = .sending ∨ s.txaPhase = .echo) ∧ s.txaEidx < s.txaIdx ∧ s.busMode = .busMaster then
    match s.txaCur, s.rxf with
    | some cur, ch :: rest =>
      let s := { s with rxf := rest, txaEidx := s.txaEidx + 1,
                        txaEchoBad := s.txaEchoBad || cur.bytes[s.txaEidx]? != some ch.byte }
      if s.txaPhase = .echo ∧ s.txaEidx = cur.bytes.length then echoDone cur s else s
    | _, _ => s
  else s
def execTxaEchoChar (s : State) : Host.Outcome State Fault Refusal := txaStep txaEchoChar s

/-- Step `TXA.echo_timeout` (R228). -/
def txaEchoTimeout (s : State) : State :=
  if s.txaPhase = .echo ∧ s.rxf = [] then
    match s.txaCur with
    | some cur => echoDone cur { s with txaEchoBad := true }
    | none => s
  else s
def execTxaEchoTimeout (s : State) : Host.Outcome State Fault Refusal := txaStep txaEchoTimeout s

/-- The completed frame is taken and received, and then `k` ends the consumer's own step (R232). -/
def takeFrame (c : Config) (k : State → State) (s : State) : Begun :=
  let b := receiveFrame c s.takenFrame s.resetFrx
  ⟨k b.state, b.rest⟩

/-- A consumer pops one character, feeds the receiver and goes on with `k`; with no character in `rxf` it waits. -/
def popChar (c : Config) (s : State) (wait : Host.Outcome Begun Fault Refusal)
    (k : State → Host.Outcome Begun Fault Refusal) : Host.Outcome Begun Fault Refusal :=
  match s.rxf with
  | [] => wait
  | ch :: rest => andThen (stepFrx c ch.byte ch.marker { s with rxf := rest }) k

/-- The step of a consumer: a pop; a completed frame is taken and received in the same step
(R231, R232; 46_dispatcher.md R290). -/
def consumeChar (c : Config) (k : State → State) (s : State) : Host.Outcome Begun Fault Refusal :=
  popChar c s (.next s.done) fun s => .next (if s.frxState = .complete then takeFrame c k s else s.done)

/-- Step `TXA.resp_char` (R231 to R233, R235): the first complete frame ends the wait. -/
def openTxaRespChar (c : Config) (s : State) : Opening :=
  ⟨.txa, if s.txaPhase = .awaitResponse ∧ s.busMode = .busMaster then consumeChar c finishEntry s else .next s.done, s⟩
def execTxaRespChar (s : State) : Host.Outcome State Fault Refusal := (openTxaRespChar chip s).whole chip s

/-- Step `TXA.resp_timeout` (R234): always enabled in `AwaitResponse`, also where an attach dispatched by name has left TXA
in it in UsbPassthrough (DESIGN CHOICE, log 24). -/
def txaRespTimeout (s : State) : State := if s.txaPhase = .awaitResponse then finishEntry s.resetFrx else s
def execTxaRespTimeout (s : State) : Host.Outcome State Fault Refusal := txaStep txaRespTimeout s

/-- Step `LST.char` (46_dispatcher.md R290, R291). -/
def openLstChar (c : Config) (s : State) : Opening :=
  ⟨.lst, if s.lstActive then consumeChar c id s else .next s.done, s⟩
def execLstChar (s : State) : Host.Outcome State Fault Refusal := (openLstChar chip s).whole chip s

end Sys2Proof.Machine
end

