-- ==== Sys2Proof/Machine/Arrival.lean ====
section
/-! DEFINITION. How a peer's frame reaches the engine: its cells on the line, DEC, `rxf`, the Frame Receiver, and the
agent that owns `rxf` (00_scope.md R3, 44_transmit_agent.md R222; log 9). -/
namespace Sys2Proof.Machine

/-- How a consumer's step ends when a frame is complete: TXA ends the entry (44_transmit_agent.md R232, R235), LST goes
on listening (46_dispatcher.md R290). -/
def afterFrame : BusMode → State → State
  | .busMaster => finishEntry
  | .usbPassthrough => id

/-- Characters arrive and the owner of `rxf` keeps pace: after each of them it pops one and feeds the receiver. The first
frame that completes is taken and received; the characters after it stay in `rxf`. -/
def arriveChars (c : Config) (m : BusMode) : List Character → State → Host.Outcome Begun Fault Refusal
  | [], s => .next s.done
  | ch :: chs, s =>
    let s := hearPeer c (charCells ch.byte ch.marker) s
    popChar c s (arriveChars c m chs s) fun s =>
      if s.frxState = .complete then
        let b := takeFrame c (afterFrame m) s
        .next ⟨hearPeer c (charsCells chs) b.state, b.rest⟩
      else arriveChars c m chs s

/-- A frame arrives. Where the owner of `rxf` parses, its characters go through the receiver as they come; otherwise, or
while that agent is inside an operation, they stay in `rxf` (44_transmit_agent.md R222). While the engine sends, a draw
arrives in their place (20_memory.md R80). -/
def openArrival (c : Config) (bytes : List Byte) (s : State) : Opening :=
  let heard := hearPeer c (frameCells bytes) s
  ⟨s.owner, if s.parses then arriveChars c s.busMode (frameChars bytes) s else .next heard.done, heard⟩

end Sys2Proof.Machine
end

