-- ==== Sys2Proof/Machine/HostOps.lean ====
section
/-! DEFINITION. The command port (47_host_operations.md R320 to R335). -/
namespace Sys2Proof.Machine

/-- The common beginning of the operations, checks in the order of 60_exceptions.md R372: `EngineInert` (R320), then
`ValueOutOfRange` (R321); what passes both goes on to its frames and returns their result (R323). -/
def hostFirst (h : Nat) (op : HostOp) (legal : Bool) (info : Info) (items : List Item) (s : State) : Begun :=
  if s.arbState = .shuttingDown then
    ((s.raise .engineInert (.op op)).giveReturn (some (.host h)) (.result .engineInert)).done
  else if legal then ⟨s, items ++ [.ret]⟩
  else ((s.raise .valueOutOfRange info).giveReturn (some (.host h)) (.result .valueOutOfRange)).done

/-- A host operation called by HOST(h). -/
def hostCall (h : Nat) (op : HostOp) (legal : Bool) (info : Info) (items : List Item) (s : State) : Opening :=
  ⟨.host h, .next (hostFirst h op legal info items s), s⟩

/-- `send_value(cmd, v)` (R322): one frame per address of `SET_DESTS`, none awaiting a response. -/
def sendValueItems (c : Config) (cmd v : Byte) : List Item := c.setDests.map fun d => .frame d (.fixed [cmd, v]) false

/-- `set_volume(v)` (R324). -/
def openSetVolume (c : Config) (h : Nat) (v : Byte) (s : State) : Opening :=
  hostCall h .setVolume (v ≤ volMax) (.opValue .setVolume v) (sendValueItems c 0x0A v) s
def execSetVolume (h : Nat) (v : Byte) (s : State) : Host.Outcome State Fault Refusal :=
  (openSetVolume chip h v s).whole chip s

/-- `set_balance(v)` (R325). -/
def openSetBalance (c : Config) (h : Nat) (v : Byte) (s : State) : Opening :=
  hostCall h .setBalance (v ≤ balFadMax) (.opValue .setBalance v) (sendValueItems c 0x0B v) s
def execSetBalance (h : Nat) (v : Byte) (s : State) : Host.Outcome State Fault Refusal :=
  (openSetBalance chip h v s).whole chip s

/-- `set_fader(v)` (R326). -/
def openSetFader (c : Config) (h : Nat) (v : Byte) (s : State) : Opening :=
  hostCall h .setFader (v ≤ balFadMax) (.opValue .setFader v) (sendValueItems c 0x0C v) s
def execSetFader (h : Nat) (v : Byte) (s : State) : Host.Outcome State Fault Refusal :=
  (openSetFader chip h v s).whole chip s

/-- `set_sub_volume(v)` (R327). -/
def openSetSubVolume (c : Config) (h : Nat) (v : Byte) (s : State) : Opening :=
  hostCall h .setSubVolume (v ≤ subMax) (.opValue .setSubVolume v) (sendValueItems c 0x0D v) s
def execSetSubVolume (h : Nat) (v : Byte) (s : State) : Host.Outcome State Fault Refusal :=
  (openSetSubVolume chip h v s).whole chip s

/-- `set_memory(bank)` (R328): the byte sent is `bank + 1`. -/
def openSetMemory (c : Config) (h : Nat) (bank : Byte) (s : State) : Opening :=
  hostCall h .setMemory (decide (bank.toNat < c.memBanks)) (.opValue .setMemory bank) (sendValueItems c 0x0F (bank + 1)) s
def execSetMemory (h : Nat) (bank : Byte) (s : State) : Host.Outcome State Fault Refusal :=
  (openSetMemory chip h bank s).whole chip s

/-- `power_off_main_unit()` (R329): to the Master Controller only; no arbiter state changes. -/
def openPowerOffMainUnit (h : Nat) (s : State) : Opening := hostCall h .powerOffMainUnit true .nothing powerOffItems s
def execPowerOffMainUnit (h : Nat) (s : State) : Host.Outcome State Fault Refusal :=
  (openPowerOffMainUnit h s).whole chip s

/-- `request_source_change()` (R330): ChangeSource awaiting a response, then the settings push. -/
def sourceChangeItems (dest : Peer) : List Item := .frame dest (.fixed [0x10]) true :: pushItems
def openRequestSourceChange (c : Config) (h : Nat) (s : State) : Opening :=
  hostCall h .requestSourceChange true .nothing (sourceChangeItems c.srcChangeDest) s
def execRequestSourceChange (h : Nat) (s : State) : Host.Outcome State Fault Refusal :=
  (openRequestSourceChange chip h s).whole chip s

/-- The ping of `check_presence`, when the address is a peer's (R331). -/
def checkPresenceItems (h : Nat) (address : Byte) : List Item :=
  match peerOf address with
  | some p => pingItems (.host h) p
  | none => []

/-- `check_presence(address)` (R331). -/
def openCheckPresence (h : Nat) (address : Byte) (s : State) : Opening :=
  hostCall h .checkPresence (peerOf address).isSome (.opValue .checkPresence address) (checkPresenceItems h address) s
def execCheckPresence (h : Nat) (address : Byte) (s : State) : Host.Outcome State Fault Refusal :=
  (openCheckPresence h address s).whole chip s

/-- `read_status()` (R332): one step, allowed in every state, no effect but its result. -/
def execReadStatus (h : Nat) (s : State) : Host.Outcome State Fault Refusal :=
  .next (s.giveReturn (some (.host h)) (.status s.busMode s.presence.mc s.presence.dsp s.presence.usb))

end Sys2Proof.Machine
end

