-- ==== Sys2Proof/Machine/Frames.lean ====
section
/-! DEFINITION. The fourteen wire commands (30_encoding.md R100). A frame that the engine itself builds is sent: HOST(0)
enqueues it, with the checks of the command port and the response flag of R103 (log 9). Every other frame is a peer's and
arrives: it goes over the line, and where the engine parses it, it is dispatched on its route (46_dispatcher.md). -/
namespace Sys2Proof.Machine

/-- The frame of a wire command arrives. -/
def received (c : Config) (hd : Header) (code : Byte) (args : List Byte) (s : State) : Opening :=
  openArrival c (commandFrame hd code args) s

/-- Whether the engine sends settings to a peer: both get them in every settings push (45_bus_arbiter.md R258), the USB
Host never (20_memory.md R61). -/
def getsSettings : Peer → Bool
  | .mc | .dsp => true
  | .usb => false

/-- One value byte to one peer, as the `set_*` operations send it (R322). -/
def sendOne (op : HostOp) (p : Peer) (cmd v : Byte) (legal : Bool) (s : State) : Opening :=
  hostCall 0 op legal (.opValue op v) [.frame p (.fixed [cmd, v]) false] s

/-- InputSourceName is received only (R101); its route is `recvInputSourceName` (R296). -/
def openInputSourceName (c : Config) (hd : Header) (args : List Byte) (s : State) : Opening :=
  received c hd 0x09 args s
def execInputSourceName (hd : Header) (args : List Byte) (s : State) : Host.Outcome State Fault Refusal :=
  (openInputSourceName chip hd args s).whole chip s

/-- MasterVolume: sent (R324, R258) or sniffed (R300, `recvMasterVolume`). -/
def openMasterVolume (c : Config) (hd : Header) (args : List Byte) (s : State) : Opening :=
  match (sentTo hd).filter getsSettings, args with
  | some p, [v] => sendOne .setVolume p 0x0A v (v ≤ volMax) s
  | _, _ => received c hd 0x0A args s
def execMasterVolume (hd : Header) (args : List Byte) (s : State) : Host.Outcome State Fault Refusal :=
  (openMasterVolume chip hd args s).whole chip s

/-- Balance: sent (R325, R258); no inbound route (R303). -/
def openBalance (c : Config) (hd : Header) (args : List Byte) (s : State) : Opening :=
  match (sentTo hd).filter getsSettings, args with
  | some p, [v] => sendOne .setBalance p 0x0B v (v ≤ balFadMax) s
  | _, _ => received c hd 0x0B args s
def execBalance (hd : Header) (args : List Byte) (s : State) : Host.Outcome State Fault Refusal :=
  (openBalance chip hd args s).whole chip s

/-- Fader: sent (R326, R258); no inbound route (R303). -/
def openFader (c : Config) (hd : Header) (args : List Byte) (s : State) : Opening :=
  match (sentTo hd).filter getsSettings, args with
  | some p, [v] => sendOne .setFader p 0x0C v (v ≤ balFadMax) s
  | _, _ => received c hd 0x0C args s
def execFader (hd : Header) (args : List Byte) (s : State) : Host.Outcome State Fault Refusal :=
  (openFader chip hd args s).whole chip s

/-- SubVolume: sent (R327, R258) or sniffed (R301, `recvSubVolume`). -/
def openSubVolume (c : Config) (hd : Header) (args : List Byte) (s : State) : Opening :=
  match (sentTo hd).filter getsSettings, args with
  | some p, [v] => sendOne .setSubVolume p 0x0D v (v ≤ subMax) s
  | _, _ => received c hd 0x0D args s
def execSubVolume (hd : Header) (args : List Byte) (s : State) : Host.Outcome State Fault Refusal :=
  (openSubVolume chip hd args s).whole chip s

/-- Whether a wire value is a 1-based memory bank (30_encoding.md R102). -/
def bankOnWire (c : Config) (v : Byte) : Bool := if v.toNat < 1 then false else decide (v.toNat ≤ c.memBanks)

/-- ChangeMemory: sent to an address of `SET_DESTS` (R328), or sniffed (R302, `recvChangeMemory`). -/
def openChangeMemory (c : Config) (hd : Header) (args : List Byte) (s : State) : Opening :=
  match (sentTo hd).filter c.setDests.contains, args with
  | some p, [v] => sendOne .setMemory p 0x0F v (bankOnWire c v) s
  | _, _ => received c hd 0x0F args s
def execChangeMemory (hd : Header) (args : List Byte) (s : State) : Host.Outcome State Fault Refusal :=
  (openChangeMemory chip hd args s).whole chip s

/-- ChangeSource: sent to `SRC_CHANGE_DEST` awaiting a response, followed by the settings push (R330, R103); no inbound
route (R303). -/
def openChangeSource (c : Config) (hd : Header) (args : List Byte) (s : State) : Opening :=
  match (sentTo hd).filter (· == c.srcChangeDest), args with
  | some p, [] => hostCall 0 .requestSourceChange true .nothing (sourceChangeItems p) s
  | _, _ => received c hd 0x10 args s
def execChangeSource (hd : Header) (args : List Byte) (s : State) : Host.Outcome State Fault Refusal :=
  (openChangeSource chip hd args s).whole chip s

/-- CheckPresent: sent awaiting a response (R254, R331); the engine never answers one (R303). -/
def openCheckPresent (c : Config) (hd : Header) (args : List Byte) (s : State) : Opening :=
  match sentTo hd, args with
  | some p, [] => hostCall 0 .checkPresence true .nothing (pingItems (.host 0) p) s
  | _, _ => received c hd 0x11 args s
def execCheckPresent (hd : Header) (args : List Byte) (s : State) : Host.Outcome State Fault Refusal :=
  (openCheckPresent chip hd args s).whole chip s

/-- IsPresent is received only (R293, R294, R295, `recvIsPresent`); from the USB Host it is the attach trigger. -/
def openIsPresent (c : Config) (hd : Header) (args : List Byte) (s : State) : Opening :=
  received c hd 0x12 args s
def execIsPresent (hd : Header) (args : List Byte) (s : State) : Host.Outcome State Fault Refusal :=
  (openIsPresent chip hd args s).whole chip s

/-- UsbConnected is received only (R299, `recvUsbConnected`). -/
def openUsbConnected (c : Config) (hd : Header) (args : List Byte) (s : State) : Opening :=
  received c hd 0x13 args s
def execUsbConnected (hd : Header) (args : List Byte) (s : State) : Host.Outcome State Fault Refusal :=
  (openUsbConnected chip hd args s).whole chip s

/-- FirmwareVersion is received only (R298, `recvFirmwareVersion`). -/
def openFirmwareVersion (c : Config) (hd : Header) (args : List Byte) (s : State) : Opening :=
  received c hd 0x14 args s
def execFirmwareVersion (hd : Header) (args : List Byte) (s : State) : Host.Outcome State Fault Refusal :=
  (openFirmwareVersion chip hd args s).whole chip s

/-- IsDisconnected is received only (R297, `recvIsDisconnected`); in `UsbPassthrough` it is the detach trigger. -/
def openIsDisconnected (c : Config) (hd : Header) (args : List Byte) (s : State) : Opening :=
  received c hd 0x35 args s
def execIsDisconnected (hd : Header) (args : List Byte) (s : State) : Host.Outcome State Fault Refusal :=
  (openIsDisconnected chip hd args s).whole chip s

/-- GetCurrentSourceName: the engine never sends it and has no route for it (R303). -/
def openGetCurrentSourceName (c : Config) (hd : Header) (args : List Byte) (s : State) : Opening :=
  received c hd 0x6D args s
def execGetCurrentSourceName (hd : Header) (args : List Byte) (s : State) : Host.Outcome State Fault Refusal :=
  (openGetCurrentSourceName chip hd args s).whole chip s

/-- PowerOff: sent to the Master Controller (R329, R256); no inbound route (R303). -/
def openPowerOff (c : Config) (hd : Header) (args : List Byte) (s : State) : Opening :=
  match sentTo hd, args with
  | some .mc, [] => hostCall 0 .powerOffMainUnit true .nothing powerOffItems s
  | _, _ => received c hd 0x6E args s
def execPowerOff (hd : Header) (args : List Byte) (s : State) : Host.Outcome State Fault Refusal :=
  (openPowerOff chip hd args s).whole chip s

end Sys2Proof.Machine
end

