-- ==== Sys2Proof/Machine/Prims.lean ====
section
/-! DEFINITION. The primitives of the codec, the transceiver, the receiver and the queue as operations that a caller
runs by name (40 to 43 of spec/): each hands its result to `returns`. -/
namespace Sys2Proof.Machine

/-! ### Frame Codec (40_frame_codec.md) -/

/-- `sum8` (R130). -/
def execSum8 (bytes : List Byte) (s : State) : Host.Outcome State Fault Refusal :=
  .next (s.giveReturn none (.byte (checksum bytes)))

/-- `build` (R131). -/
def execBuild (rx tx : Byte) (payload : List Byte) (s : State) : Host.Outcome State Fault Refusal :=
  match buildFrame rx tx payload with
  | some f => .next (s.giveReturn none (.bytes f))
  | none => .next ((s.raise .payloadTooLarge (.size payload.length)).giveReturn none (.failed .payloadTooLarge))

/-- What `validate` returns (R134). -/
def verdictValue (bytes : List Byte) : Value :=
  match verdict bytes with
  | .frame => .bytes bytes
  | .checksumMismatch => .failed .checksumMismatch
  | .frameMalformed => .failed .frameMalformed

/-- `validate` (R134). -/
def execValidate (bytes : List Byte) (s : State) : Host.Outcome State Fault Refusal :=
  .next ((raiseVerdict bytes s).giveReturn none (verdictValue bytes))

/-! ### Transceiver (41_line_transceiver.md) -/

/-- `bit_ticks` (R150). -/
def execBitTicks (rate : Nat) (s : State) : Host.Outcome State Fault Refusal :=
  .next (s.giveReturn none (.nat (ticksPerBit chip rate)))

/-- `encode_char` (R151). -/
def execEncodeChar (b : Byte) (m : Level) (s : State) : Host.Outcome State Fault Refusal :=
  .next (s.giveReturn none (.levels (charCells b m)))

/-- `encode_frame_cells` (R153). -/
def execEncodeFrameCells (bytes : List Byte) (s : State) : Host.Outcome State Fault Refusal :=
  .next (s.giveReturn none (.levels (frameCells bytes)))

/-- `encode_frame` (R154). -/
def execEncodeFrame (bytes : List Byte) (s : State) : Host.Outcome State Fault Refusal :=
  .next (s.giveReturn none (.items (frameItems chip bytes)))

/-- `decode_cells` (R161, R162) called by name: a function of the cells alone, which start between characters. DEC's own
registers `dec_pos` and `dec_shift` are neither read nor written, and the characters are handed back to the caller. On the
line DEC runs from where it stands and each character is pushed (R160, R164): `hearPeer` and `hearOwn`. -/
def decodeCells (c : Config) (cells : List Level) (s : State) : State :=
  let r := decRun c 0 ⟨.idle, 0, s.draws, [], []⟩ cells
  (raiseFaults r.faults { s with draws := r.draws }).giveReturn none (.chars r.chars)
def execDecodeCells (cells : List Level) (s : State) : Host.Outcome State Fault Refusal := .next (decodeCells chip cells s)

/-- `DEC.push` (R164), in every mode and state (R166). Called by name it pushes a character that no cells on the line need
have made (DESIGN CHOICE, log 21). -/
def execDecPush (ch : Character) (s : State) : Host.Outcome State Fault Refusal := .next (pushChar chip s ch)

/-! ### Frame Receiver (42_frame_receiver.md) -/

/-- `frx_step` (R181 to R186). Called by name it belongs to no agent and runs in every mode and phase (DESIGN CHOICE,
log 21). -/
def execFrxStep (b : Byte) (m : Level) (s : State) : Host.Outcome State Fault Refusal := stepFrx chip b m s

/-- `frx_take` (R187), called by name for no agent, in every mode and phase (DESIGN CHOICE, log 21). -/
def execFrxTake (s : State) : Host.Outcome State Fault Refusal :=
  if s.frxState = .complete then .next (s.resetFrx.giveReturn none (.bytes s.takenFrame))
  else .refused .frxTakeNotComplete

/-- `frx_reset` (R188), called by name for no agent, in every mode and phase (DESIGN CHOICE, log 21). -/
def execFrxReset (s : State) : Host.Outcome State Fault Refusal := .next s.resetFrx

/-! ### Transmit Queue (43_transmit_queue.md) -/

/-- `try_lock(a)` (R201). Called by name, outside an enqueue or a drain, it is enabled for every agent that is inside no
operation, TXA held by its suspension among them (DESIGN CHOICE, log 25). -/
def execTryLock (a : Agent) (s : State) : Host.Outcome State Fault Refusal :=
  if s.busy a then .next s else .next ((takeLock a s).1.giveReturn (some a) (.bool (takeLock a s).2))

/-- `unlock(a)` (R202), called by name as `try_lock` is (DESIGN CHOICE, log 25). -/
def execUnlock (a : Agent) (s : State) : Host.Outcome State Fault Refusal :=
  if s.busy a then .next s
  else if s.lock = .held a then .next { s with lock := .free }
  else .refused .unlockNotHeld

/-- `enqueue(frame, wait_for_response)` by agent `a` (R203), enabled for a producer outside its handlers (R200). Begun by
name it looks at no arbiter state and queues in `ShuttingDown` too (DESIGN CHOICE, log 23), and it takes any frame that `build`
returns, whatever its addresses, payload and response flag (DESIGN CHOICE, log 26). -/
def openEnqueue (c : Config) (a : Agent) (bytes : List Byte) (awaits : Bool) (s : State) : Opening :=
  ⟨a, .next (if mayEnqueue a then ⟨s, [.enq ⟨bytes, awaits⟩ c.enqRetryMax false, .ret]⟩ else s.done), s⟩
def execEnqueue (a : Agent) (bytes : List Byte) (awaits : Bool) (s : State) : Host.Outcome State Fault Refusal :=
  (openEnqueue chip a bytes awaits s).whole chip s

/-- `dequeue_all_ready()` by TXA, which gets the batch handed back (R206). Called by name, outside `TXA.drain`, it is enabled
in every phase and while TXA is suspended, and its batch is sent by nobody (DESIGN CHOICE, log 22). -/
def openDequeueAllReady (c : Config) (s : State) : Opening := ⟨.txa, .next ⟨s, [.drain .caller c.deqRetryMax false]⟩, s⟩
def execDequeueAllReady (s : State) : Host.Outcome State Fault Refusal := (openDequeueAllReady chip s).whole chip s

end Sys2Proof.Machine
end

