-- ==== Sys2Proof/Machine/Dispatch.lean ====
section
/-! DEFINITION. The meaning of every instruction: one arm per constructor of `Instr`. -/
namespace Sys2Proof.Machine

def exec (i : Instr) (s : State) : Host.Outcome State Fault Refusal :=
  match i with
  | .inputSourceName hd args => Sys2Proof.Machine.execInputSourceName hd args s
  | .masterVolume hd args => Sys2Proof.Machine.execMasterVolume hd args s
  | .balance hd args => Sys2Proof.Machine.execBalance hd args s
  | .fader hd args => Sys2Proof.Machine.execFader hd args s
  | .subVolume hd args => Sys2Proof.Machine.execSubVolume hd args s
  | .changeMemory hd args => Sys2Proof.Machine.execChangeMemory hd args s
  | .changeSource hd args => Sys2Proof.Machine.execChangeSource hd args s
  | .checkPresent hd args => Sys2Proof.Machine.execCheckPresent hd args s
  | .isPresent hd args => Sys2Proof.Machine.execIsPresent hd args s
  | .usbConnected hd args => Sys2Proof.Machine.execUsbConnected hd args s
  | .firmwareVersion hd args => Sys2Proof.Machine.execFirmwareVersion hd args s
  | .isDisconnected hd args => Sys2Proof.Machine.execIsDisconnected hd args s
  | .getCurrentSourceName hd args => Sys2Proof.Machine.execGetCurrentSourceName hd args s
  | .powerOff hd args => Sys2Proof.Machine.execPowerOff hd args s
  | .setVolume h v => Sys2Proof.Machine.execSetVolume h v s
  | .setBalance h v => Sys2Proof.Machine.execSetBalance h v s
  | .setFader h v => Sys2Proof.Machine.execSetFader h v s
  | .setSubVolume h v => Sys2Proof.Machine.execSetSubVolume h v s
  | .setMemory h bank => Sys2Proof.Machine.execSetMemory h bank s
  | .powerOffMainUnit h => Sys2Proof.Machine.execPowerOffMainUnit h s
  | .requestSourceChange h => Sys2Proof.Machine.execRequestSourceChange h s
  | .checkPresence h address => Sys2Proof.Machine.execCheckPresence h address s
  | .readStatus h => Sys2Proof.Machine.execReadStatus h s
  | .sum8 bytes => Sys2Proof.Machine.execSum8 bytes s
  | .build rx tx payload => Sys2Proof.Machine.execBuild rx tx payload s
  | .validate bytes => Sys2Proof.Machine.execValidate bytes s
  | .bitTicks baud => Sys2Proof.Machine.execBitTicks baud s
  | .encodeChar b m => Sys2Proof.Machine.execEncodeChar b m s
  | .encodeFrameCells bytes => Sys2Proof.Machine.execEncodeFrameCells bytes s
  | .encodeFrame bytes => Sys2Proof.Machine.execEncodeFrame bytes s
  | .decodeCells cells => Sys2Proof.Machine.execDecodeCells cells s
  | .decPush ch => Sys2Proof.Machine.execDecPush ch s
  | .frxStep b m => Sys2Proof.Machine.execFrxStep b m s
  | .frxTake => Sys2Proof.Machine.execFrxTake s
  | .frxReset => Sys2Proof.Machine.execFrxReset s
  | .tryLock a => Sys2Proof.Machine.execTryLock a s
  | .unlock a => Sys2Proof.Machine.execUnlock a s
  | .enqueue a bytes awaits => Sys2Proof.Machine.execEnqueue a bytes awaits s
  | .dequeueAllReady => Sys2Proof.Machine.execDequeueAllReady s
  | .ping a p => Sys2Proof.Machine.execPing a p s
  | .pushSettings a => Sys2Proof.Machine.execPushSettings a s
  | .dispatch bytes => Sys2Proof.Machine.execDispatch bytes s
  | .txaDrain => Sys2Proof.Machine.execTxaDrain s
  | .txaStart => Sys2Proof.Machine.execTxaStart s
  | .txaSendChar contended => Sys2Proof.Machine.execTxaSendChar contended s
  | .txaEchoChar => Sys2Proof.Machine.execTxaEchoChar s
  | .txaEchoTimeout => Sys2Proof.Machine.execTxaEchoTimeout s
  | .txaRespChar => Sys2Proof.Machine.execTxaRespChar s
  | .txaRespTimeout => Sys2Proof.Machine.execTxaRespTimeout s
  | .lstChar => Sys2Proof.Machine.execLstChar s
  | .pollTick => Sys2Proof.Machine.execPollTick s
  | .arbBootCompletion => Sys2Proof.Machine.execArbBootCompletion s

end Sys2Proof.Machine
end

