-- ==== Sys2Proof/Machine/Fetch.lean ====
section
/-! DEFINITION. What the next event of the script does: the bytes of a frame are decoded and run, cells are heard, an
operation is run whole or begun, an agent takes its next step, the collaborator writes its store (logs 1 and 2). -/
namespace Sys2Proof.Machine

/-- The operations whose rules let other agents run between their steps (45_bus_arbiter.md R271), as openings; `none`
for an operation that is one indivisible step. -/
def openingOf (i : Instr) (s : State) : Option Opening :=
  match i with
  | .inputSourceName hd args => some (openInputSourceName chip hd args s)
  | .masterVolume hd args => some (openMasterVolume chip hd args s)
  | .balance hd args => some (openBalance chip hd args s)
  | .fader hd args => some (openFader chip hd args s)
  | .subVolume hd args => some (openSubVolume chip hd args s)
  | .changeMemory hd args => some (openChangeMemory chip hd args s)
  | .changeSource hd args => some (openChangeSource chip hd args s)
  | .checkPresent hd args => some (openCheckPresent chip hd args s)
  | .isPresent hd args => some (openIsPresent chip hd args s)
  | .usbConnected hd args => some (openUsbConnected chip hd args s)
  | .firmwareVersion hd args => some (openFirmwareVersion chip hd args s)
  | .isDisconnected hd args => some (openIsDisconnected chip hd args s)
  | .getCurrentSourceName hd args => some (openGetCurrentSourceName chip hd args s)
  | .powerOff hd args => some (openPowerOff chip hd args s)
  | .setVolume h v => some (openSetVolume chip h v s)
  | .setBalance h v => some (openSetBalance chip h v s)
  | .setFader h v => some (openSetFader chip h v s)
  | .setSubVolume h v => some (openSetSubVolume chip h v s)
  | .setMemory h bank => some (openSetMemory chip h bank s)
  | .powerOffMainUnit h => some (openPowerOffMainUnit h s)
  | .requestSourceChange h => some (openRequestSourceChange chip h s)
  | .checkPresence h address => some (openCheckPresence h address s)
  | .readStatus _ => none
  | .sum8 _ => none
  | .build _ _ _ => none
  | .validate _ => none
  | .bitTicks _ => none
  | .encodeChar _ _ => none
  | .encodeFrameCells _ => none
  | .encodeFrame _ => none
  | .decodeCells _ => none
  | .decPush _ => none
  | .frxStep _ _ => none
  | .frxTake => none
  | .frxReset => none
  | .tryLock _ => none
  | .unlock _ => none
  | .enqueue a bytes awaits => some (openEnqueue chip a bytes awaits s)
  | .dequeueAllReady => some (openDequeueAllReady chip s)
  | .ping a p => some (openPing a p s)
  | .pushSettings a => some (openPushSettings a s)
  | .dispatch bytes => some (openDispatch chip bytes s)
  | .txaDrain => some (openTxaDrain chip s)
  | .txaStart => none
  | .txaSendChar _ => none
  | .txaEchoChar => none
  | .txaEchoTimeout => none
  | .txaRespChar => some (openTxaRespChar chip s)
  | .txaRespTimeout => none
  | .lstChar => some (openLstChar chip s)
  | .pollTick => some (openPollTick s)
  | .arbBootCompletion => some (openBootCompletion s)

/-- Take the first step of an operation only. -/
def startInstr (i : Instr) (s : State) : Host.Outcome State Fault Refusal :=
  match openingOf i s with
  | some o => o.begin s
  | none => exec i s

/-- Bytes on the wire that decode to no command arrive like any others: where the engine parses, the receiver, the codec
or the dispatcher rejects them with the error the spec names (42_frame_receiver.md R184, R185, 40_frame_codec.md R134,
46_dispatcher.md R310; log 9). -/
def receiveRejected (bytes : List Byte) (s : State) : Host.Outcome State Fault Refusal :=
  (openArrival chip bytes s).whole chip s

/-- What one event does. -/
def runEvent (e : Event) (s : State) : Host.Outcome State Fault Refusal :=
  match e with
  | .wire bytes =>
    match decode bytes with
    | .ok i => exec i s
    | .error _ => receiveRejected bytes s
  | .line cells => .next (hearPeer chip cells s)
  | .call i => if i.wf then exec i s else .refused .illFormed
  | .start i => if i.wf then startInstr i s else .refused .illFormed
  | .agent a => .next (agentStep chip a s)
  | .store w => if w.legal chip.memBanks then .next { s with set := s.set.store w } else .refused .illFormed

/-- The script with a table word's frame as its next event. -/
def scriptWithWord (nbits w : Nat) (script : List Event) : List Event := .wire (tableFrame nbits w) :: script

end Sys2Proof.Machine
end

