-- ==== Sys2Proof/Machine/Step.lean ====
section
/-! DEFINITION. One step of the machine: the next event of the script. -/
namespace Sys2Proof.Machine

/-- One step. With no event nothing is scheduled and nothing happens (log 1). -/
def step (s : State) : Host.Outcome State Fault Refusal :=
  match s.script with
  | [] => .next s
  | e :: rest => runEvent e { s with script := rest }

/-- A table word's frame placed where `step` takes its next event; it stands for the arrival of that frame, or for its
being handed to the engine for sending (logs 1, 9, 13). -/
def State.withFetchWord (s : State) (nbits w : Nat) : State := { s with script := scriptWithWord nbits w s.script }

end Sys2Proof.Machine
end

