-- ==== Sys2Proof/Safety.lean ====
section
/-! DEFINITION. The terms claims use: what an uninterrupted run of enqueues does, the frames the rules name, and the
invariants of 10_state.md R26, R31, R33, R34, R50. -/
namespace Sys2Proof.Machine

/-! ### Enqueues in a row with no other agent in between (43_transmit_queue.md R203, R210, R211; 45_bus_arbiter.md R259) -/

/-- How many entries the queue takes: the free places, none while the lock is held. -/
def roomLeft (c : Config) (s : State) : Nat := if s.lock = .free then c.qDepth - s.q.length else 0

/-- The entries that find room are queued in order; each of the others is dropped with `QueueFull`. -/
def afterEnqueues (c : Config) (fs : List QueuedFrame) (s : State) : State :=
  { s with
    q := s.q ++ fs.take (roomLeft c s)
    err := if fs.length ≤ roomLeft c s then s.err else s.err.mark .queueFull
    out := s.out ++ (fs.drop (roomLeft c s)).map fun f => .log .queueFull (.bytes f.bytes) }

/-- The result of an operation that sent these entries (47_host_operations.md R323). -/
def enqueuesResult (c : Config) (fs : List QueuedFrame) (s : State) : HostResult :=
  if fs.length ≤ roomLeft c s then .ok else .queueFull

/-- The eight entries of a settings push (45_bus_arbiter.md R258). -/
def pushedFrames (st : Settings) : List QueuedFrame :=
  [addrMC, addrDSP].flatMap fun d =>
    [⟨frameBytes d addrRN 0 [0x0A, st.masterVolume], false⟩, ⟨frameBytes d addrRN 0 [0x0D, st.subVolume], false⟩,
     ⟨frameBytes d addrRN 0 [0x0B, st.balance], false⟩, ⟨frameBytes d addrRN 0 [0x0C, st.fader], false⟩]

/-- The entries of `send_value` (47_host_operations.md R322). -/
def valueFrames (dests : List Peer) (cmd v : Byte) : List QueuedFrame :=
  dests.map fun d => ⟨frameBytes (peerAddr d) addrRN 0 [cmd, v], false⟩

/-- A presence check to a peer (45_bus_arbiter.md R254). -/
def checkFrame (p : Peer) : QueuedFrame := ⟨frameBytes (peerAddr p) addrRN 0 [0x11], true⟩

/-- The power-off frame (45_bus_arbiter.md R256, 47_host_operations.md R329). -/
def powerOffFrame : QueuedFrame := ⟨frameBytes addrMC addrRN 0 [0x6E], false⟩

/-! ### Characters and frames that arrive -/

/-- The characters that find room in `rxf` are queued in order; each of the others is dropped with `RxOverrun`
(41_line_transceiver.md R164). -/
def afterPush (c : Config) (chs : List Character) (s : State) : State :=
  { s with
    rxf := s.rxf ++ chs.take (c.rxfDepth - s.rxf.length)
    err := if chs.length ≤ c.rxfDepth - s.rxf.length then s.err else { s.err with rxOverrun := true }
    out := s.out ++ (chs.drop (c.rxfDepth - s.rxf.length)).map fun ch => .log .rxOverrun (.char ch) }

/-- What DEC leaves after a draw under contention, in the terms of the spec: its faults are logged, its characters are
pushed, and the position and the bits are drawn too, a position after a framing fault only where DEC was in one or the draw
raises a fault (20_memory.md R80, 41_line_transceiver.md R162; logs 7 and 20). -/
def afterContention (c : Config) (s : State) : State :=
  let d := c.draw s.draws
  afterPush c d.chars { s with
    decPos := drawnPos (s.decPos.afterFault || d.faults != []) d.pos
    decShift := d.shift
    draws := s.draws + 1
    err := if d.faults = [] then s.err else { s.err with lineFramingFault := true }
    out := s.out ++ List.replicate d.faults.length (.log .lineFramingFault .nothing)
    faultIndices := s.faultIndices ++ d.faults }

/-- The header, command and layout of a frame that the engine itself builds (20_memory.md R61, R62, 30_encoding.md R98,
R101, 45_bus_arbiter.md R258, 47_host_operations.md R322 to R331). -/
def EngineBuilds (c : Config) (hd : Header) (code : Byte) (args : List Byte) : Prop :=
  hd.transmitter = 0x80 ∧ hd.reserved = 0x00 ∧
    (((hd.receiver = 0x00 ∨ hd.receiver = 0x46) ∧ code ∈ [0x0A, 0x0B, 0x0C, 0x0D] ∧ args.length = 1) ∨
     ((∃ p ∈ c.setDests, hd.receiver = peerAddr p) ∧ code = 0x0F ∧ args.length = 1) ∨
     (hd.receiver = peerAddr c.srcChangeDest ∧ code = 0x10 ∧ args = []) ∨
     ((hd.receiver = 0x00 ∨ hd.receiver = 0x46 ∨ hd.receiver = 0x5A) ∧ code = 0x11 ∧ args = []) ∨
     (hd.receiver = 0x00 ∧ code = 0x6E ∧ args = []))

/-- A wire command that arrives: its frame is not one the engine itself builds. -/
def Arrives (c : Config) (i : Instr) : Prop :=
  ∃ hd code args, i.wireParts = some (hd, code, args) ∧ ¬ EngineBuilds c hd code args

/-- The events in which only TXA and DEC act: TXA's seven steps, run whole or begun, TXA's next step inside an operation,
cells on the line, and, while TXA owns `rxf`, a frame it dispatches and a frame that arrives (60_exceptions.md R386). -/
def State.runsTxa (c : Config) (s : State) (e : Event) : Prop :=
  e = .agent .txa ∨ (∃ cells, e = .line cells) ∨
  (∃ i, (e = .call i ∨ e = .start i) ∧
    ((i = .txaDrain ∨ i = .txaStart ∨ (∃ b, i = .txaSendChar b) ∨ i = .txaEchoChar ∨ i = .txaEchoTimeout ∨
      i = .txaRespChar ∨ i = .txaRespTimeout) ∨
     (s.busMode = .busMaster ∧ ((∃ f, i = .dispatch f) ∨ Arrives c i)))) ∨
  (s.busMode = .busMaster ∧ ∃ bytes, e = .wire bytes ∧ ∀ i, decode bytes = .ok i → Arrives c i)

/-! ### Runs of several instructions -/

/-- Run instructions one after the other. -/
def execAll : List Instr → State → Host.Outcome State Fault Refusal
  | [], s => .next s
  | i :: is, s => andThen (exec i s) (execAll is)

/-- `n` steps of one agent with no other in between. -/
def agentSteps (c : Config) (a : Agent) : Nat → State → State
  | 0, s => s
  | n + 1, s => agentSteps c a n (agentStep c a s)

/-! ### Invariants -/

/-- The Frame Receiver's registers (10_state.md R26), the declared length as byte 3 of the frame (42_frame_receiver.md
R182), and the buffer's canonical form within `RX_CAP` bytes. -/
structure FrxInv (c : Config) (s : State) : Prop where
  bufferWf        : s.frxBuf.wf = true
  bufferInside    : ∀ e ∈ s.frxBuf, e.1 < c.rxCap
  awaitingAddress : s.frxState = .awaitingAddress → s.frxCount = 0
  awaitingLength  : s.frxState = .awaitingLength → 1 ≤ s.frxCount ∧ s.frxCount ≤ 3
  awaitingPayload : s.frxState = .awaitingPayload →
    4 ≤ s.frxCount ∧ s.frxCount < s.frxLen.toNat ∧ s.frxLen.toNat ≤ c.rxCap
  complete        : s.frxState = .complete →
    s.frxCount = s.frxLen.toNat ∧ 5 ≤ s.frxLen.toNat ∧ s.frxLen.toNat ≤ c.rxCap
  declared        : s.frxState = .awaitingPayload ∨ s.frxState = .complete → s.frxBuf.read 3 = s.frxLen

/-- The engine parses what arrives, from the first character on: DEC is between characters, the engine does not drive, `rxf` is empty, the receiver
waits for an address, and the agent that owns `rxf` parses and is not inside an operation (44_transmit_agent.md R222). -/
structure Ready (c : Config) (s : State) : Prop where
  between : s.decPos = .idle
  quiet   : s.txaPhase ≠ .sending
  empty   : s.rxf = []
  fresh   : s.frxState = .awaitingAddress
  frx     : FrxInv c s
  parses  : s.parses = true
  free    : s.busy s.owner = false
  mode    : s.busMode = .busMaster → s.arbState ≠ .usbPassthrough

/-- An item that writes `arb_state`. -/
def Item.writesMode : Item → Bool
  | .enterSteady | .finishDetach => true
  | .frame _ _ _ | .enq _ _ _ | .drain _ _ _ | .markPing | .ret => false

/-- An item of a drain. -/
def Item.isDrain : Item → Bool
  | .drain _ _ _ => true
  | .frame _ _ _ | .enq _ _ _ | .markPing | .enterSteady | .finishDetach | .ret => false

/-- Arbiter state, bus mode and the control bits agree (10_state.md R31, R33, R42, R50 items 1 and 2); a handler in
progress that will write the mode is the last thing its agent does and belongs to the state it leaves; TXA is inside no
operation but a drain, for no handler it runs contains an enqueue (43_transmit_queue.md R200). -/
structure ModeInv (s : State) : Prop where
  mode      : s.busMode = .usbPassthrough ↔ s.arbState = .usbPassthrough
  listener  : s.lstActive = true ↔ s.busMode = .usbPassthrough
  suspended : s.txaSuspended = true ↔ s.busMode = .usbPassthrough
  connected : s.set.usbConnected = true ↔ s.busMode = .usbPassthrough
  modeLast  : ∀ e ∈ s.tasks, ∀ i ∈ e.2.items.dropLast, i.writesMode = false
  detaching : ∀ e ∈ s.tasks, Item.finishDetach ∈ e.2.items → e.1 = .lst ∧ s.arbState = .usbPassthrough
  txaDrains : ∀ e ∈ s.tasks, e.1 = .txa → ∀ i ∈ e.2.items, i.isDrain = true
  booting   : ∀ e ∈ s.tasks, Item.enterSteady ∈ e.2.items → e.1 = .arb ∧ s.arbState = .booting

/-- The failure counters (10_state.md R34, R50 item 6; 60_exceptions.md R373) and the terminal flag (R46). -/
structure PresenceInv (s : State) : Prop where
  belowMax : s.arbState ≠ .shuttingDown → s.presence.dsp.fails < pingFailMax
  final    : s.arbState = .shuttingDown → s.presence.dsp.fails = pingFailMax
  mc       : s.presence.mc.fails = 0
  usb      : s.presence.usb.fails = 0
  terminal : s.err.presenceFailureTerminal = true ↔ s.arbState = .shuttingDown

/-- An item that holds the lock. -/
def Item.holds : Item → Bool
  | .enq _ _ h | .drain _ _ h => h
  | .frame _ _ _ | .markPing | .enterSteady | .finishDetach | .ret => false

/-- The bounded FIFOs keep their bounds (10_state.md R24, R50 item 3), and an agent that is between `try_lock` and
`unlock` holds the lock (R28). -/
structure QueueInv (c : Config) (s : State) : Prop where
  queueBound : s.q.length ≤ c.qDepth
  fifoBound  : s.rxf.length ≤ c.rxfDepth
  holder     : ∀ e ∈ s.tasks, ∀ i, e.2.items.head? = some i → i.holds = true → s.lock = .held e.1
  onlyFirst  : ∀ e ∈ s.tasks, ∀ i ∈ e.2.items.tail, i.holds = false

/-- An item whose frame is, or will be, one that `build` returns. -/
def Item.sendable : Item → Bool
  | .enq f _ _ => verdict f.bytes == .frame
  | .frame _ (.fixed p) _ => p.length ≤ payloadMax
  | .frame _ (.setting _) _ | .drain _ _ _ | .markPing | .enterSteady | .finishDetach | .ret => true

/-- Every entry is a valid frame (10_state.md R50 item 4), TXA's registers fit its phase (R30, R50 item 5), and a drain
in progress finds its batch register empty (44_transmit_agent.md R223). -/
structure TransmitInv (s : State) : Prop where
  queued   : ∀ f ∈ s.q, verdict f.bytes = .frame
  batched  : ∀ f ∈ s.txaBatch, verdict f.bytes = .frame
  current  : ∀ f, s.txaCur = some f → verdict f.bytes = .frame
  underway : ∀ e ∈ s.tasks, ∀ i ∈ e.2.items, i.sendable = true
  idle     : s.txaPhase = .idle ↔ s.txaCur = none
  echoes   : s.txaEidx ≤ s.txaIdx
  sending  : ∀ f, s.txaPhase = .sending → s.txaCur = some f → s.txaIdx < f.bytes.length
  driven   : ∀ f, s.txaPhase = .echo ∨ s.txaPhase = .awaitResponse → s.txaCur = some f → s.txaIdx = f.bytes.length
  draining : ∀ e ∈ s.tasks, ∀ d n h, Item.drain d n h ∈ e.2.items → e.1 = .txa ∧
    (d = .batch → s.txaPhase = .idle ∧ s.txaBatch = [] ∧ e.2.items = [.drain d n h])
  lineIdle : s.lineOut = true

/-- The settings registers hold legal values (10_state.md R37 to R41). -/
def SettingsInv (c : Config) (s : State) : Prop := s.set.legal c.memBanks = true

/-- DEC is at a cell of a character, or between characters (41_line_transceiver.md R160), or counts idle cells after a
framing fault (log 7). -/
def decPosLegal : DecPos → Bool
  | .idle => true
  | .inChar k => decide (1 ≤ k) && decide (k ≤ 10)
  | .faulted n | .lost n => decide (n < 11)

/-- The frames TXA has still to finish, the one in progress first (20_memory.md R74). -/
def State.pendingFrames (s : State) : List QueuedFrame := s.txaCur.toList ++ s.txaBatch ++ s.q

/-- An edge of the arbiter's state diagram, or staying (45_bus_arbiter.md R250). -/
def arbEdge : ArbState → ArbState → Bool
  | .booting, .steadyPolling | .steadyPolling, .usbPassthrough | .usbPassthrough, .steadyPolling
  | .steadyPolling, .shuttingDown => true
  | x, y => x == y

end Sys2Proof.Machine
end

