-- ==== Sys2Proof/Certificates/Slice0/Obligations.lean ====
section
/-! DEFINITION. The statements for the provers: what the numbered rules say of the machine. An equation
`exec i s = .next t` gives the completion of `i`, its effect and its frame at once. `returns`, the trace of what a
primitive hands back, is the model's own field (log 6); statements in which it occurs are derived, not stated. -/
open Sys2Proof Sys2Proof.Machine

/-! ### Frame Codec -/

/-- R130, whole: `sum8` is the sum mod 256, it splits over concatenation, and a change of exactly one byte changes it. -/
def Obligations.ChecksumIsByteSum : Prop :=
  (∀ l : List Byte, (checksum l).toNat = (l.map BitVec.toNat).sum % 256) ∧
  (∀ l m : List Byte, (checksum (l ++ m)).toNat = ((checksum l).toNat + (checksum m).toNat) % 256) ∧
  (∀ (l : List Byte) (k : Nat) (b : Byte), k < l.length → l[k]? ≠ some b → checksum (l.set k b) ≠ checksum l) ∧
  checksum [] = 0 ∧ checksum [0x00, 0x80, 0x00, 0x07, 0x0A, 0x32] = 0xC3

/-- R136, whole: what `build` returns validates and carries its inputs; replacing one byte is detected as a checksum
mismatch; a change of two bytes need not be detected. -/
def Obligations.BuildThenValidate : Prop :=
  (∀ (rx tx : Byte) (p : List Byte), p.length ≤ 250 → ∃ f, buildFrame rx tx p = some f ∧ verdict f = .frame ∧
    frameReceiver f = rx ∧ frameTransmitter f = tx ∧ framePayload f = p) ∧
  (∀ (f : List Byte) (k : Nat) (b : Byte), verdict f = .frame → k < f.length → f[k]? ≠ some b →
    verdict (f.set k b) = .checksumMismatch) ∧
  (∃ (f : List Byte) (j k : Nat) (x y : Byte), verdict f = .frame ∧ j ≠ k ∧ j < f.length ∧ k < f.length ∧
    f[j]? ≠ some x ∧ f[k]? ≠ some y ∧ verdict ((f.set j x).set k y) = .frame)

/-- R130, R131, R134: `sum8`, `build` and `validate` in every state. `validate` checks the size, then the checksum, then
the length byte. -/
def Obligations.CodecOperations : Prop :=
  ∀ s : State,
    (∀ l : List Byte, exec (.sum8 l) s = .next { s with returns := s.returns ++ [(none, .byte (checksum l))] }) ∧
    (∀ (rx tx : Byte) (p : List Byte), p.length ≤ 250 →
      let body := [rx, tx, 0x00, BitVec.ofNat 8 (5 + p.length)] ++ p
      exec (.build rx tx p) s = .next { s with returns := s.returns ++ [(none, .bytes (body ++ [checksum body]))] }) ∧
    (∀ (rx tx : Byte) (p : List Byte), 250 < p.length →
      exec (.build rx tx p) s = .next { s with
        err := { s.err with payloadTooLarge := true }
        out := s.out ++ [.log .payloadTooLarge (.size p.length)]
        returns := s.returns ++ [(none, .failed .payloadTooLarge)] }) ∧
    (∀ f : List Byte, f.length < 5 →
      exec (.validate f) s = .next { s with
        err := { s.err with frameMalformed := true }
        out := s.out ++ [.log .frameMalformed (.size f.length)]
        returns := s.returns ++ [(none, .failed .frameMalformed)] }) ∧
    (∀ (f : List Byte) (x : Byte), 5 ≤ (f ++ [x]).length → checksum f ≠ x →
      exec (.validate (f ++ [x])) s = .next { s with
        err := { s.err with checksumMismatch := true }
        out := s.out ++ [.log .checksumMismatch (.bytes (f ++ [x]))]
        returns := s.returns ++ [(none, .failed .checksumMismatch)] }) ∧
    (∀ (f : List Byte) (n : Byte), 4 ≤ f.length → f[3]? = some n →
      exec (.validate (f ++ [checksum f])) s = .next (
        if n.toNat = f.length + 1 then { s with returns := s.returns ++ [(none, .bytes (f ++ [checksum f]))] }
        else { s with
          err := { s.err with frameMalformed := true }
          out := s.out ++ [.log .frameMalformed (.size (f.length + 1))]
          returns := s.returns ++ [(none, .failed .frameMalformed)] }))

/-! ### Transceiver -/

/-- R150: the cell duration is `TICK_HZ / baud` rounded to nearest, halves up, for every positive baud rate, and at the
engine's own rate it is at least one tick. -/
def Obligations.CellDurationRounds : Prop :=
  (∀ (rate : Nat) (s : State), 0 < rate → ∃ t : Nat,
    exec (.bitTicks rate) s = .next { s with returns := s.returns ++ [(none, .nat t)] } ∧
      2 * rate * t ≤ 2 * chip.tickHz + rate ∧ 2 * chip.tickHz + rate < 2 * rate * (t + 1)) ∧
  1 ≤ ticksPerBit chip baud

/-- R151, R153, R91: a character is a low start cell, the bits of its byte from the least significant up, its marker and
a high stop cell; a frame is its characters back to back, marker 1 on the first only. That a data bit of 1 is a high
cell is R90's sentence from general knowledge (log 15). -/
def Obligations.CharacterAndFrameCells : Prop :=
  ∀ s : State,
    (∀ (b : Byte) (m : Level), ∃ cells : List Level,
      exec (.encodeChar b m) s = .next { s with returns := s.returns ++ [(none, .levels cells)] } ∧
      cells.length = 11 ∧ cells[0]? = some false ∧ (∀ k < 8, cells[k + 1]? = some (b.toNat / 2 ^ k % 2 == 1)) ∧
      cells[9]? = some m ∧ cells[10]? = some true) ∧
    (∀ f : List Byte, ∃ cells : List Level,
      exec (.encodeFrameCells f) s = .next { s with returns := s.returns ++ [(none, .levels cells)] } ∧
      cells.length = 11 * f.length ∧
      ∀ (k : Nat) (b : Byte), f[k]? = some b → (cells.drop (11 * k)).take 11 = charCells b (k == 0))

/-- R154, R93, R94: two cells to a timed item, and a filler half `(0, 1)` when the number of cells is odd. -/
def Obligations.TimedItemsPackCells : Prop :=
  ∀ (f : List Byte) (s : State), ∃ items : List TimedItem,
    exec (.encodeFrame f) s = .next { s with returns := s.returns ++ [(none, .items items)] } ∧
    items.length = (11 * f.length + 1) / 2 ∧
    ∀ k, k < items.length → ∃ l0 : Level, (frameCells f)[2 * k]? = some l0 ∧
      items[k]? = some (match (frameCells f)[2 * k + 1]? with
        | some l1 => ⟨ticksPerBit chip baud, l0, ticksPerBit chip baud, l1⟩
        | none => ⟨ticksPerBit chip baud, l0, 0, true⟩)

/-- R161, R163: with any number of idle cells before and after, `decode_cells` gives back exactly the frame's characters and
markers, raises nothing and changes no register, wherever DEC itself stands. -/
def Obligations.CellRoundTrip : Prop :=
  ∀ (f : List Byte) (before after : Nat) (s : State),
    exec (.decodeCells (List.replicate before true ++ frameCells f ++ List.replicate after true)) s =
      .next { s with
        returns := s.returns ++ [(none, .chars (f.mapIdx fun k b => ⟨b, k == 0⟩))] }

/-- R161, R162: `decode_cells` completes on every cell sequence. What it reports is a function of the cells and of the draws
alone, and it changes the framing-fault flag, the log, the trace of fault indices and the draw counter only, none of DEC's
registers. A character whose stop cell is low is dropped with one
`LineFramingFault` of the index of its start cell, whatever number of idle cells comes before it, and a character after
eleven or more idle cells is delivered again. What the cells in between give is log 7's. The log entry holds no
information (R361, R384); the index is kept in the trace, and each fault takes a draw (log 14). -/
def Obligations.FramingFaultDropsCharacter : Prop :=
  let entry : OutEvent := .log .lineFramingFault .nothing
  (∀ (cells : List Level) (d : Nat), ∃ (n : Nat) (is : List Nat) (chs : List Character), ∀ s : State, s.draws = d →
    exec (.decodeCells cells) s = .next { s with
      draws := n
      err := if is = [] then s.err else { s.err with lineFramingFault := true }
      out := s.out ++ List.replicate is.length entry
      faultIndices := s.faultIndices ++ is
      returns := s.returns ++ [(none, .chars chs)] }) ∧
  (∀ (b b' : Byte) (m m' : Level) (before idle : Nat) (s : State), 11 ≤ idle →
    exec (.decodeCells (List.replicate before true ++ (charCells b m).dropLast ++ [false] ++ List.replicate idle true ++
        charCells b' m')) s =
      .next { s with
        draws := s.draws + 1
        err := { s.err with lineFramingFault := true }
        out := s.out ++ [entry]
        faultIndices := s.faultIndices ++ [before]
        returns := s.returns ++ [(none, .chars [⟨b', m'⟩])] })

/-- R164, R166: a character goes to the back of `rxf`, in every mode and state; with `rxf` full it is dropped. Cells on
the line (the event `line`, log 1) are decoded from where DEC stands, and each character is pushed in order; where DEC is
between characters, these are the characters and the faults of `decode_cells`, which by name hands them back and pushes
none (log 6). While the engine sends, a peer's cells are
contention and a draw is heard in their place (R80, R386; logs 7 and 20). A fault that DEC raises on the line has an index
of its own, for nothing says from where the cells on the line are counted (log 14). `DEC.push` called by name needs no
cells (log 21). -/
def Obligations.CharacterDelivered : Prop :=
  (∀ (ch : Character) (s : State),
    (s.rxf.length < chip.rxfDepth → exec (.decPush ch) s = .next { s with rxf := s.rxf ++ [ch] }) ∧
    (chip.rxfDepth ≤ s.rxf.length → exec (.decPush ch) s = .next { s with
      err := { s.err with rxOverrun := true }
      out := s.out ++ [.log .rxOverrun (.char ch)] })) ∧
  (∀ (cells : List Level) (rest : List Event) (s : State), s.script = .line cells :: rest → s.txaPhase = .sending →
    cells ≠ [] → step s = .next (afterContention chip { s with script := rest })) ∧
  ∀ (cells : List Level) (rest : List Event) (s : State), s.script = .line cells :: rest → s.txaPhase ≠ .sending →
    let entry : OutEvent := .log .lineFramingFault .nothing
    let room := chip.rxfDepth - s.rxf.length
    let r := decRun chip 0 ⟨s.decPos, s.decShift, s.draws, [], []⟩ cells
    (s.decPos = .idle → exec (.decodeCells cells) { s with script := rest } = .next { s with
      script := rest
      draws := r.draws
      err := if r.faults = [] then s.err else { s.err with lineFramingFault := true }
      out := s.out ++ List.replicate r.faults.length entry
      faultIndices := s.faultIndices ++ r.faults
      returns := s.returns ++ [(none, .chars r.chars)] }) ∧
    ∃ (logged : List OutEvent) (js : List Nat),
      step s = .next { s with
        script := rest
        decPos := r.pos, decShift := r.shift, draws := r.draws
        rxf := s.rxf ++ r.chars.take room
        err := { s.err with
          lineFramingFault := s.err.lineFramingFault || r.faults != []
          rxOverrun := s.err.rxOverrun || decide (room < r.chars.length) }
        out := s.out ++ logged
        faultIndices := s.faultIndices ++ js } ∧
      js.length = r.faults.length ∧ logged.filter (· == entry) = List.replicate r.faults.length entry ∧
      logged.filter (· != entry) = (r.chars.drop room).map fun ch => .log .rxOverrun (.char ch)

/-! ### Frame Receiver -/

/-- R181, whole: in `AwaitingAddress` a marked character becomes byte 0 of a frame, whatever its value; an unmarked one is
discarded silently. -/
def Obligations.ReceiverAwaitsMarkedByte : Prop :=
  ∀ (b : Byte) (s : State), s.frxState = .awaitingAddress →
    exec (.frxStep b false) s = .next s ∧
    exec (.frxStep b true) s = .next { s with
      frxBuf := s.frxBuf.write 0 b, frxCount := 1, frxState := .awaitingLength }

/-- R182, R184, R185: in `AwaitingLength` every character is stored at its position, its marker not looked at; the fourth
is the declared length, and a length below 5 or above `RX_CAP` aborts the frame with its error (no byte is above an
`RX_CAP` of 255). -/
def Obligations.ReceiverReadsHeader : Prop :=
  ∀ (b : Byte) (m : Level) (s : State), s.frxState = .awaitingLength →
    (1 ≤ s.frxCount → s.frxCount < 3 → exec (.frxStep b m) s = .next { s with
      frxBuf := s.frxBuf.write s.frxCount b, frxCount := s.frxCount + 1 }) ∧
    (s.frxCount = 3 →
      (b.toNat < 5 → exec (.frxStep b m) s = .next { s with
        frxBuf := s.frxBuf.write 3 b, frxLen := b, frxCount := 0, frxState := .awaitingAddress
        err := { s.err with frameMalformed := true }
        out := s.out ++ [.log .frameMalformed (.size b.toNat)] }) ∧
      (5 ≤ b.toNat → chip.rxCap < b.toNat → exec (.frxStep b m) s = .next { s with
        frxBuf := s.frxBuf.write 3 b, frxLen := b, frxCount := 0, frxState := .awaitingAddress
        err := { s.err with bufferTooSmall := true }
        out := s.out ++ [.log .bufferTooSmall (.sizes b.toNat chip.rxCap)] }) ∧
      (5 ≤ b.toNat → b.toNat ≤ chip.rxCap → exec (.frxStep b m) s = .next { s with
        frxBuf := s.frxBuf.write 3 b, frxLen := b, frxCount := 4, frxState := .awaitingPayload }))

/-- R183, whole: in `AwaitingPayload` every character is stored at its position, its marker not looked at, and the frame
is complete when the count reaches the declared length. -/
def Obligations.ReceiverCountsToLength : Prop :=
  ∀ (b : Byte) (m : Level) (s : State), FrxInv chip s → s.frxState = .awaitingPayload →
    exec (.frxStep b m) s = .next { s with
      frxBuf := s.frxBuf.write s.frxCount b, frxCount := s.frxCount + 1
      frxState := if s.frxCount + 1 = s.frxLen.toNat then .complete else .awaitingPayload }

/-- R186 to R188: a complete frame is handed over once and the receiver starts again; a reset discards silently. What a
caller may not do is refused by name (log 12). Called by name the two belong to no agent (log 21). -/
def Obligations.ReceiverHandsOver : Prop :=
  ∀ s : State,
    (s.frxState = .complete → exec .frxTake s = .next { s with
      frxCount := 0, frxState := .awaitingAddress
      returns := s.returns ++ [(none, .bytes ((List.range s.frxLen.toNat).map s.frxBuf.read))] }) ∧
    (s.frxState ≠ .complete → exec .frxTake s = .refused .frxTakeNotComplete) ∧
    exec .frxReset s = .next { s with frxCount := 0, frxState := .awaitingAddress } ∧
    (∀ (b : Byte) (m : Level), s.frxState = .complete → exec (.frxStep b m) s = .refused .frxStepInComplete)

/-- R190, R191, R67: fed the characters of a frame that fits the buffer, after any number of unmarked characters, the
receiver hands over exactly that frame and is ready for the next; no flag is set, nothing is logged and no byte of the
buffer past the frame changes. As a pure function, `receive_frame` gives back a concatenation of frames, also through the
cells of a frame; an incomplete frame gives nothing, and an abort is collected as its error. -/
def Obligations.FrameRoundTrip : Prop :=
  (∀ (f junk : List Byte) (s : State), verdict f = .frame → f.length ≤ chip.rxCap → FrxInv chip s →
    s.frxState = .awaitingAddress → ∃ m : Memory,
      execAll (junk.map (fun b => .frxStep b false) ++ f.mapIdx (fun k b => .frxStep b (k == 0)) ++ [.frxTake]) s =
        .next { s with
          frxBuf := m, frxLen := BitVec.ofNat 8 f.length
          returns := s.returns ++ [(none, .bytes f)] } ∧
      ∀ a, f.length ≤ a → m.read a = s.frxBuf.read a) ∧
  (∀ (fs : List (List Byte)) (junk : List Byte), (∀ f ∈ fs, verdict f = .frame ∧ f.length ≤ chip.rxCap) →
    receiveFrames chip (junk.map (fun b => ⟨b, false⟩) ++ fs.flatMap fun f => f.mapIdx fun k b => ⟨b, k == 0⟩) =
      fs.map .frame) ∧
  (∀ f : List Byte, verdict f = .frame → f.length ≤ chip.rxCap →
    receiveFrames chip (decRun chip 0 ⟨.idle, 0, 0, [], []⟩ (frameCells f)).chars = [.frame f] ∧
    ∀ n < f.length, receiveFrames chip ((f.mapIdx fun k b => ⟨b, k == 0⟩).take n) = []) ∧
  (∀ (a b c n : Byte) (m2 m3 m4 : Level),
    (n.toNat < 5 → receiveFrames chip [⟨a, true⟩, ⟨b, m2⟩, ⟨c, m3⟩, ⟨n, m4⟩] = [.aborted .frameMalformed (.size n.toNat)]) ∧
    (chip.rxCap < n.toNat → receiveFrames chip [⟨a, true⟩, ⟨b, m2⟩, ⟨c, m3⟩, ⟨n, m4⟩] =
      [.aborted .bufferTooSmall (.sizes n.toNat chip.rxCap)]))

/-! ### Transmit Queue -/

/-- R201, R202: `try_lock` takes a free lock and leaves a held one, `unlock` frees the caller's; an `unlock` whose
precondition does not hold is refused (log 12). By name both are enabled for every agent that is inside no operation, a
held TXA too (log 25). -/
def Obligations.LockTakenAndFreed : Prop :=
  ∀ (a : Agent) (s : State), s.busy a = false →
    (s.lock = .free → exec (.tryLock a) s = .next { s with
      lock := .held a, returns := s.returns ++ [(some a, .bool true)] }) ∧
    (∀ b, s.lock = .held b → exec (.tryLock a) s = .next { s with returns := s.returns ++ [(some a, .bool false)] }) ∧
    (s.lock = .held a → exec (.unlock a) s = .next { s with lock := .free }) ∧
    (s.lock ≠ .held a → exec (.unlock a) s = .refused .unlockNotHeld)

/-- R203, R210, R211: an uninterrupted `enqueue` (log 2) pushes at the back when the lock is free and there is room; with
the lock held or the queue full nothing is pushed and `QueueFull` is raised. The producers are HOST and ARB (R200): TXA
never enqueues, and LST only in the settings push of its detach handler, so an `enqueue` of either called by name is not
enabled (log 10). The arbiter state is not looked at, `ShuttingDown` included (log 23), nor what the frame holds (log 26). -/
def Obligations.EnqueuePushesOrDrops : Prop :=
  (∀ (a : Agent) (f : List Byte) (w : Bool) (s : State), a = .txa ∨ a = .lst → exec (.enqueue a f w) s = .next s) ∧
  ∀ (a : Agent) (f : List Byte) (w : Bool) (s : State), a = .arb ∨ (∃ h, a = .host h) → s.busy a = false →
    (s.lock = .free → s.q.length < chip.qDepth → exec (.enqueue a f w) s = .next { s with
      q := s.q ++ [⟨f, w⟩], returns := s.returns ++ [(some a, .result .ok)] }) ∧
    (s.lock ≠ .free ∨ chip.qDepth ≤ s.q.length → exec (.enqueue a f w) s = .next { s with
      err := { s.err with queueFull := true }
      out := s.out ++ [.log .queueFull (.bytes f)]
      returns := s.returns ++ [(some a, .result .queueFull)] })

/-- R206, R207, R223, R224: an uninterrupted drain (log 2) takes the whole queue in order, and nothing while the lock is
held; TXA's own drain step is enabled when it is idle with an empty batch and not suspended. `dequeue_all_ready` called by
name is enabled in every phase and while TXA is suspended, and hands its batch to the caller (log 22). -/
def Obligations.DrainTakesAll : Prop :=
  ∀ s : State, s.busy .txa = false →
    (s.lock = .free → exec .dequeueAllReady s = .next { s with
      q := [], returns := s.returns ++ [(some .txa, .batch s.q)] }) ∧
    (s.lock ≠ .free → exec .dequeueAllReady s = .next { s with returns := s.returns ++ [(some .txa, .batch [])] }) ∧
    (s.txaPhase = .idle → s.txaBatch = [] → s.txaSuspended = false → s.lock = .free →
      exec .txaDrain s = .next { s with q := [], txaBatch := s.q }) ∧
    (s.txaPhase ≠ .idle ∨ s.txaBatch ≠ [] ∨ s.txaSuspended = true ∨ s.lock ≠ .free → exec .txaDrain s = .next s)

/-- The operations run whole are their steps with no other agent in between (R203, R206, R271; log 2): an agent that
takes its steps one by one, undisturbed, reaches the state of the uninterrupted run; and for every instruction, the first
step (the event `start`) followed by steps of its agent is the run of `exec`. -/
def Obligations.WholeRunIsStepsInARow : Prop :=
  (∀ (a : Agent) (t : Task) (s : State), s.taskOf a = some t → ∃ n,
    agentSteps chip a n s = (runItems chip a t.items t.lastOk t.allOk s).clearTask a) ∧
  ∀ (i : Instr) (s : State),
    (∀ t, exec i s = .next t → ∃ (u : State) (a : Agent) (n : Nat), (∀ o, openingOf i s = some o → a = o.agent) ∧
      startInstr i s = .next u ∧ agentSteps chip a n u = t) ∧
    (∀ r, exec i s = .fault r → startInstr i s = .fault r) ∧ (∀ r, exec i s = .refused r → startInstr i s = .refused r)

/-! ### Host operations

Operations of several frames are stated run whole, with no other agent in between (log 2): `afterEnqueues` queues the
frames that find room, in order, and drops each of the others with `QueueFull`. -/

/-- R322 to R328, R333: in range and outside `ShuttingDown`, each value operation queues one frame per address of
`SET_DESTS`, none awaiting a response, and writes no settings register; `set_memory` sends the bank plus one. -/
def Obligations.HostValueOperations : Prop :=
  ∀ (h : Nat) (v : Byte) (s : State), s.busy (.host h) = false → s.arbState ≠ .shuttingDown →
    let send : Byte → Byte → State := fun cmd x =>
      { afterEnqueues chip (valueFrames chip.setDests cmd x) s with
        returns := s.returns ++ [(some (.host h), .result (enqueuesResult chip (valueFrames chip.setDests cmd x) s))] }
    (v.toNat ≤ 0x78 → exec (.setVolume h v) s = .next (send 0x0A v)) ∧
    (v.toNat ≤ 0x24 → exec (.setBalance h v) s = .next (send 0x0B v)) ∧
    (v.toNat ≤ 0x24 → exec (.setFader h v) s = .next (send 0x0C v)) ∧
    (v.toNat ≤ 0x18 → exec (.setSubVolume h v) s = .next (send 0x0D v)) ∧
    (v.toNat < chip.memBanks → exec (.setMemory h v) s = .next (send 0x0F (BitVec.ofNat 8 (v.toNat + 1))))

/-- R320, R321: a value above its maximum, a bank or an address that is none is rejected and nothing is queued; in
`ShuttingDown` every operation but `read_status` is rejected first, whatever its operand. -/
def Obligations.HostRejections : Prop :=
  ∀ (h : Nat) (v : Byte) (s : State), s.busy (.host h) = false →
    let range : HostOp → State := fun op =>
      { s with
        err := { s.err with valueOutOfRange := true }
        out := s.out ++ [.log .valueOutOfRange (.opValue op v)]
        returns := s.returns ++ [(some (.host h), .result .valueOutOfRange)] }
    let dead : HostOp → State := fun op =>
      { s with
        err := { s.err with engineInert := true }
        out := s.out ++ [.log .engineInert (.op op)]
        returns := s.returns ++ [(some (.host h), .result .engineInert)] }
    (s.arbState ≠ .shuttingDown →
      (0x78 < v.toNat → exec (.setVolume h v) s = .next (range .setVolume)) ∧
      (0x24 < v.toNat → exec (.setBalance h v) s = .next (range .setBalance)) ∧
      (0x24 < v.toNat → exec (.setFader h v) s = .next (range .setFader)) ∧
      (0x18 < v.toNat → exec (.setSubVolume h v) s = .next (range .setSubVolume)) ∧
      (chip.memBanks ≤ v.toNat → exec (.setMemory h v) s = .next (range .setMemory)) ∧
      (v ≠ 0x00 → v ≠ 0x46 → v ≠ 0x5A → exec (.checkPresence h v) s = .next (range .checkPresence))) ∧
    (s.arbState = .shuttingDown →
      exec (.setVolume h v) s = .next (dead .setVolume) ∧ exec (.setBalance h v) s = .next (dead .setBalance) ∧
      exec (.setFader h v) s = .next (dead .setFader) ∧ exec (.setSubVolume h v) s = .next (dead .setSubVolume) ∧
      exec (.setMemory h v) s = .next (dead .setMemory) ∧ exec (.powerOffMainUnit h) s = .next (dead .powerOffMainUnit) ∧
      exec (.requestSourceChange h) s = .next (dead .requestSourceChange) ∧ exec (.checkPresence h v) s = .next (dead .checkPresence))

/-- R329 to R332, R45: power-off goes to the Master Controller and changes no arbiter state; a source change is one frame
awaiting a response and then the eight of a settings push; a presence check is one frame awaiting a response and opens no
polling window; `read_status` answers in every state, even while its caller is busy, and changes nothing. -/
def Obligations.HostCommands : Prop :=
  (∀ (h : Nat) (s : State), exec (.readStatus h) s = .next { s with
    returns := s.returns ++ [(some (.host h), .status s.busMode s.presence.mc s.presence.dsp s.presence.usb)] }) ∧
  ∀ (h : Nat) (s : State), s.busy (.host h) = false → s.arbState ≠ .shuttingDown →
    let sends : List QueuedFrame → State := fun fs =>
      { afterEnqueues chip fs s with returns := s.returns ++ [(some (.host h), .result (enqueuesResult chip fs s))] }
    exec (.powerOffMainUnit h) s = .next (sends [⟨[0x00, 0x80, 0x00, 0x06, 0x6E, 0xF4], false⟩]) ∧
    exec (.requestSourceChange h) s =
      .next (sends (⟨frameBytes (peerAddr chip.srcChangeDest) 0x80 0x00 [0x10], true⟩ :: pushedFrames s.set)) ∧
    exec (.checkPresence h 0x00) s = .next (sends [⟨[0x00, 0x80, 0x00, 0x06, 0x11, 0x97], true⟩]) ∧
    exec (.checkPresence h 0x46) s = .next (sends [⟨[0x46, 0x80, 0x00, 0x06, 0x11, 0xDD], true⟩]) ∧
    exec (.checkPresence h 0x5A) s = .next (sends [⟨[0x5A, 0x80, 0x00, 0x06, 0x11, 0xF1], true⟩])

/-! ### Bus arbiter -/

/-- R254, R258, R259: a ping is one CheckPresent awaiting a response, and opens a polling window when it is ARB's ping of
the DSP and was queued (that it looks at no other field first is log 16's reading), but not in `ShuttingDown` (R257); a
settings push is the eight frames of R258, the Master Controller's four first. HOST and ARB ping and push; called by
name by TXA or LST neither is enabled (R200, R254; log 10). Both queue in `ShuttingDown` too (log 23). -/
def Obligations.PingAndPush : Prop :=
  (∀ (a : Agent) (p : Peer) (s : State), a = .txa ∨ a = .lst →
    exec (.ping a p) s = .next s ∧ exec (.pushSettings a) s = .next s) ∧
  ∀ (a : Agent) (s : State), a = .arb ∨ (∃ h, a = .host h) → s.busy a = false →
    (∀ p, ¬ (a = .arb ∧ p = .dsp) → exec (.ping a p) s = .next (afterEnqueues chip [checkFrame p] s)) ∧
    (a = .arb → exec (.ping .arb .dsp) s = .next { afterEnqueues chip [checkFrame .dsp] s with
      pingOutstanding := if 1 ≤ roomLeft chip s ∧ s.arbState ≠ .shuttingDown then true else s.pingOutstanding }) ∧
    exec (.pushSettings a) s = .next (afterEnqueues chip (pushedFrames s.set) s)

/-- R260: boot completion pushes the settings and enters `SteadyPolling`; it is enabled in `Booting` with the DSP present
and changes nothing otherwise. -/
def Obligations.BootCompletes : Prop :=
  ∀ s : State, s.busy .arb = false →
    (s.arbState = .booting → s.presence.dsp.present = true → exec .arbBootCompletion s =
      .next { afterEnqueues chip (pushedFrames s.set) s with arbState := .steadyPolling }) ∧
    (s.arbState ≠ .booting ∨ s.presence.dsp.present = false → exec .arbBootCompletion s = .next s)

/-- R253, R255: the tick pings the DSP in `Booting` until it is present, and the USB Host and then the DSP in
`SteadyPolling` when no ping is outstanding; nothing is counted. -/
def Obligations.TickPings : Prop :=
  ∀ s : State, s.busy .arb = false →
    (s.arbState = .booting → s.presence.dsp.present = false → exec .pollTick s =
      .next { afterEnqueues chip [checkFrame .dsp] s with
        pingOutstanding := if 1 ≤ roomLeft chip s then true else s.pingOutstanding }) ∧
    (s.arbState = .booting → s.presence.dsp.present = true → exec .pollTick s = .next s) ∧
    (s.arbState = .steadyPolling → s.pingOutstanding = false → exec .pollTick s =
      .next { afterEnqueues chip [checkFrame .usb, checkFrame .dsp] s with
        pingOutstanding := decide (2 ≤ roomLeft chip s) })

/-- R255, R256, R259, R373: a tick that finds a DSP ping unanswered counts a failure and pings again; the fifth raises the
terminal error, escalates, shuts down and queues the power-off frame as the last, with no further ping. -/
def Obligations.TickCountsFailures : Prop :=
  ∀ s : State, s.busy .arb = false → s.arbState = .steadyPolling → s.pingOutstanding = true →
    let counted := { s with
      pingOutstanding := false
      presence := { s.presence with dsp := ⟨false, s.presence.dsp.fails + 1⟩ }
      err := { s.err with presenceTimeout := true }
      out := s.out ++ [.log .presenceTimeout (.peer .dsp)] ++
        (if s.presence.dsp.present then [.presenceChanged .dsp false] else []) }
    (s.presence.dsp.fails ≠ 4 → exec .pollTick s =
      .next { afterEnqueues chip [checkFrame .usb, checkFrame .dsp] counted with
        pingOutstanding := decide (2 ≤ roomLeft chip s) }) ∧
    (s.presence.dsp.fails = 4 → exec .pollTick s =
      .next (afterEnqueues chip [⟨[0x00, 0x80, 0x00, 0x06, 0x6E, 0xF4], false⟩] { counted with
        arbState := .shuttingDown
        err := { counted.err with presenceFailureTerminal := true }
        out := counted.out ++ [.log .presenceFailureTerminal (.peer .dsp), .escalation .dsp] }))

/-- R269, whole: in `UsbPassthrough` and in `ShuttingDown` the tick does nothing. -/
def Obligations.TickIgnored : Prop :=
  ∀ s : State, s.arbState = .usbPassthrough ∨ s.arbState = .shuttingDown → exec .pollTick s = .next s

/-- R252, R271, log 10: an agent that is inside an operation begins no other, whole or by its first step; in particular a
tick that occurs while the arbiter runs a handler is lost. A wire command the engine would send is not sent while its
caller is busy; one that arrives while the owner of `rxf` is busy stays in `rxf` (R166, R222; log 9), as a draw while
the engine sends (R80). -/
def Obligations.BusyAgentsBeginNothing : Prop :=
  ∀ s : State,
    (s.busy .arb = true → exec .pollTick s = .next s ∧ exec .arbBootCompletion s = .next s) ∧
    (s.busy .txa = true → ∀ b : Bool, exec .txaDrain s = .next s ∧ exec .txaStart s = .next s ∧
      exec (.txaSendChar b) s = .next s ∧ exec .txaEchoChar s = .next s ∧ exec .txaEchoTimeout s = .next s ∧
      exec .txaRespChar s = .next s ∧ exec .txaRespTimeout s = .next s ∧ exec .dequeueAllReady s = .next s) ∧
    (s.busy .lst = true → exec .lstChar s = .next s) ∧
    (s.busy s.owner = true → ∀ f : List Byte, exec (.dispatch f) s = .next s) ∧
    (∀ a : Agent, s.busy a = true → ∀ (f : List Byte) (w : Bool) (p : Peer), exec (.tryLock a) s = .next s ∧
      exec (.unlock a) s = .next s ∧ exec (.enqueue a f w) s = .next s ∧ exec (.ping a p) s = .next s ∧
      exec (.pushSettings a) s = .next s) ∧
    (∀ h : Nat, s.busy (.host h) = true → ∀ v : Byte, exec (.setVolume h v) s = .next s ∧
      exec (.setBalance h v) s = .next s ∧ exec (.setFader h v) s = .next s ∧ exec (.setSubVolume h v) s = .next s ∧
      exec (.setMemory h v) s = .next s ∧ exec (.powerOffMainUnit h) s = .next s ∧
      exec (.requestSourceChange h) s = .next s ∧ exec (.checkPresence h v) s = .next s) ∧
    (∀ (i : Instr) (o : Opening), i.wireParts = none → openingOf i s = some o → s.busy o.agent = true →
      startInstr i s = .next s) ∧
    ∀ (i : Instr) (hd : Header) (code : Byte) (args : List Byte), i.wireParts = some (hd, code, args) →
      (EngineBuilds chip hd code args → s.busy (.host 0) = true → exec i s = .next s ∧ startInstr i s = .next s) ∧
      (¬ EngineBuilds chip hd code args → s.busy s.owner = true → s.decPos = .idle → s.txaPhase ≠ .sending →
        ∃ sh : BitVec 9,
          let kept := { afterPush chip (frameChars (commandFrame hd code args)) s with decShift := sh }
          exec i s = .next kept ∧ startInstr i s = .next kept) ∧
      (¬ EngineBuilds chip hd code args → s.busy s.owner = true → s.txaPhase = .sending →
        exec i s = .next (afterContention chip s) ∧ startInstr i s = .next (afterContention chip s))

/-! ### Dispatcher: what an inbound frame does

`dispatch` is run by the agent that owns `rxf`, and only where that agent parses (R292, R222, R261), so that agent must
parse and must not be inside an operation. Called by name it ends no response wait (log 24). How a frame comes to be dispatched is said below, under wire commands. -/

/-- R264, R257, R293, R294: an IsPresent addressed to the engine confirms its sender's presence, whatever else it
carries; from the DSP it closes the polling window; in `ShuttingDown` it is ignored. -/
def Obligations.PresenceConfirmed : Prop :=
  ∀ (rsv : Byte) (args : List Byte) (s : State), s.busy s.owner = false → s.parses = true →
    (s.arbState ≠ .shuttingDown →
      exec (.dispatch (frameBytes 0x80 0x00 rsv (0x12 :: args))) s = .next { s with
        presence := { s.presence with mc := ⟨true, 0⟩ }
        out := s.out ++ (if s.presence.mc.present then [] else [.presenceChanged .mc true]) } ∧
      exec (.dispatch (frameBytes 0x80 0x46 rsv (0x12 :: args))) s = .next { s with
        presence := { s.presence with dsp := ⟨true, 0⟩ }
        pingOutstanding := false
        out := s.out ++ (if s.presence.dsp.present then [] else [.presenceChanged .dsp true]) }) ∧
    (s.arbState = .shuttingDown → ∀ tx : Byte, tx = 0x00 ∨ tx = 0x46 ∨ tx = 0x5A →
      exec (.dispatch (frameBytes 0x80 tx rsv (0x12 :: args))) s = .next s)

/-- R262, R295: an IsPresent from the USB Host in `SteadyPolling` is the attach transition, one step: the connected flag,
the request to disable input, and only then the suspension of polling. Called by name in a response wait, `dispatch` leaves
TXA's phase as it is (log 24). -/
def Obligations.AttachTransition : Prop :=
  ∀ (rsv : Byte) (args : List Byte) (s : State), s.busy s.owner = false → s.parses = true → s.arbState = .steadyPolling →
    exec (.dispatch (frameBytes 0x80 0x5A rsv (0x12 :: args))) s = .next { s with
      presence := { s.presence with usb := ⟨true, 0⟩ }
      set := { s.set with usbConnected := true }
      busMode := .usbPassthrough
      arbState := .usbPassthrough
      pingOutstanding := false
      txaSuspended := true
      lstActive := true
      frxCount := 0
      frxState := .awaitingAddress
      out := s.out ++ (if s.presence.usb.present then [] else [.presenceChanged .usb true]) ++
        [.settingChanged .usbConnected, .inputDisableReq, .modeChanged .usbPassthrough] }

/-- R263: in `Booting` and in `UsbPassthrough` an IsPresent from the USB Host confirms presence and no more. -/
def Obligations.AttachOnlyFromPolling : Prop :=
  ∀ (rsv : Byte) (args : List Byte) (s : State), s.busy s.owner = false → s.parses = true →
    s.arbState = .booting ∨ s.arbState = .usbPassthrough →
    exec (.dispatch (frameBytes 0x80 0x5A rsv (0x12 :: args))) s = .next { s with
      presence := { s.presence with usb := ⟨true, 0⟩ }
      out := s.out ++ (if s.presence.usb.present then [] else [.presenceChanged .usb true]) }

/-- R266, R297: an IsDisconnected from the USB Host in `UsbPassthrough` is the detach transition: the settings push (run
with no other agent in between, log 2), and then in one step the flag, the request to enable input, the mode, the end of
listening with a fresh receiver and an empty `rxf`, and the end of TXA's hold. -/
def Obligations.DetachTransition : Prop :=
  ∀ (rsv : Byte) (args : List Byte) (s : State), s.busy s.owner = false → s.parses = true → s.arbState = .usbPassthrough →
    exec (.dispatch (frameBytes 0x80 0x5A rsv (0x35 :: args))) s = .next
      { afterEnqueues chip (pushedFrames s.set) s with
        set := { s.set with usbConnected := false }
        presence := { s.presence with usb := { s.presence.usb with present := false } }
        busMode := .busMaster
        arbState := .steadyPolling
        lstActive := false
        frxCount := 0
        frxState := .awaitingAddress
        rxf := []
        txaSuspended := false
        out := (afterEnqueues chip (pushedFrames s.set) s).out ++
          [.settingChanged .usbConnected, .inputEnableReq, .presenceChanged .usb false, .modeChanged .busMaster] }

/-- R267, whole: in any other state the detach trigger changes nothing. -/
def Obligations.DetachIgnored : Prop :=
  ∀ (rsv : Byte) (args : List Byte) (s : State), s.arbState ≠ .usbPassthrough →
    exec (.dispatch (frameBytes 0x80 0x5A rsv (0x35 :: args))) s = .next s

/-- R296, whole: the input-source name from the DSP, at least 16 bytes of it, is stored and announced; a shorter payload
is rejected. -/
def Obligations.SourceNameStored : Prop :=
  ∀ (rsv : Byte) (args : List Byte) (s : State), s.busy s.owner = false → s.parses = true →
    let f := frameBytes 0x80 0x46 rsv (0x09 :: args)
    (16 ≤ args.length → exec (.dispatch f) s = .next { s with
      set := { s.set with sourceName := args.take 16 }
      out := s.out ++ [.settingChanged .sourceName] }) ∧
    (args.length < 16 → exec (.dispatch f) s = .next { s with
      err := { s.err with inboundRejected := true }
      out := s.out ++ [.log .inboundRejected (.bytes f)] })

/-- R300, R301, whole: a MasterVolume or a SubVolume from the USB Host to the Master Controller is mirrored when its value
is legal; a missing or illegal value is rejected. -/
def Obligations.VolumesSniffed : Prop :=
  ∀ (rsv : Byte) (args : List Byte) (s : State), s.busy s.owner = false → s.parses = true →
    let f := frameBytes 0x00 0x5A rsv (0x0A :: args)
    let g := frameBytes 0x00 0x5A rsv (0x0D :: args)
    let rejected : List Byte → State := fun x => { s with
      err := { s.err with inboundRejected := true }
      out := s.out ++ [.log .inboundRejected (.bytes x)] }
    exec (.dispatch f) s = .next (match args with
      | [] => rejected f
      | v :: _ => if 0x78 < v.toNat then rejected f
        else { s with set := { s.set with masterVolume := v }, out := s.out ++ [.settingChanged .masterVolume] }) ∧
    exec (.dispatch g) s = .next (match args with
      | [] => rejected g
      | v :: _ => if 0x18 < v.toNat then rejected g
        else { s with set := { s.set with subVolume := v }, out := s.out ++ [.settingChanged .subVolume] })

/-- R302, whole: the same of ChangeMemory, whose wire value is the bank plus one, 1 to
`MEM_BANKS`. -/
def Obligations.ChangeMemorySniffed : Prop :=
  ∀ (rsv : Byte) (args : List Byte) (s : State), s.busy s.owner = false → s.parses = true →
    let f := frameBytes 0x00 0x5A rsv (0x0F :: args)
    let rejected : State := { s with
      err := { s.err with inboundRejected := true }
      out := s.out ++ [.log .inboundRejected (.bytes f)] }
    exec (.dispatch f) s = .next (match args with
      | [] => rejected
      | v :: _ => if v.toNat < 1 ∨ chip.memBanks < v.toNat then rejected
        else { s with
          set := { s.set with memoryBank := BitVec.ofNat 8 (v.toNat - 1) }
          out := s.out ++ [.settingChanged .memoryBank] })

/-- R298, R299, whole: FirmwareVersion and UsbConnected from the USB Host are passed on and change no engine state. -/
def Obligations.PeerMessagesPassedOn : Prop :=
  ∀ (rsv : Byte) (args : List Byte) (s : State), s.busy s.owner = false → s.parses = true →
    exec (.dispatch (frameBytes 0x80 0x5A rsv (0x14 :: args))) s = .next { s with
      out := s.out ++ [.peerMessage 0x5A 0x14 args] } ∧
    exec (.dispatch (frameBytes 0x80 0x5A rsv (0x13 :: args))) s = .next { s with
      out := s.out ++ [.peerMessage 0x5A 0x13 args] }

/-- R303, R310: a frame that is on none of the ten routes of R293 to R302, or has no command at all, raises
`UnknownCommand` and changes nothing else. -/
def Obligations.UnroutedDiscarded : Prop :=
  ∀ (rx tx rsv : Byte) (s : State), s.busy s.owner = false → s.parses = true →
    let routes : List (Byte × Byte × Byte) :=
      [(0x80, 0x00, 0x12), (0x80, 0x46, 0x12), (0x80, 0x5A, 0x12), (0x80, 0x46, 0x09), (0x80, 0x5A, 0x35),
       (0x80, 0x5A, 0x14), (0x80, 0x5A, 0x13), (0x00, 0x5A, 0x0A), (0x00, 0x5A, 0x0D), (0x00, 0x5A, 0x0F)]
    let discarded : List Byte → State := fun f => { s with
      err := { s.err with unknownCommand := true }
      out := s.out ++ [.log .unknownCommand (.bytes f)] }
    (∀ (code : Byte) (args : List Byte), (rx, tx, code) ∉ routes →
      exec (.dispatch (frameBytes rx tx rsv (code :: args))) s =
        .next (discarded (frameBytes rx tx rsv (code :: args)))) ∧
    exec (.dispatch (frameBytes rx tx rsv [])) s = .next (discarded (frameBytes rx tx rsv []))

/-! ### Wire commands -/

/-- Log 9: a wire command whose header and layout are those of a frame the engine itself builds (R61, R62, R98, R101,
R103) is sent by HOST(0) as the host operation of that command sends it, to the one receiver of its header: the settings
to either peer that gets them, a memory bank to an address of `SET_DESTS`, a source change to `SRC_CHANGE_DEST`, a
presence check to any peer, a power-off to the Master Controller. In `ShuttingDown` each of them is rejected first, as
R320 says of the host operations. -/
def Obligations.WireCommandsSent : Prop :=
  (∀ (p : Peer) (v : Byte) (s : State), s.busy (.host 0) = false → s.arbState = .shuttingDown →
    let hd : Header := ⟨peerAddr p, 0x80, 0x00⟩
    let dead : HostOp → State := fun op =>
      { s with
        err := { s.err with engineInert := true }
        out := s.out ++ [.log .engineInert (.op op)]
        returns := s.returns ++ [(some (.host 0), .result .engineInert)] }
    (p ≠ .usb → exec (.masterVolume hd [v]) s = .next (dead .setVolume) ∧
      exec (.balance hd [v]) s = .next (dead .setBalance) ∧ exec (.fader hd [v]) s = .next (dead .setFader) ∧
      exec (.subVolume hd [v]) s = .next (dead .setSubVolume)) ∧
    (p ∈ chip.setDests → exec (.changeMemory hd [v]) s = .next (dead .setMemory)) ∧
    (p = chip.srcChangeDest → exec (.changeSource hd []) s = .next (dead .requestSourceChange)) ∧
    exec (.checkPresent hd []) s = .next (dead .checkPresence) ∧
    (p = .mc → exec (.powerOff hd []) s = .next (dead .powerOffMainUnit))) ∧
  ∀ (p : Peer) (v : Byte) (s : State), s.busy (.host 0) = false → s.arbState ≠ .shuttingDown →
    let hd : Header := ⟨peerAddr p, 0x80, 0x00⟩
    let sends : List QueuedFrame → State := fun fs =>
      { afterEnqueues chip fs s with returns := s.returns ++ [(some (.host 0), .result (enqueuesResult chip fs s))] }
    let value : Byte → List QueuedFrame := fun cmd => [⟨frameBytes (peerAddr p) 0x80 0x00 [cmd, v], false⟩]
    let range : HostOp → State := fun op =>
      { s with
        err := { s.err with valueOutOfRange := true }
        out := s.out ++ [.log .valueOutOfRange (.opValue op v)]
        returns := s.returns ++ [(some (.host 0), .result .valueOutOfRange)] }
    (p ≠ .usb →
      exec (.masterVolume hd [v]) s = .next (if v.toNat ≤ 0x78 then sends (value 0x0A) else range .setVolume) ∧
      exec (.balance hd [v]) s = .next (if v.toNat ≤ 0x24 then sends (value 0x0B) else range .setBalance) ∧
      exec (.fader hd [v]) s = .next (if v.toNat ≤ 0x24 then sends (value 0x0C) else range .setFader) ∧
      exec (.subVolume hd [v]) s = .next (if v.toNat ≤ 0x18 then sends (value 0x0D) else range .setSubVolume)) ∧
    (p ∈ chip.setDests → exec (.changeMemory hd [v]) s =
      .next (if 1 ≤ v.toNat ∧ v.toNat ≤ chip.memBanks then sends (value 0x0F) else range .setMemory)) ∧
    (p = chip.srcChangeDest → exec (.changeSource hd []) s =
      .next (sends (⟨frameBytes (peerAddr p) 0x80 0x00 [0x10], true⟩ :: pushedFrames s.set))) ∧
    exec (.checkPresent hd []) s = .next (sends [⟨frameBytes (peerAddr p) 0x80 0x00 [0x11], true⟩]) ∧
    (p = .mc → exec (.powerOff hd []) s = .next (sends [⟨[0x00, 0x80, 0x00, 0x06, 0x6E, 0xF4], false⟩]))

/-- R222, R185, R187, R231, R232, R235, R290; log 9: every other wire command, any of the fourteen, is a frame that
arrives. Where the engine does not parse, its characters stay in `rxf`, or a draw does while the engine sends (R80), and a
`dispatch` called by name does nothing (log 10). Where the engine is ready for it, the frame passes through the receiver
and is dispatched, and a response wait ends; a frame longer than the buffer is aborted at its length byte, nothing beyond
that byte is stored, and a response wait goes on. -/
def Obligations.WireCommandsReceived : Prop :=
  (∀ (f : List Byte) (s : State), s.parses = false → exec (.dispatch f) s = .next s) ∧
  ∀ (i : Instr) (hd : Header) (code : Byte) (args : List Byte) (s : State),
    i.wireParts = some (hd, code, args) → ¬ EngineBuilds chip hd code args →
    let f := commandFrame hd code args
    (s.parses = false → s.decPos = .idle → s.txaPhase ≠ .sending → ∃ sh : BitVec 9,
      exec i s = .next { afterPush chip (frameChars f) s with decShift := sh }) ∧
    (s.parses = false → s.txaPhase = .sending → exec i s = .next (afterContention chip s)) ∧
    (Ready chip s → i.wf = true → ∃ (m : Memory) (sh : BitVec 9),
      let stored := { s with frxBuf := m, frxLen := BitVec.ofNat 8 f.length, decShift := sh }
      (∀ (k : Nat) (b : Byte), f[k]? = some b → k < 4 ∨ f.length ≤ chip.rxCap → m.read k = b) ∧
      (∀ k, f.length ≤ k ∨ chip.rxCap < f.length ∧ 4 ≤ k → m.read k = s.frxBuf.read k) ∧
      (f.length ≤ chip.rxCap → ∃ t, exec (.dispatch f) stored = .next t ∧
        exec i s = .next (if s.busMode = .busMaster then { t with txaCur := none, txaPhase := .idle } else t)) ∧
      (chip.rxCap < f.length → exec i s = .next { stored with
        err := { s.err with bufferTooSmall := true }
        out := s.out ++ [.log .bufferTooSmall (.sizes f.length chip.rxCap)] }))

/-! ### Transmit agent and listener -/

/-- R225: with TXA idle, not suspended and its batch not empty, the next entry becomes current, stale characters are
flushed, the receiver is reset and sending begins. Otherwise the step is not enabled and nothing changes (R224; log 10). -/
def Obligations.TransmissionStarts : Prop :=
  (∀ s : State, s.txaPhase ≠ .idle ∨ s.txaSuspended = true ∨ s.txaBatch = [] → exec .txaStart s = .next s) ∧
  ∀ (e : QueuedFrame) (rest : List QueuedFrame) (s : State), s.busy .txa = false → s.txaPhase = .idle →
    s.txaSuspended = false → s.txaBatch = e :: rest →
    exec .txaStart s = .next { s with
      txaCur := some e
      txaBatch := rest
      rxf := []
      frxCount := 0
      frxState := .awaitingAddress
      txaIdx := 0
      txaEidx := 0
      txaEchoBad := false
      txaPhase := .sending }

/-- R226, R80, R164, R221: in phase `Sending` the next character's eleven cells go on the line, which is high again after
them, and what DEC hears goes to `rxf` as far as there is room: the character itself when no peer drives, a draw under
contention (log 7). After the last character the phase is `Echo`. What becomes of DEC's position, and that after a framing
fault DEC hears these cells as any others (R162), is log 20's choice; contention in which no fault is raised leaves DEC so
that the next character that the engine drives alone comes back exactly. Outside `Sending` nothing changes (log 10). -/
def Obligations.CharacterSent : Prop :=
  (∀ (b : Bool) (s : State), s.txaPhase ≠ .sending → exec (.txaSendChar b) s = .next s) ∧
  ∀ (cur : QueuedFrame) (b : Byte) (s : State), s.busy .txa = false → s.txaPhase = .sending →
    s.txaCur = some cur → cur.bytes[s.txaIdx]? = some b →
    let drives : State → State := fun heard => { heard with
      lineOut := true
      waveform := s.waveform ++ charCells b (s.txaIdx == 0)
      txaIdx := s.txaIdx + 1
      txaPhase := if s.txaIdx + 1 = cur.bytes.length then .echo else .sending }
    (s.decPos.afterFault = false → ∃ sh : BitVec 9, exec (.txaSendChar false) s =
      .next (drives { afterPush chip [⟨b, s.txaIdx == 0⟩] s with decPos := .idle, decShift := sh })) ∧
    (s.decPos.afterFault = true → exec (.txaSendChar false) s =
      .next (drives (hearCells chip (charCells b (s.txaIdx == 0)) s))) ∧
    exec (.txaSendChar true) s = .next (drives (afterContention chip s)) ∧
    (s.decPos.afterFault = true ∨ (chip.draw s.draws).faults ≠ [] ∨
      (drives (afterContention chip s)).decPos.afterFault = false)

/-- R227, R229, R230, R222: an echo is compared by its byte alone; the last one ends the check with at most one
`LineEchoMismatch`, and the entry goes on to its response wait, if it has one, or is finished. With no echo due, with no
character in `rxf`, or while TXA does not own `rxf`, nothing changes (log 10). -/
def Obligations.EchoCompared : Prop :=
  (∀ s : State, (s.txaPhase ≠ .sending ∧ s.txaPhase ≠ .echo) ∨ s.txaIdx ≤ s.txaEidx ∨ s.rxf = [] ∨
    s.busMode = .usbPassthrough → exec .txaEchoChar s = .next s) ∧
  ∀ (cur : QueuedFrame) (ch : Character) (rest : List Character) (s : State), s.busy .txa = false →
    s.busMode = .busMaster → s.txaPhase = .sending ∨ s.txaPhase = .echo → s.txaEidx < s.txaIdx →
    s.txaCur = some cur → s.rxf = ch :: rest →
    let bad := s.txaEchoBad || cur.bytes[s.txaEidx]? != some ch.byte
    let compared := { s with rxf := rest, txaEidx := s.txaEidx + 1, txaEchoBad := bad }
    (s.txaPhase = .sending ∨ s.txaEidx + 1 ≠ cur.bytes.length → exec .txaEchoChar s = .next compared) ∧
    (s.txaPhase = .echo → s.txaEidx + 1 = cur.bytes.length → exec .txaEchoChar s = .next { compared with
      err := if bad then { s.err with lineEchoMismatch := true } else s.err
      out := s.out ++ (if bad then [.log .lineEchoMismatch (.bytes cur.bytes)] else [])
      txaCur := if cur.awaits then some cur else none
      txaPhase := if cur.awaits then .awaitResponse else .idle })

/-- R228, R234, R236: with no echo left to compare the check ends as a mismatch; a response wait may end without a reply,
discarding what the receiver holds and raising nothing. Nothing is sent again. Neither step is enabled outside its wait,
nor the first while a character is in `rxf`, and nothing changes then (log 10). The wait that a `dispatch` called by name
left open in UsbPassthrough times out like any other (log 24). -/
def Obligations.WaitsTimeOut : Prop :=
  (∀ s : State, (s.txaPhase ≠ .echo ∨ s.rxf ≠ [] → exec .txaEchoTimeout s = .next s) ∧
    (s.txaPhase ≠ .awaitResponse → exec .txaRespTimeout s = .next s)) ∧
  ∀ s : State, s.busy .txa = false →
    (∀ cur, s.txaPhase = .echo → s.rxf = [] → s.txaCur = some cur → exec .txaEchoTimeout s = .next { s with
      txaEchoBad := true
      err := { s.err with lineEchoMismatch := true }
      out := s.out ++ [.log .lineEchoMismatch (.bytes cur.bytes)]
      txaCur := if cur.awaits then some cur else none
      txaPhase := if cur.awaits then .awaitResponse else .idle }) ∧
    (s.txaPhase = .awaitResponse → exec .txaRespTimeout s = .next { s with
      frxCount := 0, frxState := .awaitingAddress, txaCur := none, txaPhase := .idle })

/-- R231 to R233, R235: in the response wait each character is fed to the receiver; the one that completes a frame takes
it, validates it, dispatches it when it is valid, and ends the wait; an invalid one is reported and discarded. Outside the
wait, with no character in `rxf`, or while TXA does not own `rxf`, nothing changes (R222; log 10). -/
def Obligations.ResponseReceived : Prop :=
  (∀ s : State, s.txaPhase ≠ .awaitResponse ∨ s.rxf = [] ∨ s.busMode = .usbPassthrough → exec .txaRespChar s = .next s) ∧
  ∀ (ch : Character) (rest : List Character) (s : State), s.busy .txa = false → s.busMode = .busMaster →
    s.arbState ≠ .usbPassthrough → s.txaPhase = .awaitResponse → s.rxf = ch :: rest → FrxInv chip s →
    s.frxState ≠ .complete →
    let popped := { s with rxf := rest }
    let f := (List.range s.frxCount).map s.frxBuf.read ++ [ch.byte]
    let taken := { popped with
      frxBuf := s.frxBuf.write s.frxCount ch.byte, frxCount := 0, frxState := .awaitingAddress }
    (s.frxState ≠ .awaitingPayload ∨ s.frxCount + 1 ≠ s.frxLen.toNat → ∃ t,
      exec (.frxStep ch.byte ch.marker) popped = .next t ∧ exec .txaRespChar s = .next t) ∧
    (s.frxState = .awaitingPayload → s.frxCount + 1 = s.frxLen.toNat →
      (verdict f = .frame → ∃ t, exec (.dispatch f) taken = .next t ∧
        exec .txaRespChar s = .next { t with txaCur := none, txaPhase := .idle }) ∧
      (verdict f ≠ .frame → exec .txaRespChar s = .next { taken with
        txaCur := none
        txaPhase := .idle
        err := { s.err with checksumMismatch := true }
        out := s.out ++ [.log .checksumMismatch (.bytes f)] }))

/-- R290, R291: while the listener is active it does the same, with nothing to end; while it is not, or with no
character, it is held (log 10). -/
def Obligations.ListenerReceives : Prop :=
  ∀ s : State, s.busy .lst = false →
    (s.lstActive = false ∨ s.rxf = [] → exec .lstChar s = .next s) ∧
    ∀ (ch : Character) (rest : List Character), s.busMode = .usbPassthrough → s.lstActive = true →
      s.rxf = ch :: rest → FrxInv chip s → s.frxState ≠ .complete →
      let popped := { s with rxf := rest }
      let f := (List.range s.frxCount).map s.frxBuf.read ++ [ch.byte]
      let taken := { popped with
        frxBuf := s.frxBuf.write s.frxCount ch.byte, frxCount := 0, frxState := .awaitingAddress }
      (s.frxState ≠ .awaitingPayload ∨ s.frxCount + 1 ≠ s.frxLen.toNat → ∃ t,
        exec (.frxStep ch.byte ch.marker) popped = .next t ∧ exec .lstChar s = .next t) ∧
      (s.frxState = .awaitingPayload → s.frxCount + 1 = s.frxLen.toNat →
        (verdict f = .frame → ∃ t, exec (.dispatch f) taken = .next t ∧ exec .lstChar s = .next t) ∧
        (verdict f ≠ .frame → exec .lstChar s = .next { taken with
          err := { s.err with checksumMismatch := true }
          out := s.out ++ [.log .checksumMismatch (.bytes f)] }))

/-! ### The step and the decoder -/

/-- The step runs the next event of the script (log 1): the bytes of a frame are decoded and the instruction is run, cells
on the line are heard, an operation named by its caller is run or its first step is taken (log 2), an agent inside an
operation takes its next step, a legal write of the settings store is made (R36). Bytes that decode to nothing arrive on
the line all the same (log 9): where the engine does not parse they stay in `rxf`; where it is ready, a frame with a wrong
checksum (R134, R233) or without a known command (R310) is rejected, and a response wait ends. While the engine sends,
cells of a peer are contention, and a draw is heard in their place (R80, R386; log 7). -/
def Obligations.StepRunsDecoded : Prop :=
  ∀ s : State,
    (s.script = [] → step s = .next s) ∧
    (∀ (i : Instr) (rest : List Event), i.wf = true → s.script = .call i :: rest →
      step s = exec i { s with script := rest }) ∧
    (∀ (i : Instr) (rest : List Event), i.wf = true → s.script = .start i :: rest →
      let v := { s with script := rest }
      (openingOf i v = none → step s = exec i v) ∧
      (∀ (o : Opening) (b : Begun), openingOf i v = some o → v.busy o.agent = false → o.first = .next b →
        step s = .next (if b.rest = [] then b.state else b.state.setTask o.agent ⟨b.rest, true, true⟩))) ∧
    (∀ (a : Agent) (rest : List Event), s.script = .agent a :: rest →
      step s = .next (agentStep chip a { s with script := rest })) ∧
    (∀ (w : StoreWrite) (rest : List Event), w.legal chip.memBanks = true → s.script = .store w :: rest →
      step s = .next { s with script := rest, set := s.set.store w }) ∧
    (∀ (cells : List Level) (rest : List Event), s.script = .line cells :: rest →
      let v := { s with script := rest }
      step s = .next (if s.txaPhase = .sending ∧ cells ≠ [] then afterContention chip v else hearCells chip cells v)) ∧
    ∀ (bytes : List Byte) (rest : List Event), s.script = .wire bytes :: rest →
      (∀ i, decode bytes = .ok i → i.wf = true ∧ step s = exec i { s with script := rest }) ∧
      ∀ er, decode bytes = .error er →
        let v := { s with script := rest }
        let ends : State → State := fun t =>
          if s.busMode = .busMaster then { t with txaCur := none, txaPhase := .idle } else t
        step s = (openArrival chip bytes v).whole chip v ∧
        (s.busy s.owner = true ∨ s.parses = false → s.decPos = .idle → s.txaPhase ≠ .sending → ∃ sh : BitVec 9,
          step s = .next { afterPush chip (frameChars bytes) v with decShift := sh }) ∧
        (s.busy s.owner = true ∨ s.parses = false → s.txaPhase = .sending → bytes ≠ [] →
          step s = .next (afterContention chip v)) ∧
        (Ready chip s → bytes.length ≤ chip.rxCap → (bytes[3]?).map BitVec.toNat = some bytes.length → 5 ≤ bytes.length →
          ∃ (m : Memory) (sh : BitVec 9),
            let stored := { v with frxBuf := m, frxLen := BitVec.ofNat 8 bytes.length, decShift := sh }
            (∀ (k : Nat) (b : Byte), bytes[k]? = some b → m.read k = b) ∧
            (∀ k, bytes.length ≤ k → m.read k = s.frxBuf.read k) ∧
            (er = .badChecksum → step s = .next (ends { stored with
              err := { s.err with checksumMismatch := true }
              out := s.out ++ [.log .checksumMismatch (.bytes bytes)] })) ∧
            (er = .noCommand ∨ (∃ code, er = .unknownCommand code) → step s = .next (ends { stored with
              err := { s.err with unknownCommand := true }
              out := s.out ++ [.log .unknownCommand (.bytes bytes)] })))

/-- R95 to R101: frames written out byte by byte from the encoding rules decode to the command they carry. -/
def Obligations.WrittenFramesDecode : Prop :=
  decode [0x00, 0x80, 0x00, 0x07, 0x0A, 0x32, 0xC3] = .ok (.masterVolume ⟨0x00, 0x80, 0x00⟩ [0x32]) ∧
  decode [0x46, 0x80, 0x00, 0x06, 0x11, 0xDD] = .ok (.checkPresent ⟨0x46, 0x80, 0x00⟩ []) ∧
  decode [0x80, 0x46, 0x00, 0x06, 0x12, 0xDE] = .ok (.isPresent ⟨0x80, 0x46, 0x00⟩ []) ∧
  decode [0x80, 0x5A, 0x00, 0x06, 0x35, 0x15] = .ok (.isDisconnected ⟨0x80, 0x5A, 0x00⟩ []) ∧
  decode [0x00, 0x5A, 0x00, 0x07, 0x0F, 0x02, 0x72] = .ok (.changeMemory ⟨0x00, 0x5A, 0x00⟩ [0x02]) ∧
  decode [0x00, 0x80, 0x00, 0x07, 0x0A, 0x32, 0xBB] = .error .badChecksum

/-- R95 to R101, R134: decoding and encoding agree in both directions. Every well-formed wire command is read back from
its frame with its header and every argument byte, and bytes that decode are the encoding of what they decode to, which
is well formed. -/
def Obligations.DecodeEncodeAgree : Prop :=
  (∀ (i : Instr) (f : List Byte), i.wf = true → encode i = some f → decode f = .ok i) ∧
  (∀ (bytes : List Byte) (i : Instr), decode bytes = .ok i → i.wf = true ∧ encode i = some bytes)

/-! ### Reset -/

/-- R51: every field to which the spec gives a reset value holds it after reset. -/
def Obligations.ResetValues : Prop :=
  let s := State.reset
  s.lineOut = true ∧ s.rxf = [] ∧ s.decPos = .idle ∧ s.frxState = .awaitingAddress ∧ s.frxCount = 0 ∧ s.frxLen = 0 ∧
  s.q = [] ∧ s.lock = .free ∧ s.txaSuspended = false ∧ s.txaPhase = .idle ∧ s.txaBatch = [] ∧ s.txaCur = none ∧
  s.txaIdx = 0 ∧ s.txaEidx = 0 ∧ s.txaEchoBad = false ∧ s.lstActive = false ∧ s.arbState = .booting ∧
  s.busMode = .busMaster ∧ (∀ p, (s.presence.get p).present = false ∧ (s.presence.get p).fails = 0) ∧
  s.pingOutstanding = false ∧ s.set.usbConnected = false ∧ (∀ e, s.err.get e = false) ∧ s.out = []

/-- The invariants below hold after reset. That the settings are legal there rests on the values the model names
(log 3). -/
def Obligations.ResetMeetsInvariants : Prop :=
  FrxInv chip State.reset ∧ ModeInv State.reset ∧ PresenceInv State.reset ∧ QueueInv chip State.reset ∧
  TransmitInv State.reset ∧ SettingsInv chip State.reset ∧ decPosLegal State.reset.decPos = true

/-! ### What every step keeps, from every state that meets it -/

/-- R26: the receiver's registers agree with its state, a byte is never stored outside `frx_buf`, and the buffer keeps
its canonical form. R160: DEC stays at one of the ten cells of a character or between characters (or, after a framing
fault, counts fewer than eleven idle cells, log 7). R162: no step brings DEC into a position after a framing fault without
raising one, contention included. -/
def Obligations.ReceiverInvariantKept : Prop :=
  (∀ s t : State, FrxInv chip s → step s = .next t → FrxInv chip t) ∧
  (∀ s t : State, decPosLegal s.decPos = true → step s = .next t → decPosLegal t.decPos = true) ∧
  ∀ s t : State, step s = .next t → t.decPos.afterFault = true → s.decPos.afterFault = true ∨
    (s.faultIndices.length < t.faultIndices.length ∧ t.err.lineFramingFault = true)

/-- R31, R33, R42, R50: bus mode, listener, suspension and connected flag agree with the arbiter's state. R200: TXA is
inside no operation but a drain. -/
def Obligations.ModeInvariantKept : Prop :=
  ∀ s t : State, ModeInv s → step s = .next t → ModeInv t

/-- R250, whole: the arbiter's state stays or takes one of exactly four edges, and each of the four is taken by some
step. -/
def Obligations.FourArbiterEdges : Prop :=
  let edges : List (ArbState × ArbState) :=
    [(.booting, .steadyPolling), (.steadyPolling, .usbPassthrough), (.usbPassthrough, .steadyPolling),
     (.steadyPolling, .shuttingDown)]
  (∀ s t : State, ModeInv s → step s = .next t → t.arbState = s.arbState ∨ (s.arbState, t.arbState) ∈ edges) ∧
  ∀ e ∈ edges, ∃ s t : State, ModeInv s ∧ s.arbState = e.1 ∧ step s = .next t ∧ t.arbState = e.2

/-- R32, R257: once `ShuttingDown`, no step writes the arbiter's state, the bus mode, a presence record,
`ping_outstanding` or the bits that follow the mode. -/
def Obligations.ShutdownIsFinal : Prop :=
  ∀ s t : State, ModeInv s → s.arbState = .shuttingDown → step s = .next t →
    t.arbState = .shuttingDown ∧ t.busMode = s.busMode ∧ t.presence = s.presence ∧ t.pingOutstanding = s.pingOutstanding ∧
    t.set.usbConnected = s.set.usbConnected ∧ t.lstActive = s.lstActive ∧ t.txaSuspended = s.txaSuspended

/-- R34, R46, R50, R373: the DSP's failure counter stays below five until `ShuttingDown` and is five in it, no other
peer's counter moves, and the terminal flag is set exactly in `ShuttingDown`. -/
def Obligations.PresenceInvariantKept : Prop :=
  ∀ s t : State, ModeInv s → PresenceInv s → step s = .next t → PresenceInv t

/-- R24, R28, R202, R211: the queue and `rxf` keep their bounds, and an agent between its `try_lock` and its `unlock`
holds the lock, whatever the others do. -/
def Obligations.QueueInvariantKept : Prop :=
  ∀ s t : State, QueueInv chip s → step s = .next t → QueueInv chip t

/-- R23, R30, R50: every entry waiting or being sent is a valid frame, and TXA's registers fit its phase. -/
def Obligations.TransmitInvariantKept : Prop :=
  ∀ s t : State, TransmitInv s → step s = .next t → TransmitInv t

/-- R37 to R41: the settings registers keep legal values. -/
def Obligations.SettingsStayLegal : Prop :=
  ∀ s t : State, SettingsInv chip s → step s = .next t → SettingsInv chip t

/-- R27, R74, R208, R230, R236, R237: in every step the frames still to be sent, the one in progress first, keep their
order; at most the one in front leaves, none is altered, and new ones join behind. The one in progress leaves only when
its response wait, or its echo check when it awaits no response, ends. The events in which only TXA and DEC act, a frame
that arrives for TXA among them, add no frame, so nothing is sent again. Left out is the drain that hands its batch to a
caller instead of TXA's batch register. -/
def Obligations.NoFrameOvertakes : Prop :=
  ∀ s t : State, TransmitInv s → ModeInv s → (∀ rest, s.script ≠ .call .dequeueAllReady :: rest) →
    (∀ e ∈ s.tasks, ∀ n h, Item.drain .caller n h ∉ e.2.items) → step s = .next t →
    let leaves : QueuedFrame → Prop := fun f =>
      s.txaCur = some f ∧ (s.txaPhase = .awaitResponse ∨ s.txaPhase = .echo ∧ f.awaits = false)
    (∃ n new, n ≤ 1 ∧ t.pendingFrames = s.pendingFrames.drop n ++ new ∧ (n = 1 → ∃ f, leaves f) ∧
      ((∃ e rest, s.script = e :: rest ∧ s.runsTxa chip e) → new = [])) ∧
    ∀ f, s.txaCur = some f → t.txaCur = some f ∨ leaves f

/-- R81, R221, R224: a step drives the line only when TXA is in phase `Sending`, and while TXA is idle and suspended no
step starts a transmission. -/
def Obligations.LineDrivenOnlyWhileSending : Prop :=
  ∀ s t : State, step s = .next t →
    (s.txaPhase ≠ .sending → t.waveform = s.waveform ∧ t.lineOut = s.lineOut) ∧
    (s.txaPhase = .idle → s.txaSuspended = true → t.txaPhase = .idle)
end

