-- ==== Sys2Proof/Laws/Codec.lean ====
section
/-! SUPPORT. Laws of the Frame Codec and of decoding (40_frame_codec.md R130, R134, 30_encoding.md R95). -/
namespace Sys2Proof.Machine

@[simp] theorem checksum_nil : checksum [] = 0 := rfl
@[simp] theorem checksum_cons (b : Byte) (l : List Byte) : checksum (b :: l) = b + checksum l := rfl

/-- `sum8(s ++ t) = (sum8(s) + sum8(t)) mod 256` (R130). -/
theorem checksum_append (l m : List Byte) : checksum (l ++ m) = checksum l + checksum m := by
  induction l with
  | nil => simp
  | cons b l ih => simp [ih, BitVec.add_assoc]

@[simp] theorem frameBytes_length (rx tx rsv : Byte) (p : List Byte) : (frameBytes rx tx rsv p).length = 5 + p.length := by
  simp [frameBytes]; omega

@[simp] theorem frameReceiver_frameBytes (rx tx rsv : Byte) (p : List Byte) : frameReceiver (frameBytes rx tx rsv p) = rx := rfl
@[simp] theorem frameTransmitter_frameBytes (rx tx rsv : Byte) (p : List Byte) :
    frameTransmitter (frameBytes rx tx rsv p) = tx := rfl
@[simp] theorem frameReserved_frameBytes (rx tx rsv : Byte) (p : List Byte) : frameReserved (frameBytes rx tx rsv p) = rsv := rfl
@[simp] theorem framePayload_frameBytes (rx tx rsv : Byte) (p : List Byte) : framePayload (frameBytes rx tx rsv p) = p := by
  show (p ++ [_]).dropLast = p
  exact List.dropLast_concat

/-- What a valid frame is made of (R133, R134). -/
theorem verdict_frame_iff (f : List Byte) : verdict f = .frame ↔
    5 ≤ f.length ∧ checksum f.dropLast = f.getLastD 0 ∧ (f.getD 3 0).toNat = f.length := by
  unfold verdict
  by_cases h1 : f.length < 5
  · rw [if_pos h1]
    exact ⟨(nomatch ·), fun h => absurd h1 (Nat.not_lt.mpr h.1)⟩
  · rw [if_neg h1]
    by_cases h2 : checksum f.dropLast = f.getLastD 0
    · rw [if_neg (not_not.mpr h2)]
      by_cases h3 : (f.getD 3 0).toNat = f.length
      · rw [if_neg (not_not.mpr h3)]
        exact ⟨fun _ => ⟨Nat.le_of_not_lt h1, h2, h3⟩, fun _ => rfl⟩
      · rw [if_pos h3]
        exact ⟨(nomatch ·), fun h => absurd h.2.2 h3⟩
    · rw [if_pos h2]
      exact ⟨(nomatch ·), fun h => absurd h.2.1 h2⟩

/-- A frame with its own length byte and checksum is valid, up to 250 payload bytes. -/
theorem verdict_frameBytes (rx tx rsv : Byte) (p : List Byte) (h : p.length ≤ payloadMax) :
    verdict (frameBytes rx tx rsv p) = .frame := by
  have hm : payloadMax = 250 := rfl
  refine (verdict_frame_iff _).mpr ⟨by rw [frameBytes_length]; omega, ?_, ?_⟩
  · unfold frameBytes
    rw [List.dropLast_concat, List.getLastD_concat]
  · have : (frameBytes rx tx rsv p).getD 3 0 = BitVec.ofNat 8 (5 + p.length) := rfl
    rw [this, frameBytes_length, BitVec.toNat_ofNat]
    omega

/-- A valid frame is rebuilt from its header and payload. -/
theorem frameBytes_of_verdict (f : List Byte) (h : verdict f = .frame) :
    frameBytes (frameReceiver f) (frameTransmitter f) (frameReserved f) (framePayload f) = f ∧
      (framePayload f).length ≤ payloadMax := by
  obtain ⟨h1, h2, h3⟩ := (verdict_frame_iff f).mp h
  match f, h1 with
  | a :: b :: c :: d :: e :: rest, _ =>
    have hne : (e :: rest) ≠ [] := List.cons_ne_nil _ _
    have hp : framePayload (a :: b :: c :: d :: e :: rest) = (e :: rest).dropLast := rfl
    have hd : d.toNat = rest.length + 5 := h3
    have hlt := d.isLt
    have hlen : (e :: rest).dropLast.length = rest.length := List.length_dropLast
    have hlast : (a :: b :: c :: d :: e :: rest).getLastD 0 = (e :: rest).getLast hne := rfl
    have hd' : BitVec.ofNat 8 (5 + (e :: rest).dropLast.length) = d := by
      apply BitVec.eq_of_toNat_eq
      rw [BitVec.toNat_ofNat, hlen]
      omega
    have hdrop : (a :: b :: c :: d :: e :: rest).dropLast = a :: b :: c :: d :: (e :: rest).dropLast := rfl
    refine ⟨?_, ?_⟩
    · rw [hp]
      show a :: b :: c :: BitVec.ofNat 8 (5 + (e :: rest).dropLast.length) :: ((e :: rest).dropLast ++
        [checksum (a :: b :: c :: BitVec.ofNat 8 (5 + (e :: rest).dropLast.length) :: (e :: rest).dropLast)]) = _
      rw [hd', ← hdrop, h2, hlast, List.dropLast_append_getLast hne]
    · rw [hp, hlen]
      have : payloadMax = 250 := rfl
      omega

/-- `isBuilt` says exactly that `build` returns the bytes for some operands. -/
theorem isBuilt_iff (f : List Byte) : isBuilt f = true ↔ ∃ rx tx p, buildFrame rx tx p = some f := by
  simp only [isBuilt, Bool.and_eq_true, beq_iff_eq]
  constructor
  · rintro ⟨hv, h0⟩
    obtain ⟨he, hp⟩ := frameBytes_of_verdict f hv
    exact ⟨_, _, _, by rw [buildFrame, if_neg (Nat.not_lt.mpr hp), ← h0, he]⟩
  · rintro ⟨rx, tx, p, h⟩
    unfold buildFrame at h
    split at h
    · cases h
    · next hp =>
      obtain rfl := Option.some.inj h
      exact ⟨verdict_frameBytes _ _ _ _ (Nat.not_lt.mp hp), rfl⟩

/-- A frame the engine builds has a payload of at most 250 bytes. -/
theorem commandFrame_verdict (hd : Header) (code : Byte) (args : List Byte) (h : argsFit args = true) :
    verdict (commandFrame hd code args) = .frame :=
  verdict_frameBytes _ _ _ _ (of_decide_eq_true h)

/-- Decoding a command's frame is decoding its command. -/
theorem decode_commandFrame (hd : Header) (code : Byte) (args : List Byte) (h : argsFit args = true) :
    decode (commandFrame hd code args) = decodeCommand hd args code := by
  unfold decode
  rw [commandFrame_verdict hd code args h]
  show decodePayload (headerOf (commandFrame hd code args)) (framePayload (frameBytes _ _ _ _)) = _
  rw [framePayload_frameBytes]
  rfl

end Sys2Proof.Machine
end

