-- ==== Sys2Proof/Laws/Ops.lean ====
section
/-! SUPPORT. What the shared operations do, said once each: room in a FIFO, an uninterrupted run of enqueues and drains,
an operation run whole. -/
namespace Sys2Proof.Machine

theorem hasRoom_iff {α : Type} (l : List α) (n : Nat) : hasRoom l n = true ↔ l.length < n := by
  induction n generalizing l with
  | zero => cases l <;> simp [hasRoom]
  | succ n ih =>
    cases l with
    | nil => simp [hasRoom]
    | cons x l => simpa [hasRoom] using ih l

/-! ### Enqueues in a row -/

@[simp] theorem afterEnqueues_nil (c : Config) (s : State) : afterEnqueues c [] s = s := by
  simp [afterEnqueues]

theorem mark_mark (f : ErrFlags) (e : Err) : (f.mark e).mark e = f.mark e := by cases e <;> rfl

@[simp] theorem afterEnqueues_lock (c : Config) (fs : List QueuedFrame) (s : State) : (afterEnqueues c fs s).lock = s.lock := rfl
@[simp] theorem afterEnqueues_set (c : Config) (fs : List QueuedFrame) (s : State) : (afterEnqueues c fs s).set = s.set := rfl

theorem roomLeft_afterEnqueues (c : Config) (fs : List QueuedFrame) (s : State) :
    roomLeft c (afterEnqueues c fs s) = roomLeft c s - fs.length := by
  simp only [roomLeft, afterEnqueues]
  split
  · rw [List.length_append, List.length_take]
    omega
  · simp

/-- Enqueuing in two parts is enqueuing the whole. -/
theorem afterEnqueues_append (c : Config) (fs gs : List QueuedFrame) (s : State) :
    afterEnqueues c (fs ++ gs) s = afterEnqueues c gs (afterEnqueues c fs s) := by
  have hr := roomLeft_afterEnqueues c fs s
  have hq : s.q ++ (fs ++ gs).take (roomLeft c s) =
      (s.q ++ fs.take (roomLeft c s)) ++ gs.take (roomLeft c s - fs.length) := by
    rw [List.take_append, List.append_assoc]
  have ho : ∀ m : QueuedFrame → OutEvent, s.out ++ ((fs ++ gs).drop (roomLeft c s)).map m =
      (s.out ++ (fs.drop (roomLeft c s)).map m) ++ (gs.drop (roomLeft c s - fs.length)).map m := by
    intro m
    rw [List.drop_append, List.map_append, List.append_assoc]
  have he : (if (fs ++ gs).length ≤ roomLeft c s then s.err else s.err.mark .queueFull) =
      (if gs.length ≤ roomLeft c s - fs.length then
        (if fs.length ≤ roomLeft c s then s.err else s.err.mark .queueFull)
      else (if fs.length ≤ roomLeft c s then s.err else s.err.mark .queueFull).mark .queueFull) := by
    rw [List.length_append]
    by_cases h1 : fs.length ≤ roomLeft c s
    · rw [if_pos h1]
      by_cases h2 : gs.length ≤ roomLeft c s - fs.length
      · rw [if_pos h2, if_pos (by omega)]
      · rw [if_neg h2, if_neg (by omega)]
    · rw [if_neg h1, if_neg (by omega), mark_mark, ite_self]
  unfold afterEnqueues at hr ⊢
  simp only [hr]
  rw [hq, ho, he]

/-- One uninterrupted `enqueue` with at least one attempt (R203, R211). -/
theorem finishEnqueue_eq (c : Config) (f : QueuedFrame) (n : Nat) (s : State) (hn : 1 ≤ n) :
    finishEnqueue c f n false s = (afterEnqueues c [f] s, decide (1 ≤ roomLeft c s)) := by
  obtain ⟨n, rfl⟩ : ∃ m, n = m + 1 := ⟨n - 1, by omega⟩
  simp only [finishEnqueue, Bool.false_eq_true, if_false]
  by_cases h : s.accepts c = true
  · rw [if_pos h]
    simp only [State.accepts, Bool.and_eq_true, beq_iff_eq, hasRoom_iff] at h
    have hr : roomLeft c s = c.qDepth - s.q.length := if_pos h.1
    have h1 : 1 ≤ roomLeft c s := by omega
    have ht : [f].take (roomLeft c s) = [f] := List.take_of_length_le h1
    have hd : [f].drop (roomLeft c s) = [] := List.drop_of_length_le h1
    simp [afterEnqueues, h1, ht, hd]
  · rw [if_neg h]
    have h0 : roomLeft c s = 0 := by
      simp only [State.accepts, Bool.and_eq_true, beq_iff_eq, hasRoom_iff, not_and, Nat.not_lt] at h
      simp only [roomLeft]
      split
      · next hl => have := h hl; omega
      · rfl
    simp [afterEnqueues, h0, State.raise]

/-- The queue entry of a frame still to be built. -/
def entryOf (st : Settings) (x : Peer × Source × Bool) : QueuedFrame := ⟨engineFrame x.1 (x.2.1.payload st), x.2.2⟩

/-- Frames in a row, then the rest of an agent's steps. -/
theorem runItems_frames (c : Config) (a : Agent) (hc : 1 ≤ c.enqRetryMax) (rest : List Item) :
    ∀ (l : List (Peer × Source × Bool)) (x : Peer × Source × Bool) (last all : Bool) (s : State),
      runItems c a ((x :: l).map (fun y => .frame y.1 y.2.1 y.2.2) ++ rest) last all s =
        runItems c a rest (decide ((x :: l).length ≤ roomLeft c s)) (all && decide ((x :: l).length ≤ roomLeft c s))
          (afterEnqueues c ((x :: l).map (entryOf s.set)) s) := by
  intro l
  induction l with
  | nil =>
    intro x last all s
    simp only [List.map_cons, List.map_nil, List.cons_append, List.nil_append, runItems, List.length_singleton]
    rw [finishEnqueue_eq c _ _ _ hc]
    rfl
  | cons y l ih =>
    intro x last all s
    have step : runItems c a ((x :: y :: l).map (fun y => .frame y.1 y.2.1 y.2.2) ++ rest) last all s =
        runItems c a ((y :: l).map (fun y => .frame y.1 y.2.1 y.2.2) ++ rest) (decide (1 ≤ roomLeft c s))
          (all && decide (1 ≤ roomLeft c s)) (afterEnqueues c [entryOf s.set x] s) := by
      rw [List.map_cons, List.cons_append]
      simp only [runItems]
      rw [finishEnqueue_eq c _ _ _ hc]
      rfl
    rw [step, ih, roomLeft_afterEnqueues, afterEnqueues_set, ← afterEnqueues_append]
    have hl : (x :: y :: l).length = (y :: l).length + 1 := rfl
    have hp : 1 ≤ (y :: l).length := by simp
    have e2 : decide ((y :: l).length ≤ roomLeft c s - [entryOf s.set x].length) =
        decide ((x :: y :: l).length ≤ roomLeft c s) := by
      have h1 : [entryOf s.set x].length = 1 := rfl
      exact decide_eq_decide.mpr (by rw [hl, h1]; omega)
    have e3 : (decide (1 ≤ roomLeft c s) && decide ((x :: y :: l).length ≤ roomLeft c s)) =
        decide ((x :: y :: l).length ≤ roomLeft c s) := by
      rw [← Bool.decide_and]
      exact decide_eq_decide.mpr ⟨fun h => h.2, fun h => ⟨by rw [hl] at h; omega, h⟩⟩
    rw [e2, Bool.and_assoc, e3]
    rfl

/-- The frames of a settings push (R258). -/
theorem runItems_push (c : Config) (a : Agent) (hc : 1 ≤ c.enqRetryMax) (rest : List Item) (last all : Bool) (s : State) :
    runItems c a (pushItems ++ rest) last all s =
      runItems c a rest (decide (8 ≤ roomLeft c s)) (all && decide (8 ≤ roomLeft c s))
        (afterEnqueues c (pushedFrames s.set) s) :=
  runItems_frames c a hc rest
    [(.mc, .setting .subVolume, false), (.mc, .setting .balance, false), (.mc, .setting .fader, false),
     (.dsp, .setting .volume, false), (.dsp, .setting .subVolume, false), (.dsp, .setting .balance, false),
     (.dsp, .setting .fader, false)] (.mc, .setting .volume, false) last all s

/-- One frame of fixed bytes. -/
theorem runItems_frame (c : Config) (a : Agent) (hc : 1 ≤ c.enqRetryMax) (d : Peer) (p : List Byte) (w : Bool)
    (rest : List Item) (last all : Bool) (s : State) :
    runItems c a (.frame d (.fixed p) w :: rest) last all s =
      runItems c a rest (decide (1 ≤ roomLeft c s)) (all && decide (1 ≤ roomLeft c s))
        (afterEnqueues c [⟨engineFrame d p, w⟩] s) :=
  runItems_frames c a hc rest [] (d, .fixed p, w) last all s

/-- An uninterrupted drain with at least one attempt (R206, R207). -/
theorem finishDrain_eq (d : DrainTo) (n : Nat) (s : State) (hn : 1 ≤ n) :
    finishDrain d n false s = if s.lock = .free then deliver d s.q { s with q := [] } else deliver d [] s := by
  obtain ⟨n, rfl⟩ : ∃ m, n = m + 1 := ⟨n - 1, by omega⟩
  rfl

/-- `try_lock` (R201). -/
theorem takeLock_eq (a : Agent) (s : State) :
    takeLock a s = if s.lock = .free then ({ s with lock := .held a }, true) else (s, false) := by
  unfold takeLock
  cases s.lock <;> simp

/-! ### The tasks of the agents stand beside the rest of the state -/

theorem taskOf_setTask (s : State) (a : Agent) (t : Task) (h : t.items ≠ []) : (s.setTask a t).taskOf a = some t := by
  have : t.items.isEmpty = false := by cases h' : t.items <;> simp_all
  simp [State.setTask, State.taskOf, this]

theorem clearTask_setTask (s : State) (a : Agent) (t : Task) : (s.setTask a t).clearTask a = s.clearTask a := by
  unfold State.setTask
  split <;> simp [State.clearTask]

/-- The tasks after an agent is given one: its own, where anything is left to run, and the others'. -/
theorem mem_setTask {s : State} {a : Agent} {t : Task} {e : Agent × Task} (h : e ∈ (s.setTask a t).tasks) :
    (e = (a, t) ∧ t.items ≠ []) ∨ (e ∈ s.tasks ∧ e.1 ≠ a) := by
  unfold State.setTask at h
  split at h
  · simp only [State.clearTask, List.mem_filter, bne_iff_ne, ne_eq] at h
    exact Or.inr h
  · next hne =>
    simp only [List.mem_cons, List.mem_filter, bne_iff_ne, ne_eq] at h
    rcases h with h | h
    · exact Or.inl ⟨h, by simpa using hne⟩
    · exact Or.inr h

/-- The task of an agent is one of the tasks. -/
theorem taskOf_mem {s : State} {a : Agent} {t : Task} (h : s.taskOf a = some t) : (a, t) ∈ s.tasks := by
  unfold State.taskOf at h
  cases hf : s.tasks.find? fun e => e.1 == a with
  | none => rw [hf] at h; cases h
  | some e =>
    rw [hf] at h
    have h1 := List.mem_of_find?_eq_some hf
    have h2 := List.find?_some hf
    obtain ⟨x, y⟩ := e
    simp only [Option.map_some, Option.some.injEq] at h
    simp only [beq_iff_eq] at h2
    subst h h2
    exact h1

theorem openWindow_tasks (s : State) (x : List (Agent × Task)) :
    openWindow { s with tasks := x } = { openWindow s with tasks := x } := by
  unfold openWindow
  split <;> rfl

theorem itemStep_tasks (c : Config) (a : Agent) (t : Task) (s : State) (x : List (Agent × Task)) :
    itemStep c a t { s with tasks := x } = ({ (itemStep c a t s).1 with tasks := x }, (itemStep c a t s).2) := by
  obtain ⟨items, last, all⟩ := t
  match items with
  | [] | .frame _ _ _ :: _ | .enq _ 0 false :: _ | .enterSteady :: _ | .finishDetach :: _ | .ret :: _ => rfl
  | .enq _ _ true :: _ => simp only [itemStep]; split <;> rfl
  | .markPing :: _ =>
    simp only [itemStep]
    split
    · rw [openWindow_tasks]
    · rfl
  | .drain d _ true :: _ | .drain d 0 false :: _ => cases d <;> rfl
  | .enq _ (_ + 1) false :: _ | .drain _ (_ + 1) false :: _ =>
    simp only [itemStep, takeLock_eq]
    by_cases h : s.lock = .free <;> simp [h]

theorem finishEnqueue_tasks (c : Config) (f : QueuedFrame) (l : Nat) (h : Bool) (s : State) (x : List (Agent × Task)) :
    finishEnqueue c f l h { s with tasks := x } =
      ({ (finishEnqueue c f l h s).1 with tasks := x }, (finishEnqueue c f l h s).2) := by
  unfold finishEnqueue State.accepts
  split
  · split <;> rfl
  · cases l
    · rfl
    · simp only; split <;> rfl

theorem finishDrain_tasks (d : DrainTo) (l : Nat) (h : Bool) (s : State) (x : List (Agent × Task)) :
    finishDrain d l h { s with tasks := x } = { finishDrain d l h s with tasks := x } := by
  unfold finishDrain
  split
  · cases d <;> rfl
  · cases l
    · cases d <;> rfl
    · simp only; split <;> cases d <;> rfl

theorem runItems_tasks (c : Config) (a : Agent) (items : List Item) : ∀ (last all : Bool) (s : State) (x : List (Agent × Task)),
    runItems c a items last all { s with tasks := x } = { runItems c a items last all s with tasks := x } := by
  induction items with
  | nil => intros; rfl
  | cons i items ih =>
    intro last all s x
    cases i with
    | frame d src w => simp only [runItems]; rw [finishEnqueue_tasks]; exact ih _ _ _ _
    | enq f l h => simp only [runItems]; rw [finishEnqueue_tasks]; exact ih _ _ _ _
    | drain d l h => simp only [runItems]; rw [finishDrain_tasks]; exact ih _ _ _ _
    | markPing =>
      cases last
      · exact ih _ _ s _
      · simp only [runItems, if_true]
        rw [openWindow_tasks]
        exact ih _ _ (openWindow s) _
    | enterSteady => exact ih _ _ { s with arbState := .steadyPolling } _
    | finishDetach => exact ih _ _ (detachFinal s) _
    | ret => exact ih _ _ (s.giveReturn _ _) _

/-! ### Operations run whole -/

theorem whole_busy (o : Opening) (c : Config) (s : State) (h : s.busy o.agent = true) : o.whole c s = .next o.held :=
  if_pos h

theorem whole_next (o : Opening) (c : Config) (s : State) (b : Begun) (h : s.busy o.agent = false) (hb : o.first = .next b) :
    o.whole c s = .next (runItems c o.agent b.rest true true b.state) := by
  rw [Opening.whole, if_neg (by simp [h]), hb]
  rfl

/-- An operation whose first step cannot stop. -/
theorem whole_mk (a : Agent) (c : Config) (s x : State) (b : Begun) (h : s.busy a = false) :
    (Opening.mk a (.next b) x).whole c s = .next (runItems c a b.rest true true b.state) := whole_next _ c s b h rfl

/-- An operation that is one step. -/
theorem whole_done (a : Agent) (c : Config) (s t x : State) (h : s.busy a = false) :
    (Opening.mk a (.next t.done) x).whole c s = .next t := whole_next _ c s t.done h rfl

end Sys2Proof.Machine
end

