-- ==== Sys2Proof/Laws/State.lean ====
section
/-! SUPPORT. The fields of State after each named update: one lemma per field per update. -/
namespace Sys2Proof.Machine

/-! ### emit -/

@[simp] theorem emit_lineOut (s : State) (e : OutEvent) : (s.emit e).lineOut = s.lineOut := rfl
@[simp] theorem emit_rxf (s : State) (e : OutEvent) : (s.emit e).rxf = s.rxf := rfl
@[simp] theorem emit_decPos (s : State) (e : OutEvent) : (s.emit e).decPos = s.decPos := rfl
@[simp] theorem emit_decShift (s : State) (e : OutEvent) : (s.emit e).decShift = s.decShift := rfl
@[simp] theorem emit_frxState (s : State) (e : OutEvent) : (s.emit e).frxState = s.frxState := rfl
@[simp] theorem emit_frxBuf (s : State) (e : OutEvent) : (s.emit e).frxBuf = s.frxBuf := rfl
@[simp] theorem emit_frxCount (s : State) (e : OutEvent) : (s.emit e).frxCount = s.frxCount := rfl
@[simp] theorem emit_frxLen (s : State) (e : OutEvent) : (s.emit e).frxLen = s.frxLen := rfl
@[simp] theorem emit_q (s : State) (e : OutEvent) : (s.emit e).q = s.q := rfl
@[simp] theorem emit_lock (s : State) (e : OutEvent) : (s.emit e).lock = s.lock := rfl
@[simp] theorem emit_txaSuspended (s : State) (e : OutEvent) : (s.emit e).txaSuspended = s.txaSuspended := rfl
@[simp] theorem emit_txaPhase (s : State) (e : OutEvent) : (s.emit e).txaPhase = s.txaPhase := rfl
@[simp] theorem emit_txaBatch (s : State) (e : OutEvent) : (s.emit e).txaBatch = s.txaBatch := rfl
@[simp] theorem emit_txaCur (s : State) (e : OutEvent) : (s.emit e).txaCur = s.txaCur := rfl
@[simp] theorem emit_txaIdx (s : State) (e : OutEvent) : (s.emit e).txaIdx = s.txaIdx := rfl
@[simp] theorem emit_txaEidx (s : State) (e : OutEvent) : (s.emit e).txaEidx = s.txaEidx := rfl
@[simp] theorem emit_txaEchoBad (s : State) (e : OutEvent) : (s.emit e).txaEchoBad = s.txaEchoBad := rfl
@[simp] theorem emit_lstActive (s : State) (e : OutEvent) : (s.emit e).lstActive = s.lstActive := rfl
@[simp] theorem emit_arbState (s : State) (e : OutEvent) : (s.emit e).arbState = s.arbState := rfl
@[simp] theorem emit_busMode (s : State) (e : OutEvent) : (s.emit e).busMode = s.busMode := rfl
@[simp] theorem emit_presence (s : State) (e : OutEvent) : (s.emit e).presence = s.presence := rfl
@[simp] theorem emit_pingOutstanding (s : State) (e : OutEvent) : (s.emit e).pingOutstanding = s.pingOutstanding := rfl
@[simp] theorem emit_set (s : State) (e : OutEvent) : (s.emit e).set = s.set := rfl
@[simp] theorem emit_err (s : State) (e : OutEvent) : (s.emit e).err = s.err := rfl
@[simp] theorem emit_out (s : State) (e : OutEvent) : (s.emit e).out = s.out ++ [e] := rfl
@[simp] theorem emit_waveform (s : State) (e : OutEvent) : (s.emit e).waveform = s.waveform := rfl
@[simp] theorem emit_returns (s : State) (e : OutEvent) : (s.emit e).returns = s.returns := rfl
@[simp] theorem emit_tasks (s : State) (e : OutEvent) : (s.emit e).tasks = s.tasks := rfl
@[simp] theorem emit_draws (s : State) (e : OutEvent) : (s.emit e).draws = s.draws := rfl
@[simp] theorem emit_faultIndices (s : State) (e : OutEvent) : (s.emit e).faultIndices = s.faultIndices := rfl
@[simp] theorem emit_script (s : State) (e : OutEvent) : (s.emit e).script = s.script := rfl

/-! ### raise -/

@[simp] theorem raise_lineOut (s : State) (e : Err) (i : Info) : (s.raise e i).lineOut = s.lineOut := rfl
@[simp] theorem raise_rxf (s : State) (e : Err) (i : Info) : (s.raise e i).rxf = s.rxf := rfl
@[simp] theorem raise_decPos (s : State) (e : Err) (i : Info) : (s.raise e i).decPos = s.decPos := rfl
@[simp] theorem raise_decShift (s : State) (e : Err) (i : Info) : (s.raise e i).decShift = s.decShift := rfl
@[simp] theorem raise_frxState (s : State) (e : Err) (i : Info) : (s.raise e i).frxState = s.frxState := rfl
@[simp] theorem raise_frxBuf (s : State) (e : Err) (i : Info) : (s.raise e i).frxBuf = s.frxBuf := rfl
@[simp] theorem raise_frxCount (s : State) (e : Err) (i : Info) : (s.raise e i).frxCount = s.frxCount := rfl
@[simp] theorem raise_frxLen (s : State) (e : Err) (i : Info) : (s.raise e i).frxLen = s.frxLen := rfl
@[simp] theorem raise_q (s : State) (e : Err) (i : Info) : (s.raise e i).q = s.q := rfl
@[simp] theorem raise_lock (s : State) (e : Err) (i : Info) : (s.raise e i).lock = s.lock := rfl
@[simp] theorem raise_txaSuspended (s : State) (e : Err) (i : Info) : (s.raise e i).txaSuspended = s.txaSuspended := rfl
@[simp] theorem raise_txaPhase (s : State) (e : Err) (i : Info) : (s.raise e i).txaPhase = s.txaPhase := rfl
@[simp] theorem raise_txaBatch (s : State) (e : Err) (i : Info) : (s.raise e i).txaBatch = s.txaBatch := rfl
@[simp] theorem raise_txaCur (s : State) (e : Err) (i : Info) : (s.raise e i).txaCur = s.txaCur := rfl
@[simp] theorem raise_txaIdx (s : State) (e : Err) (i : Info) : (s.raise e i).txaIdx = s.txaIdx := rfl
@[simp] theorem raise_txaEidx (s : State) (e : Err) (i : Info) : (s.raise e i).txaEidx = s.txaEidx := rfl
@[simp] theorem raise_txaEchoBad (s : State) (e : Err) (i : Info) : (s.raise e i).txaEchoBad = s.txaEchoBad := rfl
@[simp] theorem raise_lstActive (s : State) (e : Err) (i : Info) : (s.raise e i).lstActive = s.lstActive := rfl
@[simp] theorem raise_arbState (s : State) (e : Err) (i : Info) : (s.raise e i).arbState = s.arbState := rfl
@[simp] theorem raise_busMode (s : State) (e : Err) (i : Info) : (s.raise e i).busMode = s.busMode := rfl
@[simp] theorem raise_presence (s : State) (e : Err) (i : Info) : (s.raise e i).presence = s.presence := rfl
@[simp] theorem raise_pingOutstanding (s : State) (e : Err) (i : Info) : (s.raise e i).pingOutstanding = s.pingOutstanding := rfl
@[simp] theorem raise_set (s : State) (e : Err) (i : Info) : (s.raise e i).set = s.set := rfl
@[simp] theorem raise_err (s : State) (e : Err) (i : Info) : (s.raise e i).err = s.err.mark e := rfl
@[simp] theorem raise_out (s : State) (e : Err) (i : Info) : (s.raise e i).out = s.out ++ [.log e i] := rfl
@[simp] theorem raise_waveform (s : State) (e : Err) (i : Info) : (s.raise e i).waveform = s.waveform := rfl
@[simp] theorem raise_returns (s : State) (e : Err) (i : Info) : (s.raise e i).returns = s.returns := rfl
@[simp] theorem raise_tasks (s : State) (e : Err) (i : Info) : (s.raise e i).tasks = s.tasks := rfl
@[simp] theorem raise_draws (s : State) (e : Err) (i : Info) : (s.raise e i).draws = s.draws := rfl
@[simp] theorem raise_faultIndices (s : State) (e : Err) (i : Info) : (s.raise e i).faultIndices = s.faultIndices := rfl
@[simp] theorem raise_script (s : State) (e : Err) (i : Info) : (s.raise e i).script = s.script := rfl

/-! ### giveReturn -/

@[simp] theorem giveReturn_lineOut (s : State) (w : Option Agent) (v : Value) : (s.giveReturn w v).lineOut = s.lineOut := rfl
@[simp] theorem giveReturn_rxf (s : State) (w : Option Agent) (v : Value) : (s.giveReturn w v).rxf = s.rxf := rfl
@[simp] theorem giveReturn_decPos (s : State) (w : Option Agent) (v : Value) : (s.giveReturn w v).decPos = s.decPos := rfl
@[simp] theorem giveReturn_decShift (s : State) (w : Option Agent) (v : Value) : (s.giveReturn w v).decShift = s.decShift := rfl
@[simp] theorem giveReturn_frxState (s : State) (w : Option Agent) (v : Value) : (s.giveReturn w v).frxState = s.frxState := rfl
@[simp] theorem giveReturn_frxBuf (s : State) (w : Option Agent) (v : Value) : (s.giveReturn w v).frxBuf = s.frxBuf := rfl
@[simp] theorem giveReturn_frxCount (s : State) (w : Option Agent) (v : Value) : (s.giveReturn w v).frxCount = s.frxCount := rfl
@[simp] theorem giveReturn_frxLen (s : State) (w : Option Agent) (v : Value) : (s.giveReturn w v).frxLen = s.frxLen := rfl
@[simp] theorem giveReturn_q (s : State) (w : Option Agent) (v : Value) : (s.giveReturn w v).q = s.q := rfl
@[simp] theorem giveReturn_lock (s : State) (w : Option Agent) (v : Value) : (s.giveReturn w v).lock = s.lock := rfl
@[simp] theorem giveReturn_txaSuspended (s : State) (w : Option Agent) (v : Value) : (s.giveReturn w v).txaSuspended = s.txaSuspended := rfl
@[simp] theorem giveReturn_txaPhase (s : State) (w : Option Agent) (v : Value) : (s.giveReturn w v).txaPhase = s.txaPhase := rfl
@[simp] theorem giveReturn_txaBatch (s : State) (w : Option Agent) (v : Value) : (s.giveReturn w v).txaBatch = s.txaBatch := rfl
@[simp] theorem giveReturn_txaCur (s : State) (w : Option Agent) (v : Value) : (s.giveReturn w v).txaCur = s.txaCur := rfl
@[simp] theorem giveReturn_txaIdx (s : State) (w : Option Agent) (v : Value) : (s.giveReturn w v).txaIdx = s.txaIdx := rfl
@[simp] theorem giveReturn_txaEidx (s : State) (w : Option Agent) (v : Value) : (s.giveReturn w v).txaEidx = s.txaEidx := rfl
@[simp] theorem giveReturn_txaEchoBad (s : State) (w : Option Agent) (v : Value) : (s.giveReturn w v).txaEchoBad = s.txaEchoBad := rfl
@[simp] theorem giveReturn_lstActive (s : State) (w : Option Agent) (v : Value) : (s.giveReturn w v).lstActive = s.lstActive := rfl
@[simp] theorem giveReturn_arbState (s : State) (w : Option Agent) (v : Value) : (s.giveReturn w v).arbState = s.arbState := rfl
@[simp] theorem giveReturn_busMode (s : State) (w : Option Agent) (v : Value) : (s.giveReturn w v).busMode = s.busMode := rfl
@[simp] theorem giveReturn_presence (s : State) (w : Option Agent) (v : Value) : (s.giveReturn w v).presence = s.presence := rfl
@[simp] theorem giveReturn_pingOutstanding (s : State) (w : Option Agent) (v : Value) : (s.giveReturn w v).pingOutstanding = s.pingOutstanding := rfl
@[simp] theorem giveReturn_set (s : State) (w : Option Agent) (v : Value) : (s.giveReturn w v).set = s.set := rfl
@[simp] theorem giveReturn_err (s : State) (w : Option Agent) (v : Value) : (s.giveReturn w v).err = s.err := rfl
@[simp] theorem giveReturn_out (s : State) (w : Option Agent) (v : Value) : (s.giveReturn w v).out = s.out := rfl
@[simp] theorem giveReturn_waveform (s : State) (w : Option Agent) (v : Value) : (s.giveReturn w v).waveform = s.waveform := rfl
@[simp] theorem giveReturn_returns (s : State) (w : Option Agent) (v : Value) : (s.giveReturn w v).returns = s.returns ++ [(w, v)] := rfl
@[simp] theorem giveReturn_tasks (s : State) (w : Option Agent) (v : Value) : (s.giveReturn w v).tasks = s.tasks := rfl
@[simp] theorem giveReturn_draws (s : State) (w : Option Agent) (v : Value) : (s.giveReturn w v).draws = s.draws := rfl
@[simp] theorem giveReturn_faultIndices (s : State) (w : Option Agent) (v : Value) : (s.giveReturn w v).faultIndices = s.faultIndices := rfl
@[simp] theorem giveReturn_script (s : State) (w : Option Agent) (v : Value) : (s.giveReturn w v).script = s.script := rfl

/-! ### resetFrx -/

@[simp] theorem resetFrx_lineOut (s : State) : (s.resetFrx).lineOut = s.lineOut := rfl
@[simp] theorem resetFrx_rxf (s : State) : (s.resetFrx).rxf = s.rxf := rfl
@[simp] theorem resetFrx_decPos (s : State) : (s.resetFrx).decPos = s.decPos := rfl
@[simp] theorem resetFrx_decShift (s : State) : (s.resetFrx).decShift = s.decShift := rfl
@[simp] theorem resetFrx_frxState (s : State) : (s.resetFrx).frxState = .awaitingAddress := rfl
@[simp] theorem resetFrx_frxBuf (s : State) : (s.resetFrx).frxBuf = s.frxBuf := rfl
@[simp] theorem resetFrx_frxCount (s : State) : (s.resetFrx).frxCount = 0 := rfl
@[simp] theorem resetFrx_frxLen (s : State) : (s.resetFrx).frxLen = s.frxLen := rfl
@[simp] theorem resetFrx_q (s : State) : (s.resetFrx).q = s.q := rfl
@[simp] theorem resetFrx_lock (s : State) : (s.resetFrx).lock = s.lock := rfl
@[simp] theorem resetFrx_txaSuspended (s : State) : (s.resetFrx).txaSuspended = s.txaSuspended := rfl
@[simp] theorem resetFrx_txaPhase (s : State) : (s.resetFrx).txaPhase = s.txaPhase := rfl
@[simp] theorem resetFrx_txaBatch (s : State) : (s.resetFrx).txaBatch = s.txaBatch := rfl
@[simp] theorem resetFrx_txaCur (s : State) : (s.resetFrx).txaCur = s.txaCur := rfl
@[simp] theorem resetFrx_txaIdx (s : State) : (s.resetFrx).txaIdx = s.txaIdx := rfl
@[simp] theorem resetFrx_txaEidx (s : State) : (s.resetFrx).txaEidx = s.txaEidx := rfl
@[simp] theorem resetFrx_txaEchoBad (s : State) : (s.resetFrx).txaEchoBad = s.txaEchoBad := rfl
@[simp] theorem resetFrx_lstActive (s : State) : (s.resetFrx).lstActive = s.lstActive := rfl
@[simp] theorem resetFrx_arbState (s : State) : (s.resetFrx).arbState = s.arbState := rfl
@[simp] theorem resetFrx_busMode (s : State) : (s.resetFrx).busMode = s.busMode := rfl
@[simp] theorem resetFrx_presence (s : State) : (s.resetFrx).presence = s.presence := rfl
@[simp] theorem resetFrx_pingOutstanding (s : State) : (s.resetFrx).pingOutstanding = s.pingOutstanding := rfl
@[simp] theorem resetFrx_set (s : State) : (s.resetFrx).set = s.set := rfl
@[simp] theorem resetFrx_err (s : State) : (s.resetFrx).err = s.err := rfl
@[simp] theorem resetFrx_out (s : State) : (s.resetFrx).out = s.out := rfl
@[simp] theorem resetFrx_waveform (s : State) : (s.resetFrx).waveform = s.waveform := rfl
@[simp] theorem resetFrx_returns (s : State) : (s.resetFrx).returns = s.returns := rfl
@[simp] theorem resetFrx_tasks (s : State) : (s.resetFrx).tasks = s.tasks := rfl
@[simp] theorem resetFrx_draws (s : State) : (s.resetFrx).draws = s.draws := rfl
@[simp] theorem resetFrx_faultIndices (s : State) : (s.resetFrx).faultIndices = s.faultIndices := rfl
@[simp] theorem resetFrx_script (s : State) : (s.resetFrx).script = s.script := rfl

/-! ### storeFrx -/

@[simp] theorem storeFrx_lineOut (s : State) (b : Byte) : (s.storeFrx b).lineOut = s.lineOut := rfl
@[simp] theorem storeFrx_rxf (s : State) (b : Byte) : (s.storeFrx b).rxf = s.rxf := rfl
@[simp] theorem storeFrx_decPos (s : State) (b : Byte) : (s.storeFrx b).decPos = s.decPos := rfl
@[simp] theorem storeFrx_decShift (s : State) (b : Byte) : (s.storeFrx b).decShift = s.decShift := rfl
@[simp] theorem storeFrx_frxState (s : State) (b : Byte) : (s.storeFrx b).frxState = s.frxState := rfl
@[simp] theorem storeFrx_frxBuf (s : State) (b : Byte) : (s.storeFrx b).frxBuf = s.frxBuf.write s.frxCount b := rfl
@[simp] theorem storeFrx_frxCount (s : State) (b : Byte) : (s.storeFrx b).frxCount = s.frxCount + 1 := rfl
@[simp] theorem storeFrx_frxLen (s : State) (b : Byte) : (s.storeFrx b).frxLen = s.frxLen := rfl
@[simp] theorem storeFrx_q (s : State) (b : Byte) : (s.storeFrx b).q = s.q := rfl
@[simp] theorem storeFrx_lock (s : State) (b : Byte) : (s.storeFrx b).lock = s.lock := rfl
@[simp] theorem storeFrx_txaSuspended (s : State) (b : Byte) : (s.storeFrx b).txaSuspended = s.txaSuspended := rfl
@[simp] theorem storeFrx_txaPhase (s : State) (b : Byte) : (s.storeFrx b).txaPhase = s.txaPhase := rfl
@[simp] theorem storeFrx_txaBatch (s : State) (b : Byte) : (s.storeFrx b).txaBatch = s.txaBatch := rfl
@[simp] theorem storeFrx_txaCur (s : State) (b : Byte) : (s.storeFrx b).txaCur = s.txaCur := rfl
@[simp] theorem storeFrx_txaIdx (s : State) (b : Byte) : (s.storeFrx b).txaIdx = s.txaIdx := rfl
@[simp] theorem storeFrx_txaEidx (s : State) (b : Byte) : (s.storeFrx b).txaEidx = s.txaEidx := rfl
@[simp] theorem storeFrx_txaEchoBad (s : State) (b : Byte) : (s.storeFrx b).txaEchoBad = s.txaEchoBad := rfl
@[simp] theorem storeFrx_lstActive (s : State) (b : Byte) : (s.storeFrx b).lstActive = s.lstActive := rfl
@[simp] theorem storeFrx_arbState (s : State) (b : Byte) : (s.storeFrx b).arbState = s.arbState := rfl
@[simp] theorem storeFrx_busMode (s : State) (b : Byte) : (s.storeFrx b).busMode = s.busMode := rfl
@[simp] theorem storeFrx_presence (s : State) (b : Byte) : (s.storeFrx b).presence = s.presence := rfl
@[simp] theorem storeFrx_pingOutstanding (s : State) (b : Byte) : (s.storeFrx b).pingOutstanding = s.pingOutstanding := rfl
@[simp] theorem storeFrx_set (s : State) (b : Byte) : (s.storeFrx b).set = s.set := rfl
@[simp] theorem storeFrx_err (s : State) (b : Byte) : (s.storeFrx b).err = s.err := rfl
@[simp] theorem storeFrx_out (s : State) (b : Byte) : (s.storeFrx b).out = s.out := rfl
@[simp] theorem storeFrx_waveform (s : State) (b : Byte) : (s.storeFrx b).waveform = s.waveform := rfl
@[simp] theorem storeFrx_returns (s : State) (b : Byte) : (s.storeFrx b).returns = s.returns := rfl
@[simp] theorem storeFrx_tasks (s : State) (b : Byte) : (s.storeFrx b).tasks = s.tasks := rfl
@[simp] theorem storeFrx_draws (s : State) (b : Byte) : (s.storeFrx b).draws = s.draws := rfl
@[simp] theorem storeFrx_faultIndices (s : State) (b : Byte) : (s.storeFrx b).faultIndices = s.faultIndices := rfl
@[simp] theorem storeFrx_script (s : State) (b : Byte) : (s.storeFrx b).script = s.script := rfl

/-! ### clearTask -/

@[simp] theorem clearTask_lineOut (s : State) (a : Agent) : (s.clearTask a).lineOut = s.lineOut := rfl
@[simp] theorem clearTask_rxf (s : State) (a : Agent) : (s.clearTask a).rxf = s.rxf := rfl
@[simp] theorem clearTask_decPos (s : State) (a : Agent) : (s.clearTask a).decPos = s.decPos := rfl
@[simp] theorem clearTask_decShift (s : State) (a : Agent) : (s.clearTask a).decShift = s.decShift := rfl
@[simp] theorem clearTask_frxState (s : State) (a : Agent) : (s.clearTask a).frxState = s.frxState := rfl
@[simp] theorem clearTask_frxBuf (s : State) (a : Agent) : (s.clearTask a).frxBuf = s.frxBuf := rfl
@[simp] theorem clearTask_frxCount (s : State) (a : Agent) : (s.clearTask a).frxCount = s.frxCount := rfl
@[simp] theorem clearTask_frxLen (s : State) (a : Agent) : (s.clearTask a).frxLen = s.frxLen := rfl
@[simp] theorem clearTask_q (s : State) (a : Agent) : (s.clearTask a).q = s.q := rfl
@[simp] theorem clearTask_lock (s : State) (a : Agent) : (s.clearTask a).lock = s.lock := rfl
@[simp] theorem clearTask_txaSuspended (s : State) (a : Agent) : (s.clearTask a).txaSuspended = s.txaSuspended := rfl
@[simp] theorem clearTask_txaPhase (s : State) (a : Agent) : (s.clearTask a).txaPhase = s.txaPhase := rfl
@[simp] theorem clearTask_txaBatch (s : State) (a : Agent) : (s.clearTask a).txaBatch = s.txaBatch := rfl
@[simp] theorem clearTask_txaCur (s : State) (a : Agent) : (s.clearTask a).txaCur = s.txaCur := rfl
@[simp] theorem clearTask_txaIdx (s : State) (a : Agent) : (s.clearTask a).txaIdx = s.txaIdx := rfl
@[simp] theorem clearTask_txaEidx (s : State) (a : Agent) : (s.clearTask a).txaEidx = s.txaEidx := rfl
@[simp] theorem clearTask_txaEchoBad (s : State) (a : Agent) : (s.clearTask a).txaEchoBad = s.txaEchoBad := rfl
@[simp] theorem clearTask_lstActive (s : State) (a : Agent) : (s.clearTask a).lstActive = s.lstActive := rfl
@[simp] theorem clearTask_arbState (s : State) (a : Agent) : (s.clearTask a).arbState = s.arbState := rfl
@[simp] theorem clearTask_busMode (s : State) (a : Agent) : (s.clearTask a).busMode = s.busMode := rfl
@[simp] theorem clearTask_presence (s : State) (a : Agent) : (s.clearTask a).presence = s.presence := rfl
@[simp] theorem clearTask_pingOutstanding (s : State) (a : Agent) : (s.clearTask a).pingOutstanding = s.pingOutstanding := rfl
@[simp] theorem clearTask_set (s : State) (a : Agent) : (s.clearTask a).set = s.set := rfl
@[simp] theorem clearTask_err (s : State) (a : Agent) : (s.clearTask a).err = s.err := rfl
@[simp] theorem clearTask_out (s : State) (a : Agent) : (s.clearTask a).out = s.out := rfl
@[simp] theorem clearTask_waveform (s : State) (a : Agent) : (s.clearTask a).waveform = s.waveform := rfl
@[simp] theorem clearTask_returns (s : State) (a : Agent) : (s.clearTask a).returns = s.returns := rfl
@[simp] theorem clearTask_tasks (s : State) (a : Agent) : (s.clearTask a).tasks = s.tasks.filter fun e => e.1 != a := rfl
@[simp] theorem clearTask_draws (s : State) (a : Agent) : (s.clearTask a).draws = s.draws := rfl
@[simp] theorem clearTask_faultIndices (s : State) (a : Agent) : (s.clearTask a).faultIndices = s.faultIndices := rfl
@[simp] theorem clearTask_script (s : State) (a : Agent) : (s.clearTask a).script = s.script := rfl

/-! ### setTask -/

@[simp] theorem setTask_lineOut (s : State) (a : Agent) (t : Task) : (s.setTask a t).lineOut = s.lineOut := by
  unfold State.setTask; split <;> rfl
@[simp] theorem setTask_rxf (s : State) (a : Agent) (t : Task) : (s.setTask a t).rxf = s.rxf := by
  unfold State.setTask; split <;> rfl
@[simp] theorem setTask_decPos (s : State) (a : Agent) (t : Task) : (s.setTask a t).decPos = s.decPos := by
  unfold State.setTask; split <;> rfl
@[simp] theorem setTask_decShift (s : State) (a : Agent) (t : Task) : (s.setTask a t).decShift = s.decShift := by
  unfold State.setTask; split <;> rfl
@[simp] theorem setTask_frxState (s : State) (a : Agent) (t : Task) : (s.setTask a t).frxState = s.frxState := by
  unfold State.setTask; split <;> rfl
@[simp] theorem setTask_frxBuf (s : State) (a : Agent) (t : Task) : (s.setTask a t).frxBuf = s.frxBuf := by
  unfold State.setTask; split <;> rfl
@[simp] theorem setTask_frxCount (s : State) (a : Agent) (t : Task) : (s.setTask a t).frxCount = s.frxCount := by
  unfold State.setTask; split <;> rfl
@[simp] theorem setTask_frxLen (s : State) (a : Agent) (t : Task) : (s.setTask a t).frxLen = s.frxLen := by
  unfold State.setTask; split <;> rfl
@[simp] theorem setTask_q (s : State) (a : Agent) (t : Task) : (s.setTask a t).q = s.q := by
  unfold State.setTask; split <;> rfl
@[simp] theorem setTask_lock (s : State) (a : Agent) (t : Task) : (s.setTask a t).lock = s.lock := by
  unfold State.setTask; split <;> rfl
@[simp] theorem setTask_txaSuspended (s : State) (a : Agent) (t : Task) : (s.setTask a t).txaSuspended = s.txaSuspended := by
  unfold State.setTask; split <;> rfl
@[simp] theorem setTask_txaPhase (s : State) (a : Agent) (t : Task) : (s.setTask a t).txaPhase = s.txaPhase := by
  unfold State.setTask; split <;> rfl
@[simp] theorem setTask_txaBatch (s : State) (a : Agent) (t : Task) : (s.setTask a t).txaBatch = s.txaBatch := by
  unfold State.setTask; split <;> rfl
@[simp] theorem setTask_txaCur (s : State) (a : Agent) (t : Task) : (s.setTask a t).txaCur = s.txaCur := by
  unfold State.setTask; split <;> rfl
@[simp] theorem setTask_txaIdx (s : State) (a : Agent) (t : Task) : (s.setTask a t).txaIdx = s.txaIdx := by
  unfold State.setTask; split <;> rfl
@[simp] theorem setTask_txaEidx (s : State) (a : Agent) (t : Task) : (s.setTask a t).txaEidx = s.txaEidx := by
  unfold State.setTask; split <;> rfl
@[simp] theorem setTask_txaEchoBad (s : State) (a : Agent) (t : Task) : (s.setTask a t).txaEchoBad = s.txaEchoBad := by
  unfold State.setTask; split <;> rfl
@[simp] theorem setTask_lstActive (s : State) (a : Agent) (t : Task) : (s.setTask a t).lstActive = s.lstActive := by
  unfold State.setTask; split <;> rfl
@[simp] theorem setTask_arbState (s : State) (a : Agent) (t : Task) : (s.setTask a t).arbState = s.arbState := by
  unfold State.setTask; split <;> rfl
@[simp] theorem setTask_busMode (s : State) (a : Agent) (t : Task) : (s.setTask a t).busMode = s.busMode := by
  unfold State.setTask; split <;> rfl
@[simp] theorem setTask_presence (s : State) (a : Agent) (t : Task) : (s.setTask a t).presence = s.presence := by
  unfold State.setTask; split <;> rfl
@[simp] theorem setTask_pingOutstanding (s : State) (a : Agent) (t : Task) : (s.setTask a t).pingOutstanding = s.pingOutstanding := by
  unfold State.setTask; split <;> rfl
@[simp] theorem setTask_set (s : State) (a : Agent) (t : Task) : (s.setTask a t).set = s.set := by
  unfold State.setTask; split <;> rfl
@[simp] theorem setTask_err (s : State) (a : Agent) (t : Task) : (s.setTask a t).err = s.err := by
  unfold State.setTask; split <;> rfl
@[simp] theorem setTask_out (s : State) (a : Agent) (t : Task) : (s.setTask a t).out = s.out := by
  unfold State.setTask; split <;> rfl
@[simp] theorem setTask_waveform (s : State) (a : Agent) (t : Task) : (s.setTask a t).waveform = s.waveform := by
  unfold State.setTask; split <;> rfl
@[simp] theorem setTask_returns (s : State) (a : Agent) (t : Task) : (s.setTask a t).returns = s.returns := by
  unfold State.setTask; split <;> rfl
@[simp] theorem setTask_tasks (s : State) (a : Agent) (t : Task) : (s.setTask a t).tasks = if t.items.isEmpty then s.tasks.filter (fun e => e.1 != a) else (a, t) :: s.tasks.filter fun e => e.1 != a := by
  unfold State.setTask; split <;> rfl
@[simp] theorem setTask_draws (s : State) (a : Agent) (t : Task) : (s.setTask a t).draws = s.draws := by
  unfold State.setTask; split <;> rfl
@[simp] theorem setTask_faultIndices (s : State) (a : Agent) (t : Task) : (s.setTask a t).faultIndices = s.faultIndices := by
  unfold State.setTask; split <;> rfl
@[simp] theorem setTask_script (s : State) (a : Agent) (t : Task) : (s.setTask a t).script = s.script := by
  unfold State.setTask; split <;> rfl

/-! ### finishEntry -/

@[simp] theorem finishEntry_lineOut (s : State) : (finishEntry s).lineOut = s.lineOut := rfl
@[simp] theorem finishEntry_rxf (s : State) : (finishEntry s).rxf = s.rxf := rfl
@[simp] theorem finishEntry_decPos (s : State) : (finishEntry s).decPos = s.decPos := rfl
@[simp] theorem finishEntry_decShift (s : State) : (finishEntry s).decShift = s.decShift := rfl
@[simp] theorem finishEntry_frxState (s : State) : (finishEntry s).frxState = s.frxState := rfl
@[simp] theorem finishEntry_frxBuf (s : State) : (finishEntry s).frxBuf = s.frxBuf := rfl
@[simp] theorem finishEntry_frxCount (s : State) : (finishEntry s).frxCount = s.frxCount := rfl
@[simp] theorem finishEntry_frxLen (s : State) : (finishEntry s).frxLen = s.frxLen := rfl
@[simp] theorem finishEntry_q (s : State) : (finishEntry s).q = s.q := rfl
@[simp] theorem finishEntry_lock (s : State) : (finishEntry s).lock = s.lock := rfl
@[simp] theorem finishEntry_txaSuspended (s : State) : (finishEntry s).txaSuspended = s.txaSuspended := rfl
@[simp] theorem finishEntry_txaPhase (s : State) : (finishEntry s).txaPhase = .idle := rfl
@[simp] theorem finishEntry_txaBatch (s : State) : (finishEntry s).txaBatch = s.txaBatch := rfl
@[simp] theorem finishEntry_txaCur (s : State) : (finishEntry s).txaCur = none := rfl
@[simp] theorem finishEntry_txaIdx (s : State) : (finishEntry s).txaIdx = s.txaIdx := rfl
@[simp] theorem finishEntry_txaEidx (s : State) : (finishEntry s).txaEidx = s.txaEidx := rfl
@[simp] theorem finishEntry_txaEchoBad (s : State) : (finishEntry s).txaEchoBad = s.txaEchoBad := rfl
@[simp] theorem finishEntry_lstActive (s : State) : (finishEntry s).lstActive = s.lstActive := rfl
@[simp] theorem finishEntry_arbState (s : State) : (finishEntry s).arbState = s.arbState := rfl
@[simp] theorem finishEntry_busMode (s : State) : (finishEntry s).busMode = s.busMode := rfl
@[simp] theorem finishEntry_presence (s : State) : (finishEntry s).presence = s.presence := rfl
@[simp] theorem finishEntry_pingOutstanding (s : State) : (finishEntry s).pingOutstanding = s.pingOutstanding := rfl
@[simp] theorem finishEntry_set (s : State) : (finishEntry s).set = s.set := rfl
@[simp] theorem finishEntry_err (s : State) : (finishEntry s).err = s.err := rfl
@[simp] theorem finishEntry_out (s : State) : (finishEntry s).out = s.out := rfl
@[simp] theorem finishEntry_waveform (s : State) : (finishEntry s).waveform = s.waveform := rfl
@[simp] theorem finishEntry_returns (s : State) : (finishEntry s).returns = s.returns := rfl
@[simp] theorem finishEntry_tasks (s : State) : (finishEntry s).tasks = s.tasks := rfl
@[simp] theorem finishEntry_draws (s : State) : (finishEntry s).draws = s.draws := rfl
@[simp] theorem finishEntry_faultIndices (s : State) : (finishEntry s).faultIndices = s.faultIndices := rfl
@[simp] theorem finishEntry_script (s : State) : (finishEntry s).script = s.script := rfl

/-! ### setFails -/

@[simp] theorem setFails_lineOut (p : Peer) (n : BitVec 8) (s : State) : (setFails p n s).lineOut = s.lineOut := rfl
@[simp] theorem setFails_rxf (p : Peer) (n : BitVec 8) (s : State) : (setFails p n s).rxf = s.rxf := rfl
@[simp] theorem setFails_decPos (p : Peer) (n : BitVec 8) (s : State) : (setFails p n s).decPos = s.decPos := rfl
@[simp] theorem setFails_decShift (p : Peer) (n : BitVec 8) (s : State) : (setFails p n s).decShift = s.decShift := rfl
@[simp] theorem setFails_frxState (p : Peer) (n : BitVec 8) (s : State) : (setFails p n s).frxState = s.frxState := rfl
@[simp] theorem setFails_frxBuf (p : Peer) (n : BitVec 8) (s : State) : (setFails p n s).frxBuf = s.frxBuf := rfl
@[simp] theorem setFails_frxCount (p : Peer) (n : BitVec 8) (s : State) : (setFails p n s).frxCount = s.frxCount := rfl
@[simp] theorem setFails_frxLen (p : Peer) (n : BitVec 8) (s : State) : (setFails p n s).frxLen = s.frxLen := rfl
@[simp] theorem setFails_q (p : Peer) (n : BitVec 8) (s : State) : (setFails p n s).q = s.q := rfl
@[simp] theorem setFails_lock (p : Peer) (n : BitVec 8) (s : State) : (setFails p n s).lock = s.lock := rfl
@[simp] theorem setFails_txaSuspended (p : Peer) (n : BitVec 8) (s : State) : (setFails p n s).txaSuspended = s.txaSuspended := rfl
@[simp] theorem setFails_txaPhase (p : Peer) (n : BitVec 8) (s : State) : (setFails p n s).txaPhase = s.txaPhase := rfl
@[simp] theorem setFails_txaBatch (p : Peer) (n : BitVec 8) (s : State) : (setFails p n s).txaBatch = s.txaBatch := rfl
@[simp] theorem setFails_txaCur (p : Peer) (n : BitVec 8) (s : State) : (setFails p n s).txaCur = s.txaCur := rfl
@[simp] theorem setFails_txaIdx (p : Peer) (n : BitVec 8) (s : State) : (setFails p n s).txaIdx = s.txaIdx := rfl
@[simp] theorem setFails_txaEidx (p : Peer) (n : BitVec 8) (s : State) : (setFails p n s).txaEidx = s.txaEidx := rfl
@[simp] theorem setFails_txaEchoBad (p : Peer) (n : BitVec 8) (s : State) : (setFails p n s).txaEchoBad = s.txaEchoBad := rfl
@[simp] theorem setFails_lstActive (p : Peer) (n : BitVec 8) (s : State) : (setFails p n s).lstActive = s.lstActive := rfl
@[simp] theorem setFails_arbState (p : Peer) (n : BitVec 8) (s : State) : (setFails p n s).arbState = s.arbState := rfl
@[simp] theorem setFails_busMode (p : Peer) (n : BitVec 8) (s : State) : (setFails p n s).busMode = s.busMode := rfl
@[simp] theorem setFails_presence (p : Peer) (n : BitVec 8) (s : State) : (setFails p n s).presence = s.presence.put { s.presence.get p with fails := n } p := rfl
@[simp] theorem setFails_pingOutstanding (p : Peer) (n : BitVec 8) (s : State) : (setFails p n s).pingOutstanding = s.pingOutstanding := rfl
@[simp] theorem setFails_set (p : Peer) (n : BitVec 8) (s : State) : (setFails p n s).set = s.set := rfl
@[simp] theorem setFails_err (p : Peer) (n : BitVec 8) (s : State) : (setFails p n s).err = s.err := rfl
@[simp] theorem setFails_out (p : Peer) (n : BitVec 8) (s : State) : (setFails p n s).out = s.out := rfl
@[simp] theorem setFails_waveform (p : Peer) (n : BitVec 8) (s : State) : (setFails p n s).waveform = s.waveform := rfl
@[simp] theorem setFails_returns (p : Peer) (n : BitVec 8) (s : State) : (setFails p n s).returns = s.returns := rfl
@[simp] theorem setFails_tasks (p : Peer) (n : BitVec 8) (s : State) : (setFails p n s).tasks = s.tasks := rfl
@[simp] theorem setFails_draws (p : Peer) (n : BitVec 8) (s : State) : (setFails p n s).draws = s.draws := rfl
@[simp] theorem setFails_faultIndices (p : Peer) (n : BitVec 8) (s : State) : (setFails p n s).faultIndices = s.faultIndices := rfl
@[simp] theorem setFails_script (p : Peer) (n : BitVec 8) (s : State) : (setFails p n s).script = s.script := rfl

/-! ### shutdown -/

@[simp] theorem shutdown_lineOut (s : State) : (shutdown s).lineOut = s.lineOut := rfl
@[simp] theorem shutdown_rxf (s : State) : (shutdown s).rxf = s.rxf := rfl
@[simp] theorem shutdown_decPos (s : State) : (shutdown s).decPos = s.decPos := rfl
@[simp] theorem shutdown_decShift (s : State) : (shutdown s).decShift = s.decShift := rfl
@[simp] theorem shutdown_frxState (s : State) : (shutdown s).frxState = s.frxState := rfl
@[simp] theorem shutdown_frxBuf (s : State) : (shutdown s).frxBuf = s.frxBuf := rfl
@[simp] theorem shutdown_frxCount (s : State) : (shutdown s).frxCount = s.frxCount := rfl
@[simp] theorem shutdown_frxLen (s : State) : (shutdown s).frxLen = s.frxLen := rfl
@[simp] theorem shutdown_q (s : State) : (shutdown s).q = s.q := rfl
@[simp] theorem shutdown_lock (s : State) : (shutdown s).lock = s.lock := rfl
@[simp] theorem shutdown_txaSuspended (s : State) : (shutdown s).txaSuspended = s.txaSuspended := rfl
@[simp] theorem shutdown_txaPhase (s : State) : (shutdown s).txaPhase = s.txaPhase := rfl
@[simp] theorem shutdown_txaBatch (s : State) : (shutdown s).txaBatch = s.txaBatch := rfl
@[simp] theorem shutdown_txaCur (s : State) : (shutdown s).txaCur = s.txaCur := rfl
@[simp] theorem shutdown_txaIdx (s : State) : (shutdown s).txaIdx = s.txaIdx := rfl
@[simp] theorem shutdown_txaEidx (s : State) : (shutdown s).txaEidx = s.txaEidx := rfl
@[simp] theorem shutdown_txaEchoBad (s : State) : (shutdown s).txaEchoBad = s.txaEchoBad := rfl
@[simp] theorem shutdown_lstActive (s : State) : (shutdown s).lstActive = s.lstActive := rfl
@[simp] theorem shutdown_arbState (s : State) : (shutdown s).arbState = .shuttingDown := rfl
@[simp] theorem shutdown_busMode (s : State) : (shutdown s).busMode = s.busMode := rfl
@[simp] theorem shutdown_presence (s : State) : (shutdown s).presence = s.presence := rfl
@[simp] theorem shutdown_pingOutstanding (s : State) : (shutdown s).pingOutstanding = s.pingOutstanding := rfl
@[simp] theorem shutdown_set (s : State) : (shutdown s).set = s.set := rfl
@[simp] theorem shutdown_err (s : State) : (shutdown s).err = s.err.mark .presenceFailureTerminal := rfl
@[simp] theorem shutdown_out (s : State) : (shutdown s).out = s.out ++ [.log .presenceFailureTerminal (.peer .dsp)] ++ [.escalation .dsp] := rfl
@[simp] theorem shutdown_waveform (s : State) : (shutdown s).waveform = s.waveform := rfl
@[simp] theorem shutdown_returns (s : State) : (shutdown s).returns = s.returns := rfl
@[simp] theorem shutdown_tasks (s : State) : (shutdown s).tasks = s.tasks := rfl
@[simp] theorem shutdown_draws (s : State) : (shutdown s).draws = s.draws := rfl
@[simp] theorem shutdown_faultIndices (s : State) : (shutdown s).faultIndices = s.faultIndices := rfl
@[simp] theorem shutdown_script (s : State) : (shutdown s).script = s.script := rfl

/-! ### setPresent -/

@[simp] theorem setPresent_lineOut (p : Peer) (v : Bool) (s : State) : (setPresent p v s).lineOut = s.lineOut := by
  unfold setPresent; split <;> rfl
@[simp] theorem setPresent_rxf (p : Peer) (v : Bool) (s : State) : (setPresent p v s).rxf = s.rxf := by
  unfold setPresent; split <;> rfl
@[simp] theorem setPresent_decPos (p : Peer) (v : Bool) (s : State) : (setPresent p v s).decPos = s.decPos := by
  unfold setPresent; split <;> rfl
@[simp] theorem setPresent_decShift (p : Peer) (v : Bool) (s : State) : (setPresent p v s).decShift = s.decShift := by
  unfold setPresent; split <;> rfl
@[simp] theorem setPresent_frxState (p : Peer) (v : Bool) (s : State) : (setPresent p v s).frxState = s.frxState := by
  unfold setPresent; split <;> rfl
@[simp] theorem setPresent_frxBuf (p : Peer) (v : Bool) (s : State) : (setPresent p v s).frxBuf = s.frxBuf := by
  unfold setPresent; split <;> rfl
@[simp] theorem setPresent_frxCount (p : Peer) (v : Bool) (s : State) : (setPresent p v s).frxCount = s.frxCount := by
  unfold setPresent; split <;> rfl
@[simp] theorem setPresent_frxLen (p : Peer) (v : Bool) (s : State) : (setPresent p v s).frxLen = s.frxLen := by
  unfold setPresent; split <;> rfl
@[simp] theorem setPresent_q (p : Peer) (v : Bool) (s : State) : (setPresent p v s).q = s.q := by
  unfold setPresent; split <;> rfl
@[simp] theorem setPresent_lock (p : Peer) (v : Bool) (s : State) : (setPresent p v s).lock = s.lock := by
  unfold setPresent; split <;> rfl
@[simp] theorem setPresent_txaSuspended (p : Peer) (v : Bool) (s : State) : (setPresent p v s).txaSuspended = s.txaSuspended := by
  unfold setPresent; split <;> rfl
@[simp] theorem setPresent_txaPhase (p : Peer) (v : Bool) (s : State) : (setPresent p v s).txaPhase = s.txaPhase := by
  unfold setPresent; split <;> rfl
@[simp] theorem setPresent_txaBatch (p : Peer) (v : Bool) (s : State) : (setPresent p v s).txaBatch = s.txaBatch := by
  unfold setPresent; split <;> rfl
@[simp] theorem setPresent_txaCur (p : Peer) (v : Bool) (s : State) : (setPresent p v s).txaCur = s.txaCur := by
  unfold setPresent; split <;> rfl
@[simp] theorem setPresent_txaIdx (p : Peer) (v : Bool) (s : State) : (setPresent p v s).txaIdx = s.txaIdx := by
  unfold setPresent; split <;> rfl
@[simp] theorem setPresent_txaEidx (p : Peer) (v : Bool) (s : State) : (setPresent p v s).txaEidx = s.txaEidx := by
  unfold setPresent; split <;> rfl
@[simp] theorem setPresent_txaEchoBad (p : Peer) (v : Bool) (s : State) : (setPresent p v s).txaEchoBad = s.txaEchoBad := by
  unfold setPresent; split <;> rfl
@[simp] theorem setPresent_lstActive (p : Peer) (v : Bool) (s : State) : (setPresent p v s).lstActive = s.lstActive := by
  unfold setPresent; split <;> rfl
@[simp] theorem setPresent_arbState (p : Peer) (v : Bool) (s : State) : (setPresent p v s).arbState = s.arbState := by
  unfold setPresent; split <;> rfl
@[simp] theorem setPresent_busMode (p : Peer) (v : Bool) (s : State) : (setPresent p v s).busMode = s.busMode := by
  unfold setPresent; split <;> rfl
@[simp] theorem setPresent_pingOutstanding (p : Peer) (v : Bool) (s : State) : (setPresent p v s).pingOutstanding = s.pingOutstanding := by
  unfold setPresent; split <;> rfl
@[simp] theorem setPresent_set (p : Peer) (v : Bool) (s : State) : (setPresent p v s).set = s.set := by
  unfold setPresent; split <;> rfl
@[simp] theorem setPresent_err (p : Peer) (v : Bool) (s : State) : (setPresent p v s).err = s.err := by
  unfold setPresent; split <;> rfl
@[simp] theorem setPresent_waveform (p : Peer) (v : Bool) (s : State) : (setPresent p v s).waveform = s.waveform := by
  unfold setPresent; split <;> rfl
@[simp] theorem setPresent_returns (p : Peer) (v : Bool) (s : State) : (setPresent p v s).returns = s.returns := by
  unfold setPresent; split <;> rfl
@[simp] theorem setPresent_tasks (p : Peer) (v : Bool) (s : State) : (setPresent p v s).tasks = s.tasks := by
  unfold setPresent; split <;> rfl
@[simp] theorem setPresent_draws (p : Peer) (v : Bool) (s : State) : (setPresent p v s).draws = s.draws := by
  unfold setPresent; split <;> rfl
@[simp] theorem setPresent_faultIndices (p : Peer) (v : Bool) (s : State) : (setPresent p v s).faultIndices = s.faultIndices := by
  unfold setPresent; split <;> rfl
@[simp] theorem setPresent_script (p : Peer) (v : Bool) (s : State) : (setPresent p v s).script = s.script := by
  unfold setPresent; split <;> rfl

end Sys2Proof.Machine
end

