-- ==== Sys2Proof/Laws/Arbiter.lean ====
section
/-! SUPPORT. What the arbiter's indivisible steps and TXA's shared steps do, each said once as the state it leaves. -/
namespace Sys2Proof.Machine

/-- `PresenceConfirm(p)` (R264, R257). -/
theorem presenceConfirm_eq (p : Peer) (s : State) : presenceConfirm p s =
    if s.arbState = .shuttingDown then s
    else { s with
      presence := s.presence.put ⟨true, 0⟩ p
      pingOutstanding := if p = .dsp then false else s.pingOutstanding
      out := s.out ++ (if (s.presence.get p).present then [] else [.presenceChanged p true]) } := by
  unfold presenceConfirm
  split
  · rfl
  · cases p
    · cases h : s.presence.mc.present <;> simp [setPresent, setFails, Presence.get, Presence.put, h, State.emit]
    · cases h : s.presence.dsp.present <;> simp [setPresent, setFails, Presence.get, Presence.put, h, State.emit]
    · cases h : s.presence.usb.present <;> simp [setPresent, setFails, Presence.get, Presence.put, h, State.emit]

/-- The attach transition (R262). -/
theorem attach_eq (s : State) (h : s.arbState ≠ .shuttingDown) : attach s = { s with
    presence := s.presence.put ⟨true, 0⟩ .usb
    set := { s.set with usbConnected := true }
    busMode := .usbPassthrough
    arbState := .usbPassthrough
    pingOutstanding := false
    txaSuspended := true
    lstActive := true
    frxCount := 0
    frxState := .awaitingAddress
    out := s.out ++ (if (s.presence.get .usb).present then [] else [.presenceChanged .usb true]) ++
      [.settingChanged .usbConnected, .inputDisableReq, .modeChanged .usbPassthrough] } := by
  rw [attach, presenceConfirm_eq, if_neg h]
  simp [State.emit, State.resetFrx]

/-- The final step of the detach transition (R266). -/
theorem detachFinal_eq (s : State) : detachFinal s = { s with
    set := { s.set with usbConnected := false }
    presence := { s.presence with usb := { s.presence.usb with present := false } }
    busMode := .busMaster
    arbState := .steadyPolling
    lstActive := false
    frxCount := 0
    frxState := .awaitingAddress
    rxf := []
    txaSuspended := false
    out := s.out ++
      [.settingChanged .usbConnected, .inputEnableReq, .presenceChanged .usb false, .modeChanged .busMaster] } := by
  simp [detachFinal, State.emit, State.resetFrx, Presence.get, Presence.put]

/-- The count of a failed ping of the DSP (R255). -/
theorem countFailure_eq (s : State) : countFailure s = { s with
    pingOutstanding := false
    presence := { s.presence with dsp := ⟨false, s.presence.dsp.fails + 1⟩ }
    err := { s.err with presenceTimeout := true }
    out := s.out ++ [.log .presenceTimeout (.peer .dsp)] ++
      (if s.presence.dsp.present then [.presenceChanged .dsp false] else []) } := by
  unfold countFailure
  cases hp : s.presence.dsp.present
  · simp [setPresent, setFails, Presence.get, Presence.put, State.raise, hp, ErrFlags.mark]
  · simp [setPresent, setFails, Presence.get, Presence.put, State.raise, hp, ErrFlags.mark, State.emit]

/-- Characters pushed in a row (R164): those that find room, in order; each of the others is dropped with `RxOverrun`. -/
theorem pushChars_eq (c : Config) (l : List Character) (s : State) : pushChars c s l = { s with
    rxf := s.rxf ++ l.take (c.rxfDepth - s.rxf.length)
    err := if l.length ≤ c.rxfDepth - s.rxf.length then s.err else { s.err with rxOverrun := true }
    out := s.out ++ (l.drop (c.rxfDepth - s.rxf.length)).map fun ch => .log .rxOverrun (.char ch) } := by
  induction l generalizing s with
  | nil => simp [pushChars]
  | cons ch l ih =>
    rw [pushChars, List.foldl_cons]
    show pushChars c (pushChar c s ch) l = _
    rw [ih, pushChar]
    by_cases h : s.rxf.length < c.rxfDepth
    · rw [if_pos ((hasRoom_iff _ _).mpr h)]
      obtain ⟨n, hn⟩ : ∃ n, c.rxfDepth - s.rxf.length = n + 1 := ⟨c.rxfDepth - s.rxf.length - 1, by omega⟩
      have hn' : c.rxfDepth - (s.rxf.length + 1) = n := by omega
      simp [hn, hn']
    · rw [if_neg (by rw [hasRoom_iff]; exact h)]
      have hn : c.rxfDepth - s.rxf.length = 0 := by omega
      simp [hn, State.raise, ErrFlags.mark]

/-- The end of an echo check (R229, R230). -/
theorem echoDone_eq (cur : QueuedFrame) (s : State) : echoDone cur s = { s with
    err := if s.txaEchoBad then { s.err with lineEchoMismatch := true } else s.err
    out := s.out ++ (if s.txaEchoBad then [.log .lineEchoMismatch (.bytes cur.bytes)] else [])
    txaCur := if cur.awaits then s.txaCur else none
    txaPhase := if cur.awaits then .awaitResponse else .idle } := by
  unfold echoDone
  cases h1 : s.txaEchoBad <;> cases h2 : cur.awaits <;> simp [finishEntry, State.raise, ErrFlags.mark, h1]

/-- A step of TXA: nothing while TXA is inside a drain. -/
theorem txaStep_next {f : State → State} {s t : State} (h : txaStep f s = .next t) :
    t = s ∨ (s.busy .txa = false ∧ t = f s) := by
  unfold txaStep at h
  split at h
  · exact Or.inl (Host.Outcome.next.inj h).symm
  · next hb => exact Or.inr ⟨by simpa using hb, (Host.Outcome.next.inj h).symm⟩

end Sys2Proof.Machine
end

