-- ==== Sys2Proof/Laws/Line.lean ====
section
/-! SUPPORT. Laws of the transceiver: what the decoder makes of idle cells, of one character and of a frame
(41_line_transceiver.md R151, R161 to R163). -/
namespace Sys2Proof.Machine

@[simp] theorem charCells_length (b : Byte) (m : Level) : (charCells b m).length = 11 := rfl

theorem charsCells_length (l : List Character) : (charsCells l).length = 11 * l.length := by
  induction l with
  | nil => rfl
  | cons ch l ih => rw [charsCells, List.length_append, ih, charCells_length, List.length_cons]; omega

theorem frameChars_length (f : List Byte) : (frameChars f).length = f.length := by
  cases f <;> simp [frameChars]

theorem frameCells_length (f : List Byte) : (frameCells f).length = 11 * f.length := by
  rw [frameCells, charsCells_length, frameChars_length]

theorem decRun_append (c : Config) (l m : List Level) (i : Nat) (r : DecRun) :
    decRun c i r (l ++ m) = decRun c (i + l.length) (decRun c i r l) m := by
  induction l generalizing i r with
  | nil => rfl
  | cons x l ih =>
    rw [List.cons_append, decRun, decRun, List.length_cons, show i + (l.length + 1) = i + 1 + l.length by omega]
    generalize decCell r.pos r.shift x = y
    obtain ⟨p, sh, o⟩ := y
    cases o <;> exact ih _ _

/-- Idle cells between characters change nothing. -/
theorem decRun_idle (c : Config) (n i : Nat) (r : DecRun) (h : r.pos = .idle) :
    decRun c i r (List.replicate n true) = r := by
  induction n generalizing i with
  | zero => rfl
  | succ n ih =>
    rw [List.replicate_succ, decRun, h, decCell]
    obtain ⟨p, sh, d, chs, k⟩ := r
    subst h
    exact ih _

/-- The nine bits DEC collects of a character: its byte, and the marker above. -/
def charBits (b : Byte) (m : Level) : BitVec 9 := BitVec.cons m b

theorem charBits_byte : ∀ (b : Byte) (m : Level), (charBits b m).setWidth 8 = b := by decide
theorem charBits_marker : ∀ (b : Byte) (m : Level), (charBits b m).getLsbD 8 = m := by decide

/-- The bits collected one by one are the nine bits. -/
theorem collected_bits (b : Byte) (m : Level) :
    (0#9 ||| ((BitVec.ofBool (b.getLsbD 0)).setWidth 9 <<< 0) ||| ((BitVec.ofBool (b.getLsbD 1)).setWidth 9 <<< 1)
      ||| ((BitVec.ofBool (b.getLsbD 2)).setWidth 9 <<< 2) ||| ((BitVec.ofBool (b.getLsbD 3)).setWidth 9 <<< 3)
      ||| ((BitVec.ofBool (b.getLsbD 4)).setWidth 9 <<< 4) ||| ((BitVec.ofBool (b.getLsbD 5)).setWidth 9 <<< 5)
      ||| ((BitVec.ofBool (b.getLsbD 6)).setWidth 9 <<< 6) ||| ((BitVec.ofBool (b.getLsbD 7)).setWidth 9 <<< 7)
      ||| ((BitVec.ofBool m).setWidth 9 <<< 8)) = charBits b m := by
  revert b m
  decide

/-- Ten cells from the start cell on, and the position they leave. -/
theorem decRun_body (c : Config) (b : Byte) (m : Level) (i : Nat) (r : DecRun) (h : r.pos = .idle) (l : List Level) :
    decRun c i r ((charCells b m).dropLast ++ l) =
      decRun c (i + 10) { r with pos := .inChar 10, shift := charBits b m } l := by
  obtain ⟨p, sh, d, chs, k⟩ := r
  subst h
  rw [← collected_bits]
  rfl

/-- A whole character is delivered. -/
theorem decRun_char (c : Config) (b : Byte) (m : Level) (i : Nat) (r : DecRun) (h : r.pos = .idle) (l : List Level) :
    decRun c i r (charCells b m ++ l) =
      decRun c (i + 11) { r with shift := charBits b m, chars := r.chars ++ [⟨b, m⟩] } l := by
  have e : charCells b m ++ l = (charCells b m).dropLast ++ (true :: l) := rfl
  have hb : (charBits b m).setWidth 8 = b := charBits_byte b m
  have hm : (charBits b m).getLsbD 8 = m := charBits_marker b m
  rw [e, decRun_body c b m i r h]
  obtain ⟨p, sh, d, chs, k⟩ := r
  subst h
  show decRun c _ ⟨.idle, charBits b m, d, chs ++ [⟨(charBits b m).setWidth 8, (charBits b m).getLsbD 8⟩], k⟩ l = _
  rw [hb, hm]

/-- Characters back to back are delivered in order. -/
theorem decRun_chars (c : Config) (cs : List Character) : ∀ (i : Nat) (r : DecRun), r.pos = .idle →
    ∃ sh, decRun c i r (charsCells cs) = { r with shift := sh, chars := r.chars ++ cs } := by
  induction cs with
  | nil => intro i r _; exact ⟨r.shift, by rw [List.append_nil]; rfl⟩
  | cons ch cs ih =>
    intro i r h
    rw [charsCells, decRun_char c ch.byte ch.marker i r h]
    obtain ⟨sh, e⟩ := ih (i + 11) { r with shift := charBits ch.byte ch.marker, chars := r.chars ++ [ch] } h
    refine ⟨sh, ?_⟩
    rw [show (⟨ch.byte, ch.marker⟩ : Character) = ch from rfl, e]
    simp

/-- A character with a low stop cell is dropped and reported as a fault with the index of its start cell. -/
theorem decRun_badStop (c : Config) (b : Byte) (m : Level) (i : Nat) (r : DecRun) (h : r.pos = .idle) (l : List Level) :
    decRun c i r ((charCells b m).dropLast ++ [false] ++ l) =
      decRun c (i + 11) { r with pos := .faulted 0, shift := charBits b m, draws := r.draws + 1,
                                 faults := r.faults ++ [i] } l := by
  rw [List.append_assoc, decRun_body c b m i r h]
  rfl

/-- Eleven or more idle cells after a framing fault bring the decoder back between characters, and nothing is drawn. -/
theorem decRun_recover (c : Config) (n i : Nat) (r : DecRun) (k : Nat) (h : r.pos = .faulted k) (hk : 11 ≤ k + n)
    (hk' : k < 11) : decRun c i r (List.replicate n true) = { r with pos := .idle } := by
  induction n generalizing i r k with
  | zero => omega
  | succ n ih =>
    obtain ⟨p, sh, d, chs, fs⟩ := r
    subst h
    rw [List.replicate_succ, decRun]
    by_cases hlt : k + 1 < 11
    · rw [show decCell (.faulted k) sh true = (.faulted (k + 1), sh, .nothing) by simp [decCell, hlt]]
      exact ih _ _ (k + 1) rfl (by omega) hlt
    · rw [show decCell (.faulted k) sh true = (.idle, sh, .nothing) by simp [decCell, hlt]]
      exact decRun_idle c n _ _ rfl

/-- Between characters the bits collected before do not matter: from two decoders that agree on everything else but them,
the same cells leave the same position and report the same (R161). -/
theorem decRun_shift (c : Config) (l : List Level) (i : Nat) (r r' : DecRun) (hs : r'.pos = r.pos ∧ r'.draws = r.draws ∧
    r'.chars = r.chars ∧ r'.faults = r.faults) (hk : ∀ k, r.pos = .inChar k → r'.shift = r.shift) :
    (decRun c i r' l).draws = (decRun c i r l).draws ∧ (decRun c i r' l).chars = (decRun c i r l).chars ∧
    (decRun c i r' l).faults = (decRun c i r l).faults := by
  induction l generalizing i r r' with
  | nil => exact hs.2
  | cons x l ih =>
    obtain ⟨p, sh, d, chs, fs⟩ := r
    obtain ⟨p', sh', d', chs', fs'⟩ := r'
    obtain ⟨rfl, rfl, rfl, rfl⟩ := hs
    cases p' with
    | inChar k =>
      obtain rfl : sh' = sh := hk k rfl
      exact ⟨rfl, rfl, rfl⟩
    | idle => cases x <;> exact ih _ _ _ ⟨rfl, rfl, rfl, rfl⟩ (by simp [decCell])
    | faulted n =>
      cases x
      · exact ih _ _ _ ⟨rfl, rfl, rfl, rfl⟩ (by simp [decCell])
      · exact ih _ _ _ ⟨rfl, rfl, rfl, rfl⟩ (by intro k; simp only [decCell]; split <;> intro e <;> cases e)
    | lost n =>
      cases x
      · exact ih _ _ _ ⟨rfl, rfl, rfl, rfl⟩ (by simp [decCell])
      · exact ih _ _ _ ⟨rfl, rfl, rfl, rfl⟩ (by intro k; simp only [decCell]; split <;> intro e <;> cases e)

/-- Without a framing fault contention leaves DEC between characters or in one (R162, log 20). -/
theorem drawnPos_afterFault (fault : Bool) (n : Nat) (h : (drawnPos fault n).afterFault = true) : fault = true := by
  cases fault with
  | true => rfl
  | false =>
    have hn := Nat.mod_lt n (show 11 > 0 by decide)
    unfold drawnPos at h
    simp only [Bool.false_eq_true, if_false] at h
    split at h
    · cases h
    · rw [if_pos (by omega)] at h; cases h

/-- Raising framing faults changes the flag, the log and the trace of their indices only. -/
theorem raiseFaults_eq (l : List Nat) (s : State) : raiseFaults l s = { s with
    err := if l = [] then s.err else { s.err with lineFramingFault := true }
    out := s.out ++ List.replicate l.length (.log .lineFramingFault .nothing)
    faultIndices := s.faultIndices ++ l } := by
  induction l generalizing s with
  | nil => simp [raiseFaults]
  | cons i l ih =>
    show raiseFaults l (s.raiseFault i) = _
    rw [ih]
    cases l <;> simp [State.raiseFault, State.raise, ErrFlags.mark, List.replicate_succ]

end Sys2Proof.Machine
end

