-- ==== Sys2Proof/Laws/Hear.lean ====
section
/-! SUPPORT. What DEC and the Frame Receiver can do to the state, said once: the fields they write, and that DEC's hearing
of whole characters is `decode_cells` followed by `DEC.push` (41_line_transceiver.md R161 to R164). -/
namespace Sys2Proof.Machine

/-! ### The fields that hearing and receiving write -/

/-- Two states that agree on every field but those of DEC, `rxf`, the receiver, the error flags and the output trace. -/
structure SameBeyondLine (s u : State) : Prop where
  lineOut         : u.lineOut = s.lineOut
  waveform        : u.waveform = s.waveform
  q               : u.q = s.q
  lock            : u.lock = s.lock
  txaSuspended    : u.txaSuspended = s.txaSuspended
  txaPhase        : u.txaPhase = s.txaPhase
  txaBatch        : u.txaBatch = s.txaBatch
  txaCur          : u.txaCur = s.txaCur
  txaIdx          : u.txaIdx = s.txaIdx
  txaEidx         : u.txaEidx = s.txaEidx
  txaEchoBad      : u.txaEchoBad = s.txaEchoBad
  lstActive       : u.lstActive = s.lstActive
  arbState        : u.arbState = s.arbState
  busMode         : u.busMode = s.busMode
  presence        : u.presence = s.presence
  pingOutstanding : u.pingOutstanding = s.pingOutstanding
  set             : u.set = s.set
  returns         : u.returns = s.returns
  tasks           : u.tasks = s.tasks
  script          : u.script = s.script

theorem SameBeyondLine.refl (s : State) : SameBeyondLine s s := by constructor <;> rfl
theorem SameBeyondLine.trans {s u v : State} (h : SameBeyondLine s u) (k : SameBeyondLine u v) : SameBeyondLine s v :=
    ⟨k.lineOut.trans h.lineOut, k.waveform.trans h.waveform, k.q.trans h.q, k.lock.trans h.lock, k.txaSuspended.trans
   h.txaSuspended, k.txaPhase.trans h.txaPhase, k.txaBatch.trans h.txaBatch, k.txaCur.trans h.txaCur, k.txaIdx.trans
   h.txaIdx, k.txaEidx.trans h.txaEidx, k.txaEchoBad.trans h.txaEchoBad, k.lstActive.trans h.lstActive,
   k.arbState.trans h.arbState, k.busMode.trans h.busMode, k.presence.trans h.presence, k.pingOutstanding.trans
   h.pingOutstanding, k.set.trans h.set, k.returns.trans h.returns, k.tasks.trans h.tasks, k.script.trans h.script⟩

/-! ### DEC -/

theorem pushChars_same (c : Config) (l : List Character) (s : State) : SameBeyondLine s (pushChars c s l) := by
  rw [pushChars_eq]; constructor <;> rfl
theorem raiseFaults_same (l : List Nat) (s : State) : SameBeyondLine s (raiseFaults l s) := by
  rw [raiseFaults_eq]; constructor <;> rfl
theorem hearDraw_same (c : Config) (s : State) : SameBeyondLine s (hearDraw c s) :=
  (show SameBeyondLine s { s with draws := s.draws + 1 } by constructor <;> rfl).trans
    ((raiseFaults_same _ _).trans (pushChars_same c _ _))

theorem pushChar_same (c : Config) (s : State) (ch : Character) : SameBeyondLine s (pushChar c s ch) :=
  pushChars_same c [ch] s

theorem hearCell_same (c : Config) (s : State) (l : Level) : SameBeyondLine s (hearCell c s l) := by
  have h : SameBeyondLine s { s with decPos := (decCell s.decPos s.decShift l).1
                                     decShift := (decCell s.decPos s.decShift l).2.1 } := by
    constructor <;> rfl
  unfold hearCell
  simp only
  split
  · exact h
  · exact h.trans (pushChar_same c _ _)
  · exact h.trans (by constructor <;> rfl)
  · exact h.trans (hearDraw_same c _)

theorem hearCells_append (c : Config) (l m : List Level) (s : State) :
    hearCells c (l ++ m) s = hearCells c m (hearCells c l s) := List.foldl_append ..

theorem hearCells_same (c : Config) (cells : List Level) (s : State) : SameBeyondLine s (hearCells c cells s) := by
  induction cells generalizing s with
  | nil => exact .refl s
  | cons l ls ih => exact (hearCell_same c s l).trans (ih _)

theorem hearContended_same (c : Config) (s : State) : SameBeyondLine s (hearContended c s) :=
  (hearDraw_same c s).trans (by constructor <;> rfl)

/-- Cells of a peer are heard exactly, or under contention. -/
theorem hearPeer_cases (c : Config) (cells : List Level) (s : State) :
    (hearPeer c cells s = hearCells c cells s) ∨ (s.txaPhase = .sending ∧ hearPeer c cells s = hearContended c s) := by
  unfold hearPeer
  split
  · next h => exact Or.inr ⟨h.1, rfl⟩
  · exact Or.inl rfl

/-- While the engine does not drive, cells of a peer are heard exactly (20_memory.md R80). -/
theorem hearPeer_quiet (c : Config) (cells : List Level) (s : State) (h : s.txaPhase ≠ .sending) :
    hearPeer c cells s = hearCells c cells s := if_neg fun k => h k.1

@[simp] theorem hearPeer_nil (c : Config) (s : State) : hearPeer c [] s = s := if_neg fun k => k.2 rfl

theorem hearPeer_same (c : Config) (cells : List Level) (s : State) : SameBeyondLine s (hearPeer c cells s) := by
  rcases hearPeer_cases c cells s with e | ⟨_, e⟩ <;> rw [e]
  · exact hearCells_same c cells s
  · exact hearContended_same c s

/-- What each cell keeps, a run of cells keeps. -/
theorem hearCells_keeps (P : State → Prop) (c : Config) (cell : ∀ s l, P s → P (hearCell c s l)) (cells : List Level) (s : State)
    (h : P s) : P (hearCells c cells s) := by
  induction cells generalizing s with
  | nil => exact h
  | cons l ls ih => exact ih _ (cell s l h)

/-- What each framing fault keeps, a run of them keeps. -/
theorem raiseFaults_keeps (P : State → Prop) (fault : ∀ s i, P s → P (s.raiseFault i))
    (l : List Nat) (s : State) (h : P s) : P (raiseFaults l s) := by
  induction l generalizing s with
  | nil => exact h
  | cons i l ih => exact ih _ (fault s _ h)

/-- A property that faults, pushed characters and DEC's own registers keep is kept by a draw. -/
theorem hearDraw_keeps (P : State → Prop) (c : Config)
    (regs : ∀ s p sh n, P s → P { s with decPos := p, decShift := sh, draws := n })
    (fault : ∀ s i, P s → P (s.raiseFault i)) (push : ∀ s ch, P s → P (pushChar c s ch))
    (s : State) (h : P s) : P (hearDraw c s) := by
  have hp : ∀ (l : List Character) (u : State), P u → P (pushChars c u l) := by
    intro l
    induction l with
    | nil => exact fun u hu => hu
    | cons ch l ih => exact fun u hu => ih _ (push u ch hu)
  exact hp _ _ (raiseFaults_keeps P fault _ _ (regs s s.decPos s.decShift (s.draws + 1) h))

/-- The same of one cell. -/
theorem hearCell_keeps (P : State → Prop) (c : Config)
    (regs : ∀ s p sh n, P s → P { s with decPos := p, decShift := sh, draws := n })
    (fault : ∀ s i, P s → P (s.raiseFault i)) (push : ∀ s ch, P s → P (pushChar c s ch))
    (s : State) (l : Level) (h : P s) : P (hearCell c s l) := by
  unfold hearCell
  simp only
  split
  · exact regs s _ _ s.draws h
  · exact push _ _ (regs s _ _ s.draws h)
  · exact fault _ _ (regs s _ _ (s.draws + 1) h)
  · exact hearDraw_keeps P c regs fault push _ (regs s _ _ s.draws h)

/-- The same of what DEC hears under contention. -/
theorem hearContended_keeps (P : State → Prop) (c : Config)
    (regs : ∀ s p sh n, P s → P { s with decPos := p, decShift := sh, draws := n })
    (fault : ∀ s i, P s → P (s.raiseFault i)) (push : ∀ s ch, P s → P (pushChar c s ch))
    (s : State) (h : P s) : P (hearContended c s) :=
  regs (hearDraw c s) _ _ _ (hearDraw_keeps P c regs fault push s h)

/-- The same of a peer's cells. -/
theorem hearPeer_keeps (P : State → Prop) (c : Config)
    (regs : ∀ s p sh n, P s → P { s with decPos := p, decShift := sh, draws := n })
    (fault : ∀ s i, P s → P (s.raiseFault i)) (push : ∀ s ch, P s → P (pushChar c s ch))
    (cells : List Level) (s : State) (h : P s) : P (hearPeer c cells s) := by
  rcases hearPeer_cases c cells s with e | ⟨_, e⟩ <;> rw [e]
  · exact hearCells_keeps P c (hearCell_keeps P c regs fault push) cells s h
  · exact hearContended_keeps P c regs fault push s h

/-- The same of the engine's own cells. -/
theorem hearOwn_keeps (P : State → Prop) (c : Config)
    (regs : ∀ s p sh n, P s → P { s with decPos := p, decShift := sh, draws := n })
    (fault : ∀ s i, P s → P (s.raiseFault i)) (push : ∀ s ch, P s → P (pushChar c s ch))
    (contended : Bool) (ch : Character) (s : State) (h : P s) : P (hearOwn c contended ch s) := by
  unfold hearOwn
  split
  · exact hearContended_keeps P c regs fault push s h
  · refine hearCells_keeps P c (hearCell_keeps P c regs fault push) _ _ ?_
    split
    · exact h
    · exact regs s _ _ _ h

/-- The engine's own cells write the fields of the line only. -/
theorem hearOwn_same (c : Config) (contended : Bool) (ch : Character) (s : State) :
    SameBeyondLine s (hearOwn c contended ch s) :=
  hearOwn_keeps (SameBeyondLine s) c (fun _ _ _ _ h => h.trans (by constructor <;> rfl))
    (fun u i h => h.trans (show SameBeyondLine u (u.raiseFault i) by constructor <;> rfl)) (fun u ch h => h.trans (pushChar_same c u ch)) contended ch s (.refl s)

/-- Everything `TXA.send_char` can do (R226). -/
theorem txaSendChar_cases (c : Config) (contended : Bool) (s : State) : txaSendChar c contended s = s ∨
    ∃ cur b, s.txaPhase = .sending ∧ s.txaCur = some cur ∧ cur.bytes[s.txaIdx]? = some b ∧
      txaSendChar c contended s = { hearOwn c contended ⟨b, s.txaIdx == 0⟩
          { s with lineOut := true, waveform := s.waveform ++ charCells b (s.txaIdx == 0) } with
        txaIdx := s.txaIdx + 1
        txaPhase := if s.txaIdx + 1 = cur.bytes.length then .echo else .sending } := by
  unfold txaSendChar
  split
  · next h1 =>
    split
    · exact Or.inl rfl
    · next cur h2 =>
      split
      · exact Or.inl rfl
      · next b h3 =>
        refine Or.inr ⟨cur, b, h1, h2, h3, ?_⟩
        have e := (hearOwn_same c contended ⟨b, s.txaIdx == 0⟩
          { s with lineOut := true, waveform := s.waveform ++ charCells b (s.txaIdx == 0) }).txaIdx
        simp only at e ⊢
        rw [e]
  · exact Or.inl rfl

/-- Idle cells between characters. -/
theorem hearCells_idle (c : Config) (n : Nat) (s : State) (h : s.decPos = .idle) :
    hearCells c (List.replicate n true) s = s := by
  induction n generalizing s with
  | zero => rfl
  | succ n ih =>
    obtain ⟨⟩ := s
    subst h
    exact ih _ rfl

/-- A whole character, from between characters: its bits collected, the character pushed (R161, R164). -/
theorem hearCells_char (c : Config) (b : Byte) (m : Level) (s : State) (h : s.decPos = .idle) :
    hearCells c (charCells b m) s = pushChar c { s with decShift := charBits b m } ⟨b, m⟩ := by
  have body : hearCells c (charCells b m).dropLast s = { s with decPos := .inChar 10, decShift := charBits b m } := by
    rw [← collected_bits]
    obtain ⟨⟩ := s
    subst h
    rfl
  have last : ∀ sh : BitVec 9, hearCells c [true] { s with decPos := .inChar 10, decShift := sh } =
      pushChar c { s with decPos := .idle, decShift := sh } ⟨sh.setWidth 8, sh.getLsbD 8⟩ := fun _ => rfl
  rw [show charCells b m = (charCells b m).dropLast ++ [true] from rfl, hearCells_append, body, last, charBits_byte,
    charBits_marker]
  obtain ⟨⟩ := s
  subst h
  rfl

theorem pushChar_shift (c : Config) (s : State) (ch : Character) (sh : BitVec 9) :
    pushChar c { s with decShift := sh } ch = { pushChar c s ch with decShift := sh } := by
  unfold pushChar
  split <;> rfl

theorem pushChar_decPos (c : Config) (s : State) (ch : Character) : (pushChar c s ch).decPos = s.decPos := by
  unfold pushChar
  split <;> rfl

theorem pushChars_shift (c : Config) (l : List Character) (s : State) (sh : BitVec 9) :
    pushChars c { s with decShift := sh } l = { pushChars c s l with decShift := sh } := by
  simp only [pushChars_eq]

/-- Characters back to back, from between characters: pushed in order. -/
theorem hearCells_chars (c : Config) (chs : List Character) (s : State) (h : s.decPos = .idle) :
    ∃ sh, hearCells c (charsCells chs) s = { pushChars c s chs with decShift := sh } := by
  induction chs generalizing s with
  | nil => exact ⟨s.decShift, rfl⟩
  | cons ch chs ih =>
    rw [charsCells, hearCells_append, hearCells_char c _ _ _ h, pushChar_shift]
    obtain ⟨sh, e⟩ := ih { pushChar c s ch with decShift := charBits ch.byte ch.marker } ((pushChar_decPos c s ch).trans h)
    exact ⟨sh, e.trans (by rw [pushChars_shift]; rfl)⟩

/-- A frame, from between characters. -/
theorem hearCells_frame (c : Config) (f : List Byte) (s : State) (h : s.decPos = .idle) :
    ∃ sh, hearCells c (frameCells f) s = { pushChars c s (frameChars f) with decShift := sh } := hearCells_chars c _ s h

/-- What contention leaves, in the terms claims use (20_memory.md R80). -/
theorem hearContended_eq (c : Config) (s : State) : hearContended c s = afterContention c s := by
  unfold hearContended hearDraw
  rw [raiseFaults_eq, pushChars_eq]
  rfl

/-- While the engine drives, cells of a peer are heard under contention. -/
theorem hearPeer_sending (c : Config) (cells : List Level) (s : State) (h : s.txaPhase = .sending) (hc : cells ≠ []) :
    hearPeer c cells s = afterContention c s := (if_pos ⟨h, hc⟩).trans (hearContended_eq c s)

/-! ### Hearing is a run of the decoder with every character pushed at once -/

/-- The framing fault as it is logged. -/
abbrev faultLogged : OutEvent := .log .lineFramingFault .nothing

/-- What hearing cells from `s` has left when the decoder, run from where DEC stands, has reported `r`: its registers, the characters that found
room, the flags, and the faults and the dropped characters in the order in which they came. A fault on the line has an
index of its own (log 14). -/
def HearsRun (c : Config) (s : State) (r : DecRun) (u : State) : Prop :=
  ∃ logged is, u = { s with
      decPos := r.pos, decShift := r.shift, draws := r.draws
      rxf := s.rxf ++ r.chars.take (c.rxfDepth - s.rxf.length)
      err := { s.err with
        lineFramingFault := s.err.lineFramingFault || r.faults != []
        rxOverrun := s.err.rxOverrun || decide (c.rxfDepth - s.rxf.length < r.chars.length) }
      out := s.out ++ logged
      faultIndices := s.faultIndices ++ is } ∧
    is.length = r.faults.length ∧
    logged.filter (· == faultLogged) = List.replicate r.faults.length faultLogged ∧
    logged.filter (· != faultLogged) =
      (r.chars.drop (c.rxfDepth - s.rxf.length)).map fun ch => .log .rxOverrun (.char ch)

theorem HearsRun.push {c : Config} {s u : State} {r : DecRun} (h : HearsRun c s r u) (ch : Character) :
    HearsRun c s { r with chars := r.chars ++ [ch] } (pushChar c u ch) := by
  obtain ⟨logged, is, rfl, h0, h1, h2⟩ := h
  have hl : (s.rxf ++ r.chars.take (c.rxfDepth - s.rxf.length)).length < c.rxfDepth ↔
      r.chars.length < c.rxfDepth - s.rxf.length := by rw [List.length_append, List.length_take]; omega
  unfold pushChar
  by_cases hr : r.chars.length < c.rxfDepth - s.rxf.length
  · rw [if_pos ((hasRoom_iff _ _).mpr (hl.mpr hr))]
    refine ⟨logged, is, ?_, h0, h1, ?_⟩
    · have e1 : ¬ c.rxfDepth - s.rxf.length < r.chars.length := by omega
      have e2 : ¬ c.rxfDepth - s.rxf.length < r.chars.length + 1 := by omega
      simp [List.take_of_length_le (Nat.le_of_lt hr), List.take_of_length_le (show (r.chars ++ [ch]).length ≤ _ by simpa using hr), e1, e2]
    · rw [List.drop_of_length_le (Nat.le_of_lt hr)] at h2
      rw [h2, List.drop_of_length_le (by simpa using hr)]
  · rw [if_neg (by rw [hasRoom_iff, hl]; exact hr)]
    have hle : c.rxfDepth - s.rxf.length ≤ r.chars.length := by omega
    refine ⟨logged ++ [.log .rxOverrun (.char ch)], is, ?_, h0, ?_, ?_⟩
    · have e2 : c.rxfDepth - s.rxf.length < r.chars.length + 1 := by omega
      simp [State.raise, ErrFlags.mark, e2, List.take_append_of_le_length hle]
    · rw [List.filter_append, h1]; simp
    · rw [List.filter_append, h2, List.drop_append_of_le_length hle]; simp

theorem HearsRun.pushes {c : Config} {s : State} (l : List Character) {u : State} {r : DecRun} (h : HearsRun c s r u) :
    HearsRun c s { r with chars := r.chars ++ l } (pushChars c u l) := by
  induction l generalizing u r with
  | nil => simpa [pushChars] using h
  | cons ch l ih => simpa [pushChars] using ih (h.push ch)

theorem HearsRun.faults {c : Config} {s : State} (l m : List Nat) (hlm : l.length = m.length) {u : State} {r : DecRun}
    (h : HearsRun c s r u) : HearsRun c s { r with faults := r.faults ++ l } (raiseFaults m u) := by
  obtain ⟨logged, is, rfl, h0, h1, h2⟩ := h
  refine ⟨logged ++ List.replicate m.length faultLogged, is ++ m, ?_, by simp [h0, hlm], ?_, ?_⟩
  · rw [raiseFaults_eq]
    cases l <;> cases m <;> simp_all
  · rw [List.filter_append, h1, List.length_append, List.replicate_add, hlm]
    simp
  · rw [List.filter_append, h2]
    simp

theorem HearsRun.regs {c : Config} {s u : State} {r : DecRun} (h : HearsRun c s r u) (p : DecPos) (sh : BitVec 9) (d : Nat) :
    HearsRun c s { r with pos := p, shift := sh, draws := d } { u with decPos := p, decShift := sh, draws := d } := by
  obtain ⟨logged, is, rfl, h0, h1, h2⟩ := h
  exact ⟨logged, is, rfl, h0, h1, h2⟩

/-- Hearing cells is a run of the decoder with each of its characters pushed at once (R160 to R164). -/
theorem hearCells_run (c : Config) (cells : List Level) (s u : State) (i : Nat) (r : DecRun) (h : HearsRun c s r u) :
    HearsRun c s (decRun c i r cells) (hearCells c cells u) := by
  induction cells generalizing u i r with
  | nil => exact h
  | cons l ls ih =>
    have hp : u.decPos = r.pos ∧ u.decShift = r.shift ∧ u.draws = r.draws := by
      obtain ⟨_, _, rfl, _⟩ := h; exact ⟨rfl, rfl, rfl⟩
    show HearsRun c s _ (hearCells c ls (hearCell c u l))
    rw [decRun, hearCell, hp.1, hp.2.1]
    generalize decCell r.pos r.shift l = y
    obtain ⟨p, sh, o⟩ := y
    have hr := h.regs p sh r.draws
    rw [show ({ u with decPos := p, decShift := sh, draws := r.draws } : State) = { u with decPos := p, decShift := sh } by
      rw [← hp.2.2]] at hr
    cases o with
    | nothing => exact ih _ _ _ hr
    | char ch => exact ih _ _ _ (hr.push ch)
    | fault =>
      refine ih _ _ _ ?_
      have hd := (h.regs p sh (r.draws + 1)).faults [i - 10] [(c.draw r.draws).index] rfl
      simp only [hp.2.2]
      exact hd
    | drawn =>
      refine ih _ _ _ ?_
      have hd := ((h.regs p sh (r.draws + 1)).faults (c.draw r.draws).faults _ rfl).pushes (c.draw r.draws).chars
      rw [hearDraw]
      simp only [hp.2.2]
      exact hd

/-- Nothing heard yet. -/
theorem HearsRun.start (c : Config) (s : State) : HearsRun c s ⟨s.decPos, s.decShift, s.draws, [], []⟩ s := by
  refine ⟨[], [], ?_, rfl, rfl, by simp⟩
  simp
/-- Everything hearing cells can do (R161, R162, R164). -/
theorem hearCells_eq (c : Config) (cells : List Level) (s : State) :
    HearsRun c s (decRun c 0 ⟨s.decPos, s.decShift, s.draws, [], []⟩ cells) (hearCells c cells s) :=
  hearCells_run c cells s s 0 _ (.start c s)

/-! ### What DEC and the receiver can do together -/

/-- The states that DEC's hearing of cells and a consumer's feeding of the receiver reach, before a frame is taken. -/
inductive Heard (s : State) : State → Prop
  | refl : Heard s s
  | cells (u : State) (l : List Level) (h : Heard s u) : Heard s (hearPeer chip l u)
  | pop (u v : State) (ch : Character) (rest : List Character) (h : Heard s u) (hr : u.rxf = ch :: rest)
      (hs : stepFrx chip ch.byte ch.marker { u with rxf := rest } = .next v) : Heard s v

/-- What cells and pops keep, hearing keeps. -/
theorem Heard.keeps {s u : State} (h : Heard s u) (P : State → Prop) (cells : ∀ u l, P u → P (hearPeer chip l u))
    (pop : ∀ u v ch rest, u.rxf = ch :: rest → stepFrx chip ch.byte ch.marker { u with rxf := rest } = .next v → P u → P v)
    (hs : P s) : P u := by
  induction h with
  | refl => exact hs
  | cells u l _ ih => exact cells u l ih
  | pop u v ch rest _ hr hst ih => exact pop u v ch rest hr hst ih

theorem Heard.trans {s u v : State} (h : Heard s u) (k : Heard u v) : Heard s v :=
  k.keeps (Heard s) (fun u l hu => .cells u l hu) (fun u v ch rest hr hst hu => .pop u v ch rest hu hr hst) h

end Sys2Proof.Machine
end

