-- ==== Sys2Proof/Laws/Step.lean ====
section
/-! SUPPORT. What the steps of an operation can do: an agent's steps and the uninterrupted run have one outcome, the run
keeps what each step keeps, and no first step touches the tasks. -/
namespace Sys2Proof.Machine

/-- One step of an agent leaves the same run to its end. -/
theorem runItems_itemStep (c : Config) (a : Agent) (t : Task) (s : State) (h : t.items ≠ []) :
    runItems c a (itemStep c a t s).2.items (itemStep c a t s).2.lastOk (itemStep c a t s).2.allOk (itemStep c a t s).1 =
      runItems c a t.items t.lastOk t.allOk s := by
  obtain ⟨items, last, all⟩ := t
  match items with
  | [] => exact absurd rfl h
  | .frame _ _ _ :: _ | .markPing :: _ | .enterSteady :: _ | .finishDetach :: _ | .ret :: _ => rfl
  | .enq f left true :: rest =>
    simp only [itemStep]
    split
    · next hr => simp [runItems, finishEnqueue, hr]
    · next hr =>
      simp only [Bool.not_eq_true] at hr
      simp only [runItems, finishEnqueue, hr]
      cases left with
      | zero => simp
      | succ n => cases n <;> simp [State.accepts, hr]
  | .enq f 0 false :: rest => simp [itemStep, runItems, finishEnqueue]
  | .enq f (left + 1) false :: rest =>
    simp only [itemStep, takeLock_eq]
    by_cases hl : s.lock = .free
    · simp only [hl, if_true, runItems, finishEnqueue, State.accepts]
      cases hr : hasRoom s.q c.qDepth <;> simp [← hl]
    · simp [hl, runItems, finishEnqueue, State.accepts]
      cases left <;> simp
  | .drain d _ true :: rest => simp [itemStep, runItems, finishDrain]
  | .drain d 0 false :: rest => simp [itemStep, runItems, finishDrain]
  | .drain d (left + 1) false :: rest =>
    simp only [itemStep, takeLock_eq]
    by_cases hl : s.lock = .free
    · simp [hl, runItems, finishDrain]
    · simp [hl, runItems, finishDrain]
      cases left <;> simp

/-- How many steps an item takes at most. -/
def Item.weight (c : Config) : Item → Nat
  | .frame _ _ _ => 2 * c.enqRetryMax + 2
  | .enq _ l h | .drain _ l h => if h then (if l = 0 then 2 else 2 * l) else 2 * l + 1
  | .markPing | .enterSteady | .finishDetach | .ret => 1

/-- Every step of an agent brings it nearer to the end of its operation. -/
theorem itemStep_weight (c : Config) (a : Agent) (t : Task) (s : State) (h : t.items ≠ []) :
    ((itemStep c a t s).2.items.map (Item.weight c)).sum < (t.items.map (Item.weight c)).sum := by
  obtain ⟨items, last, all⟩ := t
  match items with
  | [] => exact absurd rfl h
  | .enq f left true :: rest =>
    simp only [itemStep]
    split <;> cases left <;> (simp [Item.weight]; try omega)
  | .drain d left true :: rest => cases left <;> simp [itemStep, Item.weight]
  | .enq f (left + 1) false :: rest | .drain d (left + 1) false :: rest =>
    simp only [itemStep, takeLock_eq]
    by_cases hl : s.lock = .free <;> simp [hl, Item.weight]
  | .frame d src w :: rest | .enq f 0 false :: rest | .drain d 0 false :: rest | .markPing :: rest
  | .enterSteady :: rest | .finishDetach :: rest | .ret :: rest => simp [itemStep, Item.weight]

theorem setTask_fields (s : State) (a : Agent) (t : Task) : s.setTask a t = { s with tasks := (s.setTask a t).tasks } := by
  unfold State.setTask
  split <;> rfl

/-- What every step of an agent keeps, the run of its operation to the end keeps. -/
theorem runItems_keeps (P : State → Prop) (a : Agent) (step : ∀ s, P s → P (agentStep chip a s)) (t : Task) (s : State)
    (ht : s.taskOf a = some t) (hne : t.items ≠ []) (hP : P s) :
    P ((runItems chip a t.items t.lastOk t.allOk s).clearTask a) := by
  generalize hn : (t.items.map (Item.weight chip)).sum = n
  induction n using Nat.strong_induction_on generalizing t s with
  | _ n ih =>
    subst hn
    have hs : agentStep chip a s = (itemStep chip a t s).1.setTask a (itemStep chip a t s).2 := by simp [agentStep, ht]
    have hr := runItems_itemStep chip a t s hne
    have hP' := step s hP
    rw [← hr]
    by_cases he : (itemStep chip a t s).2.items = []
    · rw [hs] at hP'
      simpa [he, runItems, State.setTask] using hP'
    · have h := ih _ (itemStep_weight chip a t s hne) (itemStep chip a t s).2 (agentStep chip a s)
        (by rw [hs]; exact taskOf_setTask _ _ _ he) he hP' rfl
      rw [hs, setTask_fields, runItems_tasks] at h
      have e0 := congrArg State.tasks (runItems_tasks chip a (itemStep chip a t s).2.items (itemStep chip a t s).2.lastOk
        (itemStep chip a t s).2.allOk (itemStep chip a t s).1 (itemStep chip a t s).1.tasks)
      have e2 := congrArg State.tasks (clearTask_setTask (itemStep chip a t s).1 a (itemStep chip a t s).2)
      simp only [State.clearTask] at h e2 ⊢
      rw [e2] at h
      rw [show (runItems chip a (itemStep chip a t s).2.items (itemStep chip a t s).2.lastOk (itemStep chip a t s).2.allOk
        (itemStep chip a t s).1).tasks = (itemStep chip a t s).1.tasks from e0]
      exact h

theorem busy_false_iff (s : State) (a : Agent) : s.busy a = false ↔ ∀ e ∈ s.tasks, e.1 ≠ a := by
  simp [State.busy, State.taskOf]

/-- An agent that is not inside an operation has no task to forget. -/
theorem filter_of_not_busy (s : State) (a : Agent) (h : s.busy a = false) : (s.tasks.filter fun e => e.1 != a) = s.tasks := by
  rw [List.filter_eq_self]
  intro e he
  simpa using (busy_false_iff s a).mp h e he

/-- An operation run whole keeps what its first step and every step of its agent keep. -/
theorem whole_keeps (P : State → Prop) (o : Opening) (s t : State) (step : ∀ s, P s → P (agentStep chip o.agent s))
    (tasks : ∀ b, o.first = .next b → b.state.tasks = s.tasks) (begun : ∀ u, o.begin s = .next u → P u)
    (h : o.whole chip s = .next t) : P t := by
  cases hb : s.busy o.agent
  · cases hf : o.first with
    | fault r => rw [Opening.whole, if_neg (by simp [hb]), hf] at h; cases h
    | refused r => rw [Opening.whole, if_neg (by simp [hb]), hf] at h; cases h
    | next b =>
      rw [whole_next o chip s b hb hf] at h
      obtain rfl := Host.Outcome.next.inj h
      have hbeg : o.begin s = .next (if b.rest.isEmpty then b.state else b.state.setTask o.agent ⟨b.rest, true, true⟩) := by
        rw [Opening.begin, if_neg (by simp [hb]), hf]; rfl
      have hP := begun _ hbeg
      by_cases he : b.rest = []
      · rw [he] at hP ⊢
        exact hP
      · rw [if_neg (by simpa using he)] at hP
        have hk := runItems_keeps P o.agent step ⟨b.rest, true, true⟩ _ (taskOf_setTask b.state o.agent ⟨b.rest, true, true⟩ he)
          he hP
        have hx := congrArg State.tasks (clearTask_setTask b.state o.agent ⟨b.rest, true, true⟩)
        rw [setTask_fields, runItems_tasks] at hk
        simp only [State.clearTask] at hk hx
        have hbs : b.state.busy o.agent = false := by
          rw [busy_false_iff] at hb ⊢
          rw [tasks b hf]; exact hb
        rw [hx, filter_of_not_busy _ _ hbs] at hk
        have e0 := congrArg State.tasks (runItems_tasks chip o.agent b.rest true true b.state b.state.tasks)
        have e1 : (runItems chip o.agent b.rest true true b.state).tasks = b.state.tasks := e0
        have e2 : { runItems chip o.agent b.rest true true b.state with tasks := b.state.tasks } =
            runItems chip o.agent b.rest true true b.state := by rw [← e1]
        rw [e2] at hk
        exact hk
  · rw [whole_busy o chip s hb] at h
    obtain rfl := Host.Outcome.next.inj h
    exact begun o.held (by rw [Opening.begin, if_pos hb])

/-! ### The Frame Receiver's step -/

/-- Everything `frx_step` can do when it answers a next state (R181 to R185). -/
theorem stepFrx_next (c : Config) (b : Byte) (m : Level) (s t : State) (h : stepFrx c b m s = .next t) :
    (s.frxState = .awaitingAddress ∧ m = false ∧ t = s) ∨
    (s.frxState = .awaitingAddress ∧ m = true ∧
      t = { s with frxBuf := s.frxBuf.write 0 b, frxCount := 1, frxState := .awaitingLength }) ∨
    (s.frxState = .awaitingLength ∧ s.frxCount < c.rxCap ∧ s.frxCount ≠ 3 ∧ t = s.storeFrx b) ∨
    (s.frxState = .awaitingLength ∧ s.frxCount = 3 ∧ b.toNat < 5 ∧
      t = (({ s.storeFrx b with frxLen := b } : State).raise .frameMalformed (.size b.toNat)).resetFrx) ∨
    (s.frxState = .awaitingLength ∧ s.frxCount = 3 ∧ 5 ≤ b.toNat ∧ c.rxCap < b.toNat ∧
      t = (({ s.storeFrx b with frxLen := b } : State).raise .bufferTooSmall (.sizes b.toNat c.rxCap)).resetFrx) ∨
    (s.frxState = .awaitingLength ∧ s.frxCount = 3 ∧ 5 ≤ b.toNat ∧ b.toNat ≤ c.rxCap ∧
      t = { s.storeFrx b with frxLen := b, frxState := .awaitingPayload }) ∨
    (s.frxState = .awaitingPayload ∧ s.frxCount < c.rxCap ∧ s.frxCount + 1 = s.frxLen.toNat ∧
      t = { s.storeFrx b with frxState := .complete }) ∨
    (s.frxState = .awaitingPayload ∧ s.frxCount < c.rxCap ∧ s.frxCount + 1 ≠ s.frxLen.toNat ∧ t = s.storeFrx b) := by
  unfold stepFrx at h
  cases hs : s.frxState
  · rw [hs] at h
    cases m
    · exact Or.inl ⟨rfl, rfl, (Host.Outcome.next.inj h).symm⟩
    · exact Or.inr (Or.inl ⟨rfl, rfl, (Host.Outcome.next.inj h).symm⟩)
  · rw [hs] at h
    by_cases h1 : c.rxCap ≤ s.frxCount
    · simp only [h1, if_true] at h; cases h
    · by_cases h2 : s.frxCount + 1 = 4
      · have h3 : s.frxCount = 3 := by omega
        by_cases h4 : b.toNat < 5
        · simp only [h1, h2, h4, if_true, if_false] at h
          exact Or.inr (Or.inr (Or.inr (Or.inl ⟨rfl, h3, h4, (Host.Outcome.next.inj h).symm⟩)))
        · by_cases h5 : c.rxCap < b.toNat
          · simp only [h1, h2, h4, h5, if_true, if_false] at h
            exact Or.inr (Or.inr (Or.inr (Or.inr (Or.inl ⟨rfl, h3, by omega, h5, (Host.Outcome.next.inj h).symm⟩))))
          · simp only [h1, h2, h4, h5, if_true, if_false] at h
            exact Or.inr (Or.inr (Or.inr (Or.inr (Or.inr (Or.inl
              ⟨rfl, h3, by omega, by omega, (Host.Outcome.next.inj h).symm⟩)))))
      · simp only [h1, h2, if_false] at h
        exact Or.inr (Or.inr (Or.inl ⟨rfl, by omega, by omega, (Host.Outcome.next.inj h).symm⟩))
  · rw [hs] at h
    by_cases h1 : c.rxCap ≤ s.frxCount
    · simp only [h1, if_true] at h; cases h
    · by_cases h2 : s.frxCount + 1 = s.frxLen.toNat
      · simp only [h1, h2, if_true, if_false] at h
        exact Or.inr (Or.inr (Or.inr (Or.inr (Or.inr (Or.inr (Or.inl
          ⟨rfl, by omega, h2, (Host.Outcome.next.inj h).symm⟩))))))
      · simp only [h1, h2, if_false] at h
        exact Or.inr (Or.inr (Or.inr (Or.inr (Or.inr (Or.inr (Or.inr
          ⟨rfl, by omega, h2, (Host.Outcome.next.inj h).symm⟩))))))
  · rw [hs] at h; cases h

/-! ### The first steps leave the tasks as they are -/

theorem raiseVerdict_tasks (f : List Byte) (s : State) : (raiseVerdict f s).tasks = s.tasks := by
  unfold raiseVerdict
  split <;> rfl

theorem stepFrx_same (c : Config) (b : Byte) (m : Level) (s t : State) (h : stepFrx c b m s = .next t) :
    SameBeyondLine s t := by
  rcases stepFrx_next c b m s t h with ⟨_, _, rfl⟩ | ⟨_, _, rfl⟩ | ⟨_, _, _, rfl⟩ | ⟨_, _, _, rfl⟩ | ⟨_, _, _, _, rfl⟩ |
    ⟨_, _, _, _, rfl⟩ | ⟨_, _, _, rfl⟩ | ⟨_, _, _, rfl⟩ <;> constructor <;> rfl

/-- A pop of one character into the receiver. -/
theorem pop_same (c : Config) (ch : Character) (rest : List Character) (s t : State)
    (h : stepFrx c ch.byte ch.marker { s with rxf := rest } = .next t) : SameBeyondLine s t :=
  (show SameBeyondLine s { s with rxf := rest } by constructor <;> rfl).trans (stepFrx_same c _ _ _ _ h)

/-- Hearing and receiving write the fields of the line and the receiver only. -/
theorem Heard.same {s u : State} (h : Heard s u) : SameBeyondLine s u :=
  h.keeps (SameBeyondLine s) (fun u l hu => hu.trans (hearPeer_same chip l u))
    (fun u v ch rest _ hst hu => hu.trans (pop_same chip ch rest u v hst)) (.refl s)

theorem presenceConfirm_tasks (p : Peer) (s : State) : (presenceConfirm p s).tasks = s.tasks := by
  unfold presenceConfirm
  split
  · rfl
  · simp only
    split <;> exact setPresent_tasks p true (setFails p 0 s)

theorem usbAttach_tasks (s : State) : (usbAttach s).tasks = s.tasks := by
  unfold usbAttach
  split
  · exact presenceConfirm_tasks .usb s
  · simp [attach, presenceConfirm_tasks]
  · exact presenceConfirm_tasks .usb s
  · rfl

theorem usbDetach_tasks (s : State) : (usbDetach s).state.tasks = s.tasks := by
  unfold usbDetach
  split <;> rfl

theorem recvInputSourceName_tasks (x : Inbound) (s : State) : (recvInputSourceName x s).tasks = s.tasks := by
  unfold recvInputSourceName; repeat' split
  all_goals rfl
theorem recvMasterVolume_tasks (x : Inbound) (s : State) : (recvMasterVolume x s).tasks = s.tasks := by
  unfold recvMasterVolume; repeat' split
  all_goals rfl
theorem recvSubVolume_tasks (x : Inbound) (s : State) : (recvSubVolume x s).tasks = s.tasks := by
  unfold recvSubVolume; repeat' split
  all_goals rfl
theorem recvChangeMemory_tasks (c : Config) (x : Inbound) (s : State) : (recvChangeMemory c x s).tasks = s.tasks := by
  unfold recvChangeMemory; repeat' split
  all_goals rfl
theorem recvIsPresent_tasks (x : Inbound) (s : State) : (recvIsPresent x s).tasks = s.tasks := by
  unfold recvIsPresent; repeat' split
  all_goals first | exact presenceConfirm_tasks _ s | exact usbAttach_tasks s | rfl
theorem recvIsDisconnected_tasks (x : Inbound) (s : State) : (recvIsDisconnected x s).state.tasks = s.tasks := by
  unfold recvIsDisconnected; split
  · exact usbDetach_tasks s
  · rfl
theorem recvFirmwareVersion_tasks (x : Inbound) (s : State) : (recvFirmwareVersion x s).tasks = s.tasks := by
  unfold recvFirmwareVersion; split <;> rfl
theorem recvUsbConnected_tasks (x : Inbound) (s : State) : (recvUsbConnected x s).tasks = s.tasks := by
  unfold recvUsbConnected; split <;> rfl

theorem dispatchFrame_tasks (c : Config) (f : List Byte) (s : State) : (dispatchFrame c f s).state.tasks = s.tasks := by
  unfold dispatchFrame
  split
  · rfl
  · unfold routeCommand
    split
    · exact recvInputSourceName_tasks ..
    · exact recvMasterVolume_tasks ..
    · exact recvSubVolume_tasks ..
    · exact recvChangeMemory_tasks ..
    · exact recvIsPresent_tasks ..
    · exact recvUsbConnected_tasks ..
    · exact recvFirmwareVersion_tasks ..
    · exact recvIsDisconnected_tasks ..
    · rfl

theorem receiveFrame_tasks (c : Config) (f : List Byte) (s : State) : (receiveFrame c f s).state.tasks = s.tasks := by
  unfold receiveFrame
  split
  · exact dispatchFrame_tasks c f s
  · exact raiseVerdict_tasks f s
  · exact raiseVerdict_tasks f s

theorem takeFrame_tasks (c : Config) (k : State → State) (hk : ∀ s, (k s).tasks = s.tasks) (s : State) :
    (takeFrame c k s).state.tasks = s.tasks := (hk _).trans (receiveFrame_tasks c _ _)

/-- Everything a pop can do when it answers (R231, R290): wait, or feed one character and go on. -/
theorem popChar_next {c : Config} {s : State} {w : Host.Outcome Begun Fault Refusal}
    {k : State → Host.Outcome Begun Fault Refusal} {b : Begun} (h : popChar c s w k = .next b) :
    (s.rxf = [] ∧ w = .next b) ∨
    ∃ ch rest u, s.rxf = ch :: rest ∧ stepFrx c ch.byte ch.marker { s with rxf := rest } = .next u ∧ k u = .next b := by
  unfold popChar at h
  split at h
  · next hr => exact Or.inl ⟨hr, h⟩
  · next ch rest hr =>
    cases hs : stepFrx c ch.byte ch.marker { s with rxf := rest } with
    | fault r => rw [hs] at h; cases h
    | refused r => rw [hs] at h; cases h
    | next u => rw [hs] at h; exact Or.inr ⟨ch, rest, u, hr, hs, h⟩

theorem consumeChar_tasks (c : Config) (k : State → State) (hk : ∀ s, (k s).tasks = s.tasks) (s : State) (b : Begun)
    (h : consumeChar c k s = .next b) : b.state.tasks = s.tasks := by
  rcases popChar_next h with ⟨_, h⟩ | ⟨ch, rest, u, _, hs, h⟩
  · obtain rfl := Host.Outcome.next.inj h; rfl
  · have hu := (pop_same c ch rest s u hs).tasks
    obtain rfl := Host.Outcome.next.inj h
    split
    · exact (takeFrame_tasks c k hk u).trans hu
    · exact hu

theorem afterFrame_tasks (m : BusMode) (s : State) : (afterFrame m s).tasks = s.tasks := by cases m <;> rfl

/-- An arrival leaves every task as it is. -/
theorem arriveChars_tasks (c : Config) (m : BusMode) (chs : List Character) (s : State) (b : Begun)
    (h : arriveChars c m chs s = .next b) : b.state.tasks = s.tasks := by
  induction chs generalizing s with
  | nil =>
    rw [arriveChars] at h
    obtain rfl := Host.Outcome.next.inj h
    rfl
  | cons ch chs ih =>
    have hc := (hearPeer_same c (charCells ch.byte ch.marker) s).tasks
    rw [arriveChars] at h
    rcases popChar_next h with ⟨_, h⟩ | ⟨x, rest, u, _, hs, h⟩
    · exact (ih _ h).trans hc
    · have hu := (pop_same c x rest _ u hs).tasks.trans hc
      split at h
      · obtain rfl := Host.Outcome.next.inj h
        exact (hearPeer_same c _ _).tasks.trans ((takeFrame_tasks c _ (afterFrame_tasks m) u).trans hu)
      · exact (ih _ h).trans hu

theorem openArrival_tasks (c : Config) (bytes : List Byte) (s : State) (b : Begun) (h : (openArrival c bytes s).first = .next b) :
    b.state.tasks = s.tasks := by
  simp only [openArrival] at h
  split at h
  · exact arriveChars_tasks c _ _ _ _ h
  · obtain rfl := Host.Outcome.next.inj h
    exact (hearPeer_same c _ _).tasks

theorem tickFirst_tasks (s : State) : (tickFirst s).state.tasks = s.tasks := by
  have hc : (countFailure s).tasks = s.tasks := by simp [countFailure, setPresent_tasks]
  unfold tickFirst
  split
  · split <;> rfl
  · split
    · simp only
      split
      · exact (shutdown_tasks _).trans hc
      · exact hc
    · rfl
  · rfl
  · rfl

theorem hostFirst_tasks (h : Nat) (op : HostOp) (l : Bool) (i : Info) (x : List Item) (s : State) :
    (hostFirst h op l i x s).state.tasks = s.tasks := by
  unfold hostFirst; repeat' split
  all_goals rfl

/-- The first step of an operation leaves every task as it is. -/
theorem opening_tasks (i : Instr) (s : State) (o : Opening) (h : openingOf i s = some o) (b : Begun)
    (hb : o.first = .next b) : b.state.tasks = s.tasks := by
  cases i
  case txaRespChar =>
    obtain rfl := Option.some.inj h
    simp only [openTxaRespChar] at hb
    split at hb
    · exact consumeChar_tasks _ finishEntry (fun _ => rfl) _ _ hb
    · obtain rfl := Host.Outcome.next.inj hb; rfl
  case lstChar =>
    obtain rfl := Option.some.inj h
    simp only [openLstChar] at hb
    split at hb
    · exact consumeChar_tasks _ id (fun _ => rfl) _ _ hb
    · obtain rfl := Host.Outcome.next.inj hb; rfl
  case dispatch f =>
    obtain rfl := Option.some.inj h
    obtain rfl := Host.Outcome.next.inj hb
    split
    · exact dispatchFrame_tasks ..
    · rfl
  case pollTick =>
    obtain rfl := Option.some.inj h
    obtain rfl := Host.Outcome.next.inj hb
    exact tickFirst_tasks s
  case arbBootCompletion =>
    obtain rfl := Option.some.inj h
    obtain rfl := Host.Outcome.next.inj hb
    split <;> rfl
  case txaDrain =>
    obtain rfl := Option.some.inj h
    obtain rfl := Host.Outcome.next.inj hb
    split <;> rfl
  case setVolume | setBalance | setFader | setSubVolume | setMemory | powerOffMainUnit | requestSourceChange |
      checkPresence =>
    obtain rfl := Option.some.inj h
    obtain rfl := Host.Outcome.next.inj hb
    exact hostFirst_tasks ..
  case dequeueAllReady =>
    obtain rfl := Option.some.inj h
    obtain rfl := Host.Outcome.next.inj hb
    rfl
  case enqueue | ping | pushSettings =>
    obtain rfl := Option.some.inj h
    obtain rfl := Host.Outcome.next.inj hb
    split <;> rfl
  case inputSourceName | isPresent | usbConnected | firmwareVersion | isDisconnected | getCurrentSourceName =>
    obtain rfl := Option.some.inj h
    exact openArrival_tasks chip _ _ _ hb
  case masterVolume | balance | fader | subVolume | changeMemory | changeSource | checkPresent | powerOff =>
    obtain rfl := Option.some.inj h
    simp only [openMasterVolume, openBalance, openFader, openSubVolume, openChangeMemory, openChangeSource,
      openCheckPresent, openPowerOff] at hb
    split at hb
    · obtain rfl := Host.Outcome.next.inj hb
      exact hostFirst_tasks ..
    · exact openArrival_tasks chip _ _ _ hb
  all_goals cases h

/-- An operation of several steps is run whole by `exec`. -/
theorem exec_whole (i : Instr) (s : State) (o : Opening) (h : openingOf i s = some o) : exec i s = o.whole chip s := by
  cases i
  all_goals first
    | (obtain rfl := Option.some.inj h; rfl)
    | cases h

/-- A decoded instruction is well formed. -/
theorem decode_wf (bytes : List Byte) (i : Instr) (h : decode bytes = .ok i) : i.wf = true := by
  unfold decode at h
  split at h
  · cases h
  · cases h
  · next hv =>
    have hl := (frameBytes_of_verdict bytes hv).2
    unfold decodePayload at h
    split at h
    · cases h
    · next code args hp =>
      rw [hp] at hl
      have hw : argsFit args = true := decide_eq_true hl
      unfold decodeCommand at h
      split at h
      all_goals first
        | (injection h with h; subst h; exact hw)
        | cases h

end Sys2Proof.Machine
end

