-- ==== Sys2Proof/Laws/Begin.lean ====
section
/-! SUPPORT. Everything the first step of an operation can do, said once: what a dispatched frame does, what a consumer's
step does, what each operation leaves to be run. -/
namespace Sys2Proof.Machine

/-- What a received frame does to the state, and the steps it leaves to the agent that dispatched it (46_dispatcher.md
R292 to R311, 45_bus_arbiter.md R262 to R267). -/
inductive Dispatched (s : State) : State → List Item → Prop
  | ignored : Dispatched s s []
  | message (x y : Byte) (l : List Byte) : Dispatched s (s.emit (.peerMessage x y l)) []
  | error (e : Err) (i : Info) (h : e ≠ .presenceFailureTerminal) : Dispatched s (s.raise e i) []
  | setting (w : StoreWrite) (n : SettingName) (h : w.legal chip.memBanks = true) :
      Dispatched s (({ s with set := s.set.store w } : State).emit (.settingChanged n)) []
  | confirm (p : Peer) : Dispatched s (presenceConfirm p s) []
  | attach (h : s.arbState = .steadyPolling) : Dispatched s (attach s) []
  | detach (h : s.arbState = .usbPassthrough) : Dispatched s s (pushItems ++ [.finishDetach])

/-- Frames in a row, each of at most 250 payload bytes. -/
def Frames (l : List Item) : Prop := ∀ i ∈ l, i.sendable = true ∧ ∃ d src w, i = .frame d src w

/-- What the first step of an operation of agent `a` does to the state, and the steps it leaves; `d` says that the
operation is `dequeue_all_ready`. A consumer's step and an arrival are hearing and receiving, at most one frame taken in
between. -/
inductive First (s : State) (d : Prop) : Agent → State → List Item → Prop
  | nothing (a : Agent) : First s d a s []
  | received (u : State) (l : List Item) (h : Dispatched s u l) : First s d s.owner u l
  | hostRejected (h : Nat) (e : Err) (i : Info) (r : HostResult) (he : e ≠ .presenceFailureTerminal) :
      First s d (.host h) ((s.raise e i).giveReturn (some (.host h)) (.result r)) []
  | hostSends (h : Nat) (l : List Item) (hl : Frames l) : First s d (.host h) s (l ++ [.ret])
  | enqueue (a : Agent) (f : List Byte) (w : Bool) (ha : mayEnqueue a = true) (h : verdict f = .frame) :
      First s d a s [.enq ⟨f, w⟩ chip.enqRetryMax false, .ret]
  | drainCaller (hd : d) : First s d .txa s [.drain .caller chip.deqRetryMax false]
  | drainBatch (h1 : s.txaPhase = .idle) (h2 : s.txaBatch = []) (h3 : s.txaSuspended = false) :
      First s d .txa s [.drain .batch chip.deqRetryMax false]
  | sends (a : Agent) (l : List Item) (ha : mayEnqueue a = true) (hl : Frames l) : First s d a s l
  | pings (l : List Item) (hl : Frames l) : First s d .arb s (l ++ [.markPing])
  | failure (l : List Item) (hl : Frames l) (h1 : s.arbState = .steadyPolling)
      (h2 : (countFailure s).presence.dsp.fails ≠ pingFailMax) : First s d .arb (countFailure s) (l ++ [.markPing])
  | shutdown (l : List Item) (hl : Frames l) (h1 : s.arbState = .steadyPolling)
      (h2 : (countFailure s).presence.dsp.fails = pingFailMax) : First s d .arb (shutdown (countFailure s)) l
  | boot (h : s.arbState = .booting) : First s d .arb s (pushItems ++ [.enterSteady])
  | hears (a : Agent) (u : State) (h : Heard s u) : First s d a u []
  | respFrame (u v w : State) (l : List Item) (h1 : s.txaPhase = .awaitResponse) (h2 : s.busMode = .busMaster)
      (h3 : Heard s u) (h4 : Dispatched u.resetFrx v l) (h5 : Heard (finishEntry v) w) : First s d .txa w l
  | lstFrame (u v w : State) (l : List Item) (h1 : s.lstActive = true) (h3 : Heard s u) (h4 : Dispatched u.resetFrx v l)
      (h5 : Heard v w) : First s d .lst w l

/-- A first step under a weaker condition. -/
theorem First.mono {s u : State} {d e : Prop} {a : Agent} {l : List Item} (h : First s d a u l) (hde : d → e) :
    First s e a u l := by
  cases h
  case drainCaller hd => exact .drainCaller (hde hd)
  case pings l hl => exact .pings l hl
  case boot hb => exact .boot hb
  all_goals (constructor <;> assumption)

/-! ### Received frames -/

theorem usbAttach_dispatched (s : State) : Dispatched s (usbAttach s) [] := by
  unfold usbAttach
  split
  · exact .confirm .usb
  · next h => exact .attach h
  · exact .confirm .usb
  · exact .ignored

theorem usbDetach_dispatched (s : State) : Dispatched s (usbDetach s).state (usbDetach s).rest := by
  unfold usbDetach
  split
  · next h => exact .detach h
  all_goals exact .ignored

theorem discard_dispatched (x : Inbound) (s : State) : Dispatched s (discard x s) [] := .error _ _ (by decide)
theorem reject_dispatched (x : Inbound) (s : State) : Dispatched s (rejectInbound x s) [] := .error _ _ (by decide)

theorem recvInputSourceName_dispatched (x : Inbound) (s : State) : Dispatched s (recvInputSourceName x s) [] := by
  unfold recvInputSourceName
  split
  · split
    · exact reject_dispatched x s
    · next h =>
      refine .setting (.sourceName (x.args.take srcNameLen)) .sourceName ?_
      simpa [StoreWrite.legal] using h
  · exact discard_dispatched x s

theorem recvMasterVolume_dispatched (x : Inbound) (s : State) : Dispatched s (recvMasterVolume x s) [] := by
  unfold recvMasterVolume
  split
  · split
    · next v _ _ =>
      split
      · exact reject_dispatched x s
      · next h => exact .setting (.masterVolume v) .masterVolume (decide_eq_true (BitVec.not_lt.mp h))
    · exact reject_dispatched x s
  · exact discard_dispatched x s

theorem recvSubVolume_dispatched (x : Inbound) (s : State) : Dispatched s (recvSubVolume x s) [] := by
  unfold recvSubVolume
  split
  · split
    · next v _ _ =>
      split
      · exact reject_dispatched x s
      · next h => exact .setting (.subVolume v) .subVolume (decide_eq_true (BitVec.not_lt.mp h))
    · exact reject_dispatched x s
  · exact discard_dispatched x s

theorem recvChangeMemory_dispatched (x : Inbound) (s : State) : Dispatched s (recvChangeMemory chip x s) [] := by
  unfold recvChangeMemory
  split
  · split
    · next v _ _ =>
      split
      · exact reject_dispatched x s
      · next h1 =>
        split
        · exact reject_dispatched x s
        · next h2 =>
          refine .setting (.memoryBank (v - 1)) .memoryBank (decide_eq_true ?_)
          have hv := v.isLt
          rw [BitVec.toNat_sub]
          have h1' : (1 : Byte).toNat = 1 := rfl
          omega
    · exact reject_dispatched x s
  · exact discard_dispatched x s

theorem recvIsPresent_dispatched (x : Inbound) (s : State) : Dispatched s (recvIsPresent x s) [] := by
  unfold recvIsPresent
  split
  · exact .confirm .mc
  · split
    · exact .confirm .dsp
    · split
      · exact usbAttach_dispatched s
      · exact discard_dispatched x s

theorem recvIsDisconnected_dispatched (x : Inbound) (s : State) :
    Dispatched s (recvIsDisconnected x s).state (recvIsDisconnected x s).rest := by
  unfold recvIsDisconnected
  split
  · exact usbDetach_dispatched s
  · exact discard_dispatched x s

theorem recvFirmwareVersion_dispatched (x : Inbound) (s : State) : Dispatched s (recvFirmwareVersion x s) [] := by
  unfold recvFirmwareVersion
  split
  · exact .message _ _ _
  · exact discard_dispatched x s

theorem recvUsbConnected_dispatched (x : Inbound) (s : State) : Dispatched s (recvUsbConnected x s) [] := by
  unfold recvUsbConnected
  split
  · exact .message _ _ _
  · exact discard_dispatched x s

theorem dispatchFrame_dispatched (f : List Byte) (s : State) :
    Dispatched s (dispatchFrame chip f s).state (dispatchFrame chip f s).rest := by
  unfold dispatchFrame
  split
  · exact discard_dispatched _ s
  · unfold routeCommand
    split
    · exact recvInputSourceName_dispatched ..
    · exact recvMasterVolume_dispatched ..
    · exact recvSubVolume_dispatched ..
    · exact recvChangeMemory_dispatched ..
    · exact recvIsPresent_dispatched ..
    · exact recvUsbConnected_dispatched ..
    · exact recvFirmwareVersion_dispatched ..
    · exact recvIsDisconnected_dispatched ..
    · exact discard_dispatched _ s

theorem receiveFrame_dispatched (f : List Byte) (s : State) :
    Dispatched s (receiveFrame chip f s).state (receiveFrame chip f s).rest := by
  unfold receiveFrame raiseVerdict
  cases verdict f
  · exact dispatchFrame_dispatched f s
  · exact .error _ _ (by decide)
  · exact .error _ _ (by decide)

/-! ### A consumer's step -/

/-- Everything a consumer's step can do when it answers a next state (R231, R232, R290). -/
theorem consumeChar_next (k : State → State) (s : State) (b : Begun) (h : consumeChar chip k s = .next b) :
    (Heard s b.state ∧ b.rest = []) ∨ ∃ u v, Heard s u ∧ Dispatched u.resetFrx v b.rest ∧ b.state = k v := by
  rcases popChar_next h with ⟨_, h⟩ | ⟨ch, rest, u, hr, hs, h⟩
  · obtain rfl := Host.Outcome.next.inj h
    exact Or.inl ⟨.refl, rfl⟩
  · have hu : Heard s u := .pop s u ch rest .refl hr hs
    obtain rfl := Host.Outcome.next.inj h
    split
    · exact Or.inr ⟨u, _, hu, receiveFrame_dispatched u.takenFrame u.resetFrx, rfl⟩
    · exact Or.inl ⟨hu, rfl⟩

/-- Everything an arrival can do where the owner of `rxf` parses, when it answers a next state. -/
theorem arriveChars_next (m : BusMode) (chs : List Character) (s : State) (b : Begun)
    (h : arriveChars chip m chs s = .next b) :
    (Heard s b.state ∧ b.rest = []) ∨
    ∃ u v, Heard s u ∧ Dispatched u.resetFrx v b.rest ∧ Heard (afterFrame m v) b.state := by
  have lift : ∀ {s u : State}, Heard s u → ((Heard u b.state ∧ b.rest = []) ∨
      ∃ x v, Heard u x ∧ Dispatched x.resetFrx v b.rest ∧ Heard (afterFrame m v) b.state) →
      ((Heard s b.state ∧ b.rest = []) ∨
      ∃ x v, Heard s x ∧ Dispatched x.resetFrx v b.rest ∧ Heard (afterFrame m v) b.state) := by
    rintro s u hu (⟨h1, h2⟩ | ⟨x, v, h1, h2, h3⟩)
    · exact Or.inl ⟨hu.trans h1, h2⟩
    · exact Or.inr ⟨x, v, hu.trans h1, h2, h3⟩
  induction chs generalizing s with
  | nil =>
    rw [arriveChars] at h
    obtain rfl := Host.Outcome.next.inj h
    exact Or.inl ⟨.refl, rfl⟩
  | cons ch chs ih =>
    have hc : Heard s (hearPeer chip (charCells ch.byte ch.marker) s) := .cells s _ .refl
    rw [arriveChars] at h
    rcases popChar_next h with ⟨_, h⟩ | ⟨x, rest, u, hr, hs, h⟩
    · exact lift hc (ih _ h)
    · have hu : Heard s u := .pop _ u x rest hc hr hs
      split at h
      · obtain rfl := Host.Outcome.next.inj h
        exact Or.inr ⟨u, _, hu, receiveFrame_dispatched u.takenFrame u.resetFrx, .cells _ _ .refl⟩
      · exact lift hu (ih _ h)

/-- The first step of an arrival, and what is left of it when the owner of `rxf` is busy. -/
theorem openArrival_first (d : Prop) (bytes : List Byte) (s : State) (b : Begun)
    (h : (openArrival chip bytes s).first = .next b) :
    First s d (openArrival chip bytes s).agent b.state b.rest := by
  simp only [openArrival] at h
  split at h
  · next hp =>
    have hp' := hp
    unfold State.parses at hp'
    have ho : (openArrival chip bytes s).agent = s.owner := rfl
    rw [ho]
    rcases arriveChars_next _ _ _ _ h with ⟨h1, h2⟩ | ⟨u, v, h1, h2, h3⟩
    · rw [h2]; exact .hears _ _ h1
    · unfold State.owner
      cases hm : s.busMode
      · rw [hm] at hp' h3
        exact .respFrame u v _ _ (by simpa using hp') hm h1 h2 h3
      · rw [hm] at hp' h3
        exact .lstFrame u v _ _ hp' h1 h2 h3
  · obtain rfl := Host.Outcome.next.inj h
    exact .hears _ _ (.cells s _ .refl)

/-! ### The frames of the operations -/

theorem frames_push : Frames pushItems := by
  intro i hi
  simp only [pushItems, List.mem_cons, List.not_mem_nil, or_false] at hi
  rcases hi with rfl | rfl | rfl | rfl | rfl | rfl | rfl | rfl <;> exact ⟨rfl, _, _, _, rfl⟩

theorem frames_one (d : Peer) (p : List Byte) (w : Bool) (h : p.length ≤ payloadMax) : Frames [.frame d (.fixed p) w] := by
  intro i hi
  obtain rfl := List.mem_singleton.mp hi
  exact ⟨decide_eq_true h, _, _, _, rfl⟩

theorem frames_append {l m : List Item} (hl : Frames l) (hm : Frames m) : Frames (l ++ m) := by
  intro i hi
  rcases List.mem_append.mp hi with h | h
  · exact hl i h
  · exact hm i h

theorem frames_value (cmd v : Byte) : Frames (sendValueItems chip cmd v) := by
  intro i hi
  obtain ⟨d, _, rfl⟩ := List.mem_map.mp hi
  exact ⟨rfl, _, _, _, rfl⟩

theorem frames_sourceChange (d : Peer) : Frames (sourceChangeItems d) :=
  frames_append (frames_one d [0x10] true (by decide)) frames_push

theorem pingItems_host (h : Nat) (p : Peer) : pingItems (.host h) p = [.frame p (.fixed [0x11]) true] :=
  if_neg (fun h => by cases h.1)

theorem first_ping (d : Prop) (a : Agent) (p : Peer) (s : State) (ha : mayEnqueue a = true) : First s d a s (pingItems a p) := by
  unfold pingItems
  split
  · next h =>
    obtain ⟨rfl, rfl⟩ := h
    exact .pings _ (frames_one .dsp [0x11] true (by decide))
  · exact .sends a _ ha (frames_one p [0x11] true (by decide))

theorem first_host (d : Prop) (h : Nat) (op : HostOp) (l : Bool) (i : Info) (x : List Item) (hx : Frames x) (s : State) :
    First s d (.host h) (hostFirst h op l i x s).state (hostFirst h op l i x s).rest := by
  unfold hostFirst
  split
  · exact .hostRejected h _ _ _ (by decide)
  · split
    · exact .hostSends h x hx
    · exact .hostRejected h _ _ _ (by decide)

theorem first_tick (d : Prop) (s : State) : First s d .arb (tickFirst s).state (tickFirst s).rest := by
  have hp : Frames (pingItems .arb .usb ++ [.frame .dsp (.fixed [0x11]) true]) :=
    frames_append (frames_one .usb [0x11] true (by decide)) (frames_one .dsp [0x11] true (by decide))
  unfold tickFirst
  split
  · split
    · exact .nothing _
    · exact first_ping _ .arb .dsp s rfl
  · next h =>
    split
    · simp only
      split
      · next h2 => exact .shutdown _ (frames_one .mc [0x6E] false (by decide)) h h2
      · next h2 => exact .failure _ hp h h2
    · exact .pings _ hp
  · exact .nothing _
  · exact .nothing _

/-- The first step of every operation of several steps. -/
theorem opening_first (i : Instr) (s : State) (o : Opening) (hw : i.wf = true) (h : openingOf i s = some o) (b : Begun)
    (hb : o.first = .next b) : First s (i = .dequeueAllReady) o.agent b.state b.rest := by
  cases i
  case txaRespChar =>
    obtain rfl := Option.some.inj h
    simp only [openTxaRespChar] at hb
    split at hb
    · next hc =>
      rcases consumeChar_next finishEntry s b hb with ⟨h1, h2⟩ | ⟨u, v, h1, h2, h3⟩
      · rw [h2]; exact .hears _ _ h1
      · exact .respFrame u v _ _ hc.1 hc.2 h1 h2 (h3 ▸ .refl)
    · obtain rfl := Host.Outcome.next.inj hb; exact .nothing _
  case lstChar =>
    obtain rfl := Option.some.inj h
    simp only [openLstChar] at hb
    split at hb
    · next hc =>
      rcases consumeChar_next id s b hb with ⟨h1, h2⟩ | ⟨u, v, h1, h2, h3⟩
      · rw [h2]; exact .hears _ _ h1
      · exact .lstFrame u v _ _ hc h1 h2 (h3 ▸ .refl)
    · obtain rfl := Host.Outcome.next.inj hb; exact .nothing _
  case dispatch f =>
    obtain rfl := Option.some.inj h
    obtain rfl := Host.Outcome.next.inj hb
    split
    · exact .received _ _ (dispatchFrame_dispatched ..)
    · exact .nothing _
  case pollTick =>
    obtain rfl := Option.some.inj h
    obtain rfl := Host.Outcome.next.inj hb
    exact first_tick _ s
  case arbBootCompletion =>
    obtain rfl := Option.some.inj h
    obtain rfl := Host.Outcome.next.inj hb
    split
    · next hc => exact .boot hc.1
    · exact .nothing _
  case txaDrain =>
    obtain rfl := Option.some.inj h
    obtain rfl := Host.Outcome.next.inj hb
    split
    · next hc => exact .drainBatch hc.1 hc.2.1 hc.2.2
    · exact .nothing _
  case setVolume | setBalance | setFader | setSubVolume | setMemory =>
    obtain rfl := Option.some.inj h
    obtain rfl := Host.Outcome.next.inj hb
    exact first_host _ _ _ _ _ _ (frames_value _ _) s
  case powerOffMainUnit =>
    obtain rfl := Option.some.inj h
    obtain rfl := Host.Outcome.next.inj hb
    exact first_host _ _ _ _ _ _ (frames_one .mc [0x6E] false (by decide)) s
  case requestSourceChange =>
    obtain rfl := Option.some.inj h
    obtain rfl := Host.Outcome.next.inj hb
    exact first_host _ _ _ _ _ _ (frames_sourceChange _) s
  case checkPresence n address =>
    obtain rfl := Option.some.inj h
    obtain rfl := Host.Outcome.next.inj hb
    refine first_host _ _ _ _ _ _ ?_ s
    unfold checkPresenceItems
    split
    · rw [pingItems_host]; exact frames_one _ [0x11] true (by decide)
    · intro i hi; cases hi
  case enqueue a f w =>
    obtain rfl := Option.some.inj h
    obtain rfl := Host.Outcome.next.inj hb
    simp only [Instr.wf, isBuilt, Bool.and_eq_true, beq_iff_eq] at hw
    split
    · next ha => exact .enqueue a f w ha hw.2.1
    · exact .nothing _
  case dequeueAllReady =>
    obtain rfl := Option.some.inj h
    obtain rfl := Host.Outcome.next.inj hb
    exact .drainCaller rfl
  case ping a p =>
    obtain rfl := Option.some.inj h
    obtain rfl := Host.Outcome.next.inj hb
    split
    · next ha => exact first_ping _ a p s ha
    · exact .nothing _
  case pushSettings a =>
    obtain rfl := Option.some.inj h
    obtain rfl := Host.Outcome.next.inj hb
    split
    · next ha => exact .sends a _ ha frames_push
    · exact .nothing _
  case inputSourceName | isPresent | usbConnected | firmwareVersion | isDisconnected | getCurrentSourceName =>
    obtain rfl := Option.some.inj h
    exact openArrival_first _ _ _ _ hb
  case masterVolume | balance | fader | subVolume | changeMemory | changeSource | checkPresent | powerOff =>
    obtain rfl := Option.some.inj h
    simp only [openMasterVolume, openBalance, openFader, openSubVolume, openChangeMemory, openChangeSource,
      openCheckPresent, openPowerOff] at hb ⊢
    split at hb
    · obtain rfl := Host.Outcome.next.inj hb
      refine first_host _ 0 _ _ _ _ ?_ s
      first
      | exact frames_one _ _ _ (by decide)
      | exact frames_one _ _ _ (Nat.le_of_ble_eq_true rfl)
      | exact frames_sourceChange _
    · exact openArrival_first _ _ _ _ hb
  all_goals cases h

/-- What an operation leaves when its agent is busy: at most what DEC has heard. -/
theorem opening_held (i : Instr) (s : State) (o : Opening) (h : openingOf i s = some o) : Heard s o.held := by
  have hc : ∀ bytes, Heard s (openArrival chip bytes s).held := fun bytes => .cells s _ .refl
  cases i
  case inputSourceName | isPresent | usbConnected | firmwareVersion | isDisconnected | getCurrentSourceName =>
    obtain rfl := Option.some.inj h
    exact hc _
  case masterVolume | balance | fader | subVolume | changeMemory | changeSource | checkPresent | powerOff =>
    obtain rfl := Option.some.inj h
    simp only [openMasterVolume, openBalance, openFader, openSubVolume, openChangeMemory, openChangeSource,
      openCheckPresent, openPowerOff]
    split
    · exact .refl
    · exact hc _
  all_goals first
    | (obtain rfl := Option.some.inj h; exact .refl)
    | cases h

/-- Beginning an operation: a busy agent takes no step; otherwise the first step is taken and the rest is the agent's
task. -/
theorem begin_next (o : Opening) (s t : State) (h : o.begin s = .next t) : t = o.held ∨ s.busy o.agent = false ∧
    ∃ b, o.first = .next b ∧ t = if b.rest.isEmpty then b.state else b.state.setTask o.agent ⟨b.rest, true, true⟩ := by
  cases hb : s.busy o.agent
  · cases hf : o.first with
    | fault r => rw [Opening.begin, if_neg (by simp [hb]), hf] at h; cases h
    | refused r => rw [Opening.begin, if_neg (by simp [hb]), hf] at h; cases h
    | next b =>
      rw [Opening.begin, if_neg (by simp [hb]), hf] at h
      exact Or.inr ⟨rfl, b, rfl, (Host.Outcome.next.inj h).symm⟩
  · rw [Opening.begin, if_pos hb] at h
    exact Or.inl (Host.Outcome.next.inj h).symm

/-- The next step runs `dequeue_all_ready`. -/
def callsDequeue (s : State) : Prop :=
  ∃ rest, s.script = .call .dequeueAllReady :: rest ∨ s.script = .start .dequeueAllReady :: rest

/-- No frame on the wire asks for `dequeue_all_ready`. -/
theorem decode_not_dequeue (bytes : List Byte) : decode bytes ≠ .ok .dequeueAllReady := by
  unfold decode
  split
  · nofun
  · nofun
  · unfold decodePayload
    split
    · nofun
    · unfold decodeCommand
      split <;> nofun

/-- What a step reaches, said once: from a state that meets `P` every kind of step reaches one that meets `Q`, and the
further steps of an uninterrupted run keep `Q`. -/
theorem step_reaches (s t : State) (P Q : State → Prop)
    (script : ∀ s x, P s → P { s with script := x })
    (heard : ∀ s u, P s → Heard s u → Q u)
    (store : ∀ s w, P s → w.legal chip.memBanks = true → Q { s with set := s.set.store w })
    (agent : ∀ s a, P s → Q (agentStep chip a s))
    (agents : ∀ s a, Q s → Q (agentStep chip a s))
    (one : ∀ v a u, P v → v.busy a = false → First v (callsDequeue s) a u [] → Q u)
    (more : ∀ v a u l, P v → v.busy a = false → First v (callsDequeue s) a u l → l ≠ [] →
      Q (u.setTask a ⟨l, true, true⟩))
    (atomic : ∀ s i t, P s → i.wf = true → openingOf i s = none → exec i s = .next t → Q t)
    (hP : P s) (h : step s = .next t) : Q t := by
  have both : ∀ v a u l, P v → v.busy a = false → First v (callsDequeue s) a u l →
      Q (if l.isEmpty then u else u.setTask a ⟨l, true, true⟩) := by
    intro v a u l hs hb hf
    by_cases hl : l = []
    · subst hl; exact one v a u hs hb hf
    · rw [if_neg (by simpa using hl)]; exact more v a u l hs hb hf hl
  have stay : ∀ s, P s → Q s := fun s hs => heard s s hs .refl
  have begun : ∀ v i o t, P v → i.wf = true → (i = .dequeueAllReady → callsDequeue s) → openingOf i v = some o →
      o.begin v = .next t → Q t := by
    intro v i o t hs hw hi ho hbeg
    rcases begin_next o v t hbeg with rfl | ⟨hb, b, hf, rfl⟩
    · exact heard _ _ hs (opening_held i v o ho)
    · exact both v _ _ _ hs hb ((opening_first i v o hw ho b hf).mono hi)
  have hexec : ∀ i u, P u → i.wf = true → (i = .dequeueAllReady → callsDequeue s) → exec i u = .next t → Q t := by
    intro i u hu hw hi he
    cases ho : openingOf i u with
    | none => exact atomic u i t hu hw ho he
    | some o =>
      rw [exec_whole i u o ho] at he
      exact whole_keeps Q o u t (fun v hv => agents v _ hv) (fun b hb => opening_tasks i u o ho b hb)
        (fun v hv => begun u i o v hu hw hi ho hv) he
  unfold step at h
  cases hs : s.script with
  | nil => rw [hs] at h; exact Host.Outcome.next.inj h ▸ stay _ hP
  | cons e rest =>
    rw [hs] at h
    have hP' := script s rest hP
    cases e with
    | wire bytes =>
      simp only [runEvent] at h
      cases hd : decode bytes with
      | ok i => rw [hd] at h; exact hexec i _ hP' (decode_wf bytes i hd) (fun e => absurd (e ▸ hd) (decode_not_dequeue bytes)) h
      | error er =>
        rw [hd] at h
        refine whole_keeps Q _ _ t (fun v hv => agents v _ hv) ?_ (fun v hv => ?_) h
        · intro b hb
          exact openArrival_tasks chip _ _ _ hb
        · rcases begin_next _ _ v hv with rfl | ⟨hb, b, hf, rfl⟩
          · exact heard _ _ hP' (.cells _ _ .refl)
          · exact both _ _ _ _ hP' hb (openArrival_first _ _ _ _ hf)
    | line cells => exact Host.Outcome.next.inj h ▸ heard _ _ hP' (.cells _ cells .refl)
    | call i =>
      simp only [runEvent] at h
      by_cases hw : i.wf = true
      · rw [if_pos hw] at h; exact hexec i _ hP' hw (fun e => ⟨rest, Or.inl (e ▸ hs)⟩) h
      · rw [if_neg hw] at h; cases h
    | start i =>
      simp only [runEvent] at h
      by_cases hw : i.wf = true
      · rw [if_pos hw] at h
        unfold startInstr at h
        split at h
        · next o ho => exact begun _ i o t hP' hw (fun e => ⟨rest, Or.inr (e ▸ hs)⟩) ho h
        · next ho => exact atomic _ i t hP' hw ho h
      · rw [if_neg hw] at h; cases h
    | agent a => exact Host.Outcome.next.inj h ▸ agent _ a hP'
    | store w =>
      simp only [runEvent] at h
      by_cases hw : w.legal chip.memBanks = true
      · rw [if_pos hw] at h; exact Host.Outcome.next.inj h ▸ store _ w hP' hw
      · rw [if_neg hw] at h; cases h

/-- What the parts of a step keep, every step keeps: the first steps in the form of `First`. -/
theorem step_keeps_first (P : State → Prop)
    (script : ∀ s x, P s → P { s with script := x })
    (heard : ∀ s u, P s → Heard s u → P u)
    (store : ∀ s w, P s → w.legal chip.memBanks = true → P { s with set := s.set.store w })
    (agent : ∀ s a, P s → P (agentStep chip a s))
    (one : ∀ s a u, P s → s.busy a = false → First s True a u [] → P u)
    (more : ∀ s a u l, P s → s.busy a = false → First s True a u l → l ≠ [] → P (u.setTask a ⟨l, true, true⟩))
    (atomic : ∀ s i t, P s → i.wf = true → openingOf i s = none → exec i s = .next t → P t)
    (s t : State) (hP : P s) (h : step s = .next t) : P t :=
  step_reaches s t P P script heard store agent agent (fun v a u hv hb hf => one v a u hv hb (hf.mono fun _ => trivial))
    (fun v a u l hv hb hf => more v a u l hv hb (hf.mono fun _ => trivial)) atomic hP h

end Sys2Proof.Machine
end

