-- ==== Sys2Proof/Laws/Memory.lean ====
section
/-! SUPPORT. Laws of the receiver's buffer: every write keeps the canonical form, a read after a write. -/
namespace Sys2Proof.Machine

theorem Memory.wf_cons_iff (k : Nat) (v : Byte) (m : Memory) :
    Memory.wf ((k, v) :: m) = true ↔ v ≠ memBlank ∧ (∀ e ∈ m, k < e.1) ∧ Memory.wf m = true := by
  induction m generalizing k v with
  | nil => simp [Memory.wf]
  | cons e m ih =>
    obtain ⟨k', v'⟩ := e
    have h := ih k' v'
    simp only [Memory.wf, Bool.and_eq_true, decide_eq_true_eq, bne_iff_ne, List.mem_cons]
    constructor
    · rintro ⟨⟨hv, hk⟩, hm⟩
      refine ⟨hv, ?_, hm⟩
      rintro e (rfl | he)
      · exact hk
      · exact hk.trans ((h.mp hm).2.1 e he)
    · rintro ⟨hv, hk, hm⟩
      exact ⟨⟨hv, hk (k', v') (Or.inl rfl)⟩, hm⟩

/-- An address below every entry reads as unlisted. -/
theorem Memory.read_below (m : Memory) (a : Nat) (h : ∀ e ∈ m, a < e.1) : m.read a = memBlank := by
  induction m with
  | nil => rfl
  | cons e m ih =>
    obtain ⟨k, v⟩ := e
    have hk : a < k := h (k, v) (List.mem_cons_self ..)
    simp only [Memory.read, if_neg (Nat.ne_of_gt hk)]
    exact ih fun e he => h e (List.mem_cons_of_mem _ he)

/-- The entries of a written buffer: the new one, or old ones. -/
theorem Memory.mem_write (m : Memory) (a : Nat) (b : Byte) (e : Host.Cell) (h : e ∈ m.write a b) : e = (a, b) ∨ e ∈ m := by
  induction m with
  | nil =>
    simp only [Memory.write] at h
    split at h <;> simp_all
  | cons x m ih =>
    obtain ⟨k, v⟩ := x
    simp only [Memory.write] at h
    split at h
    · split at h <;> simp_all
    · split at h
      · split at h
        · exact Or.inr (List.mem_cons_of_mem _ h)
        · rcases List.mem_cons.mp h with h | h
          · exact Or.inl h
          · exact Or.inr (List.mem_cons_of_mem _ h)
      · rcases List.mem_cons.mp h with rfl | h
        · exact Or.inr (List.mem_cons_self ..)
        · exact (ih h).imp id (List.mem_cons_of_mem _)

/-- A write keeps the canonical form. -/
theorem Memory.write_wf (m : Memory) (a : Nat) (b : Byte) (h : m.wf = true) : (m.write a b).wf = true := by
  induction m with
  | nil => by_cases hb : b = memBlank <;> simp [Memory.write, Memory.wf, hb]
  | cons x m ih =>
    obtain ⟨k, v⟩ := x
    obtain ⟨hv, hk, hm⟩ := (Memory.wf_cons_iff k v m).mp h
    simp only [Memory.write]
    split
    · next hak =>
      split
      · exact h
      · next hb =>
        refine (Memory.wf_cons_iff a b _).mpr ⟨hb, ?_, h⟩
        intro e he
        rcases List.mem_cons.mp he with rfl | he
        · exact hak
        · exact hak.trans (hk e he)
    · split
      · next hak =>
        split
        · exact hm
        · next hb => exact (Memory.wf_cons_iff a b m).mpr ⟨hb, hak ▸ hk, hm⟩
      · next hlt hne =>
        refine (Memory.wf_cons_iff k v _).mpr ⟨hv, ?_, ih hm⟩
        intro e he
        rcases Memory.mem_write m a b e he with rfl | he
        · exact Nat.lt_of_le_of_ne (Nat.le_of_not_lt hlt) (Ne.symm hne)
        · exact hk e he

/-- A read after a write: the byte written, and every other byte as before. -/
theorem Memory.read_write (m : Memory) (a : Nat) (b : Byte) (h : m.wf = true) (a' : Nat) :
    (m.write a b).read a' = if a' = a then b else m.read a' := by
  induction m with
  | nil =>
    by_cases hb : b = memBlank
    · simp [Memory.write, Memory.read, hb]
    · simp [Memory.write, Memory.read, hb, eq_comm]
  | cons x m ih =>
    obtain ⟨k, v⟩ := x
    obtain ⟨hv, hk, hm⟩ := (Memory.wf_cons_iff k v m).mp h
    simp only [Memory.write]
    split
    · next hak =>
      have hb0 : Memory.read ((k, v) :: m) a = memBlank :=
        Memory.read_below _ _ fun e he => by
          rcases List.mem_cons.mp he with rfl | he
          · exact hak
          · exact hak.trans (hk e he)
      split
      · next hb =>
        split
        · next e => rw [e, hb0, hb]
        · rfl
      · rw [Memory.read]
        by_cases e : a' = a <;> simp [e, eq_comm]
        intro e'
        exact absurd e'.symm e
    · split
      · next hak =>
        subst hak
        split
        · next hb =>
          split
          · next e => rw [e, hb]; exact Memory.read_below m _ hk
          · next e => rw [Memory.read, if_neg (Ne.symm e)]
        · simp only [Memory.read]
          by_cases e : a' = a
          · simp [e]
          · simp [e, Ne.symm e]
      · next hlt hne =>
        simp only [Memory.read, ih hm]
        by_cases e : k = a'
        · simp [e]
          intro e'
          exact absurd (e'.symm.trans e.symm) hne
        · simp [e]

end Sys2Proof.Machine
end

