-- ==== Sys2Proof/Laws/Arrival.lean ====
section
/-! SUPPORT. What the arrival of a frame does, said once for each part of the frame: one character, the header, the payload,
characters that the receiver ignores (42_frame_receiver.md R181 to R185); and what `receive_frame` makes of them (R190). -/
namespace Sys2Proof.Machine

/-- Outside a frame an unmarked character is ignored (R181). -/
theorem stepFrx_unmarked (c : Config) (b : Byte) (s : State) (h : s.frxState = .awaitingAddress) :
    stepFrx c b false s = .next s := by
  rw [stepFrx, h]
  rfl

/-- A character of the payload (R183). -/
theorem stepFrx_payload (c : Config) (b : Byte) (l : Level) (s : State) (h : s.frxState = .awaitingPayload)
    (hc : s.frxCount < c.rxCap) :
    stepFrx c b l s = .next { s.storeFrx b with
      frxState := if s.frxCount + 1 = s.frxLen.toNat then .complete else .awaitingPayload } := by
  rw [stepFrx, h]
  simp only
  rw [if_neg (by omega)]
  split
  · rfl
  · rw [← h]
    rfl

/-- One character arrives where DEC is between characters and `rxf` is empty: it goes through `rxf` to the receiver. -/
theorem arriveChars_cons (c : Config) (m : BusMode) (b : Byte) (l : Level) (chs : List Character) (s : State)
    (hc : 1 ≤ c.rxfDepth) (hd : s.decPos = .idle) (hq : s.txaPhase ≠ .sending) (hr : s.rxf = []) :
    arriveChars c m (⟨b, l⟩ :: chs) s = andThen (stepFrx c b l { s with decShift := charBits b l }) fun u =>
      if u.frxState = .complete then
        .next ⟨hearPeer c (charsCells chs) (takeFrame c (afterFrame m) u).state, (takeFrame c (afterFrame m) u).rest⟩
      else arriveChars c m chs u := by
  have hp : hasRoom s.rxf c.rxfDepth = true := by rw [hasRoom_iff, hr]; exact hc
  rw [arriveChars, hearPeer_quiet c _ s hq, hearCells_char c _ _ _ hd, pushChar]
  simp only
  rw [if_pos hp, popChar, hr]
  obtain ⟨⟩ := s
  subst hr
  rfl

/-- Unmarked characters outside a frame are ignored. -/
theorem arriveChars_ignored (c : Config) (m : BusMode) (bs : List Byte) (s : State) (hc : 1 ≤ c.rxfDepth)
    (hd : s.decPos = .idle) (hq : s.txaPhase ≠ .sending) (hr : s.rxf = []) (hs : s.frxState = .awaitingAddress) :
    ∃ sh, arriveChars c m (bs.map fun b => ⟨b, false⟩) s = .next (State.done { s with decShift := sh }) := by
  induction bs generalizing s with
  | nil => exact ⟨s.decShift, by rw [List.map_nil, arriveChars]⟩
  | cons b bs ih =>
    rw [List.map_cons, arriveChars_cons c m _ _ _ s hc hd hq hr,
      stepFrx_unmarked c b { s with decShift := charBits b false } hs]
    obtain ⟨sh, e⟩ := ih { s with decShift := charBits b false } hd hq hr hs
    exact ⟨sh, (if_neg (by rw [hs]; decide)).trans e⟩

/-- The rest of a frame after its header: the last character completes it. -/
theorem arriveChars_payload (c : Config) (m : BusMode) (hc : 1 ≤ c.rxfDepth) (bs : List Byte) :
    ∀ (k : Nat) (s : State), bs ≠ [] → s.decPos = .idle → s.txaPhase ≠ .sending → s.rxf = [] → s.frxState = .awaitingPayload → s.frxCount = k →
      s.frxLen.toNat = k + bs.length → s.frxLen.toNat ≤ c.rxCap → s.frxBuf.wf = true → ∃ (mem : Memory) (sh : BitVec 9),
        arriveChars c m (bs.map fun b => ⟨b, false⟩) s = .next (takeFrame c (afterFrame m)
          { s with frxBuf := mem, frxCount := s.frxLen.toNat, frxState := .complete, decShift := sh }) ∧
        (∀ a, a < k ∨ k + bs.length ≤ a → mem.read a = s.frxBuf.read a) ∧
        ∀ i b, bs[i]? = some b → mem.read (k + i) = b := by
  induction bs with
  | nil => intro _ _ h; exact absurd rfl h
  | cons b bs ih =>
    intro k s _ hd hq hr hs hk hl hcap hw
    rw [List.length_cons] at hl
    have hw' := Memory.write_wf s.frxBuf k b hw
    have hx : ∀ a, a ≠ k → (s.frxBuf.write k b).read a = s.frxBuf.read a := fun a ha => by
      rw [Memory.read_write _ _ _ hw, if_neg ha]
    have hk' : (s.frxBuf.write k b).read k = b := by rw [Memory.read_write _ _ _ hw, if_pos rfl]
    rw [List.map_cons, arriveChars_cons c m _ _ _ s hc hd hq hr,
      stepFrx_payload c b false { s with decShift := charBits b false } hs (by show s.frxCount < _; omega)]
    simp only [State.storeFrx, hk, andThen]
    by_cases he : bs = []
    · subst he
      simp only [List.length_nil] at hl ⊢
      refine ⟨s.frxBuf.write k b, charBits b false, ?_, ?_, ?_⟩
      · simp only [show k + 1 = s.frxLen.toNat by omega, if_true, List.map_nil, charsCells, hearPeer_nil]
      · intro a ha
        simp only [List.length_cons, List.length_nil] at ha
        exact hx a (by omega)
      · intro i x hi
        cases i with
        | zero => exact hk'.trans (by simpa using hi)
        | succ i => simp at hi
    · have hp : 0 < bs.length := List.length_pos_iff.mpr he
      simp only [show ¬ k + 1 = s.frxLen.toNat by omega, reduceCtorEq, if_false]
      obtain ⟨mem, sh, e, g1, g2⟩ := ih (k + 1) { s with
        frxBuf := s.frxBuf.write k b, frxCount := k + 1, frxState := .awaitingPayload, decShift := charBits b false }
        he hd hq hr rfl rfl (by simp only; omega) hcap hw'
      refine ⟨mem, sh, e, ?_, ?_⟩
      · intro a ha
        rw [List.length_cons] at ha
        exact (g1 a (by omega)).trans (hx a (by omega))
      · intro i x hi
        cases i with
        | zero => exact (g1 k (by omega)).trans (hk'.trans (by simpa using hi))
        | succ i =>
          have := g2 i x (by simpa using hi)
          rwa [show k + (i + 1) = k + 1 + i by omega]

/-- The first four bytes of a buffer, written in order. -/
theorem header_read (m : Memory) (a b c d : Byte) (h : m.wf = true) :
    ((((m.write 0 a).write 1 b).write 2 c).write 3 d).wf = true ∧
    (∀ k x, [a, b, c, d][k]? = some x → ((((m.write 0 a).write 1 b).write 2 c).write 3 d).read k = x) ∧
    ∀ k, 4 ≤ k → ((((m.write 0 a).write 1 b).write 2 c).write 3 d).read k = m.read k := by
  have w1 := Memory.write_wf m 0 a h
  have w2 := Memory.write_wf _ 1 b w1
  have w3 := Memory.write_wf _ 2 c w2
  have e : ∀ k, ((((m.write 0 a).write 1 b).write 2 c).write 3 d).read k =
      if k = 3 then d else if k = 2 then c else if k = 1 then b else if k = 0 then a else m.read k := fun k => by
    rw [Memory.read_write _ _ _ w3, Memory.read_write _ _ _ w2, Memory.read_write _ _ _ w1, Memory.read_write _ _ _ h]
  refine ⟨Memory.write_wf _ 3 d w3, fun k x hk => ?_, fun k hk => ?_⟩
  · rw [e]
    match k, hk with
    | 0, hk | 1, hk | 2, hk | 3, hk => simpa using hk
  · rw [e, if_neg (by omega), if_neg (by omega), if_neg (by omega), if_neg (by omega)]

/-- The header of a frame: the first three characters are stored, and the fourth, the declared length, decides how the
receiver goes on (R182, R184, R185). -/
theorem arriveChars_header (c : Config) (m : BusMode) (x y z n : Byte) (chs : List Character) (s : State)
    (hc : 1 ≤ c.rxfDepth) (hcap : 5 ≤ c.rxCap) (hd : s.decPos = .idle) (hq : s.txaPhase ≠ .sending)
    (hr : s.rxf = [])
    (hs : s.frxState = .awaitingAddress) :
    ∃ sh, arriveChars c m (⟨x, true⟩ :: ⟨y, false⟩ :: ⟨z, false⟩ :: ⟨n, false⟩ :: chs) s =
      (let at4 : State := { s with
        frxBuf := (((s.frxBuf.write 0 x).write 1 y).write 2 z).write 3 n, frxCount := 4, frxLen := n
        frxState := .awaitingLength, decShift := sh }
      if n.toNat < 5 then arriveChars c m chs (at4.raise .frameMalformed (.size n.toNat)).resetFrx
      else if c.rxCap < n.toNat then arriveChars c m chs (at4.raise .bufferTooSmall (.sizes n.toNat c.rxCap)).resetFrx
      else arriveChars c m chs { at4 with frxState := .awaitingPayload }) := by
  refine ⟨charBits n false, ?_⟩
  rw [arriveChars_cons c m _ _ _ s hc hd hq hr, stepFrx, hs]
  simp only [if_true, andThen, reduceCtorEq, if_false]
  rw [arriveChars_cons c m _ _ _ _ hc (by exact hd) (by exact hq) (by exact hr), stepFrx]
  simp only [State.storeFrx, if_neg (show ¬ c.rxCap ≤ 1 by omega), andThen]
  rw [if_neg (by decide)]
  simp only [reduceCtorEq, if_false]
  rw [arriveChars_cons c m _ _ _ _ hc (by exact hd) (by exact hq) (by exact hr), stepFrx]
  simp only [State.storeFrx, if_neg (show ¬ c.rxCap ≤ 2 by omega), andThen]
  rw [if_neg (by decide)]
  simp only [reduceCtorEq, if_false]
  rw [arriveChars_cons c m _ _ _ _ hc (by exact hd) (by exact hq) (by exact hr), stepFrx]
  simp only [State.storeFrx, if_neg (show ¬ c.rxCap ≤ 3 by omega), if_true]
  by_cases h1 : n.toNat < 5
  · simp only [h1, if_true]; rfl
  · by_cases h2 : c.rxCap < n.toNat
    · simp only [h1, h2, if_true, if_false]; rfl
    · simp only [h1, h2, if_false]; rfl

/-- A whole frame arrives, its length byte being its length: taken and received when it fits the buffer, aborted
otherwise. -/
theorem arriveChars_frame (c : Config) (m : BusMode) (f : List Byte) (s : State) (hc : 1 ≤ c.rxfDepth) (hcap : 5 ≤ c.rxCap)
    (hd : s.decPos = .idle) (hq : s.txaPhase ≠ .sending) (hr : s.rxf = []) (hs : s.frxState = .awaitingAddress) (hw : s.frxBuf.wf = true)
    (h5 : 5 ≤ f.length) (h3 : (f[3]?).map BitVec.toNat = some f.length) :
    ∃ (mem : Memory) (sh : BitVec 9),
      (∀ k b, f[k]? = some b → k < 4 ∨ f.length ≤ c.rxCap → mem.read k = b) ∧
      (∀ k, f.length ≤ k ∨ c.rxCap < f.length ∧ 4 ≤ k → mem.read k = s.frxBuf.read k) ∧
      let stored : State := { s with frxBuf := mem, frxLen := BitVec.ofNat 8 f.length, decShift := sh }
      arriveChars c m (frameChars f) s =
        if f.length ≤ c.rxCap then
          .next (takeFrame c (afterFrame m) { stored with frxCount := f.length, frxState := .complete })
        else .next (stored.raise .bufferTooSmall (.sizes f.length c.rxCap)).resetFrx.done := by
  match f, h5 with
  | x :: y :: z :: n :: v :: rest, _ =>
  have hn : n.toNat = rest.length + 5 := by simpa using h3
  have hlen : (x :: y :: z :: n :: v :: rest).length = rest.length + 5 := rfl
  have hof : BitVec.ofNat 8 (x :: y :: z :: n :: v :: rest).length = n := by rw [hlen, ← hn]; simp
  obtain ⟨w4, g1, g2⟩ := header_read s.frxBuf x y z n hw
  obtain ⟨sh, e⟩ := arriveChars_header c m x y z n ((v :: rest).map fun b => ⟨b, false⟩) s hc hcap hd hq hr hs
  have hchs : frameChars (x :: y :: z :: n :: v :: rest) =
      ⟨x, true⟩ :: ⟨y, false⟩ :: ⟨z, false⟩ :: ⟨n, false⟩ :: (v :: rest).map fun b => ⟨b, false⟩ := rfl
  rw [hchs, hof, e]
  simp only [if_neg (show ¬ n.toNat < 5 by omega)]
  by_cases hle : rest.length + 5 ≤ c.rxCap
  · rw [if_neg (show ¬ c.rxCap < n.toNat by omega)]
    obtain ⟨mem, sh', e', k1, k2⟩ := arriveChars_payload c m hc (v :: rest) 4
      { s with frxBuf := (((s.frxBuf.write 0 x).write 1 y).write 2 z).write 3 n, frxCount := 4, frxLen := n
               frxState := .awaitingPayload, decShift := sh }
      (List.cons_ne_nil _ _) hd hq hr rfl rfl (by simp only [List.length_cons]; omega) (by show n.toNat ≤ _; omega) w4
    refine ⟨mem, sh', fun k b hk _ => ?_, fun k hk => ?_, ?_⟩
    · by_cases h4 : k < 4
      · refine (k1 k (Or.inl h4)).trans (g1 k b ?_)
        match k, h4, hk with
        | 0, _, hk | 1, _, hk | 2, _, hk | 3, _, hk => simpa using hk
      · obtain ⟨i, rfl⟩ : ∃ i, k = 4 + i := ⟨k - 4, by omega⟩
        refine k2 i b ?_
        rw [show 4 + i = i + 1 + 1 + 1 + 1 by omega] at hk
        simpa only [List.getElem?_cons_succ] using hk
    · rw [hlen] at hk
      have hk' : rest.length + 5 ≤ k := by omega
      exact (k1 k (Or.inr (by simp only [List.length_cons]; omega))).trans (g2 k (by omega))
    · rw [hlen, if_pos hle]
      simp only [e', hn]
  · rw [if_pos (show c.rxCap < n.toNat by omega)]
    obtain ⟨sh', e'⟩ := arriveChars_ignored c m (v :: rest)
      (({ s with frxBuf := (((s.frxBuf.write 0 x).write 1 y).write 2 z).write 3 n, frxCount := 4, frxLen := n
                 frxState := .awaitingLength, decShift := sh } : State).raise .bufferTooSmall
        (.sizes n.toNat c.rxCap)).resetFrx hc hd hq hr rfl
    refine ⟨(((s.frxBuf.write 0 x).write 1 y).write 2 z).write 3 n, sh', fun k b hk h => ?_, fun k hk => ?_, ?_⟩
    · rw [hlen] at h
      have h4 : k < 4 := by omega
      refine g1 k b ?_
      match k, h4, hk with
      | 0, _, hk | 1, _, hk | 2, _, hk | 3, _, hk => simpa using hk
    · rw [hlen] at hk
      exact g2 k (by omega)
    · rw [hlen, if_neg hle, e', hn]
      rfl

/-- The frame that the receiver then hands over. -/
theorem takenFrame_eq (f : List Byte) (s : State) (hl : s.frxLen = BitVec.ofNat 8 f.length) (h8 : f.length < 256)
    (hm : ∀ k b, f[k]? = some b → s.frxBuf.read k = b) : s.takenFrame = f := by
  have hn : s.frxLen.toNat = f.length := by
    rw [hl, BitVec.toNat_ofNat]
    exact Nat.mod_eq_of_lt h8
  unfold State.takenFrame Memory.firstBytes
  rw [hn]
  apply List.ext_getElem
  · simp
  · intro i h1 h2
    simp only [List.getElem_map, List.getElem_range]
    exact hm i _ (List.getElem?_eq_getElem h2)

/-! ### The receiver as a pure function (R190) -/

/-- A character that completes no frame and aborts none. -/
theorem receiveFrom_step (c : Config) (b : Byte) (l : Level) (chs : List Character) (s t : State)
    (h : stepFrx c b l { s with out := [] } = .next t) (ho : t.out = []) (hc : t.frxState ≠ .complete) :
    receiveFrom c (⟨b, l⟩ :: chs) s = receiveFrom c chs t := by
  rw [receiveFrom]
  simp only [h, ho, if_neg hc]
  rfl

/-- The character that completes a frame: the frame is taken, and the receiver starts again. -/
theorem receiveFrom_done (c : Config) (b : Byte) (l : Level) (chs : List Character) (s t : State)
    (h : stepFrx c b l { s with out := [] } = .next t) (ho : t.out = []) (hc : t.frxState = .complete) :
    receiveFrom c (⟨b, l⟩ :: chs) s = .frame t.takenFrame :: receiveFrom c chs t.resetFrx := by
  rw [receiveFrom]
  simp only [h, ho, if_pos hc]
  rfl

/-- The rest of a frame after its header. -/
theorem receiveFrom_payload (c : Config) (tl : List Character) (bs : List Byte) :
    ∀ (k : Nat) (s : State), bs ≠ [] → s.frxState = .awaitingPayload → s.frxCount = k →
      s.frxLen.toNat = k + bs.length → s.frxLen.toNat ≤ c.rxCap → s.frxBuf.wf = true → ∃ mem : Memory, mem.wf = true ∧
        receiveFrom c (bs.map (fun b => ⟨b, false⟩) ++ tl) s = .frame (State.takenFrame { s with frxBuf := mem }) ::
          receiveFrom c tl { s with frxBuf := mem, frxCount := 0, frxState := .awaitingAddress, out := [] } ∧
        (∀ a, a < k ∨ k + bs.length ≤ a → mem.read a = s.frxBuf.read a) ∧
        ∀ i b, bs[i]? = some b → mem.read (k + i) = b := by
  induction bs with
  | nil => intro _ _ h; exact absurd rfl h
  | cons b bs ih =>
    intro k s _ hs hk hl hcap hw
    rw [List.length_cons] at hl
    have hw' := Memory.write_wf s.frxBuf k b hw
    have hx : ∀ a, a ≠ k → (s.frxBuf.write k b).read a = s.frxBuf.read a := fun a ha => by
      rw [Memory.read_write _ _ _ hw, if_neg ha]
    have hk' : (s.frxBuf.write k b).read k = b := by rw [Memory.read_write _ _ _ hw, if_pos rfl]
    have hst := stepFrx_payload c b false { s with out := [] } hs (by show s.frxCount < _; omega)
    rw [List.map_cons, List.cons_append]
    by_cases he : bs = []
    · subst he
      simp only [List.length_nil] at hl
      have e1 : s.frxCount + 1 = s.frxLen.toNat := by omega
      refine ⟨s.frxBuf.write k b, hw', ?_, ?_, ?_⟩
      · rw [receiveFrom_done c b false _ s _ hst rfl (if_pos e1)]
        simp only [State.storeFrx, hk]
        rfl
      · intro a ha
        simp only [List.length_cons, List.length_nil] at ha
        exact hx a (by omega)
      · intro i x hi
        cases i with
        | zero => exact hk'.trans (by simpa using hi)
        | succ i => simp at hi
    · have hp : 0 < bs.length := List.length_pos_iff.mpr he
      have e1 : ¬ s.frxCount + 1 = s.frxLen.toNat := by omega
      rw [receiveFrom_step c b false _ s _ hst rfl (by show (if _ then _ else _) ≠ _; rw [if_neg e1]; decide)]
      simp only [State.storeFrx, hk]
      rw [if_neg (by omega)]
      obtain ⟨mem, hm, e, g1, g2⟩ := ih (k + 1) { s with
        out := [], frxBuf := s.frxBuf.write k b, frxCount := k + 1, frxState := .awaitingPayload }
        he rfl rfl (by simp only; omega) hcap hw'
      refine ⟨mem, hm, e, ?_, ?_⟩
      · intro a ha
        rw [List.length_cons] at ha
        exact (g1 a (by omega)).trans (hx a (by omega))
      · intro i x hi
        cases i with
        | zero => exact (g1 k (by omega)).trans (hk'.trans (by simpa using hi))
        | succ i =>
          have := g2 i x (by simpa using hi)
          rwa [show k + (i + 1) = k + 1 + i by omega]

/-- The first three characters of a frame. -/
theorem receiveFrom_three (c : Config) (hc : 5 ≤ c.rxCap) (x y z : Byte) (m2 m3 : Level) (tl : List Character) (s : State)
    (hs : s.frxState = .awaitingAddress) :
    receiveFrom c (⟨x, true⟩ :: ⟨y, m2⟩ :: ⟨z, m3⟩ :: tl) s = receiveFrom c tl { s with
      out := [], frxBuf := ((s.frxBuf.write 0 x).write 1 y).write 2 z, frxCount := 3, frxState := .awaitingLength } := by
  have more : ∀ (b : Byte) (l : Level) (v : State), v.frxState = .awaitingLength → v.frxCount < 3 →
      stepFrx c b l v = .next (v.storeFrx b) := by
    intro b l v hv h3
    rw [stepFrx, hv]
    simp only
    rw [if_neg (by omega), if_neg (by omega)]
  rw [receiveFrom_step c x true _ s
      { s with out := [], frxBuf := s.frxBuf.write 0 x, frxCount := 1, frxState := .awaitingLength }
      (by rw [stepFrx, hs]; rfl) rfl (by simp),
    receiveFrom_step c y m2 _ _ _ (more y m2 _ rfl (by simp)) rfl (by simp [State.storeFrx]),
    receiveFrom_step c z m3 _ _ _ (more z m3 _ rfl (by simp [State.storeFrx])) rfl (by simp [State.storeFrx])]
  rfl

/-- The header of a frame whose declared length fits the buffer. -/
theorem receiveFrom_header (c : Config) (hc : 5 ≤ c.rxCap) (x y z n : Byte) (m2 m3 m4 : Level) (tl : List Character)
    (s : State) (hs : s.frxState = .awaitingAddress) (h5 : 5 ≤ n.toNat) (hn : n.toNat ≤ c.rxCap) :
    receiveFrom c (⟨x, true⟩ :: ⟨y, m2⟩ :: ⟨z, m3⟩ :: ⟨n, m4⟩ :: tl) s = receiveFrom c tl { s with
      out := [], frxBuf := (((s.frxBuf.write 0 x).write 1 y).write 2 z).write 3 n, frxCount := 4, frxLen := n
      frxState := .awaitingPayload } := by
  rw [receiveFrom_three c hc _ _ _ _ _ _ s hs]
  refine receiveFrom_step c n m4 _ _ _ ?_ rfl (by simp)
  rw [stepFrx]
  simp only
  rw [if_neg (by omega), if_pos trivial, if_neg (by omega), if_neg (by omega)]
  rfl

end Sys2Proof.Machine
end

