-- ==== Sys2Proof/Laws/PerInstr.lean ====
section
/-! SUPPORT. What holds of every instruction as a term, one lemma per constructor. -/
namespace Sys2Proof.Laws.EncodingShape
open Machine

/-- The encoding of a well-formed instruction, where it has one, is a valid frame of 6 to 255 bytes (30_encoding.md R95,
R96). -/
def Statement (i : Instr) : Prop :=
  i.wf = true → ∀ f, encode i = some f → verdict f = .frame ∧ 6 ≤ f.length ∧ f.length ≤ 255

/-- The wire commands' case. -/
theorem wire (hd : Header) (code : Byte) (args : List Byte) (h : argsFit args = true) (f : List Byte)
    (e : some (commandFrame hd code args) = some f) : verdict f = .frame ∧ 6 ≤ f.length ∧ f.length ≤ 255 := by
  obtain rfl := Option.some.inj e
  have hl : (commandFrame hd code args).length = 5 + (args.length + 1) := frameBytes_length ..
  have hm : args.length + 1 ≤ 250 := of_decide_eq_true h
  exact ⟨commandFrame_verdict hd code args h, by omega, by omega⟩

/-- The case of what is selected by name. -/
theorem named {i : Instr} (h : encode i = none) : Statement i :=
  fun _ _ e => nomatch h.symm.trans e

theorem inputSourceName (hd : Header) (args : List Byte) : Statement (.inputSourceName hd args) := fun h f e => wire hd _ args h f e
theorem masterVolume (hd : Header) (args : List Byte) : Statement (.masterVolume hd args) := fun h f e => wire hd _ args h f e
theorem balance (hd : Header) (args : List Byte) : Statement (.balance hd args) := fun h f e => wire hd _ args h f e
theorem fader (hd : Header) (args : List Byte) : Statement (.fader hd args) := fun h f e => wire hd _ args h f e
theorem subVolume (hd : Header) (args : List Byte) : Statement (.subVolume hd args) := fun h f e => wire hd _ args h f e
theorem changeMemory (hd : Header) (args : List Byte) : Statement (.changeMemory hd args) := fun h f e => wire hd _ args h f e
theorem changeSource (hd : Header) (args : List Byte) : Statement (.changeSource hd args) := fun h f e => wire hd _ args h f e
theorem checkPresent (hd : Header) (args : List Byte) : Statement (.checkPresent hd args) := fun h f e => wire hd _ args h f e
theorem isPresent (hd : Header) (args : List Byte) : Statement (.isPresent hd args) := fun h f e => wire hd _ args h f e
theorem usbConnected (hd : Header) (args : List Byte) : Statement (.usbConnected hd args) := fun h f e => wire hd _ args h f e
theorem firmwareVersion (hd : Header) (args : List Byte) : Statement (.firmwareVersion hd args) := fun h f e => wire hd _ args h f e
theorem isDisconnected (hd : Header) (args : List Byte) : Statement (.isDisconnected hd args) := fun h f e => wire hd _ args h f e
theorem getCurrentSourceName (hd : Header) (args : List Byte) : Statement (.getCurrentSourceName hd args) := fun h f e => wire hd _ args h f e
theorem powerOff (hd : Header) (args : List Byte) : Statement (.powerOff hd args) := fun h f e => wire hd _ args h f e
theorem setVolume : ∀ h v, Statement (.setVolume h v) := fun _ _ => named rfl
theorem setBalance : ∀ h v, Statement (.setBalance h v) := fun _ _ => named rfl
theorem setFader : ∀ h v, Statement (.setFader h v) := fun _ _ => named rfl
theorem setSubVolume : ∀ h v, Statement (.setSubVolume h v) := fun _ _ => named rfl
theorem setMemory : ∀ h bank, Statement (.setMemory h bank) := fun _ _ => named rfl
theorem powerOffMainUnit : ∀ h, Statement (.powerOffMainUnit h) := fun _ => named rfl
theorem requestSourceChange : ∀ h, Statement (.requestSourceChange h) := fun _ => named rfl
theorem checkPresence : ∀ h address, Statement (.checkPresence h address) := fun _ _ => named rfl
theorem readStatus : ∀ h, Statement (.readStatus h) := fun _ => named rfl
theorem sum8 : ∀ bytes, Statement (.sum8 bytes) := fun _ => named rfl
theorem build : ∀ rx tx payload, Statement (.build rx tx payload) := fun _ _ _ => named rfl
theorem validate : ∀ bytes, Statement (.validate bytes) := fun _ => named rfl
theorem bitTicks : ∀ baud, Statement (.bitTicks baud) := fun _ => named rfl
theorem encodeChar : ∀ b m, Statement (.encodeChar b m) := fun _ _ => named rfl
theorem encodeFrameCells : ∀ bytes, Statement (.encodeFrameCells bytes) := fun _ => named rfl
theorem encodeFrame : ∀ bytes, Statement (.encodeFrame bytes) := fun _ => named rfl
theorem decodeCells : ∀ cells, Statement (.decodeCells cells) := fun _ => named rfl
theorem decPush : ∀ ch, Statement (.decPush ch) := fun _ => named rfl
theorem frxStep : ∀ b m, Statement (.frxStep b m) := fun _ _ => named rfl
theorem frxTake : Statement (.frxTake) := named rfl
theorem frxReset : Statement (.frxReset) := named rfl
theorem tryLock : ∀ a, Statement (.tryLock a) := fun _ => named rfl
theorem unlock : ∀ a, Statement (.unlock a) := fun _ => named rfl
theorem enqueue : ∀ a bytes awaits, Statement (.enqueue a bytes awaits) := fun _ _ _ => named rfl
theorem dequeueAllReady : Statement (.dequeueAllReady) := named rfl
theorem ping : ∀ a p, Statement (.ping a p) := fun _ _ => named rfl
theorem pushSettings : ∀ a, Statement (.pushSettings a) := fun _ => named rfl
theorem dispatch : ∀ bytes, Statement (.dispatch bytes) := fun _ => named rfl
theorem txaDrain : Statement (.txaDrain) := named rfl
theorem txaStart : Statement (.txaStart) := named rfl
theorem txaSendChar : ∀ contended, Statement (.txaSendChar contended) := fun _ => named rfl
theorem txaEchoChar : Statement (.txaEchoChar) := named rfl
theorem txaEchoTimeout : Statement (.txaEchoTimeout) := named rfl
theorem txaRespChar : Statement (.txaRespChar) := named rfl
theorem txaRespTimeout : Statement (.txaRespTimeout) := named rfl
theorem lstChar : Statement (.lstChar) := named rfl
theorem pollTick : Statement (.pollTick) := named rfl
theorem arbBootCompletion : Statement (.arbBootCompletion) := named rfl

end Sys2Proof.Laws.EncodingShape
end

