-- ==== Sys2Proof/Tests/Slice0.lean ====
section
/-! SUPPORT. Tests: ill-formed terms refused, encodings written out from spec/30_encoding.md, and the vectors of
spec/95_test_vectors.md on one step each (the vector's number stands beside the test), with that file's parameters. -/
namespace Sys2Proof.Tests
open Machine

/-! ### Ill-formed terms are refused -/

theorem test_wf_frame_too_long : (Instr.firmwareVersion ⟨0x80, 0x5A, 0⟩ (List.replicate 250 0)).wf = false := by decide +kernel
theorem test_wf_frame_longest : (Instr.firmwareVersion ⟨0x80, 0x5A, 0⟩ (List.replicate 249 0)).wf = true := by decide +kernel
theorem test_wf_enqueue_by_txa : (Instr.enqueue .txa [0x00, 0x80, 0x00, 0x05, 0x85] false).wf = false := by decide
theorem test_wf_enqueue_no_frame : (Instr.enqueue .arb [0x00, 0x80, 0x00, 0x05, 0x86] false).wf = false := by decide
/-- 30_encoding.md R98: `build` always writes reserved byte 0. -/
theorem test_wf_enqueue_not_built : (Instr.enqueue .arb [0x00, 0x80, 0x01, 0x05, 0x86] false).wf = false := by decide
theorem test_wf_ping_by_lst : (Instr.ping .lst .dsp).wf = false := by decide
theorem test_wf_push_by_txa : (Instr.pushSettings .txa).wf = false := by decide
theorem test_wf_dispatch_no_frame : (Instr.dispatch [0x80, 0x46]).wf = false := by decide
theorem test_wf_baud_zero : (Instr.bitTicks 0).wf = false := by decide
theorem test_step_refuses_ill_formed :
    (match step { State.reset with script := [.call (.bitTicks 0)] } with | .refused .illFormed => true | _ => false) = true := by
  decide
theorem test_step_refuses_illegal_store :
    (match step { State.reset with script := [.store (.masterVolume 0x79)] } with
      | .refused .illFormed => true | _ => false) = true := by
  decide

/-! ### Decoding: frames written out byte by byte from R95 to R101 -/

theorem test_decode_input_source_name : decode [0x80, 0x46, 0x00, 0x16, 0x09, 0x55, 0x53, 0x42, 0x20, 0x41, 0x55, 0x44,
    0x49, 0x4F, 0x20, 0x20, 0x20, 0x20, 0x20, 0x20, 0x20, 0x41] =
    .ok (.inputSourceName ⟨0x80, 0x46, 0x00⟩ [0x55, 0x53, 0x42, 0x20, 0x41, 0x55, 0x44, 0x49, 0x4F, 0x20, 0x20, 0x20,
      0x20, 0x20, 0x20, 0x20]) := by decide
theorem test_decode_master_volume : decode [0x00, 0x80, 0x00, 0x07, 0x0A, 0x32, 0xC3] =
    .ok (.masterVolume ⟨0x00, 0x80, 0x00⟩ [0x32]) := by decide
theorem test_decode_balance : decode [0x46, 0x80, 0x00, 0x07, 0x0B, 0x12, 0xEA] =
    .ok (.balance ⟨0x46, 0x80, 0x00⟩ [0x12]) := by decide
theorem test_decode_fader : decode [0x00, 0x80, 0x00, 0x07, 0x0C, 0x24, 0xB7] =
    .ok (.fader ⟨0x00, 0x80, 0x00⟩ [0x24]) := by decide
theorem test_decode_sub_volume : decode [0x00, 0x5A, 0x00, 0x07, 0x0D, 0x10, 0x7E] =
    .ok (.subVolume ⟨0x00, 0x5A, 0x00⟩ [0x10]) := by decide
theorem test_decode_change_memory : decode [0x00, 0x5A, 0x00, 0x07, 0x0F, 0x02, 0x72] =
    .ok (.changeMemory ⟨0x00, 0x5A, 0x00⟩ [0x02]) := by decide
theorem test_decode_change_source : decode [0x46, 0x80, 0x00, 0x06, 0x10, 0xDC] =
    .ok (.changeSource ⟨0x46, 0x80, 0x00⟩ []) := by decide
theorem test_decode_check_present : decode [0x5A, 0x80, 0x00, 0x06, 0x11, 0xF1] =
    .ok (.checkPresent ⟨0x5A, 0x80, 0x00⟩ []) := by decide
theorem test_decode_is_present : decode [0x80, 0x46, 0x00, 0x06, 0x12, 0xDE] =
    .ok (.isPresent ⟨0x80, 0x46, 0x00⟩ []) := by decide
theorem test_decode_usb_connected : decode [0x80, 0x5A, 0x00, 0x06, 0x13, 0xF3] =
    .ok (.usbConnected ⟨0x80, 0x5A, 0x00⟩ []) := by decide
theorem test_decode_firmware_version : decode [0x80, 0x5A, 0x00, 0x06, 0x14, 0xF4] =
    .ok (.firmwareVersion ⟨0x80, 0x5A, 0x00⟩ []) := by decide
theorem test_decode_is_disconnected : decode [0x80, 0x5A, 0x00, 0x06, 0x35, 0x15] =
    .ok (.isDisconnected ⟨0x80, 0x5A, 0x00⟩ []) := by decide
theorem test_decode_get_current_source_name : decode [0x46, 0x80, 0x00, 0x06, 0x6D, 0x39] =
    .ok (.getCurrentSourceName ⟨0x46, 0x80, 0x00⟩ []) := by decide
theorem test_decode_power_off : decode [0x00, 0x80, 0x00, 0x06, 0x6E, 0xF4] =
    .ok (.powerOff ⟨0x00, 0x80, 0x00⟩ []) := by decide
/-- V39: the reserved byte is not checked. -/
theorem test_decode_reserved_byte : decode [0x00, 0x80, 0xFF, 0x07, 0x0A, 0x32, 0xC2] =
    .ok (.masterVolume ⟨0x00, 0x80, 0xFF⟩ [0x32]) := by decide
/-- V36, V37, V1, V153, V150. -/
theorem test_decode_bad_length : decode [0x00, 0x80, 0x00, 0x08, 0x0A, 0x32, 0xC4] = .error .malformed := by decide
theorem test_decode_too_short : decode [0x00, 0x80, 0x00, 0x04] = .error .malformed := by decide
theorem test_decode_bad_checksum : decode [0x00, 0x80, 0x00, 0x07, 0x0A, 0x32, 0xBB] = .error .badChecksum := by decide
theorem test_decode_no_command : decode [0x80, 0x46, 0x00, 0x05, 0xCB] = .error .noCommand := by decide
theorem test_decode_unknown : decode [0x80, 0x46, 0x00, 0x06, 0x77, 0x43] = .error (.unknownCommand 0x77) := by decide
/-- V18, V26: the encoder writes the spec's frames. -/
theorem test_encode_change_source : encode (.changeSource ⟨0x46, 0x80, 0x00⟩ []) =
    some [0x46, 0x80, 0x00, 0x06, 0x10, 0xDC] := by decide
theorem test_encode_change_memory : encode (.changeMemory ⟨0x46, 0x80, 0x00⟩ [0x03]) =
    some [0x46, 0x80, 0x00, 0x07, 0x0F, 0x03, 0xDF] := by decide
theorem test_table_words : [0x09, 0x0A, 0x0B, 0x0C, 0x0D, 0x0F, 0x10, 0x11, 0x12, 0x13, 0x14, 0x35, 0x6D, 0x6E].all
    (fun w => (decodeTableWord 8 w).isSome) = true := by decide
theorem test_table_word_unknown : decodeTableWord 8 0x0E = none := by decide

/-! ### The machine, with the parameters of 95_test_vectors.md -/

/-- The parameters of spec/95_test_vectors.md; a draw delivers `(01,0)`, as in V111, and nothing else. -/
def cfg : Config where
  tickHz := 1000000
  qDepth := 16
  enqRetryMax := 3
  deqRetryMax := 3
  rxCap := 255
  rxfDepth := 16
  pollPeriod := 0
  respTimeout := 0
  echoTimeout := 0
  backoffDelay := 0
  setDests := [.mc, .dsp]
  srcChangeDest := .dsp
  memBanks := 6
  draw := fun _ => ⟨[⟨0x01, false⟩], [], 0, 30, 0⟩

/-- The settings of part 3 of the vectors. -/
def store : Settings := ⟨0x32, 0x18, 0x12, 0x12, 0, List.replicate 16 0, false⟩
def booting : State := { State.reset with set := store }
def steady : State := { booting with arbState := .steadyPolling, presence := ⟨⟨false, 0⟩, ⟨true, 0⟩, ⟨false, 0⟩⟩ }
def passthrough : State :=
  { steady with arbState := .usbPassthrough, busMode := .usbPassthrough, lstActive := true, txaSuspended := true,
                set := { store with usbConnected := true }, presence := ⟨⟨false, 0⟩, ⟨true, 0⟩, ⟨true, 0⟩⟩ }
def inert : State :=
  { steady with arbState := .shuttingDown, presence := ⟨⟨false, 0⟩, ⟨false, 5⟩, ⟨false, 0⟩⟩ }
/-- TXA in a response wait: the only phase in which a bus master parses what arrives (44_transmit_agent.md R222). -/
def waitsIn (s : State) : State :=
  { s with txaPhase := .awaitResponse, txaCur := some ⟨[0x46, 0x80, 0x00, 0x06, 0x11, 0xDD], true⟩ }

/-- The next state, where there is one. -/
def after (o : Host.Outcome State Fault Refusal) : Option State :=
  match o with
  | .next s => some s
  | .fault _ | .refused _ => none

/-- An operation run whole with the vectors' parameters, seen through `f`. -/
def sees {α : Type} (o : State → Opening) (s : State) (f : State → α) : Option α := (after ((o s).whole cfg s)).map f

def ping46 : QueuedFrame := ⟨[0x46, 0x80, 0x00, 0x06, 0x11, 0xDD], true⟩
def ping5A : QueuedFrame := ⟨[0x5A, 0x80, 0x00, 0x06, 0x11, 0xF1], true⟩
def powerOff00 : QueuedFrame := ⟨[0x00, 0x80, 0x00, 0x06, 0x6E, 0xF4], false⟩
/-- The eight frames of rule R258's example. -/
def push8 : List QueuedFrame :=
  [⟨[0x00, 0x80, 0x00, 0x07, 0x0A, 0x32, 0xC3], false⟩, ⟨[0x00, 0x80, 0x00, 0x07, 0x0D, 0x18, 0xAC], false⟩,
   ⟨[0x00, 0x80, 0x00, 0x07, 0x0B, 0x12, 0xA4], false⟩, ⟨[0x00, 0x80, 0x00, 0x07, 0x0C, 0x12, 0xA5], false⟩,
   ⟨[0x46, 0x80, 0x00, 0x07, 0x0A, 0x32, 0x09], false⟩, ⟨[0x46, 0x80, 0x00, 0x07, 0x0D, 0x18, 0xF2], false⟩,
   ⟨[0x46, 0x80, 0x00, 0x07, 0x0B, 0x12, 0xEA], false⟩, ⟨[0x46, 0x80, 0x00, 0x07, 0x0C, 0x12, 0xEB], false⟩]

/-! Frame Codec -/

/-- V11, V12. -/
theorem test_sum8 : checksum [0x00, 0x80, 0x00, 0x07, 0x0A, 0x32] = 0xC3 := by decide
theorem test_sum8_wraps : checksum [0xFF, 0xFF] = 0xFE := by decide
/-- V14, V31, V33. -/
theorem test_build : buildFrame 0x46 0x80 [0x11] = some [0x46, 0x80, 0x00, 0x06, 0x11, 0xDD] := by decide
theorem test_build_longest : (buildFrame 0x00 0x80 (List.replicate 250 0x00)).map (fun f => (f.length, f.getLastD 0)) =
    some (255, 0x7F) := by decide +kernel
theorem test_build_too_large : buildFrame 0x00 0x80 (List.replicate 251 0x00) = none := by decide +kernel
/-- V34, V36, V38, V40. -/
theorem test_validate : verdict [0x00, 0x80, 0x00, 0x07, 0x0A, 0x32, 0xC3] = .frame := by decide
theorem test_validate_length_byte : verdict [0x00, 0x80, 0x00, 0x08, 0x0A, 0x32, 0xC4] = .frameMalformed := by decide

/-! Transceiver -/

/-- V66: halves round up. -/
theorem test_bit_ticks : (ticksPerBit cfg 38400, ticksPerBit { cfg with tickHz := 57600 } 38400) = (26, 2) := by decide
/-- V53. -/
theorem test_encode_char : charCells 0x46 true =
    [false, false, true, true, false, false, false, true, false, true, true] := by decide
/-- V13's frame: its second character is V51's. -/
theorem test_encode_frame_cells : ((frameCells [0x00, 0x80, 0x00, 0x05, 0x85]).drop 11).take 11 =
    [false, false, false, false, false, false, false, false, true, false, true] := by decide
/-- V65: 28 items, the last two (T,1,T,0) and (T,1,0,1). -/
theorem test_encode_frame : ((frameItems cfg [0x00, 0x80, 0x00, 0x05, 0x85]).length,
    (frameItems cfg [0x00, 0x80, 0x00, 0x05, 0x85]).drop 26) = (28, [⟨26, true, 26, false⟩, ⟨26, true, 0, true⟩]) := by decide
/-- V70, then V68, while DEC itself stands inside a character: `decode_cells` starts between characters each time. -/
theorem test_decode_cells : (fun s : State => (s.returns, s.err.lineFramingFault, s.decPos))
    (decodeCells cfg ([true, true, true] ++ charCells 0x00 true ++ [true] ++ charCells 0x80 false ++ [true, true])
      (decodeCells cfg (List.replicate 9 false ++ [true]) { State.reset with decPos := .inChar 10 })) =
    ([(none, .chars []), (none, .chars [⟨0x00, true⟩, ⟨0x80, false⟩])], false, .inChar 10) := by decide
/-- V69: a low stop cell, then eleven idle cells; two idle cells before it, so that R161's index is 2. -/
theorem test_decode_cells_fault : (fun s : State => (s.returns, s.err.lineFramingFault, s.out, s.faultIndices))
    (decodeCells cfg ([true, true, false, false, true, true, false, false, false, true, false, true, false] ++
      List.replicate 11 true ++ charCells 0x80 false) State.reset) = ([(none, .chars [⟨0x80, false⟩])], true,
    [.log .lineFramingFault .nothing], [2]) := by decide
/-- V71. -/
theorem test_dec_push_overrun : (fun s : State => (s.rxf.length, s.rxf.getLastD ⟨0, true⟩, s.err.rxOverrun))
    (pushChar cfg { State.reset with rxf := List.replicate 16 ⟨0x12, false⟩ } ⟨0x34, false⟩) =
    (16, ⟨0x12, false⟩, true) := by decide

/-- R162: while the line has not been idle since a framing fault, a scan may deliver a character at a high cell. -/
theorem test_lost_high_cell : (fun s : State => (s.rxf, s.draws))
    (hearCells cfg [true] { State.reset with decPos := .lost 0 }) = ([⟨0x01, false⟩], 1) := by decide
/-- R80, R386: a peer's character while the engine sends is contention. -/
theorem test_line_while_sending : (fun s : State => (s.rxf, s.draws))
    (hearPeer cfg (charCells 0x46 true) { State.reset with txaPhase := .sending }) = ([⟨0x01, false⟩], 1) := by decide

/-! Frame Receiver -/

/-- V81. -/
theorem test_frx_step : receiveFrames cfg [⟨0x80, false⟩, ⟨0x12, false⟩, ⟨0x80, true⟩, ⟨0x46, false⟩, ⟨0x00, false⟩,
    ⟨0x06, false⟩, ⟨0x12, false⟩, ⟨0xDE, false⟩] = [.frame [0x80, 0x46, 0x00, 0x06, 0x12, 0xDE]] := by decide
/-- V83. -/
theorem test_frx_step_too_long : receiveFrames { cfg with rxCap := 16 } [⟨0x80, true⟩, ⟨0x46, false⟩, ⟨0x00, false⟩,
    ⟨0x16, false⟩, ⟨0x09, false⟩] = [.aborted .bufferTooSmall (.sizes 22 16)] := by decide
/-- A state whose receiver holds the frame of V13. -/
def holding : State :=
  { State.reset with frxState := .complete, frxCount := 5, frxLen := 5, frxBuf := [(1, 0x80), (3, 0x05), (4, 0x85)] }
theorem test_frx_take : (after (execFrxTake holding)).map (fun s => (s.frxState, s.frxCount, s.returns)) =
    some (.awaitingAddress, 0, [(none, .bytes [0x00, 0x80, 0x00, 0x05, 0x85])]) := by decide
/-- V88. -/
theorem test_frx_reset : (after (execFrxReset { State.reset with frxState := .awaitingLength, frxCount := 2 })).map
    (fun s => (s.frxState, s.frxCount)) = some (.awaitingAddress, 0) := by decide

/-! Transmit Queue -/

theorem test_try_lock : (after (execTryLock (.host 1) State.reset)).map (fun s => (s.lock, s.returns)) =
    some (.held (.host 1), [(some (.host 1), .bool true)]) := by decide
theorem test_try_lock_held : (after (execTryLock (.host 1) { State.reset with lock := .held (.host 2) })).map
    (fun s => (s.lock, s.returns)) = some (.held (.host 2), [(some (.host 1), .bool false)]) := by decide
theorem test_unlock : (after (execUnlock .arb { State.reset with lock := .held .arb })).map (·.lock) = some .free := by decide
/-- V100, V103. -/
theorem test_enqueue : sees (openEnqueue cfg .arb ping46.bytes true) State.reset (fun s => (s.q, s.lock, s.returns)) =
    some ([ping46], .free, [(some .arb, .result .ok)]) := by decide
theorem test_enqueue_stuck_lock : sees (openEnqueue cfg (.host 1) ping46.bytes false)
    { State.reset with lock := .held (.host 2) } (fun s => (s.q, s.err.queueFull, s.returns)) =
    some ([], true, [(some (.host 1), .result .queueFull)]) := by decide
/-- V107, V104. -/
theorem test_dequeue : sees (openDequeueAllReady cfg) { State.reset with q := [ping46] } (fun s => (s.q, s.returns)) =
    some ([], [(some .txa, .batch [ping46])]) := by decide
theorem test_dequeue_stuck_lock : sees (openDequeueAllReady cfg) { State.reset with q := [ping46], lock := .held (.host 2) }
    (fun s => (s.q, s.returns)) = some ([ping46], [(some .txa, .batch [])]) := by decide
/-- V105: between HOST(1)'s `try_lock` and its push, HOST(2)'s `try_lock` fails. -/
theorem test_enqueue_contention : (after ((openEnqueue cfg (.host 1) ping46.bytes false State.reset).begin State.reset)).map
    (fun s => ((takeLock (.host 2) (agentStep cfg (.host 1) s)).2, (agentStep cfg (.host 1) (agentStep cfg (.host 1) s)).q)) =
    some (false, [⟨ping46.bytes, false⟩]) := by decide

/-! Transmit agent -/

/-- V110's start, and V111's entry being sent. -/
def v110 : State := { State.reset with txaBatch := [⟨[0x00, 0x80, 0x00, 0x05, 0x85], false⟩], rxf := [⟨0x12, false⟩] }
def sending : State := { State.reset with txaPhase := .sending, txaCur := some ping46 }
def waiting : State := { booting with txaPhase := .awaitResponse, txaCur := some ping46, pingOutstanding := true }
/-- The receiver has all of `80 46 00 06 12 DE` but its last byte. -/
def lastByte : State :=
  { waiting with frxState := .awaitingPayload, frxCount := 5, frxLen := 6,
                 frxBuf := [(0, 0x80), (1, 0x46), (3, 0x06), (4, 0x12)] }

theorem test_txa_drain : sees (openTxaDrain cfg) { State.reset with q := [ping46, powerOff00] } (fun s => (s.q, s.txaBatch)) =
    some ([], [ping46, powerOff00]) := by decide
theorem test_txa_drain_held : sees (openTxaDrain cfg) { State.reset with q := [ping46], txaSuspended := true }
    (fun s => (s.q, s.txaBatch)) = some ([ping46], []) := by decide
theorem test_txa_start : (fun s : State => (s.rxf, s.txaPhase, s.txaBatch, s.txaCur)) (txaStart v110) =
    ([], .sending, [], some ⟨[0x00, 0x80, 0x00, 0x05, 0x85], false⟩) := by decide
/-- V117. -/
theorem test_txa_start_held : txaStart { v110 with txaSuspended := true } = { v110 with txaSuspended := true } := by decide
/-- R226's example. -/
theorem test_txa_send_char : (fun s : State => (s.waveform, s.rxf, s.txaIdx, s.lineOut)) (txaSendChar cfg false sending) =
    ([false, false, true, true, false, false, false, true, false, true, true], [⟨0x46, true⟩], 1, true) := by decide
/-- As V111, contention at the fifth character: the draw raises no fault, so the sixth comes back exactly (R226). -/
theorem test_txa_send_char_contended : (fun s : State => (s.rxf, s.txaPhase, s.draws))
    (txaSendChar cfg false (txaSendChar cfg true { sending with txaIdx := 4 })) =
    ([⟨0x01, false⟩, ⟨0xDD, false⟩], .echo, 1) := by decide
/-- V110's last echo, and V111's. -/
theorem test_txa_echo_char : (fun s : State => (s.txaPhase, s.txaCur, s.out))
    (txaEchoChar { sending with txaPhase := .echo, txaCur := some ⟨ping46.bytes, false⟩, txaIdx := 6, txaEidx := 5,
                                rxf := [⟨0xDD, false⟩] }) = (.idle, none, []) := by decide
theorem test_txa_echo_char_bad : (fun s : State => (s.txaPhase, s.out))
    (txaEchoChar { sending with txaPhase := .echo, txaIdx := 6, txaEidx := 5, rxf := [⟨0xDC, false⟩] }) =
    (.awaitResponse, [.log .lineEchoMismatch (.bytes ping46.bytes)]) := by decide
/-- V112. -/
theorem test_txa_echo_timeout : (fun s : State => (s.txaPhase, s.out))
    (txaEchoTimeout { sending with txaPhase := .echo, txaIdx := 6, txaEidx := 5 }) =
    (.awaitResponse, [.log .lineEchoMismatch (.bytes ping46.bytes)]) := by decide
/-- V113, V114. -/
theorem test_txa_resp_char : sees (openTxaRespChar cfg) { lastByte with rxf := [⟨0xDE, false⟩] }
    (fun s => (s.presence.dsp, s.out, s.pingOutstanding, s.txaPhase)) =
    some (⟨true, 0⟩, [.presenceChanged .dsp true], false, .idle) := by decide
theorem test_txa_resp_char_bad : sees (openTxaRespChar cfg) { lastByte with rxf := [⟨0xDF, false⟩] }
    (fun s => (s.presence.dsp, s.err.checksumMismatch, s.pingOutstanding, s.txaPhase)) =
    some (⟨false, 0⟩, true, true, .idle) := by decide
/-- V116. -/
theorem test_txa_resp_timeout : (fun s : State => (s.txaPhase, s.frxState, s.frxCount, s.out))
    (txaRespTimeout { waiting with frxState := .awaitingLength, frxCount := 3 }) = (.idle, .awaitingAddress, 0, []) := by decide

/-! Bus arbiter -/

/-- V120, V122. -/
theorem test_poll_tick_booting : sees openPollTick booting (fun s => (s.q, s.pingOutstanding, s.arbState)) =
    some ([ping46], true, .booting) := by decide
/-- V124, V126. -/
theorem test_poll_tick_timeout : sees openPollTick { steady with pingOutstanding := true }
    (fun s => (s.presence.dsp, s.out, s.q, s.pingOutstanding)) =
    some (⟨false, 1⟩, [.log .presenceTimeout (.peer .dsp), .presenceChanged .dsp false], [ping5A, ping46], true) := by decide
theorem test_poll_tick_terminal : sees openPollTick
    { steady with pingOutstanding := true, presence := ⟨⟨false, 0⟩, ⟨false, 4⟩, ⟨false, 0⟩⟩ }
    (fun s => (s.presence.dsp, s.out, s.q, s.arbState)) =
    some (⟨false, 5⟩, [.log .presenceTimeout (.peer .dsp), .log .presenceFailureTerminal (.peer .dsp), .escalation .dsp],
      [powerOff00], .shuttingDown) := by decide
/-- V133. -/
theorem test_poll_tick_full : (after ((openPollTick { steady with q := List.replicate 16 ping46 }).whole
    { cfg with enqRetryMax := 1 } { steady with q := List.replicate 16 ping46 })).map
    (fun s => (s.q.length, s.pingOutstanding, s.out.length)) = some (16, false, 2) := by decide
/-- R254. -/
theorem test_ping : sees (openPing .arb .dsp) steady (fun s => (s.q, s.pingOutstanding)) = some ([ping46], true) := by decide
theorem test_ping_host : sees (openPing (.host 1) .dsp) steady (fun s => (s.q, s.pingOutstanding)) =
    some ([ping46], false) := by decide
/-- R258's example, and P2 step 7. -/
theorem test_push_settings : sees (openPushSettings .arb) booting (·.q) = some push8 := by decide
/-- R200: LST pushes the settings only in its detach handler. -/
theorem test_push_settings_by_lst : sees (openPushSettings .lst) passthrough (fun s => (s.q, s.returns)) = some ([], []) := by
  decide
theorem test_boot_completion : sees openBootCompletion { booting with presence := ⟨⟨false, 0⟩, ⟨true, 0⟩, ⟨false, 0⟩⟩ }
    (fun s => (s.q, s.arbState, s.busMode)) = some (push8, .steadyPolling, .busMaster) := by decide

/-! Dispatcher: the routes of the wire commands -/

/-- V127, V132 (dispatch). -/
theorem test_dispatch_attach : sees (openDispatch cfg [0x80, 0x5A, 0x00, 0x06, 0x12, 0xF2]) (waitsIn steady)
    (fun s => (s.arbState, s.set.usbConnected, s.out)) = some (.usbPassthrough, true,
      [.presenceChanged .usb true, .settingChanged .usbConnected, .inputDisableReq, .modeChanged .usbPassthrough]) := by decide
theorem test_dispatch_inert : sees (openDispatch cfg [0x80, 0x46, 0x00, 0x06, 0x12, 0xDE]) (waitsIn inert) (fun s => (s.presence, s.out)) =
    some (inert.presence, []) := by decide
/-- P3 step 7. -/
theorem test_is_disconnected : sees (openIsDisconnected cfg ⟨0x80, 0x5A, 0x00⟩ []) passthrough
    (fun s => (s.q, s.out, s.arbState, s.txaSuspended || s.lstActive || s.set.usbConnected)) = some (push8,
      [.settingChanged .usbConnected, .inputEnableReq, .presenceChanged .usb false, .modeChanged .busMaster],
      .steadyPolling, false) := by decide
/-- V130. -/
theorem test_is_disconnected_ignored : sees (openIsDisconnected cfg ⟨0x80, 0x5A, 0x00⟩ []) (waitsIn steady)
    (fun s => (s.arbState, s.q, s.out, s.txaPhase)) = some (.steadyPolling, [], [], .idle) := by decide
/-- V140, V129. -/
theorem test_is_present_mc : sees (openIsPresent cfg ⟨0x80, 0x00, 0x00⟩ []) (waitsIn steady) (fun s => (s.presence.mc, s.out)) =
    some (⟨true, 0⟩, [.presenceChanged .mc true]) := by decide
theorem test_is_present_usb_booting : sees (openIsPresent cfg ⟨0x80, 0x5A, 0x00⟩ []) waiting
    (fun s => (s.presence.usb, s.arbState)) = some (⟨true, 0⟩, .booting) := by decide
/-- V142. -/
theorem test_input_source_name_short : sees (openInputSourceName cfg ⟨0x80, 0x46, 0x00⟩ [0x55]) (waitsIn steady)
    (fun s => (s.set == store, s.out)) = some (true, [.log .inboundRejected (.bytes [0x80, 0x46, 0x00, 0x07, 0x09, 0x55, 0x2B])]) := by
  decide
theorem test_input_source_name : sees (openInputSourceName cfg ⟨0x80, 0x46, 0x00⟩ (List.replicate 17 0x41)) (waitsIn steady)
    (fun s => (s.set.sourceName, s.out)) = some (List.replicate 16 0x41, [.settingChanged .sourceName]) := by decide +kernel
/-- V143, V144. -/
theorem test_master_volume : sees (openMasterVolume cfg ⟨0x00, 0x5A, 0x00⟩ [0x40]) passthrough
    (fun s => (s.set.masterVolume, s.out)) = some (0x40, [.settingChanged .masterVolume]) := by decide
theorem test_master_volume_high : sees (openMasterVolume cfg ⟨0x00, 0x5A, 0x00⟩ [0x79]) passthrough
    (fun s => (s.set.masterVolume, s.out)) =
    some (0x32, [.log .inboundRejected (.bytes [0x00, 0x5A, 0x00, 0x07, 0x0A, 0x79, 0xE4])]) := by decide
/-- V145. -/
theorem test_sub_volume : sees (openSubVolume cfg ⟨0x00, 0x5A, 0x00⟩ [0x10]) passthrough (fun s => (s.set.subVolume, s.out)) =
    some (0x10, [.settingChanged .subVolume]) := by decide
/-- V146, V147. -/
theorem test_change_memory : sees (openChangeMemory cfg ⟨0x00, 0x5A, 0x00⟩ [0x02]) passthrough (·.set.memoryBank) = some 1 := by
  decide
theorem test_change_memory_zero : sees (openChangeMemory cfg ⟨0x00, 0x5A, 0x00⟩ [0x00]) passthrough
    (fun s => (s.set.memoryBank, s.err.inboundRejected)) = some (0, true) := by decide
/-- V151 (Balance received), R325's frame (Balance sent). -/
theorem test_balance_received : sees (openBalance cfg ⟨0x00, 0x5A, 0x00⟩ [0x12]) passthrough (fun s => (s.out, s.q)) =
    some ([.log .unknownCommand (.bytes [0x00, 0x5A, 0x00, 0x07, 0x0B, 0x12, 0x7E])], []) := by decide
theorem test_balance_sent : sees (openBalance cfg ⟨0x46, 0x80, 0x00⟩ [0x24]) steady (·.q) =
    some [⟨[0x46, 0x80, 0x00, 0x07, 0x0B, 0x24, 0xFC], false⟩] := by decide
theorem test_fader_sent : sees (openFader cfg ⟨0x00, 0x80, 0x00⟩ [0x24]) steady (·.q) =
    some [⟨[0x00, 0x80, 0x00, 0x07, 0x0C, 0x24, 0xB7], false⟩] := by decide
/-- V166. -/
theorem test_change_source_sent : sees (openChangeSource cfg ⟨0x46, 0x80, 0x00⟩ []) steady (·.q) =
    some (⟨[0x46, 0x80, 0x00, 0x06, 0x10, 0xDC], true⟩ :: push8) := by decide
/-- V152, V16. -/
theorem test_check_present_received : sees (openCheckPresent cfg ⟨0x80, 0x00, 0x00⟩ []) (waitsIn steady) (fun s => (s.out, s.q)) =
    some ([.log .unknownCommand (.bytes [0x80, 0x00, 0x00, 0x06, 0x11, 0x97])], []) := by decide
theorem test_check_present_sent : sees (openCheckPresent cfg ⟨0x00, 0x80, 0x00⟩ []) steady (·.q) =
    some [⟨[0x00, 0x80, 0x00, 0x06, 0x11, 0x97], true⟩] := by decide
/-- V149, V148. -/
theorem test_usb_connected : sees (openUsbConnected cfg ⟨0x80, 0x5A, 0x00⟩ []) (waitsIn steady) (fun s => (s.out, s.arbState)) =
    some ([.peerMessage 0x5A 0x13 []], .steadyPolling) := by decide
theorem test_firmware_version : sees (openFirmwareVersion cfg ⟨0x80, 0x5A, 0x00⟩ [0x01, 0x02]) (waitsIn steady) (·.out) =
    some [.peerMessage 0x5A 0x14 [0x01, 0x02]] := by decide
theorem test_get_current_source_name : sees (openGetCurrentSourceName cfg ⟨0x46, 0x80, 0x00⟩ []) (waitsIn steady)
    (fun s => (s.out, s.q)) = some ([.log .unknownCommand (.bytes [0x46, 0x80, 0x00, 0x06, 0x6D, 0x39])], []) := by decide
/-- V17. -/
theorem test_power_off_sent : sees (openPowerOff cfg ⟨0x00, 0x80, 0x00⟩ []) steady (fun s => (s.q, s.arbState)) =
    some ([powerOff00], .steadyPolling) := by decide

/-- R222, R419: an unsolicited frame stays in `rxf` and is not parsed. -/
theorem test_unsolicited_frame : sees (openIsPresent cfg ⟨0x80, 0x5A, 0x00⟩ []) steady
    (fun s => (s.arbState, s.presence == steady.presence, s.rxf)) = some (.steadyPolling, true,
      [⟨0x80, true⟩, ⟨0x5A, false⟩, ⟨0x00, false⟩, ⟨0x06, false⟩, ⟨0x12, false⟩, ⟨0xF2, false⟩]) := by decide +kernel
/-- R185, R235: a frame longer than the buffer is aborted at its length byte and ends no response wait. -/
theorem test_frame_too_long :
    let c : Config := { cfg with rxCap := 6 }
    (after ((openFirmwareVersion c ⟨0x80, 0x5A, 0x00⟩ [0x01] (waitsIn steady)).whole c (waitsIn steady))).map (fun s => (s.out, s.txaPhase)) =
    some ([.log .bufferTooSmall (.sizes 7 6)], .awaitResponse) := by decide
/-- R61: the USB Host is sent presence checks only, so a Fader to it is a frame that arrives, without a route (R303). -/
theorem test_fader_to_usb : sees (openFader cfg ⟨0x5A, 0x80, 0x00⟩ [0x12]) passthrough (fun s => (s.q, s.err.unknownCommand)) =
    some ([], true) := by decide

/-! Listener -/

/-- P3 step 7: the last character of the detach trigger. -/
theorem test_lst_char : sees (openLstChar cfg)
    { passthrough with frxState := .awaitingPayload, frxCount := 5, frxLen := 6, rxf := [⟨0x15, false⟩],
                       frxBuf := [(0, 0x80), (1, 0x5A), (3, 0x06), (4, 0x35)] }
    (fun s => (s.q, s.busMode, s.rxf)) = some (push8, .busMaster, []) := by decide
theorem test_lst_char_held : sees (openLstChar cfg) { steady with rxf := [⟨0x15, false⟩] } (·.rxf) = some [⟨0x15, false⟩] := by
  decide

/-! Host operations -/

/-- V160, V2. -/
theorem test_set_volume : sees (openSetVolume cfg 1 0x32) steady (fun s => (s.q, s.returns)) =
    some ([⟨[0x00, 0x80, 0x00, 0x07, 0x0A, 0x32, 0xC3], false⟩, ⟨[0x46, 0x80, 0x00, 0x07, 0x0A, 0x32, 0x09], false⟩],
      [(some (.host 1), .result .ok)]) := by decide
theorem test_set_volume_high : sees (openSetVolume cfg 1 0x79) steady (fun s => (s.q, s.out, s.returns)) =
    some ([], [.log .valueOutOfRange (.opValue .setVolume 0x79)], [(some (.host 1), .result .valueOutOfRange)]) := by decide
/-- V161, V162. -/
theorem test_set_balance_high : sees (openSetBalance cfg 1 0x25) steady (fun s => (s.q, s.err.valueOutOfRange)) =
    some ([], true) := by decide
theorem test_set_fader : sees (openSetFader cfg 1 0x24) steady (·.q) =
    some [⟨[0x00, 0x80, 0x00, 0x07, 0x0C, 0x24, 0xB7], false⟩, ⟨[0x46, 0x80, 0x00, 0x07, 0x0C, 0x24, 0xFD], false⟩] := by decide
/-- V163. -/
theorem test_set_sub_volume : sees (openSetSubVolume cfg 1 0x18) steady (·.q) =
    some [⟨[0x00, 0x80, 0x00, 0x07, 0x0D, 0x18, 0xAC], false⟩, ⟨[0x46, 0x80, 0x00, 0x07, 0x0D, 0x18, 0xF2], false⟩] := by decide
/-- V164. -/
theorem test_set_memory : sees (openSetMemory cfg 1 5) steady (·.q) =
    some [⟨[0x00, 0x80, 0x00, 0x07, 0x0F, 0x06, 0x9C], false⟩, ⟨[0x46, 0x80, 0x00, 0x07, 0x0F, 0x06, 0xE2], false⟩] := by decide
theorem test_set_memory_high : sees (openSetMemory cfg 1 6) steady (fun s => (s.q, s.err.valueOutOfRange)) =
    some ([], true) := by decide
/-- V165, V169. -/
theorem test_power_off_main_unit : sees (openPowerOffMainUnit 1) steady (fun s => (s.q, s.arbState)) =
    some ([powerOff00], .steadyPolling) := by decide
theorem test_power_off_inert : sees (openPowerOffMainUnit 1) inert (fun s => (s.q, s.out, s.returns)) =
    some ([], [.log .engineInert (.op .powerOffMainUnit)], [(some (.host 1), .result .engineInert)]) := by decide
/-- V166. -/
theorem test_request_source_change : sees (openRequestSourceChange cfg 1) steady (fun s => (s.q, s.returns)) =
    some (⟨[0x46, 0x80, 0x00, 0x06, 0x10, 0xDC], true⟩ :: push8, [(some (.host 1), .result .ok)]) := by decide
/-- V167. -/
theorem test_check_presence : sees (openCheckPresence 1 0x46) steady (fun s => (s.q, s.pingOutstanding)) =
    some ([ping46], false) := by decide
theorem test_check_presence_unknown : sees (openCheckPresence 1 0x47) steady (fun s => (s.q, s.returns)) =
    some ([], [(some (.host 1), .result .valueOutOfRange)]) := by decide
/-- P4 step 8. -/
theorem test_read_status : (after (execReadStatus 1 inert)).map (·.returns) =
    some [(some (.host 1), .status .busMaster ⟨false, 0⟩ ⟨false, 5⟩ ⟨false, 0⟩)] := by decide

/-! ### Witnesses: for each obligation with hypotheses, concrete values that meet them, at the boundaries of each clause -/

/-- The frame of V13. -/
def short : List Byte := [0x00, 0x80, 0x00, 0x05, 0x85]
/-- The receiver has the header of a frame of five bytes. -/
def header5 : State := { State.reset with frxState := .awaitingPayload, frxCount := 4, frxLen := 5, frxBuf := [(3, 0x05)] }
/-- The receiver has the header of a frame of six bytes, or the first five bytes of one. -/
def header6 : State := { header5 with frxLen := 6, frxBuf := [(3, 0x06)] }

theorem frxInv_reset : FrxInv chip State.reset := ⟨rfl, nofun, fun _ => rfl, nofun, nofun, nofun, nofun⟩
theorem inside_three (c : Config) (h : c.Legal) (b : Byte) : ∀ e ∈ ([(3, b)] : Memory), e.1 < c.rxCap := by
  intro e he
  rw [List.mem_singleton.mp he]
  exact Nat.lt_of_lt_of_le (by decide : 3 < 5) h.rxCap_ge
/-- The steady engine in a response wait is ready for a frame. -/
theorem ready_waiting : Ready chip (waitsIn steady) :=
  have h := frxInv_reset
  ⟨rfl, by decide, rfl, rfl, ⟨h.1, h.2, h.3, h.4, h.5, h.6, h.7⟩, rfl, rfl, by decide⟩
theorem frxInv_header5 : FrxInv chip header5 :=
  ⟨rfl, inside_three chip chip_legal 5, nofun, nofun, fun _ => ⟨by decide, by decide, chip_legal.rxCap_ge⟩, nofun, fun _ => rfl⟩

theorem witness_ChecksumIsByteSum :
    0 < ([0x00] : List Byte).length ∧ ([0x00] : List Byte)[0]? ≠ some 0xFF ∧
    1 < ([0x00, 0x80] : List Byte).length ∧ ([0x00, 0x80] : List Byte)[1]? ≠ some 0x00 := by decide
theorem witness_BuildThenValidate :
    ([] : List Byte).length ≤ 250 ∧ (List.replicate 250 (0 : Byte)).length ≤ 250 ∧
    verdict short = .frame ∧ 0 < short.length ∧ short[0]? ≠ some 0x80 ∧ 4 < short.length ∧ short[4]? ≠ some 0x86 := by
  decide +kernel
theorem witness_CodecOperations :
    (List.replicate 250 (0 : Byte)).length ≤ 250 ∧ 250 < (List.replicate 251 (0 : Byte)).length ∧
    ([0x00, 0x80, 0x00, 0x04] : List Byte).length < 5 ∧
    (5 ≤ ([0x00, 0x80, 0x00, 0x05] ++ [0x86] : List Byte).length ∧ checksum [0x00, 0x80, 0x00, 0x05] ≠ 0x86) ∧
    (4 ≤ ([0x00, 0x80, 0x00, 0x05] : List Byte).length ∧ ([0x00, 0x80, 0x00, 0x05] : List Byte)[3]? = some 0x05) ∧
    (4 ≤ ([0x00, 0x80, 0x00, 0x06] : List Byte).length ∧ ([0x00, 0x80, 0x00, 0x06] : List Byte)[3]? = some 0x06) := by
  decide +kernel
theorem witness_CellDurationRounds : 0 < 1 ∧ 0 < baud := by decide
theorem witness_CharacterAndFrameCells : 0 < 8 ∧ 7 < 8 ∧ ping46.bytes[0]? = some 0x46 ∧ ping46.bytes[5]? = some 0xDD := by
  decide
theorem witness_TimedItemsPackCells : 5 < (frameItems chip [0x00]).length := by
  rw [show (frameItems chip [0x00]).length = 6 from rfl]; decide
theorem witness_FramingFaultDropsCharacter : State.reset.draws = 0 ∧ 11 ≤ 11 := by decide
theorem witness_CharacterDelivered :
    State.reset.rxf.length < chip.rxfDepth ∧
    ({ State.reset with rxf := List.replicate (chip.rxfDepth - 1) ⟨0x12, false⟩ } : State).rxf.length < chip.rxfDepth ∧
    chip.rxfDepth ≤ ({ State.reset with rxf := List.replicate chip.rxfDepth ⟨0x12, false⟩ } : State).rxf.length ∧
    ({ State.reset with script := [.line (charCells 0x46 true)] } : State).script = .line (charCells 0x46 true) :: [] ∧
    State.reset.txaPhase ≠ .sending ∧ State.reset.decPos = .idle ∧ sending.txaPhase = .sending ∧ charCells 0x46 true ≠ [] ∧
    ({ sending with script := [.line (charCells 0x46 true)] } : State).script = .line (charCells 0x46 true) :: [] := by
  have h := chip_legal.rxfDepth
  refine ⟨h, ?_, Nat.le_of_eq List.length_replicate.symm, rfl, by decide, rfl, rfl, by decide, rfl⟩
  rw [List.length_replicate]
  omega
theorem witness_ReceiverAwaitsMarkedByte : State.reset.frxState = .awaitingAddress := rfl
/-- The clause of a length above `RX_CAP` is met on every chip whose `RX_CAP` is below 255. -/
theorem witness_ReceiverReadsHeader :
    let at1 : State := { State.reset with frxState := .awaitingLength, frxCount := 1 }
    let at2 : State := { at1 with frxCount := 2 }
    let at3 : State := { at1 with frxCount := 3 }
    at1.frxState = .awaitingLength ∧ 1 ≤ at1.frxCount ∧ at1.frxCount < 3 ∧ 1 ≤ at2.frxCount ∧ at2.frxCount < 3 ∧
    at3.frxState = .awaitingLength ∧ at3.frxCount = 3 ∧ (4 : Byte).toNat < 5 ∧
    (5 ≤ (5 : Byte).toNat ∧ (5 : Byte).toNat ≤ chip.rxCap) ∧
    (chip.rxCap < 255 → 5 ≤ (255 : Byte).toNat ∧ chip.rxCap < (255 : Byte).toNat) :=
  ⟨rfl, by decide, by decide, by decide, by decide, rfl, rfl, by decide, ⟨by decide, chip_legal.rxCap_ge⟩,
    fun h => ⟨by decide, h⟩⟩
theorem witness_ReceiverCountsToLength : FrxInv chip header5 ∧ header5.frxState = .awaitingPayload := ⟨frxInv_header5, rfl⟩
theorem witness_ReceiverHandsOver : holding.frxState = .complete ∧ State.reset.frxState ≠ .complete := by decide
theorem witness_FrameRoundTrip :
    verdict short = .frame ∧ short.length ≤ chip.rxCap ∧ FrxInv chip State.reset ∧
    State.reset.frxState = .awaitingAddress ∧
    (∀ f ∈ [short, short], verdict f = .frame ∧ f.length ≤ chip.rxCap) ∧ 4 < short.length ∧ (4 : Byte).toNat < 5 ∧
    (chip.rxCap < 255 → chip.rxCap < (255 : Byte).toNat) := by
  refine ⟨by decide, chip_legal.rxCap_ge, frxInv_reset, rfl, fun f h => ?_, by decide, by decide, id⟩
  rw [show f = short by simpa using h]
  exact ⟨by decide, chip_legal.rxCap_ge⟩
theorem witness_LockTakenAndFreed :
    State.reset.busy .arb = false ∧ State.reset.lock = .free ∧ State.reset.lock ≠ .held .arb ∧
    ({ State.reset with lock := .held .arb } : State).busy .arb = false ∧
    ({ State.reset with lock := .held .arb } : State).lock = .held .arb ∧
    ({ State.reset with lock := .held .lst } : State).lock ≠ .held .arb := by decide
theorem witness_EnqueuePushesOrDrops :
    State.reset.busy .arb = false ∧ State.reset.lock = .free ∧ State.reset.q.length < chip.qDepth ∧
    ({ State.reset with lock := .held .lst } : State).lock ≠ .free ∧
    chip.qDepth ≤ ({ State.reset with q := List.replicate chip.qDepth ping46 } : State).q.length ∧
    (Agent.arb = .arb ∨ ∃ h, Agent.arb = .host h) ∧ (Agent.host 1 = .arb ∨ ∃ h, Agent.host 1 = .host h) ∧
    (Agent.lst = .txa ∨ Agent.lst = .lst) :=
  ⟨rfl, rfl, chip_legal.qDepth, by decide, by rw [List.length_replicate], .inl rfl, .inr ⟨1, rfl⟩, .inr rfl⟩
theorem witness_DrainTakesAll :
    let full : State := { State.reset with q := [ping46] }
    full.busy .txa = false ∧ full.lock = .free ∧ full.txaPhase = .idle ∧ full.txaBatch = [] ∧ full.txaSuspended = false ∧
    ({ full with lock := .held .lst } : State).lock ≠ .free ∧ sending.txaPhase ≠ .idle ∧ v110.txaBatch ≠ [] ∧
    ({ full with txaSuspended := true } : State).txaSuspended = true := by decide
theorem witness_WholeRunIsStepsInARow :
    ({ State.reset with tasks := [(.arb, ⟨[.enq ping46 3 false, .markPing], true, true⟩)] } : State).taskOf .arb =
      some ⟨[.enq ping46 3 false, .markPing], true, true⟩ ∧
    (∃ t, exec .pollTick State.reset = .next t) ∧ openingOf .pollTick State.reset = some (openPollTick State.reset) ∧
    exec .frxTake State.reset = .refused .frxTakeNotComplete ∧
    exec (.frxStep 0 false) { State.reset with frxState := .awaitingPayload, frxCount := chip.rxCap } =
      .fault .frxBufIndex :=
  ⟨by decide, ⟨_, rfl⟩, rfl, rfl, by simp [exec, execFrxStep, stepFrx]⟩
theorem witness_HostValueOperations :
    State.reset.busy (.host 1) = false ∧ State.reset.arbState ≠ .shuttingDown ∧ (0x78 : Byte).toNat ≤ 0x78 ∧
    (0x24 : Byte).toNat ≤ 0x24 ∧ (0x18 : Byte).toNat ≤ 0x18 ∧ (0 : Byte).toNat < chip.memBanks :=
  ⟨rfl, by decide, by decide, by decide, by decide, chip_legal.memBanks_ge⟩
theorem witness_HostRejections :
    steady.busy (.host 1) = false ∧ steady.arbState ≠ .shuttingDown ∧ 0x78 < (0x79 : Byte).toNat ∧
    0x24 < (0x25 : Byte).toNat ∧ 0x18 < (0x19 : Byte).toNat ∧ chip.memBanks ≤ (0xFF : Byte).toNat ∧
    (0x47 : Byte) ≠ 0x00 ∧ (0x47 : Byte) ≠ 0x46 ∧ (0x47 : Byte) ≠ 0x5A ∧
    inert.busy (.host 1) = false ∧ inert.arbState = .shuttingDown :=
  ⟨rfl, by decide, by decide, by decide, by decide, chip_legal.memBanks_le, by decide, by decide, by decide, rfl, rfl⟩
theorem witness_HostCommands : steady.busy (.host 1) = false ∧ steady.arbState ≠ .shuttingDown := by decide
theorem witness_PingAndPush :
    steady.busy .arb = false ∧ ¬ (Agent.arb = .arb ∧ Peer.usb = .dsp) ∧ steady.busy (.host 1) = false ∧
    ¬ (Agent.host 1 = .arb ∧ Peer.dsp = .dsp) ∧ (Agent.arb = .arb ∨ ∃ h, Agent.arb = .host h) ∧
    (Agent.host 1 = .arb ∨ ∃ h, Agent.host 1 = .host h) ∧ (Agent.txa = .txa ∨ Agent.txa = .lst) :=
  ⟨rfl, by decide, rfl, by decide, .inl rfl, .inr ⟨1, rfl⟩, .inl rfl⟩
theorem witness_BootCompletes :
    let ready : State := { booting with presence := ⟨⟨false, 0⟩, ⟨true, 0⟩, ⟨false, 0⟩⟩ }
    ready.busy .arb = false ∧ ready.arbState = .booting ∧ ready.presence.dsp.present = true ∧
    booting.busy .arb = false ∧ booting.presence.dsp.present = false ∧ steady.arbState ≠ .booting := by decide
theorem witness_TickPings :
    let ready : State := { booting with presence := ⟨⟨false, 0⟩, ⟨true, 0⟩, ⟨false, 0⟩⟩ }
    booting.busy .arb = false ∧ booting.arbState = .booting ∧ booting.presence.dsp.present = false ∧
    ready.busy .arb = false ∧ ready.arbState = .booting ∧ ready.presence.dsp.present = true ∧
    steady.busy .arb = false ∧ steady.arbState = .steadyPolling ∧ steady.pingOutstanding = false := by decide
theorem witness_TickCountsFailures :
    let asked : State := { steady with pingOutstanding := true }
    let last : State := { asked with presence := ⟨⟨false, 0⟩, ⟨false, 4⟩, ⟨false, 0⟩⟩ }
    asked.busy .arb = false ∧ asked.arbState = .steadyPolling ∧ asked.pingOutstanding = true ∧ asked.presence.dsp.fails ≠ 4 ∧
    last.busy .arb = false ∧ last.arbState = .steadyPolling ∧ last.pingOutstanding = true ∧ last.presence.dsp.fails = 4 := by
  decide
theorem witness_TickIgnored : passthrough.arbState = .usbPassthrough ∧ inert.arbState = .shuttingDown := by decide
/-- Every agent that runs operations is inside one here. -/
def allBusy : State :=
  { steady with tasks := [(.arb, ⟨[.markPing], true, true⟩), (.txa, ⟨[.drain .batch 3 false], true, true⟩),
                          (.lst, ⟨[.frame .mc (.fixed [0x11]) false], true, true⟩), (.host 0, ⟨[.ret], true, true⟩),
                          (.host 1, ⟨[.ret], true, true⟩)] }
/-- The listener is in its detach handler while TXA still sends. -/
def busySending : State :=
  { passthrough with txaPhase := .sending, txaCur := some ping46, tasks := [(.lst, ⟨[.finishDetach], true, true⟩)] }
theorem witness_BusyAgentsBeginNothing :
    allBusy.busy .arb = true ∧ allBusy.busy .txa = true ∧ allBusy.busy .lst = true ∧ allBusy.busy allBusy.owner = true ∧
    allBusy.busy (.host 1) = true ∧
    (Instr.pollTick.wireParts = none ∧ openingOf .pollTick allBusy = some (openPollTick allBusy) ∧
      allBusy.busy (openPollTick allBusy).agent = true) ∧
    ((Instr.checkPresent ⟨0x46, 0x80, 0x00⟩ []).wireParts = some (⟨0x46, 0x80, 0x00⟩, 0x11, []) ∧
      EngineBuilds chip ⟨0x46, 0x80, 0x00⟩ 0x11 [] ∧ allBusy.busy (.host 0) = true) ∧
    ((Instr.isPresent ⟨0x80, 0x5A, 0x00⟩ []).wireParts = some (⟨0x80, 0x5A, 0x00⟩, 0x12, []) ∧
      ¬ EngineBuilds chip ⟨0x80, 0x5A, 0x00⟩ 0x12 [] ∧ allBusy.decPos = .idle ∧ allBusy.txaPhase ≠ .sending) ∧
    (busySending.busy busySending.owner = true ∧ busySending.txaPhase = .sending) :=
  ⟨rfl, rfl, rfl, rfl, rfl, ⟨rfl, rfl, rfl⟩, ⟨rfl, by simp [EngineBuilds], rfl⟩,
    ⟨rfl, by simp [EngineBuilds], rfl, by decide⟩, rfl, rfl⟩
theorem witness_PresenceConfirmed :
    let polling := waitsIn steady
    let dead := waitsIn inert
    polling.busy polling.owner = false ∧ polling.parses = true ∧ polling.arbState ≠ .shuttingDown ∧
    dead.busy dead.owner = false ∧ dead.parses = true ∧ dead.arbState = .shuttingDown := by decide
theorem witness_AttachTransition :
    let polling := waitsIn steady
    polling.busy polling.owner = false ∧ polling.parses = true ∧ polling.arbState = .steadyPolling := by decide
theorem witness_AttachOnlyFromPolling :
    waiting.busy waiting.owner = false ∧ waiting.parses = true ∧ waiting.arbState = .booting ∧
    passthrough.busy passthrough.owner = false ∧ passthrough.parses = true ∧ passthrough.arbState = .usbPassthrough := by decide
theorem witness_DetachTransition :
    passthrough.busy passthrough.owner = false ∧ passthrough.parses = true ∧ passthrough.arbState = .usbPassthrough := by decide
theorem witness_DetachIgnored : booting.arbState ≠ .usbPassthrough ∧ steady.arbState ≠ .usbPassthrough ∧
    inert.arbState ≠ .usbPassthrough := by decide
theorem witness_SourceNameStored :
    waiting.busy waiting.owner = false ∧ waiting.parses = true ∧ 16 ≤ (List.replicate 16 (0x41 : Byte)).length ∧
    (List.replicate 15 (0x41 : Byte)).length < 16 := by decide
theorem witness_VolumesSniffed : passthrough.busy passthrough.owner = false ∧ passthrough.parses = true ∧
    ¬ 0x78 < (0x78 : Byte).toNat ∧ 0x78 < (0x79 : Byte).toNat ∧ ¬ 0x18 < (0x18 : Byte).toNat ∧ 0x18 < (0x19 : Byte).toNat := by
  decide
theorem witness_ChangeMemorySniffed : passthrough.busy passthrough.owner = false ∧ passthrough.parses = true ∧
    (0 : Byte).toNat < 1 ∧ ¬ ((1 : Byte).toNat < 1 ∨ chip.memBanks < (1 : Byte).toNat) :=
  ⟨rfl, rfl, by decide, fun h => h.elim (by decide) (Nat.not_lt_of_le chip_legal.memBanks_ge)⟩
theorem witness_PeerMessagesPassedOn : passthrough.busy passthrough.owner = false ∧ passthrough.parses = true ∧
    waiting.busy waiting.owner = false ∧ waiting.parses = true := by decide
theorem witness_UnroutedDiscarded :
    waiting.busy waiting.owner = false ∧ waiting.parses = true ∧ ((0x80, 0x46, 0x35) : Byte × Byte × Byte) ∉
      ([(0x80, 0x00, 0x12), (0x80, 0x46, 0x12), (0x80, 0x5A, 0x12), (0x80, 0x46, 0x09), (0x80, 0x5A, 0x35),
        (0x80, 0x5A, 0x14), (0x80, 0x5A, 0x13), (0x00, 0x5A, 0x0A), (0x00, 0x5A, 0x0D), (0x00, 0x5A, 0x0F)] :
        List (Byte × Byte × Byte)) := by decide
theorem witness_WireCommandsSent :
    steady.busy (.host 0) = false ∧ steady.arbState ≠ .shuttingDown ∧ Peer.mc ≠ .usb ∧
    settingsPeer rawFirstDest ∈ chip.setDests ∧ settingsPeer rawConfig.srcChangeDest = chip.srcChangeDest ∧
    inert.busy (.host 0) = false ∧ inert.arbState = .shuttingDown :=
  ⟨rfl, by decide, by decide, List.mem_cons_self, rfl, rfl, rfl⟩
/-- A received value, a frame to the DSP of a command that is only sent to the Master Controller, and the source-name
request that nobody sends; which frames fit the buffer rests with `RX_CAP`. -/
theorem witness_WireCommandsReceived :
    (Instr.masterVolume ⟨0x00, 0x5A, 0x00⟩ [0x32]).wireParts = some (⟨0x00, 0x5A, 0x00⟩, 0x0A, [0x32]) ∧
    ¬ EngineBuilds chip ⟨0x00, 0x5A, 0x00⟩ 0x0A [0x32] ∧
    (Instr.powerOff ⟨0x46, 0x80, 0x00⟩ []).wireParts = some (⟨0x46, 0x80, 0x00⟩, 0x6E, []) ∧
    ¬ EngineBuilds chip ⟨0x46, 0x80, 0x00⟩ 0x6E [] ∧
    (Instr.getCurrentSourceName ⟨0x46, 0x80, 0x00⟩ []).wireParts = some (⟨0x46, 0x80, 0x00⟩, 0x6D, []) ∧
    ¬ EngineBuilds chip ⟨0x46, 0x80, 0x00⟩ 0x6D [] ∧ steady.parses = false ∧ steady.decPos = .idle ∧
    steady.txaPhase ≠ .sending ∧ sending.parses = false ∧ sending.txaPhase = .sending ∧ Ready chip (waitsIn steady) ∧ (Instr.getCurrentSourceName ⟨0x46, 0x80, 0x00⟩ []).wf = true ∧
    (6 ≤ chip.rxCap → (commandFrame ⟨0x46, 0x80, 0x00⟩ 0x6D []).length ≤ chip.rxCap) ∧
    (chip.rxCap < 6 → chip.rxCap < (commandFrame ⟨0x46, 0x80, 0x00⟩ 0x6D []).length) :=
  ⟨rfl, by simp [EngineBuilds], rfl, by simp [EngineBuilds], rfl, by simp [EngineBuilds], rfl, rfl, by decide, rfl, rfl,
    ready_waiting, rfl, id, id⟩
theorem witness_TransmissionStarts :
    v110.busy .txa = false ∧ v110.txaPhase = .idle ∧ v110.txaSuspended = false ∧ v110.txaBatch = ⟨short, false⟩ :: [] ∧
    sending.txaPhase ≠ .idle ∧ ({ v110 with txaSuspended := true } : State).txaSuspended = true ∧
    State.reset.txaBatch = [] := by
  decide
theorem witness_CharacterSent :
    sending.busy .txa = false ∧ sending.txaPhase = .sending ∧ sending.txaCur = some ping46 ∧
    ping46.bytes[sending.txaIdx]? = some 0x46 ∧ ping46.bytes[({ sending with txaIdx := 5 } : State).txaIdx]? = some 0xDD ∧
    sending.decPos.afterFault = false ∧ ({ sending with decPos := .inChar 10 } : State).decPos.afterFault = false ∧
    State.reset.txaPhase ≠ .sending ∧ ({ sending with decPos := .lost 10 } : State).decPos.afterFault = true ∧
    ({ sending with decPos := .faulted 10 } : State).decPos.afterFault = true :=
  ⟨rfl, rfl, rfl, rfl, rfl, rfl, rfl, by decide, rfl, rfl⟩
theorem witness_EchoCompared :
    let first : State := { sending with txaIdx := 1, rxf := [⟨0x46, true⟩] }
    let last : State := { sending with txaPhase := .echo, txaIdx := 6, txaEidx := 5, rxf := [⟨0xDD, false⟩] }
    (first.busy .txa = false ∧ first.busMode = .busMaster ∧ first.txaPhase = .sending ∧ first.txaEidx < first.txaIdx ∧
      first.txaCur = some ping46 ∧ first.rxf = ⟨0x46, true⟩ :: []) ∧
    (last.busy .txa = false ∧ last.busMode = .busMaster ∧ last.txaPhase = .echo ∧ last.txaEidx < last.txaIdx ∧
      last.txaCur = some ping46 ∧ last.rxf = ⟨0xDD, false⟩ :: [] ∧ last.txaEidx + 1 = ping46.bytes.length) ∧
    (waiting.txaPhase ≠ .sending ∧ waiting.txaPhase ≠ .echo ∧ sending.txaIdx ≤ sending.txaEidx ∧ sending.rxf = [] ∧
      passthrough.busMode = .usbPassthrough) := by decide
theorem witness_WaitsTimeOut :
    let silent : State := { sending with txaPhase := .echo, txaIdx := 6 }
    silent.busy .txa = false ∧ silent.txaPhase = .echo ∧ silent.rxf = [] ∧ silent.txaCur = some ping46 ∧
    waiting.busy .txa = false ∧ waiting.txaPhase = .awaitResponse ∧ sending.txaPhase ≠ .echo ∧
    ({ silent with rxf := [⟨0xDD, false⟩] } : State).rxf ≠ [] ∧ silent.txaPhase ≠ .awaitResponse := by decide
/-- A first character, a last one that makes a valid frame, and a last one that does not. -/
theorem witness_ResponseReceived :
    let start : State := { waiting with rxf := [⟨0x80, true⟩] }
    let good : State := { header5 with txaPhase := .awaitResponse, txaCur := some ping46, rxf := [⟨0x05, false⟩] }
    let bad : State := { good with rxf := [⟨0x85, false⟩] }
    (sending.txaPhase ≠ .awaitResponse ∧ waiting.rxf = [] ∧ passthrough.busMode = .usbPassthrough) ∧
    (start.busy .txa = false ∧ start.busMode = .busMaster ∧ start.arbState ≠ .usbPassthrough ∧
      start.txaPhase = .awaitResponse ∧ start.rxf = ⟨0x80, true⟩ :: [] ∧ FrxInv chip start ∧ start.frxState ≠ .complete ∧
      start.frxState ≠ .awaitingPayload) ∧
    (good.busy .txa = false ∧ good.busMode = .busMaster ∧ good.arbState ≠ .usbPassthrough ∧
      good.txaPhase = .awaitResponse ∧ good.rxf = ⟨0x05, false⟩ :: [] ∧ FrxInv chip good ∧ good.frxState ≠ .complete ∧
      good.frxState = .awaitingPayload ∧ good.frxCount + 1 = good.frxLen.toNat ∧
      verdict ((List.range good.frxCount).map good.frxBuf.read ++ [0x05]) = .frame) ∧
    (bad.rxf = ⟨0x85, false⟩ :: [] ∧ FrxInv chip bad ∧
      verdict ((List.range bad.frxCount).map bad.frxBuf.read ++ [0x85]) ≠ .frame) :=
  have h := frxInv_header5
  have h' := frxInv_reset
  ⟨⟨by decide, rfl, rfl⟩, ⟨rfl, rfl, by decide, rfl, rfl, ⟨h'.1, h'.2, h'.3, h'.4, h'.5, h'.6, h'.7⟩, by decide, by decide⟩,
   ⟨rfl, rfl, by decide, rfl, rfl, ⟨h.1, h.2, h.3, h.4, h.5, h.6, h.7⟩, by decide, rfl, rfl, by decide⟩,
   ⟨rfl, ⟨h.1, h.2, h.3, h.4, h.5, h.6, h.7⟩, by decide⟩⟩
theorem witness_ListenerReceives :
    let start : State := { passthrough with rxf := [⟨0x80, true⟩] }
    let good : State := { header5 with busMode := .usbPassthrough, lstActive := true, rxf := [⟨0x05, false⟩] }
    let bad : State := { good with rxf := [⟨0x85, false⟩] }
    (steady.busy .lst = false ∧ steady.lstActive = false ∧ passthrough.rxf = []) ∧
    (start.busy .lst = false ∧ start.busMode = .usbPassthrough ∧ start.lstActive = true ∧ start.rxf = ⟨0x80, true⟩ :: [] ∧
      FrxInv chip start ∧ start.frxState ≠ .complete ∧ start.frxState ≠ .awaitingPayload) ∧
    (good.busy .lst = false ∧ good.busMode = .usbPassthrough ∧ good.lstActive = true ∧ good.rxf = ⟨0x05, false⟩ :: [] ∧
      FrxInv chip good ∧ good.frxState = .awaitingPayload ∧ good.frxCount + 1 = good.frxLen.toNat ∧
      verdict ((List.range good.frxCount).map good.frxBuf.read ++ [0x05]) = .frame) ∧
    (bad.rxf = ⟨0x85, false⟩ :: [] ∧ FrxInv chip bad ∧
      verdict ((List.range bad.frxCount).map bad.frxBuf.read ++ [0x85]) ≠ .frame) :=
  have h := frxInv_header5
  have h' := frxInv_reset
  ⟨⟨rfl, rfl, rfl⟩, ⟨rfl, rfl, rfl, rfl, ⟨h'.1, h'.2, h'.3, h'.4, h'.5, h'.6, h'.7⟩, by decide, by decide⟩,
   ⟨rfl, rfl, rfl, rfl, ⟨h.1, h.2, h.3, h.4, h.5, h.6, h.7⟩, rfl, rfl, by decide⟩,
   ⟨rfl, ⟨h.1, h.2, h.3, h.4, h.5, h.6, h.7⟩, by decide⟩⟩
theorem witness_StepRunsDecoded :
    let run (e : Event) : State := { State.reset with script := [e] }
    let bad : List Byte := [0x00, 0x80, 0x00, 0x05, 0x86]
    (run (.call (.frxStep 0x80 true))).script = .call (.frxStep 0x80 true) :: [] ∧ (Instr.frxStep 0x80 true).wf = true ∧
    ((run (.start .pollTick)).script = .start .pollTick :: [] ∧ Instr.pollTick.wf = true ∧
      openingOf .pollTick State.reset = some (openPollTick State.reset) ∧
      State.reset.busy (openPollTick State.reset).agent = false ∧ (∃ b, (openPollTick State.reset).first = .next b) ∧
      openingOf (.frxStep 0x80 true) State.reset = none) ∧
    (run (.agent .arb)).script = .agent .arb :: [] ∧
    (run (.store (.masterVolume 0x78))).script = .store (.masterVolume 0x78) :: [] ∧
    (StoreWrite.masterVolume 0x78).legal chip.memBanks = true ∧
    (run (.line [false])).script = .line [false] :: [] ∧ (run (.wire ping46.bytes)).script = .wire ping46.bytes :: [] ∧
    decode ping46.bytes = .ok (.checkPresent ⟨0x46, 0x80, 0x00⟩ []) ∧ State.reset.parses = false ∧
    State.reset.decPos = .idle ∧ State.reset.txaPhase ≠ .sending ∧ Ready chip (waitsIn steady) ∧
    (let s : State := { sending with script := [.wire short] }
     s.script = .wire short :: [] ∧ decode short = .error .noCommand ∧ s.parses = false ∧ s.txaPhase = .sending ∧
       short ≠ []) ∧
    (decode bad = .error .badChecksum ∧ bad.length ≤ chip.rxCap ∧ (bad[3]?).map BitVec.toNat = some bad.length) ∧
    (decode short = .error .noCommand ∧ short.length ≤ chip.rxCap ∧ (short[3]?).map BitVec.toNat = some short.length) ∧
    decode [0x00, 0x80, 0x00, 0x04] = .error .malformed ∧
    decode [0x80, 0x46, 0x00, 0x06, 0x77, 0x43] = .error (.unknownCommand 0x77) ∧
    (6 ≤ chip.rxCap → ([0x80, 0x46, 0x00, 0x06, 0x77, 0x43] : List Byte).length ≤ chip.rxCap) :=
  ⟨rfl, rfl, ⟨rfl, rfl, rfl, rfl, ⟨_, rfl⟩, rfl⟩, rfl, rfl, rfl, rfl, rfl, by decide, rfl, rfl, by decide, ready_waiting,
    ⟨rfl, by decide, rfl, rfl, by decide⟩, ⟨by decide, chip_legal.rxCap_ge, rfl⟩, ⟨by decide, chip_legal.rxCap_ge, rfl⟩, by decide, by decide, id⟩
theorem witness_DecodeEncodeAgree :
    (Instr.masterVolume ⟨0x00, 0x80, 0xFF⟩ [0x32]).wf = true ∧
    encode (.masterVolume ⟨0x00, 0x80, 0xFF⟩ [0x32]) = some [0x00, 0x80, 0xFF, 0x07, 0x0A, 0x32, 0xC2] ∧
    (Instr.checkPresent ⟨0x46, 0x80, 0x00⟩ []).wf = true ∧ encode (.checkPresent ⟨0x46, 0x80, 0x00⟩ []) = some ping46.bytes := by
  decide
theorem witness_ReceiverInvariantKept :
    let s : State := { State.reset with script := [.call (.frxStep 0x80 true)] }
    let heard : State := { State.reset with decPos := .inChar 10, script := [.line [false]] }
    (FrxInv chip s ∧ ∃ t, step s = .next t ∧ t.frxState = .awaitingLength) ∧
    (decPosLegal heard.decPos = true ∧ heard.decPos.afterFault = false ∧ ∃ t, step heard = .next t ∧
      t.decPos = .faulted 0 ∧ t.decPos.afterFault = true) :=
  have h := frxInv_reset
  ⟨⟨⟨h.1, h.2, h.3, h.4, h.5, h.6, h.7⟩, _, rfl, rfl⟩, rfl, rfl, _, rfl, rfl, rfl⟩
/-- The detach handler, about to end. -/
def detaching : State :=
  { passthrough with tasks := [(.lst, ⟨[.finishDetach], true, true⟩)], script := [.agent .lst] }
theorem modeInv_detaching : ModeInv detaching :=
  ⟨by decide, by decide, by decide, by decide, by decide, by decide, by decide, by decide⟩
/-- A frame that makes the steady engine attach. -/
def attaching : State := { waitsIn steady with script := [.call (.dispatch [0x80, 0x5A, 0x00, 0x06, 0x12, 0xF2])] }
theorem modeInv_attaching : ModeInv attaching := ⟨by decide, by decide, by decide, by decide, by decide, by decide, by decide, by decide⟩
theorem witness_ModeInvariantKept :
    (ModeInv detaching ∧ ∃ t, step detaching = .next t ∧ t.arbState = .steadyPolling) ∧
    (ModeInv attaching ∧ ∃ t, step attaching = .next t ∧ t.arbState = .usbPassthrough) :=
  ⟨⟨modeInv_detaching, _, rfl, rfl⟩, modeInv_attaching, _, rfl, rfl⟩
/-- The boot handler, about to end. -/
def bootEnding : State :=
  { booting with tasks := [(.arb, ⟨[.enterSteady], true, true⟩)], script := [.agent .arb] }
theorem witness_FourArbiterEdges :
    ModeInv bootEnding ∧ ∃ t, step bootEnding = .next t ∧ t.arbState = .steadyPolling :=
  ⟨⟨by decide, by decide, by decide, by decide, by decide, by decide, by decide, by decide⟩, _, rfl, rfl⟩
/-- Shut down, with a presence message still arriving. -/
def dead : State :=
  { waitsIn inert with err := { inert.err with presenceFailureTerminal := true },
                       script := [.call (.dispatch [0x80, 0x46, 0x00, 0x06, 0x12, 0xDE])] }
theorem witness_ShutdownIsFinal : ModeInv dead ∧ dead.arbState = .shuttingDown ∧ ∃ t, step dead = .next t :=
  ⟨⟨by decide, by decide, by decide, by decide, by decide, by decide, by decide, by decide⟩, rfl, _, rfl⟩
theorem witness_PresenceInvariantKept :
    (ModeInv dead ∧ PresenceInv dead ∧ ∃ t, step dead = .next t) ∧
    (ModeInv detaching ∧ PresenceInv detaching ∧ ∃ t, step detaching = .next t) :=
  ⟨⟨witness_ShutdownIsFinal.1, ⟨by decide, by decide, by decide, by decide, by decide⟩, _, rfl⟩,
   modeInv_detaching, ⟨by decide, by decide, by decide, by decide, by decide⟩, _, rfl⟩
/-- The arbiter is between `try_lock` and `unlock` of an enqueue; TXA is inside a drain. -/
def pushing : State :=
  { steady with lock := .held .arb, script := [.agent .txa]
                tasks := [(.arb, ⟨[.enq ping46 3 true, .markPing], true, true⟩), (.txa, ⟨[.drain .batch 3 false], true, true⟩)] }
theorem witness_QueueInvariantKept : QueueInv chip pushing ∧ ∃ t, step pushing = .next t :=
  ⟨⟨Nat.zero_le _, Nat.zero_le _, by decide, by decide⟩, _, rfl⟩
theorem transmitInv_pushing : TransmitInv pushing := by
  refine ⟨by decide, by decide, nofun, by decide, by decide, by decide, nofun, nofun, ?_, rfl⟩
  intro e he d n h hi
  simp only [pushing, List.mem_cons, List.not_mem_nil, or_false] at he
  rcases he with rfl | rfl
  · simp at hi
  · simp only [List.mem_singleton, Item.drain.injEq] at hi
    obtain ⟨rfl, rfl, rfl⟩ := hi
    exact ⟨rfl, fun _ => ⟨rfl, rfl, rfl⟩⟩
theorem witness_TransmitInvariantKept : TransmitInv pushing ∧ ∃ t, step pushing = .next t := ⟨transmitInv_pushing, _, rfl⟩
theorem witness_SettingsStayLegal :
    let s : State := { steady with script := [.store (.masterVolume 0x78)] }
    SettingsInv chip s ∧ ∃ t, step s = .next t ∧ t.set.masterVolume = 0x78 := by
  refine ⟨?_, _, rfl, rfl⟩
  have h : 0 < chip.memBanks := chip_legal.memBanks_ge
  simp [SettingsInv, Settings.legal, steady, booting, store, volMax, subMax, balFadMax, srcNameLen, h]
theorem witness_NoFrameOvertakes :
    TransmitInv pushing ∧ ModeInv pushing ∧ (∀ rest, pushing.script ≠ .call .dequeueAllReady :: rest) ∧
    (∀ e ∈ pushing.tasks, ∀ n h, Item.drain .caller n h ∉ e.2.items) ∧ ∃ t, step pushing = .next t := by
  refine ⟨transmitInv_pushing, ⟨by decide, by decide, by decide, by decide, by decide, by decide, by decide, by decide⟩,
    by simp [pushing], ?_, _, rfl⟩
  intro e he n h hi
  simp only [pushing, List.mem_cons, List.not_mem_nil, or_false] at he
  rcases he with rfl | rfl <;> simp at hi
/-- TXA's own step that takes the entries of the queue. -/
theorem witness_NoFrameOvertakes_own :
    let s : State := { State.reset with q := [ping46], script := [.call .txaDrain] }
    TransmitInv s ∧ ModeInv s ∧ (∀ rest, s.script ≠ .call .dequeueAllReady :: rest) ∧
    (∀ e ∈ s.tasks, ∀ n h, Item.drain .caller n h ∉ e.2.items) ∧ (∃ t, step s = .next t) ∧
    s.script = .call .txaDrain :: [] ∧ s.runsTxa chip (.call .txaDrain) :=
  ⟨⟨by decide, nofun, nofun, nofun, by decide, by decide, nofun, nofun, nofun, rfl⟩,
   ⟨by decide, by decide, by decide, by decide, nofun, nofun, nofun, nofun⟩, by simp, nofun, ⟨_, rfl⟩, rfl,
   .inr (.inr (.inl ⟨_, .inl rfl, .inl (.inl rfl)⟩))⟩
/-- The entry in progress, about to leave when its response wait ends; the next one stays. -/
theorem witness_NoFrameOvertakes_leaves :
    let s : State := { waiting with q := [powerOff00], txaIdx := 6, txaEidx := 6, script := [.call .txaRespTimeout] }
    TransmitInv s ∧ ModeInv s ∧ (∀ rest, s.script ≠ .call .dequeueAllReady :: rest) ∧
    (∀ e ∈ s.tasks, ∀ n h, Item.drain .caller n h ∉ e.2.items) ∧ s.txaCur = some ping46 ∧ s.txaPhase = .awaitResponse ∧
    s.runsTxa chip (.call .txaRespTimeout) ∧ ∃ t, step s = .next t ∧ t.pendingFrames = [powerOff00] :=
  ⟨⟨by decide, by decide, fun f hf => Option.some.inj hf ▸ by decide, nofun, by decide, by decide, nofun,
     fun f _ hf => Option.some.inj hf ▸ rfl, nofun, rfl⟩,
   ⟨by decide, by decide, by decide, by decide, nofun, nofun, nofun, nofun⟩, by simp, nofun, rfl, rfl,
   .inr (.inr (.inl ⟨_, .inl rfl, .inl (.inr (.inr (.inr (.inr (.inr (.inr rfl))))))⟩)), _, rfl, rfl⟩
theorem witness_LineDrivenOnlyWhileSending :
    let held : State := { v110 with txaSuspended := true, script := [.call .txaStart] }
    (∃ t, step held = .next t) ∧ held.txaPhase ≠ .sending ∧ held.txaPhase = .idle ∧ held.txaSuspended = true :=
  ⟨⟨_, rfl⟩, by decide, rfl, rfl⟩

end Sys2Proof.Tests
end

section
/-! Wire commands that arrive (O39): which wire commands the engine sends and which arrive, what a frame's arrival does
where the engine does not parse, while it sends, and where it is ready for the frame (44_transmit_agent.md R222, R231,
R232, R235; 42_frame_receiver.md R185, R187; 46_dispatcher.md R290, R292; log 9). -/
namespace Sys2Proof.Machine

/-! ### A command the engine does not build arrives -/

theorem peerOf_eq_some_iff (a : Byte) (p : Peer) : peerOf a = some p ↔ a = peerAddr p := by
  constructor
  · unfold peerOf
    split
    · rintro ⟨⟩; assumption
    · split
      · rintro ⟨⟩; assumption
      · split
        · rintro ⟨⟩; assumption
        · exact nofun
  · rintro rfl
    cases p <;> rfl

theorem sentTo_eq_some_iff (hd : Header) (p : Peer) :
    sentTo hd = some p ↔ hd.transmitter = 0x80 ∧ hd.reserved = 0x00 ∧ hd.receiver = peerAddr p := by
  rw [sentTo, Option.ite_none_right_eq_some, peerOf_eq_some_iff, and_assoc]
  rfl

/-- A setting to the Master Controller or the DSP Processor (R258, R322). -/
theorem EngineBuilds.setting {c : Config} {hd : Header} {p : Peer} {code : Byte}
    (hp : (sentTo hd).filter getsSettings = some p) (hcode : code ∈ [0x0A, 0x0B, 0x0C, 0x0D]) (v : Byte) :
    EngineBuilds c hd code [v] := by
  obtain ⟨hsent, hgets⟩ := Option.filter_eq_some_iff.mp hp
  obtain ⟨htx, hrsv, hrx⟩ := (sentTo_eq_some_iff hd p).mp hsent
  refine ⟨htx, hrsv, .inl ⟨?_, hcode, rfl⟩⟩
  cases p
  case mc => exact .inl hrx
  case dsp => exact .inr hrx
  case usb => cases hgets

/-- A memory bank to an address of `SET_DESTS` (R328). -/
theorem EngineBuilds.memory {c : Config} {hd : Header} {p : Peer}
    (hp : (sentTo hd).filter c.setDests.contains = some p) (v : Byte) : EngineBuilds c hd 0x0F [v] := by
  obtain ⟨hsent, hdest⟩ := Option.filter_eq_some_iff.mp hp
  obtain ⟨htx, hrsv, hrx⟩ := (sentTo_eq_some_iff hd p).mp hsent
  exact ⟨htx, hrsv, .inr (.inl ⟨⟨p, List.contains_iff_mem.mp hdest, hrx⟩, rfl, rfl⟩)⟩

/-- A source change to `SRC_CHANGE_DEST` (R330). -/
theorem EngineBuilds.source {c : Config} {hd : Header} {p : Peer}
    (hp : (sentTo hd).filter (· == c.srcChangeDest) = some p) : EngineBuilds c hd 0x10 [] := by
  obtain ⟨hsent, hdest⟩ := Option.filter_eq_some_iff.mp hp
  obtain ⟨htx, hrsv, hrx⟩ := (sentTo_eq_some_iff hd p).mp hsent
  exact ⟨htx, hrsv, .inr (.inr (.inl ⟨eq_of_beq hdest ▸ hrx, rfl, rfl⟩))⟩

/-- A presence check to any peer (R254, R331). -/
theorem EngineBuilds.check {c : Config} {hd : Header} {p : Peer} (hp : sentTo hd = some p) :
    EngineBuilds c hd 0x11 [] := by
  obtain ⟨htx, hrsv, hrx⟩ := (sentTo_eq_some_iff hd p).mp hp
  refine ⟨htx, hrsv, .inr (.inr (.inr (.inl ⟨?_, rfl, rfl⟩)))⟩
  cases p
  case mc => exact .inl hrx
  case dsp => exact .inr (.inl hrx)
  case usb => exact .inr (.inr hrx)

/-- A power-off to the Master Controller (R329, R256). -/
theorem EngineBuilds.powerOff {c : Config} {hd : Header} (hp : sentTo hd = some .mc) : EngineBuilds c hd 0x6E [] := by
  obtain ⟨htx, hrsv, hrx⟩ := (sentTo_eq_some_iff hd .mc).mp hp
  exact ⟨htx, hrsv, .inr (.inr (.inr (.inr ⟨hrx, rfl, rfl⟩)))⟩

/-- Log 9: a wire command whose frame the engine does not build is opened as the arrival of that frame. -/
theorem openingOf_arrival (i : Instr) (hd : Header) (code : Byte) (args : List Byte) (s : State)
    (hw : i.wireParts = some (hd, code, args)) (hb : ¬ EngineBuilds chip hd code args) :
    openingOf i s = some (openArrival chip (commandFrame hd code args) s) := by
  cases i
  case inputSourceName | isPresent | usbConnected | firmwareVersion | isDisconnected | getCurrentSourceName =>
    cases hw; rfl
  case masterVolume | balance | fader | subVolume =>
    cases hw
    simp only [openingOf, openMasterVolume, openBalance, openFader, openSubVolume]
    split
    · next hp => exact absurd (EngineBuilds.setting hp (by decide) _) hb
    · rfl
  case changeMemory =>
    cases hw
    simp only [openingOf, openChangeMemory]
    split
    · next hp => exact absurd (EngineBuilds.memory hp _) hb
    · rfl
  case changeSource =>
    cases hw
    simp only [openingOf, openChangeSource]
    split
    · next hp => exact absurd (EngineBuilds.source hp) hb
    · rfl
  case checkPresent =>
    cases hw
    simp only [openingOf, openCheckPresent]
    split
    · next hp => exact absurd (EngineBuilds.check hp) hb
    · rfl
  case powerOff =>
    cases hw
    simp only [openingOf, openPowerOff]
    split
    · next hp => exact absurd (EngineBuilds.powerOff hp) hb
    · rfl
  all_goals cases hw

theorem exec_arrival (i : Instr) (hd : Header) (code : Byte) (args : List Byte) (s : State)
    (hw : i.wireParts = some (hd, code, args)) (hb : ¬ EngineBuilds chip hd code args) :
    exec i s = (openArrival chip (commandFrame hd code args) s).whole chip s :=
  exec_whole i s _ (openingOf_arrival i hd code args s hw hb)

/-! ### Where the engine does not parse -/

/-- DEC between characters and no contention: a frame's characters go to `rxf` as far as there is room (R164). -/
theorem hearPeer_frame (c : Config) (f : List Byte) (s : State) (hd : s.decPos = .idle) (hq : s.txaPhase ≠ .sending) :
    ∃ sh : BitVec 9, hearPeer c (frameCells f) s = { afterPush c (frameChars f) s with decShift := sh } := by
  obtain ⟨sh, e⟩ := hearCells_frame c f s hd
  exact ⟨sh, by rw [hearPeer_quiet c _ s hq, e, pushChars_eq]; rfl⟩

/-- The engine drives: a draw takes the place of a frame that has bytes (R80). -/
theorem hearPeer_frame_sending (c : Config) (f : List Byte) (s : State) (hf : f ≠ []) (hq : s.txaPhase = .sending) :
    hearPeer c (frameCells f) s = afterContention c s := by
  refine hearPeer_sending c _ s hq (List.ne_nil_of_length_pos ?_)
  have hpos := List.length_pos_iff.mpr hf
  rw [frameCells_length]
  omega

/-- Where the owner of `rxf` does not parse, the frame is only heard, whether that agent is busy or not (R222). -/
theorem openArrival_unparsed (c : Config) (f : List Byte) (s : State) (hp : s.parses = false) :
    (openArrival c f s).whole c s = .next (hearPeer c (frameCells f) s) := by
  cases hb : s.busy s.owner with
  | true => exact whole_busy _ c s hb
  | false => exact whole_next _ c s (hearPeer c (frameCells f) s).done hb (if_neg (by simp [hp]))

/-- Log 10: `dispatch` is enabled only where the owner of `rxf` parses. -/
theorem exec_dispatch_unparsed (f : List Byte) (s : State) (hp : s.parses = false) :
    exec (.dispatch f) s = .next s := by
  rw [exec_whole (.dispatch f) s _ rfl]
  cases hb : s.busy s.owner with
  | true => exact whole_busy _ chip s hb
  | false => exact whole_next _ chip s s.done hb (congrArg _ (if_neg (by simp [hp])))

/-! ### Where the engine is ready for the frame -/

/-- The state a frame's bytes leave when the receiver is back at waiting for an address: its buffer, the declared
length, and the bits DEC has collected are written. -/
def State.afterBytes (s : State) (f : List Byte) (m : Memory) (sh : BitVec 9) : State :=
  { s with frxBuf := m, frxLen := BitVec.ofNat 8 f.length, decShift := sh }

/-- The buffer after the arrival of a frame: the header's bytes and, when the frame fits, all its bytes; nothing
beyond (R182, R183, R185). -/
structure HoldsFrame (c : Config) (f : List Byte) (before m : Memory) : Prop where
  stored    : ∀ (k : Nat) (b : Byte), f[k]? = some b → k < 4 ∨ f.length ≤ c.rxCap → m.read k = b
  unchanged : ∀ k, f.length ≤ k ∨ c.rxCap < f.length ∧ 4 ≤ k → m.read k = before.read k

/-- A wire command's frame is valid when its arguments fit a frame. -/
theorem verdict_of_wireParts (i : Instr) (hd : Header) (code : Byte) (args : List Byte) (hi : i.wf = true)
    (hw : i.wireParts = some (hd, code, args)) : verdict (commandFrame hd code args) = .frame := by
  cases i <;> cases hw <;> exact commandFrame_verdict hd _ args hi

/-- The length byte of a valid frame is its length (R134). -/
theorem lengthByte_of_verdict {f : List Byte} (h : verdict f = .frame) :
    (f[3]?).map BitVec.toNat = some f.length ∧ 5 ≤ f.length ∧ f.length < 256 := by
  obtain ⟨h5, -, h3⟩ := (verdict_frame_iff f).mp h
  have hget : f[3]? = some (f.getD 3 0) := by
    rw [List.getD_eq_getElem?_getD, List.getElem?_eq_getElem (by omega)]
    rfl
  have hlt := (f.getD 3 0).isLt
  exact ⟨by rw [hget, Option.map_some, h3], h5, by omega⟩

/-- Taking a complete valid frame from the receiver dispatches it with the receiver waiting for an address again
(R187, R232). -/
theorem takeFrame_valid (c : Config) (k : State → State) (f : List Byte) (s : State) (m : Memory) (sh : BitVec 9)
    (hv : verdict f = .frame) (hc : s.frxCount = 0) (ha : s.frxState = .awaitingAddress)
    (hm : ∀ (n : Nat) (b : Byte), f[n]? = some b → m.read n = b) :
    takeFrame c k { s.afterBytes f m sh with frxCount := f.length, frxState := .complete } =
      ⟨k (dispatchFrame c f (s.afterBytes f m sh)).state, (dispatchFrame c f (s.afterBytes f m sh)).rest⟩ := by
  have htaken : ({ s.afterBytes f m sh with frxCount := f.length, frxState := .complete } : State).takenFrame = f :=
    takenFrame_eq f _ rfl (lengthByte_of_verdict hv).2.2 hm
  have hreset : ({ s.afterBytes f m sh with frxCount := f.length, frxState := .complete } : State).resetFrx =
      s.afterBytes f m sh := by
    simp only [State.resetFrx, State.afterBytes, ← hc, ← ha]
  rw [takeFrame, htaken, hreset, receiveFrame, hv]

/-- A length byte above `RX_CAP` leaves the receiver waiting for an address, with the error raised (R185). -/
theorem resetFrx_tooSmall (s : State) (n m : Nat) (hc : s.frxCount = 0) (ha : s.frxState = .awaitingAddress) :
    (s.raise .bufferTooSmall (.sizes n m)).resetFrx = { s with
      err := { s.err with bufferTooSmall := true }
      out := s.out ++ [.log .bufferTooSmall (.sizes n m)] } := by
  simp only [State.resetFrx, State.raise, ErrFlags.mark, ← hc, ← ha]

/-- The first step of a valid frame's arrival at an engine that is ready for it: dispatched when it fits the buffer,
aborted at its length byte otherwise. -/
theorem openArrival_ready (f : List Byte) (s : State) (hr : Ready chip s) (hv : verdict f = .frame) :
    ∃ (m : Memory) (sh : BitVec 9), HoldsFrame chip f s.frxBuf m ∧
      (f.length ≤ chip.rxCap → (openArrival chip f s).first = .next
        ⟨afterFrame s.busMode (dispatchFrame chip f (s.afterBytes f m sh)).state,
          (dispatchFrame chip f (s.afterBytes f m sh)).rest⟩) ∧
      (chip.rxCap < f.length → (openArrival chip f s).first = .next (State.done { s.afterBytes f m sh with
        err := { s.err with bufferTooSmall := true }
        out := s.out ++ [.log .bufferTooSmall (.sizes f.length chip.rxCap)] })) := by
  have hc : s.frxCount = 0 := hr.frx.awaitingAddress hr.fresh
  obtain ⟨h3, h5, -⟩ := lengthByte_of_verdict hv
  obtain ⟨m, sh, hstored, hrest, e⟩ := arriveChars_frame chip s.busMode f s chip_legal.rxfDepth chip_legal.rxCap_ge
    hr.between hr.quiet hr.empty hr.fresh hr.frx.bufferWf h5 h3
  have hfirst : (openArrival chip f s).first = arriveChars chip s.busMode (frameChars f) s := if_pos hr.parses
  refine ⟨m, sh, ⟨hstored, hrest⟩, fun hfit => ?_, fun hlong => ?_⟩
  · rw [hfirst, e, if_pos hfit]
    exact congrArg _ (takeFrame_valid chip _ f s m sh hv hc hr.fresh fun n b hn => hstored n b hn (.inr hfit))
  · rw [hfirst, e, if_neg (Nat.not_le.mpr hlong)]
    exact congrArg (fun t : State => Host.Outcome.next t.done) (resetFrx_tooSmall (s.afterBytes f m sh) _ _ hc hr.fresh)

/-- Only a detach leaves steps to the agent that dispatched the frame (R266). -/
theorem Dispatched.rest_nil {s u : State} {l : List Item} (h : Dispatched s u l) (ha : s.arbState ≠ .usbPassthrough) :
    l = [] := by
  cases h
  case detach h => exact absurd h ha
  all_goals rfl

/-- The run of what a dispatched frame leaves, with the consumer's own end of it before: TXA ends its response wait
(R232, R235), LST goes on listening (R290). -/
theorem runItems_afterFrame (f : List Byte) (s : State) (hm : s.busMode = .busMaster → s.arbState ≠ .usbPassthrough) :
    let b := dispatchFrame chip f s
    let t := runItems chip s.owner b.rest true true b.state
    runItems chip s.owner b.rest true true (afterFrame s.busMode b.state) =
      if s.busMode = .busMaster then { t with txaCur := none, txaPhase := .idle } else t := by
  cases h : s.busMode with
  | busMaster =>
    simp only [(dispatchFrame_dispatched f s).rest_nil (hm h)]
    rfl
  | usbPassthrough => rfl

/-- `dispatch` by an owner of `rxf` that parses and is inside no operation. -/
theorem exec_dispatch_parsed (f : List Byte) (s : State) (hp : s.parses = true) (hb : s.busy s.owner = false) :
    exec (.dispatch f) s =
      .next (runItems chip s.owner (dispatchFrame chip f s).rest true true (dispatchFrame chip f s).state) := by
  rw [exec_whole (.dispatch f) s _ rfl]
  exact whole_next _ chip s _ hb (congrArg _ (if_pos hp))

/-- The arrival of a valid frame that the engine is ready for, run whole. -/
theorem arrival_ready (f : List Byte) (s : State) (hr : Ready chip s) (hv : verdict f = .frame) :
    ∃ (m : Memory) (sh : BitVec 9), HoldsFrame chip f s.frxBuf m ∧
      (f.length ≤ chip.rxCap → ∃ t, exec (.dispatch f) (s.afterBytes f m sh) = .next t ∧
        (openArrival chip f s).whole chip s =
          .next (if s.busMode = .busMaster then { t with txaCur := none, txaPhase := .idle } else t)) ∧
      (chip.rxCap < f.length → (openArrival chip f s).whole chip s = .next { s.afterBytes f m sh with
        err := { s.err with bufferTooSmall := true }
        out := s.out ++ [.log .bufferTooSmall (.sizes f.length chip.rxCap)] }) := by
  obtain ⟨m, sh, hholds, hfits, htooLong⟩ := openArrival_ready f s hr hv
  refine ⟨m, sh, hholds, fun hfit => ⟨_, exec_dispatch_parsed f (s.afterBytes f m sh) hr.parses hr.free, ?_⟩,
    fun hlong => whole_next _ chip s _ hr.free (htooLong hlong)⟩
  rw [whole_next _ chip s _ hr.free (hfits hfit)]
  exact congrArg _ (runItems_afterFrame f (s.afterBytes f m sh) hr.mode)

/-- Settles O39: a wire command the engine does not build is the arrival of its frame (`exec_arrival`), which is only
heard where the engine does not parse and is received where the engine is ready for it (`arrival_ready`). -/
theorem wireCommandsReceived : Obligations.WireCommandsReceived := by
  refine ⟨exec_dispatch_unparsed, fun i hd code args s hw hb => ?_⟩
  simp only [exec_arrival i hd code args s hw hb]
  refine ⟨fun hp hidle hq => ?_, fun hp hq => ?_, fun hr hi => ?_⟩
  · obtain ⟨sh, e⟩ := hearPeer_frame chip (commandFrame hd code args) s hidle hq
    exact ⟨sh, (openArrival_unparsed chip _ s hp).trans (congrArg _ e)⟩
  · exact (openArrival_unparsed chip _ s hp).trans
      (congrArg _ (hearPeer_frame_sending chip _ s (List.cons_ne_nil _ _) hq))
  · obtain ⟨m, sh, ⟨hstored, hunchanged⟩, hfits, htooLong⟩ :=
      arrival_ready _ s hr (verdict_of_wireParts i hd code args hi hw)
    exact ⟨m, sh, hstored, hunchanged, hfits, htooLong⟩

end Sys2Proof.Machine
end

section
/-! What each kind of step writes, said once for the invariants of 10_state.md: the parts of the state that belong to the
arbiter and to TXA, one step of an agent inside an operation, one indivisible instruction, one dispatched frame. -/
namespace Sys2Proof.Machine

/-! ### The arbiter's and TXA's parts of the state -/

/-- The registers that the arbiter's handlers and the settings store write (10_state.md R31 to R42), and the terminal
flag (R46). -/
structure ArbView where
  arbState        : ArbState
  busMode         : BusMode
  lstActive       : Bool
  txaSuspended    : Bool
  set             : Settings
  presence        : Presence
  pingOutstanding : Bool
  terminal        : Bool

def State.arbView (s : State) : ArbView where
  arbState        := s.arbState
  busMode         := s.busMode
  lstActive       := s.lstActive
  txaSuspended    := s.txaSuspended
  set             := s.set
  presence        := s.presence
  pingOutstanding := s.pingOutstanding
  terminal        := s.err.presenceFailureTerminal

/-- The queue, TXA's registers but for its echo flag, and the level it drives (R23, R27, R30). -/
structure SendView where
  q        : List QueuedFrame
  txaBatch : List QueuedFrame
  txaCur   : Option QueuedFrame
  txaPhase : TxaPhase
  txaIdx   : Nat
  txaEidx  : Nat
  lineOut  : Level

def State.sendView (s : State) : SendView where
  q        := s.q
  txaBatch := s.txaBatch
  txaCur   := s.txaCur
  txaPhase := s.txaPhase
  txaIdx   := s.txaIdx
  txaEidx  := s.txaEidx
  lineOut  := s.lineOut

theorem arbView_arbState {s u : State} (h : u.arbView = s.arbView) : u.arbState = s.arbState := congrArg ArbView.arbState h

/-! ### Every error but the terminal one -/

theorem mark_terminal (f : ErrFlags) (e : Err) (h : e ≠ .presenceFailureTerminal) :
    (f.mark e).presenceFailureTerminal = f.presenceFailureTerminal := by
  cases e
  case presenceFailureTerminal => exact absurd rfl h
  all_goals rfl

theorem raise_arbView (s : State) (e : Err) (i : Info) (h : e ≠ .presenceFailureTerminal) :
    (s.raise e i).arbView = s.arbView := by
  simp only [State.arbView, raise_err, mark_terminal s.err e h]
  rfl

/-! ### Hearing and receiving -/

theorem hearPeer_terminal (c : Config) (cells : List Level) (s : State) :
    (hearPeer c cells s).err.presenceFailureTerminal = s.err.presenceFailureTerminal :=
  hearPeer_keeps (fun u => u.err.presenceFailureTerminal = s.err.presenceFailureTerminal) c (fun _ _ _ _ h => h)
    (fun _ _ h => h) (fun u ch h => by unfold pushChar; split <;> exact h) cells s rfl

theorem stepFrx_terminal {c : Config} {b : Byte} {m : Level} {s t : State} (h : stepFrx c b m s = .next t) :
    t.err.presenceFailureTerminal = s.err.presenceFailureTerminal := by
  rcases stepFrx_next c b m s t h with ⟨_, _, rfl⟩ | ⟨_, _, rfl⟩ | ⟨_, _, _, rfl⟩ | ⟨_, _, _, rfl⟩ | ⟨_, _, _, _, rfl⟩ |
    ⟨_, _, _, _, rfl⟩ | ⟨_, _, _, rfl⟩ | ⟨_, _, _, rfl⟩ <;> rfl

theorem SameBeyondLine.arbView {s u : State} (h : SameBeyondLine s u)
    (ht : u.err.presenceFailureTerminal = s.err.presenceFailureTerminal) : u.arbView = s.arbView := by
  simp only [State.arbView, h.arbState, h.busMode, h.lstActive, h.txaSuspended, h.set, h.presence, h.pingOutstanding, ht]

theorem SameBeyondLine.sendView {s u : State} (h : SameBeyondLine s u) : u.sendView = s.sendView := by
  simp only [State.sendView, h.q, h.txaBatch, h.txaCur, h.txaPhase, h.txaIdx, h.txaEidx, h.lineOut]

theorem Heard.arbView {s u : State} (h : Heard s u) : u.arbView = s.arbView :=
  h.same.arbView (h.keeps (fun u => u.err.presenceFailureTerminal = s.err.presenceFailureTerminal)
    (fun u l hu => (hearPeer_terminal chip l u).trans hu)
    (fun _ _ _ _ _ hst hu => (stepFrx_terminal hst).trans hu) rfl)

/-! ### One step of an agent inside an operation -/

/-- Everything one step of an agent can do with the items it has left (43_transmit_queue.md R201 to R206; log 2): the
state and the task after it. `last` and `all` say whether its last `enqueue` and all of them returned Ok. -/
inductive Stepped (c : Config) (a : Agent) (s : State) (last all : Bool) : List Item → State → Task → Prop
  | noItem : Stepped c a s last all [] s ⟨[], last, all⟩
  | built (d : Peer) (src : Source) (w : Bool) (rest : List Item) : Stepped c a s last all (.frame d src w :: rest) s
      ⟨.enq ⟨engineFrame d (src.payload s.set), w⟩ c.enqRetryMax false :: rest, last, all⟩
  | queued (f : QueuedFrame) (n : Nat) (rest : List Item) (h : s.q.length < c.qDepth) :
      Stepped c a s last all (.enq f n true :: rest) { s with q := s.q ++ [f], lock := .free } ⟨rest, true, all⟩
  | full (f : QueuedFrame) (n : Nat) (rest : List Item) : Stepped c a s last all (.enq f n true :: rest)
      { s with lock := .free } ⟨.enq f (n - 1) false :: rest, last, all⟩
  | gaveUp (f : QueuedFrame) (rest : List Item) : Stepped c a s last all (.enq f 0 false :: rest)
      (s.raise .queueFull (.bytes f.bytes)) ⟨rest, false, false⟩
  | locked (f : QueuedFrame) (n : Nat) (rest : List Item) (h : s.lock = .free) :
      Stepped c a s last all (.enq f (n + 1) false :: rest) { s with lock := .held a }
        ⟨.enq f (n + 1) true :: rest, last, all⟩
  | missed (f : QueuedFrame) (n : Nat) (rest : List Item) : Stepped c a s last all (.enq f (n + 1) false :: rest) s
      ⟨.enq f n false :: rest, last, all⟩
  | drained (d : DrainTo) (n : Nat) (rest : List Item) : Stepped c a s last all (.drain d n true :: rest)
      (deliver d s.q { s with q := [], lock := .free }) ⟨rest, last, all⟩
  | drainGaveUp (d : DrainTo) (rest : List Item) : Stepped c a s last all (.drain d 0 false :: rest) (deliver d [] s)
      ⟨rest, last, all⟩
  | drainLocked (d : DrainTo) (n : Nat) (rest : List Item) (h : s.lock = .free) :
      Stepped c a s last all (.drain d (n + 1) false :: rest) { s with lock := .held a }
        ⟨.drain d (n + 1) true :: rest, last, all⟩
  | drainMissed (d : DrainTo) (n : Nat) (rest : List Item) : Stepped c a s last all (.drain d (n + 1) false :: rest) s
      ⟨.drain d n false :: rest, last, all⟩
  | pinged (rest : List Item) : Stepped c a s last all (.markPing :: rest) (if last then openWindow s else s)
      ⟨rest, last, all⟩
  | booted (rest : List Item) : Stepped c a s last all (.enterSteady :: rest) { s with arbState := .steadyPolling }
      ⟨rest, last, all⟩
  | detached (rest : List Item) : Stepped c a s last all (.finishDetach :: rest) (detachFinal s) ⟨rest, last, all⟩
  | answered (rest : List Item) : Stepped c a s last all (.ret :: rest)
      (s.giveReturn (some a) (.result (hostResult all))) ⟨rest, last, all⟩

theorem itemStep_stepped (c : Config) (a : Agent) (t : Task) (s : State) :
    Stepped c a s t.lastOk t.allOk t.items (itemStep c a t s).1 (itemStep c a t s).2 := by
  obtain ⟨items, last, all⟩ := t
  match items with
  | [] => exact .noItem
  | .frame d src w :: rest => exact .built d src w rest
  | .enq f n true :: rest =>
    simp only [itemStep]
    split
    · next h => exact .queued f n rest ((hasRoom_iff _ _).mp h)
    · exact .full f n rest
  | .enq f 0 false :: rest => exact .gaveUp f rest
  | .enq f (n + 1) false :: rest =>
    simp only [itemStep, takeLock_eq]
    by_cases h : s.lock = .free
    · simp only [h, if_true]; exact .locked f n rest h
    · simp only [h, if_false]; exact .missed f n rest
  | .drain d n true :: rest => exact .drained d n rest
  | .drain d 0 false :: rest => exact .drainGaveUp d rest
  | .drain d (n + 1) false :: rest =>
    simp only [itemStep, takeLock_eq]
    by_cases h : s.lock = .free
    · simp only [h, if_true]; exact .drainLocked d n rest h
    · simp only [h, if_false]; exact .drainMissed d n rest
  | .markPing :: rest => exact .pinged rest
  | .enterSteady :: rest => exact .booted rest
  | .finishDetach :: rest => exact .detached rest
  | .ret :: rest => exact .answered rest

/-- A step of an agent: it has no task and waits, or takes one step of its task. -/
theorem agentStep_cases (c : Config) (a : Agent) (s : State) : agentStep c a s = s ∨ ∃ t u t', (a, t) ∈ s.tasks ∧
    Stepped c a s t.lastOk t.allOk t.items u t' ∧ agentStep c a s = u.setTask a t' := by
  unfold agentStep
  split
  · exact .inl rfl
  · next t ht => exact .inr ⟨t, _, _, taskOf_mem ht, itemStep_stepped c a t s, rfl⟩

/-- A step of an agent writes the arbiter's registers only in the last line of a ping, at the end of boot completion and
in the final step of the detach transition. -/
theorem Stepped.arbView {c : Config} {a : Agent} {s u : State} {last all : Bool} {l : List Item} {t : Task}
    (h : Stepped c a s last all l u t) : u.arbView = s.arbView ∨ (∃ rest, l = .markPing :: rest ∧ u = openWindow s) ∨
      (∃ rest, l = .enterSteady :: rest ∧ u = { s with arbState := .steadyPolling }) ∨
      (∃ rest, l = .finishDetach :: rest ∧ u = detachFinal s) := by
  cases h with
  | gaveUp f rest => exact .inl (raise_arbView s _ _ (by decide))
  | drained d n rest | drainGaveUp d rest => cases d <;> exact .inl rfl
  | pinged rest =>
    cases last
    · exact .inl rfl
    · exact .inr (.inl ⟨rest, rfl, rfl⟩)
  | booted rest => exact .inr (.inr (.inl ⟨rest, rfl, rfl⟩))
  | detached rest => exact .inr (.inr (.inr ⟨rest, rfl, rfl⟩))
  | noItem | built | queued | full | locked | missed | drainLocked | drainMissed | answered => exact .inl rfl

/-- No step of an agent touches the tasks itself. -/
theorem Stepped.tasks {c : Config} {a : Agent} {s u : State} {last all : Bool} {l : List Item} {t : Task}
    (h : Stepped c a s last all l u t) : u.tasks = s.tasks := by
  cases h with
  | drained d n rest | drainGaveUp d rest => cases d <;> rfl
  | pinged rest =>
    cases last
    · rfl
    · simp only [if_true, openWindow]; split <;> rfl
  | detached => rw [detachFinal_eq]
  | noItem | built | queued | full | gaveUp | locked | missed | drainLocked | drainMissed | booted | answered => rfl

/-! ### One indivisible instruction -/

/-- Everything `TXA.start` can do (R225). -/
theorem txaStart_cases (s : State) : txaStart s = s ∨ ∃ e rest, s.txaPhase = .idle ∧ s.txaSuspended = false ∧
    s.txaBatch = e :: rest ∧ txaStart s = { s with
      txaBatch := rest, txaCur := some e, rxf := [], frxCount := 0, frxState := .awaitingAddress
      txaIdx := 0, txaEidx := 0, txaEchoBad := false, txaPhase := .sending } := by
  unfold txaStart
  split
  · next h =>
    split
    · exact .inl rfl
    · next e rest hb => exact .inr ⟨e, rest, h.1, h.2, hb, rfl⟩
  · exact .inl rfl

/-- The state after one character of the echo is popped and compared (R227). -/
def echoPopped (cur : QueuedFrame) (ch : Character) (rest : List Character) (s : State) : State :=
  { s with rxf := rest, txaEidx := s.txaEidx + 1,
           txaEchoBad := s.txaEchoBad || cur.bytes[s.txaEidx]? != some ch.byte }

/-- Everything `TXA.echo_char` can do (R227, R229). -/
theorem txaEchoChar_cases (s : State) : txaEchoChar s = s ∨ ∃ cur ch rest, s.txaEidx < s.txaIdx ∧
    s.txaCur = some cur ∧ s.rxf = ch :: rest ∧ (txaEchoChar s = echoPopped cur ch rest s ∨
      (s.txaPhase = .echo ∧ txaEchoChar s = echoDone cur (echoPopped cur ch rest s))) := by
  unfold txaEchoChar
  split
  · next h =>
    split
    · next cur ch rest hc hr =>
      refine .inr ⟨cur, ch, rest, h.2.1, hc, hr, ?_⟩
      simp only
      split
      · next hd => exact .inr ⟨hd.1, rfl⟩
      · exact .inl rfl
    · exact .inl rfl
  · exact .inl rfl

/-- Everything `TXA.echo_timeout` can do (R228). -/
theorem txaEchoTimeout_cases (s : State) : txaEchoTimeout s = s ∨ ∃ cur, s.txaPhase = .echo ∧ s.txaCur = some cur ∧
    txaEchoTimeout s = echoDone cur { s with txaEchoBad := true } := by
  unfold txaEchoTimeout
  split
  · next h =>
    split
    · next cur hc => exact .inr ⟨cur, h.1, hc, rfl⟩
    · exact .inl rfl
  · exact .inl rfl

/-- Everything `TXA.resp_timeout` can do (R234). -/
theorem txaRespTimeout_cases (s : State) : txaRespTimeout s = s ∨
    (s.txaPhase = .awaitResponse ∧ txaRespTimeout s = finishEntry s.resetFrx) := by
  unfold txaRespTimeout
  split
  · next h => exact .inr ⟨h, rfl⟩
  · exact .inl rfl

/-- Everything an indivisible step of TXA can do (44_transmit_agent.md R225 to R230, R234). -/
inductive TxaStep (s : State) : State → Prop
  | started (e : QueuedFrame) (rest : List QueuedFrame) (hphase : s.txaPhase = .idle) (hbatch : s.txaBatch = e :: rest) :
      TxaStep s { s with
        txaBatch := rest, txaCur := some e, rxf := [], frxCount := 0, frxState := .awaitingAddress
        txaIdx := 0, txaEidx := 0, txaEchoBad := false, txaPhase := .sending }
  | sent (contended : Bool) (cur : QueuedFrame) (b : Byte) (hphase : s.txaPhase = .sending) (hcur : s.txaCur = some cur)
      (hb : cur.bytes[s.txaIdx]? = some b) :
      TxaStep s { hearOwn chip contended ⟨b, s.txaIdx == 0⟩
          { s with lineOut := true, waveform := s.waveform ++ charCells b (s.txaIdx == 0) } with
        txaIdx := s.txaIdx + 1
        txaPhase := if s.txaIdx + 1 = cur.bytes.length then .echo else .sending }
  | echoed (cur : QueuedFrame) (ch : Character) (rest : List Character) (hidx : s.txaEidx < s.txaIdx)
      (hcur : s.txaCur = some cur) (hrxf : s.rxf = ch :: rest) : TxaStep s (echoPopped cur ch rest s)
  | echoEnded (cur : QueuedFrame) (ch : Character) (rest : List Character) (hphase : s.txaPhase = .echo)
      (hidx : s.txaEidx < s.txaIdx) (hcur : s.txaCur = some cur) (hrxf : s.rxf = ch :: rest) :
      TxaStep s (echoDone cur (echoPopped cur ch rest s))
  | echoTimedOut (cur : QueuedFrame) (hphase : s.txaPhase = .echo) (hcur : s.txaCur = some cur) :
      TxaStep s (echoDone cur { s with txaEchoBad := true })
  | respTimedOut (hphase : s.txaPhase = .awaitResponse) : TxaStep s (finishEntry s.resetFrx)

/-- Everything an instruction that is one indivisible step can do when it answers a next state. -/
inductive Atomic (s : State) : State → Prop
  | waits : Atomic s s
  | returns (who : Option Agent) (v : Value) : Atomic s (s.giveReturn who v)
  | rejects (e : Err) (i : Info) (he : e ≠ .presenceFailureTerminal) (who : Option Agent) (v : Value) :
      Atomic s ((s.raise e i).giveReturn who v)
  | decodes (faults : List Nat) (n : Nat) (who : Option Agent) (v : Value) :
      Atomic s ((raiseFaults faults { s with draws := n }).giveReturn who v)
  | pushes (ch : Character) : Atomic s (pushChar chip s ch)
  | receives (b : Byte) (m : Level) (t : State) (h : stepFrx chip b m s = .next t) : Atomic s t
  | takes (who : Option Agent) (v : Value) : Atomic s (s.resetFrx.giveReturn who v)
  | resets : Atomic s s.resetFrx
  | locks (a : Agent) (h : s.lock = .free) (who : Option Agent) (v : Value) :
      Atomic s (({ s with lock := .held a } : State).giveReturn who v)
  | unlocks (a : Agent) (hb : s.busy a = false) (h : s.lock = .held a) : Atomic s { s with lock := .free }
  | txa (t : State) (hb : s.busy .txa = false) (h : TxaStep s t) : Atomic s t

theorem atomic_txaStep {f : State → State} {s t : State} (hf : f s = s ∨ TxaStep s (f s)) (h : txaStep f s = .next t) :
    Atomic s t := by
  rcases txaStep_next h with rfl | ⟨hb, rfl⟩
  · exact .waits
  · rcases hf with e | hf
    · rw [e]; exact .waits
    · exact .txa _ hb hf

theorem txaStart_step (s : State) : txaStart s = s ∨ TxaStep s (txaStart s) := by
  refine (txaStart_cases s).imp id ?_
  rintro ⟨e, rest, hphase, -, hbatch, h⟩
  exact h ▸ .started e rest hphase hbatch

theorem txaSendChar_step (contended : Bool) (s : State) :
    txaSendChar chip contended s = s ∨ TxaStep s (txaSendChar chip contended s) := by
  refine (txaSendChar_cases chip contended s).imp id ?_
  rintro ⟨cur, b, hphase, hcur, hb, h⟩
  exact h ▸ .sent contended cur b hphase hcur hb

theorem txaEchoChar_step (s : State) : txaEchoChar s = s ∨ TxaStep s (txaEchoChar s) := by
  refine (txaEchoChar_cases s).imp id ?_
  rintro ⟨cur, ch, rest, hidx, hcur, hrxf, h | ⟨hphase, h⟩⟩
  · exact h ▸ .echoed cur ch rest hidx hcur hrxf
  · exact h ▸ .echoEnded cur ch rest hphase hidx hcur hrxf

theorem txaEchoTimeout_step (s : State) : txaEchoTimeout s = s ∨ TxaStep s (txaEchoTimeout s) := by
  refine (txaEchoTimeout_cases s).imp id ?_
  rintro ⟨cur, hphase, hcur, h⟩
  exact h ▸ .echoTimedOut cur hphase hcur

theorem txaRespTimeout_step (s : State) : txaRespTimeout s = s ∨ TxaStep s (txaRespTimeout s) := by
  refine (txaRespTimeout_cases s).imp id ?_
  rintro ⟨hphase, h⟩
  exact h ▸ .respTimedOut hphase

/-- The instructions that are one indivisible step. -/
theorem exec_atomic {i : Instr} {s t : State} (hi : openingOf i s = none) (h : exec i s = .next t) : Atomic s t := by
  cases i
  case readStatus | sum8 | bitTicks | encodeChar | encodeFrameCells | encodeFrame =>
    obtain rfl := Host.Outcome.next.inj h
    exact .returns _ _
  case build rx tx p =>
    simp only [exec, execBuild] at h
    split at h
    · obtain rfl := Host.Outcome.next.inj h
      exact .returns _ _
    · obtain rfl := Host.Outcome.next.inj h
      exact .rejects _ _ (by decide) _ _
  case validate bytes =>
    obtain rfl := Host.Outcome.next.inj h
    unfold raiseVerdict
    split
    · exact .returns _ _
    · exact .rejects _ _ (by decide) _ _
    · exact .rejects _ _ (by decide) _ _
  case decodeCells cells =>
    obtain rfl := Host.Outcome.next.inj h
    exact .decodes _ _ _ _
  case decPush ch =>
    obtain rfl := Host.Outcome.next.inj h
    exact .pushes ch
  case frxStep b m => exact .receives b m t h
  case frxTake =>
    simp only [exec, execFrxTake] at h
    split at h
    · obtain rfl := Host.Outcome.next.inj h
      exact .takes _ _
    · cases h
  case frxReset =>
    obtain rfl := Host.Outcome.next.inj h
    exact .resets
  case tryLock a =>
    simp only [exec, execTryLock, takeLock_eq] at h
    split at h
    · obtain rfl := Host.Outcome.next.inj h
      exact .waits
    · by_cases hl : s.lock = .free
      · simp only [hl, if_true] at h
        obtain rfl := Host.Outcome.next.inj h
        exact .locks a hl _ _
      · simp only [hl, if_false] at h
        obtain rfl := Host.Outcome.next.inj h
        exact .returns _ _
  case unlock a =>
    simp only [exec, execUnlock] at h
    split at h
    · obtain rfl := Host.Outcome.next.inj h
      exact .waits
    · next hb =>
      split at h
      · next hl =>
        obtain rfl := Host.Outcome.next.inj h
        exact .unlocks a (by simpa using hb) hl
      · cases h
  case txaStart => exact atomic_txaStep (txaStart_step s) h
  case txaSendChar contended => exact atomic_txaStep (txaSendChar_step contended s) h
  case txaEchoChar => exact atomic_txaStep (txaEchoChar_step s) h
  case txaEchoTimeout => exact atomic_txaStep (txaEchoTimeout_step s) h
  case txaRespTimeout => exact atomic_txaStep (txaRespTimeout_step s) h
  all_goals cases hi

end Sys2Proof.Machine
end

section
/-! The arbiter's registers through one step (O52, O54, O55, O58): what a step can do to them, said once as `ArbStep`,
and the four invariants over it (10_state.md R31 to R42, R46, R50; 45_bus_arbiter.md R250 to R267). -/
namespace Sys2Proof.Machine

/-! ### What a step can do to the arbiter's registers -/

/-- Everything a step can do to the arbiter's registers, when the agent that takes it has the items `l` left: a setting
is written, a peer's presence confirmed (R264), the attach transition (R262), a failed ping counted (R255), the shutdown
(R256), the last line of a ping (R254), the end of boot completion (R260), the final step of the detach (R266). -/
inductive ArbStep (l : List Item) (v : ArbView) : ArbView → Prop
  | kept : ArbStep l v v
  | setting (w : StoreWrite) (hw : w.legal chip.memBanks = true) : ArbStep l v { v with set := v.set.store w }
  | confirmed (p : Peer) (h : v.arbState ≠ .shuttingDown) : ArbStep l v { v with
      presence := v.presence.put ⟨true, 0⟩ p
      pingOutstanding := if p = .dsp then false else v.pingOutstanding }
  | attached (h : v.arbState = .steadyPolling) : ArbStep l v { v with
      presence := v.presence.put ⟨true, 0⟩ .usb
      set := { v.set with usbConnected := true }
      busMode := .usbPassthrough, arbState := .usbPassthrough, pingOutstanding := false
      txaSuspended := true, lstActive := true }
  | failed (h : v.arbState = .steadyPolling) (hf : v.presence.dsp.fails + 1 ≠ pingFailMax) : ArbStep l v { v with
      pingOutstanding := false
      presence := { v.presence with dsp := ⟨false, v.presence.dsp.fails + 1⟩ } }
  | shutDown (h : v.arbState = .steadyPolling) (hf : v.presence.dsp.fails + 1 = pingFailMax) : ArbStep l v { v with
      pingOutstanding := false
      presence := { v.presence with dsp := ⟨false, v.presence.dsp.fails + 1⟩ }
      arbState := .shuttingDown, terminal := true }
  | pinged (h : v.arbState ≠ .shuttingDown) : ArbStep l v { v with pingOutstanding := true }
  | booted (h : Item.enterSteady ∈ l) : ArbStep l v { v with arbState := .steadyPolling }
  | detached (h : Item.finishDetach ∈ l) : ArbStep l v { v with
      set := { v.set with usbConnected := false }
      presence := { v.presence with usb := { v.presence.usb with present := false } }
      busMode := .busMaster, arbState := .steadyPolling, lstActive := false, txaSuspended := false }

theorem presenceConfirm_arbStep (p : Peer) (s : State) : ArbStep [] s.arbView (presenceConfirm p s).arbView := by
  rw [presenceConfirm_eq]
  split
  · exact .kept
  · next h => exact .confirmed p h

theorem Dispatched.arbStep {s u : State} {l : List Item} (h : Dispatched s u l) : ArbStep [] s.arbView u.arbView := by
  cases h with
  | ignored | message | detach => exact .kept
  | error e i he => rw [raise_arbView s e i he]; exact .kept
  | setting w n hw => exact .setting w hw
  | confirm p => exact presenceConfirm_arbStep p s
  | attach ha =>
    rw [attach_eq s (by rw [ha]; decide)]
    exact .attached ha

theorem countFailure_fails (s : State) : (countFailure s).presence.dsp.fails = s.presence.dsp.fails + 1 := by
  rw [countFailure_eq]

/-- What the first step of an operation does to the arbiter's registers. -/
theorem First.arbStep {s u : State} {d : Prop} {a : Agent} {l : List Item} (h : First s d a u l) :
    ArbStep [] s.arbView u.arbView := by
  cases h with
  | received _ _ h => exact h.arbStep
  | hostRejected n e i r he =>
    have hv : ((s.raise e i).giveReturn (some (.host n)) (.result r)).arbView = s.arbView := raise_arbView s e i he
    rw [hv]
    exact .kept
  | failure l hl h1 h2 =>
    rw [countFailure_fails] at h2
    rw [countFailure_eq]
    exact .failed h1 h2
  | shutdown l hl h1 h2 =>
    rw [countFailure_fails] at h2
    rw [countFailure_eq]
    exact .shutDown h1 h2
  | hears _ _ h =>
    rw [h.arbView]
    exact .kept
  | respFrame v w _ _ h1 h2 h3 h4 h5 =>
    have hv : v.resetFrx.arbView = s.arbView := h3.arbView
    have hw : u.arbView = w.arbView := h5.arbView
    rw [hw, ← hv]
    exact h4.arbStep
  | lstFrame v w _ _ h1 h3 h4 h5 =>
    have hv : v.resetFrx.arbView = s.arbView := h3.arbView
    rw [h5.arbView, ← hv]
    exact h4.arbStep
  | nothing | hostSends | enqueue | drainCaller | drainBatch | sends | pings | boot => exact .kept

/-- What one step of an agent inside an operation does to them. -/
theorem Stepped.arbStep {c : Config} {a : Agent} {s u : State} {last all : Bool} {l : List Item} {t : Task}
    (h : Stepped c a s last all l u t) : ArbStep l s.arbView u.arbView := by
  rcases h.arbView with e | ⟨rest, rfl, rfl⟩ | ⟨rest, rfl, rfl⟩ | ⟨rest, rfl, rfl⟩
  · rw [e]; exact .kept
  · unfold openWindow
    split
    · exact .kept
    · next hn => exact .pinged hn
  · exact .booted List.mem_cons_self
  · rw [detachFinal_eq]
    exact .detached List.mem_cons_self

theorem raiseFaults_arbView (faults : List Nat) (s : State) : (raiseFaults faults s).arbView = s.arbView := by
  refine (raiseFaults_same faults s).arbView ?_
  rw [raiseFaults_eq]
  split <;> rfl

theorem pushChar_arbView (c : Config) (s : State) (ch : Character) : (pushChar c s ch).arbView = s.arbView := by
  unfold pushChar
  split
  · rfl
  · exact raise_arbView s _ _ (by decide)

theorem hearOwn_arbView (c : Config) (contended : Bool) (ch : Character) (s : State) :
    (hearOwn c contended ch s).arbView = s.arbView :=
  hearOwn_keeps (fun u => u.arbView = s.arbView) c (fun _ _ _ _ h => h)
    (fun u _ h => (raise_arbView u .lineFramingFault .nothing (by decide)).trans h)
    (fun u ch h => (pushChar_arbView c u ch).trans h) contended ch s rfl

theorem echoDone_arbView (cur : QueuedFrame) (s : State) : (echoDone cur s).arbView = s.arbView := by
  rw [echoDone_eq]
  cases s.txaEchoBad <;> rfl

theorem TxaStep.arbView {s t : State} (h : TxaStep s t) : t.arbView = s.arbView := by
  cases h with
  | sent contended cur b => exact hearOwn_arbView chip contended _ _
  | echoEnded cur ch rest => exact echoDone_arbView cur _
  | echoTimedOut cur => exact echoDone_arbView cur _
  | started | echoed | respTimedOut => rfl

/-- No indivisible instruction writes the arbiter's registers. -/
theorem Atomic.arbView {s t : State} (h : Atomic s t) : t.arbView = s.arbView := by
  cases h with
  | rejects e i he => exact raise_arbView s e i he
  | decodes faults n => exact raiseFaults_arbView faults _
  | pushes ch => exact pushChar_arbView chip s ch
  | receives b m t hs => exact (stepFrx_same chip b m s t hs).arbView (stepFrx_terminal hs)
  | txa t hb hs => exact hs.arbView
  | waits | returns | takes | resets | locks | unlocks => rfl

/-! ### The tasks of the agents -/

theorem setTask_arbView (s : State) (a : Agent) (t : Task) : (s.setTask a t).arbView = s.arbView := by
  rw [setTask_fields]; rfl

theorem TxaStep.tasks {s t : State} (h : TxaStep s t) : t.tasks = s.tasks := by
  cases h with
  | sent contended cur b => exact (hearOwn_same chip contended _ _).tasks
  | echoEnded cur ch rest => rw [echoDone_eq]; rfl
  | echoTimedOut cur => rw [echoDone_eq]
  | started | echoed | respTimedOut => rfl

/-- An indivisible instruction leaves every task as it is. -/
theorem Atomic.tasks {s t : State} (h : Atomic s t) : t.tasks = s.tasks := by
  cases h with
  | decodes faults n => exact (raiseFaults_same faults _).tasks
  | pushes ch => exact (pushChar_same chip s ch).tasks
  | receives b m t hs => exact (stepFrx_same chip b m s t hs).tasks
  | txa t hb hs => exact hs.tasks
  | waits | returns | rejects | takes | resets | locks | unlocks => rfl

theorem Dispatched.tasks {s u : State} {l : List Item} (h : Dispatched s u l) : u.tasks = s.tasks := by
  cases h with
  | confirm p => exact presenceConfirm_tasks p s
  | attach ha => rw [attach_eq s (by rw [ha]; decide)]
  | ignored | message | error | setting | detach => rfl

/-- The first step of an operation leaves every task as it is. -/
theorem First.tasks {s u : State} {d : Prop} {a : Agent} {l : List Item} (h : First s d a u l) : u.tasks = s.tasks := by
  cases h with
  | received _ _ h => exact h.tasks
  | failure => rw [countFailure_eq]
  | shutdown => rw [shutdown_tasks, countFailure_eq]
  | hears _ _ h => exact h.same.tasks
  | respFrame v w _ _ h1 h2 h3 h4 h5 => exact h5.same.tasks.trans (h4.tasks.trans h3.same.tasks)
  | lstFrame v w _ _ h1 h3 h4 h5 => exact h5.same.tasks.trans (h4.tasks.trans h3.same.tasks)
  | nothing | hostRejected | hostSends | enqueue | drainCaller | drainBatch | sends | pings | boot => rfl

/-- An item that goes on as another one: a frame is built with the settings `st` and then enqueued, an enqueue or a drain
tries again or holds the lock (R203, R206). -/
inductive Item.Continues (st : Settings) : Item → Item → Prop
  | build (d : Peer) (src : Source) (w : Bool) (n : Nat) :
      Continues st (.frame d src w) (.enq ⟨engineFrame d (src.payload st), w⟩ n false)
  | enqueue (f : QueuedFrame) (n m : Nat) (h k : Bool) : Continues st (.enq f n h) (.enq f m k)
  | drain (d : DrainTo) (n m : Nat) (h k : Bool) : Continues st (.drain d n h) (.drain d m k)

/-- What a step of an agent leaves of its items: the first one is done with, or goes on. -/
theorem Stepped.items {c : Config} {a : Agent} {s u : State} {last all : Bool} {l : List Item} {t : Task}
    (h : Stepped c a s last all l u t) : (l = [] ∧ t.items = []) ∨ ∃ x rest, l = x :: rest ∧
      (t.items = rest ∨ ∃ y, t.items = y :: rest ∧ x.Continues s.set y) := by
  cases h with
  | noItem => exact .inl ⟨rfl, rfl⟩
  | built => exact .inr ⟨_, _, rfl, .inr ⟨_, rfl, .build ..⟩⟩
  | full | locked | missed => exact .inr ⟨_, _, rfl, .inr ⟨_, rfl, .enqueue ..⟩⟩
  | drainLocked | drainMissed => exact .inr ⟨_, _, rfl, .inr ⟨_, rfl, .drain ..⟩⟩
  | queued | gaveUp | drained | drainGaveUp | pinged | booted | detached | answered =>
    exact .inr ⟨_, _, rfl, .inl rfl⟩

theorem Item.Continues.writesMode {st : Settings} {x y : Item} (h : x.Continues st y) : y.writesMode = false := by
  cases h <;> rfl

theorem Item.Continues.isDrain {st : Settings} {x y : Item} (h : x.Continues st y) : y.isDrain = x.isDrain := by
  cases h <;> rfl

/-! ### What a step keeps, from what its parts keep -/

/-- What the parts of a step keep, every step keeps; the items that a first step leaves meet `T` and become the task of its
agent. -/
theorem step_keeps_task (P : State → Prop) (T : State → Agent → List Item → Prop)
    (script : ∀ s x, P s → P { s with script := x })
    (heard : ∀ s u, P s → Heard s u → P u)
    (store : ∀ s w, P s → w.legal chip.memBanks = true → P { s with set := s.set.store w })
    (stepped : ∀ s a t u t', P s → (a, t) ∈ s.tasks → Stepped chip a s t.lastOk t.allOk t.items u t' →
      P (u.setTask a t'))
    (first : ∀ s a u l, P s → s.busy a = false → First s True a u l → P u ∧ T u a l)
    (put : ∀ u a l, P u → T u a l → P (u.setTask a ⟨l, true, true⟩))
    (atomic : ∀ s t, P s → Atomic s t → P t)
    (s t : State) (hP : P s) (h : step s = .next t) : P t :=
  step_keeps_first P script heard store
    (fun v a hv => by
      rcases agentStep_cases chip a v with e | ⟨x, u, x', hx, hst, e⟩ <;> rw [e]
      · exact hv
      · exact stepped v a x u x' hv hx hst)
    (fun v a u hv hb hf => (first v a u [] hv hb hf).1)
    (fun v a u l hv hb hf _ => have ⟨hu, ht⟩ := first v a u l hv hb hf; put u a l hu ht)
    (fun v _ w hv _ hi he => atomic v w hv (exec_atomic hi he)) s t hP h

/-- A property of the arbiter's registers that every `ArbStep` keeps is kept by every step. -/
theorem step_keeps_arbView (P : ArbView → Prop) (step_keeps : ∀ l v w, ArbStep l v w → P v → P w)
    (s t : State) (hP : P s.arbView) (h : step s = .next t) : P t.arbView := by
  refine step_keeps_task (fun s => P s.arbView) (fun _ _ _ => True) (fun _ _ h => h) ?_ ?_ ?_ ?_ ?_ ?_ s t hP h
  · intro s u hs hu
    rw [hu.arbView]; exact hs
  · intro s w hs hw
    exact step_keeps [] _ _ (.setting w hw) hs
  · intro s a t u t' hs _ hst
    rw [setTask_arbView]
    exact step_keeps _ _ _ hst.arbStep hs
  · intro s a u l hs _ hf
    exact ⟨step_keeps [] _ _ hf.arbStep hs, trivial⟩
  · intro u a l hu _
    rw [setTask_arbView]; exact hu
  · intro s t hs ha
    rw [ha.arbView]; exact hs

/-! ### Settings (R37 to R41) -/

theorem Settings.legal_iff (n : Nat) (st : Settings) : st.legal n = true ↔
    st.masterVolume ≤ volMax ∧ st.subVolume ≤ subMax ∧ st.balance ≤ balFadMax ∧ st.fader ≤ balFadMax ∧
    st.memoryBank.toNat < n ∧ st.sourceName.length = srcNameLen := by
  simp only [Settings.legal, Bool.and_eq_true, decide_eq_true_eq, beq_iff_eq, and_assoc]

/-- A legal write keeps legal settings legal. -/
theorem Settings.legal_store {n : Nat} {st : Settings} {w : StoreWrite} (h : st.legal n = true) (hw : w.legal n = true) :
    (st.store w).legal n = true := by
  rw [Settings.legal_iff] at h ⊢
  obtain ⟨hv, hs, hb, hf, hm, hn⟩ := h
  cases w with
  | masterVolume v => exact ⟨of_decide_eq_true hw, hs, hb, hf, hm, hn⟩
  | subVolume v => exact ⟨hv, of_decide_eq_true hw, hb, hf, hm, hn⟩
  | balance v => exact ⟨hv, hs, of_decide_eq_true hw, hf, hm, hn⟩
  | fader v => exact ⟨hv, hs, hb, of_decide_eq_true hw, hm, hn⟩
  | memoryBank v => exact ⟨hv, hs, hb, hf, of_decide_eq_true hw, hn⟩
  | sourceName v => exact ⟨hv, hs, hb, hf, hm, eq_of_beq hw⟩

/-- Settles O58: of what `ArbStep` lists only a legal write touches the registers that `Settings.legal` reads. -/
theorem settingsStayLegal : Obligations.SettingsStayLegal := by
  refine step_keeps_arbView (fun v => v.set.legal chip.memBanks = true) fun l v w h hv => ?_
  cases h with
  | setting w hw => exact Settings.legal_store hv hw
  | kept | confirmed | attached | failed | shutDown | pinged | booted | detached => exact hv

/-! ### Bus mode, control bits and the handlers in progress (R31, R33, R42, R50; R200) -/

/-- The control bits follow the mode, and the mode the arbiter's state. -/
structure ModeBits (v : ArbView) : Prop where
  mode      : v.busMode = .usbPassthrough ↔ v.arbState = .usbPassthrough
  listener  : v.lstActive = true ↔ v.busMode = .usbPassthrough
  suspended : v.txaSuspended = true ↔ v.busMode = .usbPassthrough
  connected : v.set.usbConnected = true ↔ v.busMode = .usbPassthrough

/-- The items an agent has left fit the arbiter's state. -/
structure ItemsFit (st : ArbState) (a : Agent) (l : List Item) : Prop where
  modeLast  : ∀ i ∈ l.dropLast, i.writesMode = false
  detaching : Item.finishDetach ∈ l → a = .lst ∧ st = .usbPassthrough
  txaDrains : a = .txa → ∀ i ∈ l, i.isDrain = true
  booting   : Item.enterSteady ∈ l → a = .arb ∧ st = .booting

theorem modeInv_iff (s : State) :
    ModeInv s ↔ ModeBits s.arbView ∧ ∀ e ∈ s.tasks, ItemsFit s.arbState e.1 e.2.items := by
  constructor
  · rintro ⟨hm, hl, hs, hc, h1, h2, h3, h4⟩
    exact ⟨⟨hm, hl, hs, hc⟩, fun e he => ⟨h1 e he, h2 e he, h3 e he, h4 e he⟩⟩
  · rintro ⟨⟨hm, hl, hs, hc⟩, ht⟩
    exact ⟨hm, hl, hs, hc, fun e he => (ht e he).modeLast, fun e he => (ht e he).detaching,
      fun e he => (ht e he).txaDrains, fun e he => (ht e he).booting⟩

theorem ModeInv.itemsFit {s : State} (h : ModeInv s) {a : Agent} {t : Task} (ht : (a, t) ∈ s.tasks) :
    ItemsFit s.arbState a t.items := ((modeInv_iff s).mp h).2 _ ht

/-- The mode-writing item of a handler belongs to the state it leaves. -/
theorem ArbStep.modeBits {l : List Item} {v w : ArbView} {a : Agent} (h : ArbStep l v w)
    (hl : ItemsFit v.arbState a l) (hv : ModeBits v) : ModeBits w := by
  obtain ⟨hm, hls, hsu, hc⟩ := hv
  cases h with
  | kept | confirmed | failed | pinged => exact ⟨hm, hls, hsu, hc⟩
  | setting x => exact ⟨hm, hls, hsu, by cases x <;> exact hc⟩
  | attached => exact ⟨by simp, by simp, by simp, by simp⟩
  | shutDown h =>
    have hb : v.busMode ≠ .usbPassthrough := by rw [ne_eq, hm, h]; decide
    exact ⟨by simp [hb], hls, hsu, hc⟩
  | booted h =>
    have hb : v.busMode ≠ .usbPassthrough := by rw [ne_eq, hm, (hl.booting h).2]; decide
    exact ⟨by simp [hb], hls, hsu, hc⟩
  | detached => exact ⟨by simp, by simp, by simp, by simp⟩

/-- The edges of the arbiter's state (R250), each with what takes it. -/
theorem ArbStep.arbState {l : List Item} {v w : ArbView} (h : ArbStep l v w) : w.arbState = v.arbState ∨
    v.arbState = .steadyPolling ∨ (Item.enterSteady ∈ l ∧ w.arbState = .steadyPolling) ∨
    (Item.finishDetach ∈ l ∧ w.arbState = .steadyPolling) := by
  cases h with
  | kept | setting | confirmed | failed | pinged => exact .inl rfl
  | attached h | shutDown h => exact .inr (.inl h)
  | booted h => exact .inr (.inr (.inl ⟨h, rfl⟩))
  | detached h => exact .inr (.inr (.inr ⟨h, rfl⟩))

/-- What a step of one agent leaves of the arbiter's state, the items of another agent still fit: only its own agent
writes the mode of the state in which a handler began. -/
theorem ItemsFit.other {l m : List Item} {v w : ArbView} {a b : Agent} (h : ArbStep l v w) (hl : ItemsFit v.arbState a l)
    (hm : ItemsFit v.arbState b m) (hab : b ≠ a) : ItemsFit w.arbState b m := by
  refine ⟨hm.modeLast, fun hi => ?_, hm.txaDrains, fun hi => ?_⟩
  · obtain ⟨rfl, hst⟩ := hm.detaching hi
    refine ⟨rfl, ?_⟩
    rcases h.arbState with e | e | ⟨hx, -⟩ | ⟨hx, -⟩
    · exact e.trans hst
    · rw [hst] at e; cases e
    · rw [(hl.booting hx).2] at hst; cases hst
    · exact absurd (hl.detaching hx).1.symm hab
  · obtain ⟨rfl, hst⟩ := hm.booting hi
    refine ⟨rfl, ?_⟩
    rcases h.arbState with e | e | ⟨hx, -⟩ | ⟨hx, -⟩
    · exact e.trans hst
    · rw [hst] at e; cases e
    · exact absurd (hl.booting hx).1.symm hab
    · rw [(hl.detaching hx).2] at hst; cases hst

/-- No items: a step of no agent inside an operation. -/
theorem ItemsFit.nil (st : ArbState) (a : Agent) : ItemsFit st a [] := ⟨nofun, nofun, fun _ => nofun, nofun⟩

theorem ItemsFit.tail {st : ArbState} {a : Agent} {x : Item} {l : List Item} (h : ItemsFit st a (x :: l)) :
    ItemsFit st a l := by
  refine ⟨fun i hi => h.modeLast i ?_, fun hi => h.detaching (List.mem_cons_of_mem _ hi),
    fun ha i hi => h.txaDrains ha i (List.mem_cons_of_mem _ hi), fun hi => h.booting (List.mem_cons_of_mem _ hi)⟩
  cases l with
  | nil => cases hi
  | cons y l => exact List.mem_cons_of_mem _ hi

/-- An item that goes on may stand for the first one. -/
theorem ItemsFit.continued {st : ArbState} {a : Agent} {x y : Item} {l : List Item} {regs : Settings}
    (h : ItemsFit st a (x :: l)) (hy : x.Continues regs y) : ItemsFit st a (y :: l) := by
  have hw := hy.writesMode
  refine ⟨fun i hi => ?_, fun hi => ?_, fun ha i hi => ?_, fun hi => ?_⟩
  · cases l with
    | nil => cases hi
    | cons z l =>
      rcases List.mem_cons.mp hi with rfl | hi
      · exact hw
      · exact h.modeLast i (List.mem_cons_of_mem _ hi)
  · rcases List.mem_cons.mp hi with rfl | hi
    · cases hw
    · exact h.detaching (List.mem_cons_of_mem _ hi)
  · rcases List.mem_cons.mp hi with rfl | hi
    · rw [hy.isDrain]; exact h.txaDrains ha x List.mem_cons_self
    · exact h.txaDrains ha i (List.mem_cons_of_mem _ hi)
  · rcases List.mem_cons.mp hi with rfl | hi
    · cases hw
    · exact h.booting (List.mem_cons_of_mem _ hi)

/-- An item that writes the mode is the last one of its agent. -/
theorem ItemsFit.last_of_writesMode {st : ArbState} {a : Agent} {x : Item} {l : List Item} (h : ItemsFit st a (x :: l))
    (hx : x.writesMode = true) : l = [] := by
  cases l with
  | nil => rfl
  | cons y l => rw [h.modeLast x List.mem_cons_self] at hx; cases hx

/-- What a step leaves of its own agent's items fits the state it leaves. -/
theorem Stepped.itemsFit {c : Config} {a : Agent} {s u : State} {last all : Bool} {l : List Item} {t : Task}
    (h : Stepped c a s last all l u t) (hl : ItemsFit s.arbState a l) : ItemsFit u.arbState a t.items := by
  have same : u.arbState = s.arbState → ItemsFit u.arbState a t.items := by
    intro e
    rw [e]
    rcases h.items with ⟨-, e⟩ | ⟨x, rest, rfl, e | ⟨y, e, hy⟩⟩ <;> rw [e]
    · exact .nil _ _
    · exact hl.tail
    · exact hl.continued hy
  cases h with
  | booted rest => rw [hl.last_of_writesMode rfl]; exact .nil _ _
  | detached rest => rw [hl.last_of_writesMode rfl]; exact .nil _ _
  | drained d | drainGaveUp d => cases d <;> exact same rfl
  | pinged rest =>
    refine same ?_
    cases last
    · rfl
    · simp only [if_true, openWindow]; split <;> rfl
  | noItem | built | queued | full | gaveUp | locked | missed | drainLocked | drainMissed | answered => exact same rfl

/-- Frames, and a last item that writes no mode, fit every state for every agent but TXA. -/
theorem ItemsFit.of_plain {st : ArbState} {a : Agent} {l : List Item} (ha : a ≠ .txa)
    (hl : ∀ i ∈ l, i.writesMode = false) : ItemsFit st a l :=
  ⟨fun i hi => hl i (List.dropLast_subset l hi), fun hi => absurd (hl _ hi) (by decide), fun h => absurd h ha,
    fun hi => absurd (hl _ hi) (by decide)⟩

theorem Frames.writesMode {l : List Item} (h : Frames l) : ∀ i ∈ l, i.writesMode = false := by
  intro i hi
  obtain ⟨-, d, src, w, rfl⟩ := h i hi
  rfl

theorem Frames.writesMode_concat {l : List Item} (h : Frames l) {x : Item} (hx : x.writesMode = false) :
    ∀ i ∈ l ++ [x], i.writesMode = false := by
  intro i hi
  rcases List.mem_append.mp hi with hi | hi
  · exact h.writesMode i hi
  · rw [List.mem_singleton.mp hi]; exact hx

/-- A settings push and then the item that writes the mode. -/
theorem ItemsFit.push {st : ArbState} {a : Agent} {x : Item} (ha : a ≠ .txa)
    (hd : x = .finishDetach → a = .lst ∧ st = .usbPassthrough) (hb : x = .enterSteady → a = .arb ∧ st = .booting) :
    ItemsFit st a (pushItems ++ [x]) := by
  have hlast : ∀ y, y ∈ pushItems ++ [x] → y.writesMode = true → y = x := by
    intro y hy hw
    rcases List.mem_append.mp hy with hy | hy
    · rw [frames_push.writesMode y hy] at hw; cases hw
    · exact List.mem_singleton.mp hy
  refine ⟨fun i hi => ?_, fun hi => hd (hlast _ hi rfl).symm, fun h => absurd h ha, fun hi => hb (hlast _ hi rfl).symm⟩
  rw [List.dropLast_concat] at hi
  exact frames_push.writesMode i hi

/-- In the modes' agreement the agent that dispatches a detach is LST (44_transmit_agent.md R222, 45_bus_arbiter.md R266). -/
theorem Dispatched.itemsFit {s u : State} {l : List Item} {a : Agent} (h : Dispatched s u l)
    (ha : s.arbState = .usbPassthrough → a = .lst) : ItemsFit u.arbState a l := by
  cases h with
  | detach h =>
    obtain rfl := ha h
    exact .push (by decide) (fun _ => ⟨rfl, h⟩) nofun
  | ignored | message | error | setting | confirm | attach => exact .nil _ _

theorem mayEnqueue_ne_txa {a : Agent} (h : mayEnqueue a = true) : a ≠ .txa := by
  rintro rfl
  cases h

/-- The items that the first step of an operation leaves to its agent fit the state it leaves. -/
theorem First.itemsFit {s u : State} {d : Prop} {a : Agent} {l : List Item} (h : First s d a u l) (hs : ModeInv s) :
    ItemsFit u.arbState a l := by
  cases h with
  | nothing | hostRejected | hears => exact .nil _ _
  | received _ _ h =>
    refine h.itemsFit fun hst => ?_
    unfold State.owner
    rw [hs.mode.mpr hst]
  | hostSends n l hl => exact .of_plain (by simp) (hl.writesMode_concat rfl)
  | enqueue a f w ha hf => exact .of_plain (mayEnqueue_ne_txa ha) (by simp [Item.writesMode])
  | drainCaller | drainBatch => exact ⟨by simp, by simp, by simp [Item.isDrain], by simp⟩
  | sends a l ha hl => exact .of_plain (mayEnqueue_ne_txa ha) hl.writesMode
  | pings l hl => exact .of_plain (by decide) (hl.writesMode_concat rfl)
  | failure l hl => exact .of_plain (by decide) (hl.writesMode_concat rfl)
  | shutdown l hl => exact .of_plain (by decide) hl.writesMode
  | boot h => exact .push (by decide) nofun fun _ => ⟨rfl, h⟩
  | respFrame v w _ _ h1 h2 h3 h4 h5 =>
    have hst : u.arbState = w.arbState := h5.same.arbState
    rw [hst]
    refine h4.itemsFit fun hp => ?_
    have hp' := hs.mode.mpr (h3.same.arbState.symm.trans hp)
    rw [h2] at hp'
    cases hp'
  | lstFrame v w _ _ h1 h3 h4 h5 =>
    rw [h5.same.arbState]
    exact h4.itemsFit fun _ => rfl

theorem modeInv_of_view {s u : State} (h : ModeInv s) (hv : u.arbView = s.arbView) (ht : u.tasks = s.tasks) :
    ModeInv u := by
  rw [modeInv_iff] at h ⊢
  rw [hv, ht, arbView_arbState hv]
  exact h

theorem modeInv_setTask {s : State} {a : Agent} {t : Task} (h : ModeInv s) (ht : ItemsFit s.arbState a t.items) :
    ModeInv (s.setTask a t) := by
  rw [modeInv_iff] at h ⊢
  rw [setTask_arbView, setTask_arbState]
  refine ⟨h.1, fun e he => ?_⟩
  rcases mem_setTask he with ⟨rfl, -⟩ | ⟨he, -⟩
  · exact ht
  · exact h.2 e he

theorem modeInv_store {s : State} (h : ModeInv s) (w : StoreWrite) : ModeInv { s with set := s.set.store w } :=
  { h with connected := by cases w <;> exact h.connected }

theorem modeInv_stepped {s u : State} {a : Agent} {t t' : Task} (h : ModeInv s) (ht : (a, t) ∈ s.tasks)
    (hst : Stepped chip a s t.lastOk t.allOk t.items u t') : ModeInv (u.setTask a t') := by
  have hl := h.itemsFit ht
  rw [modeInv_iff] at h ⊢
  rw [setTask_arbView, setTask_arbState]
  refine ⟨hst.arbStep.modeBits hl h.1, fun e he => ?_⟩
  rcases mem_setTask he with ⟨rfl, -⟩ | ⟨he, hne⟩
  · exact hst.itemsFit hl
  · rw [hst.tasks] at he
    exact .other hst.arbStep hl (h.2 e he) hne

theorem modeInv_first {s u : State} {d : Prop} {a : Agent} {l : List Item} (h : ModeInv s) (hb : s.busy a = false)
    (hf : First s d a u l) : ModeInv u := by
  rw [modeInv_iff] at h ⊢
  refine ⟨hf.arbStep.modeBits (.nil _ a) h.1, fun e he => ?_⟩
  rw [hf.tasks] at he
  exact .other hf.arbStep (.nil _ a) (h.2 e he) ((busy_false_iff s a).mp hb e he)

/-- What the parts of a step keep where bus mode and arbiter state agree, every step keeps with that agreement. -/
theorem step_keeps_under_mode (P : State → Prop) (T : State → Agent → List Item → Prop)
    (script : ∀ s x, P s → P { s with script := x })
    (heard : ∀ s u, P s → Heard s u → P u)
    (store : ∀ s w, P s → w.legal chip.memBanks = true → P { s with set := s.set.store w })
    (stepped : ∀ s a t u t', ModeInv s → P s → (a, t) ∈ s.tasks → Stepped chip a s t.lastOk t.allOk t.items u t' →
      P (u.setTask a t'))
    (first : ∀ s a u l, ModeInv s → P s → s.busy a = false → First s True a u l → P u ∧ T u a l)
    (put : ∀ u a l, P u → T u a l → P (u.setTask a ⟨l, true, true⟩))
    (atomic : ∀ s t, P s → Atomic s t → P t)
    (s t : State) (hm : ModeInv s) (hP : P s) (h : step s = .next t) : ModeInv t ∧ P t := by
  refine step_keeps_task (fun s => ModeInv s ∧ P s) (fun u a l => ItemsFit u.arbState a l ∧ T u a l)
    ?_ ?_ ?_ ?_ ?_ ?_ ?_ s t ⟨hm, hP⟩ h
  · exact fun s x ⟨hm, hp⟩ => ⟨modeInv_of_view hm rfl rfl, script s x hp⟩
  · exact fun s u ⟨hm, hp⟩ hu => ⟨modeInv_of_view hm hu.arbView hu.same.tasks, heard s u hp hu⟩
  · exact fun s w ⟨hm, hp⟩ hw => ⟨modeInv_store hm w, store s w hp hw⟩
  · exact fun s a t u t' ⟨hm, hp⟩ ht hst => ⟨modeInv_stepped hm ht hst, stepped s a t u t' hm hp ht hst⟩
  · intro s a u l ⟨hm, hp⟩ hb hf
    obtain ⟨hu, hT⟩ := first s a u l hm hp hb hf
    exact ⟨⟨modeInv_first hm hb hf, hu⟩, hf.itemsFit hm, hT⟩
  · exact fun u a l ⟨hm, hp⟩ ⟨hi, hT⟩ => ⟨modeInv_setTask hm hi, put u a l hp hT⟩
  · exact fun s t ⟨hm, hp⟩ ha => ⟨modeInv_of_view hm ha.arbView ha.tasks, atomic s t hp ha⟩

/-- A property of the arbiter's registers that every `ArbStep` of items that fit the state keeps. -/
theorem step_keeps_arbView_under_mode (P : ArbView → Prop)
    (step_keeps : ∀ l a v w, ArbStep l v w → ItemsFit v.arbState a l → P v → P w)
    (s t : State) (hm : ModeInv s) (hP : P s.arbView) (h : step s = .next t) : P t.arbView := by
  refine (step_keeps_under_mode (fun s => P s.arbView) (fun _ _ _ => True) (fun _ _ h => h) ?_ ?_ ?_ ?_ ?_ ?_
    s t hm hP h).2
  · intro s u hs hu
    rw [hu.arbView]; exact hs
  · intro s w hs hw
    exact step_keeps [] .txa _ _ (.setting w hw) (.nil _ _) hs
  · intro s a t u t' hm hs ht hst
    rw [setTask_arbView]
    exact step_keeps _ a _ _ hst.arbStep (hm.itemsFit ht) hs
  · intro s a u l _ hs _ hf
    exact ⟨step_keeps [] a _ _ hf.arbStep (.nil _ _) hs, trivial⟩
  · intro u a l hu _
    rw [setTask_arbView]; exact hu
  · intro s t hs ha
    rw [ha.arbView]; exact hs

/-- Settles O52, by the parts of a step: the registers by `ArbStep.modeBits`, the handlers in progress by
`Stepped.itemsFit`, `ItemsFit.other` and `First.itemsFit`. -/
theorem modeInvariantKept : Obligations.ModeInvariantKept := fun s t hs h =>
  (step_keeps_under_mode (fun _ => True) (fun _ _ _ => True) (fun _ _ _ => trivial) (fun _ _ _ _ => trivial)
    (fun _ _ _ _ => trivial) (fun _ _ _ _ _ _ _ _ _ => trivial) (fun _ _ _ _ _ _ _ _ => ⟨trivial, trivial⟩)
    (fun _ _ _ _ _ => trivial) (fun _ _ _ _ => trivial) s t hs trivial h).1

/-! ### Shut down (R257) -/

/-- The registers that nothing writes in `ShuttingDown`. -/
structure ShutAs (v w : ArbView) : Prop where
  arbState        : w.arbState = .shuttingDown
  busMode         : w.busMode = v.busMode
  presence        : w.presence = v.presence
  pingOutstanding : w.pingOutstanding = v.pingOutstanding
  connected       : w.set.usbConnected = v.set.usbConnected
  lstActive       : w.lstActive = v.lstActive
  txaSuspended    : w.txaSuspended = v.txaSuspended

/-- Of what `ArbStep` lists only a setting is written once the arbiter is shut down. -/
theorem ArbStep.shutAs {l : List Item} {a : Agent} {x v w : ArbView} (h : ArbStep l v w) (hl : ItemsFit v.arbState a l)
    (hv : ShutAs x v) : ShutAs x w := by
  have hst := hv.arbState
  cases h with
  | kept => exact hv
  | setting y => exact { hv with connected := by cases y <;> exact hv.connected }
  | confirmed p h | pinged h => exact absurd hst h
  | attached h | failed h | shutDown h => rw [hst] at h; cases h
  | booted h =>
    have hboot := (hl.booting h).2
    rw [hst] at hboot
    cases hboot
  | detached h =>
    have hpass := (hl.detaching h).2
    rw [hst] at hpass
    cases hpass

/-- Settles O54. -/
theorem shutdownIsFinal : Obligations.ShutdownIsFinal := by
  intro s t hm hst h
  obtain ⟨h1, h2, h3, h4, h5, h6, h7⟩ := step_keeps_arbView_under_mode (ShutAs s.arbView)
    (fun _ _ _ _ hv hl => hv.shutAs hl) s t hm ⟨hst, rfl, rfl, rfl, rfl, rfl, rfl⟩ h
  exact ⟨h1, h2, h3, h4, h5, h6, h7⟩

/-! ### The failure counters (R34, R46, R373) -/

/-- `PresenceInv` as a property of the arbiter's registers. -/
structure CountersFit (v : ArbView) : Prop where
  belowMax : v.arbState ≠ .shuttingDown → v.presence.dsp.fails < pingFailMax
  final    : v.arbState = .shuttingDown → v.presence.dsp.fails = pingFailMax
  mc       : v.presence.mc.fails = 0
  usb      : v.presence.usb.fails = 0
  terminal : v.terminal = true ↔ v.arbState = .shuttingDown

theorem presenceInv_iff (s : State) : PresenceInv s ↔ CountersFit s.arbView :=
  ⟨fun ⟨h1, h2, h3, h4, h5⟩ => ⟨h1, h2, h3, h4, h5⟩, fun ⟨h1, h2, h3, h4, h5⟩ => ⟨h1, h2, h3, h4, h5⟩⟩

/-- While the arbiter is not shut down before and after, only the records matter. -/
theorem CountersFit.running {v w : ArbView} (hv : CountersFit v) (h : v.arbState ≠ .shuttingDown)
    (hw : w.arbState ≠ .shuttingDown) (ht : w.terminal = v.terminal) (hd : w.presence.dsp.fails < pingFailMax)
    (hmc : w.presence.mc.fails = 0) (husb : w.presence.usb.fails = 0) : CountersFit w :=
  ⟨fun _ => hd, fun h => absurd h hw, hmc, husb, by rw [ht, hv.terminal]; exact iff_of_false h hw⟩

/-- One failure more stays below the maximum unless it is the maximum. -/
theorem fails_succ_lt {n : BitVec 8} (h : n < pingFailMax) (hn : n + 1 ≠ pingFailMax) : n + 1 < pingFailMax := by
  simp only [pingFailMax] at h hn ⊢
  bv_omega

theorem ArbStep.countersFit {l : List Item} {a : Agent} {v w : ArbView} (h : ArbStep l v w)
    (hl : ItemsFit v.arbState a l) (hv : CountersFit v) : CountersFit w := by
  obtain ⟨hlt, hfin, hmc, husb, hterm⟩ := id hv
  have hmax : (0 : BitVec 8) < pingFailMax := by decide
  cases h with
  | kept | setting | pinged => exact ⟨hlt, hfin, hmc, husb, hterm⟩
  | confirmed p h =>
    cases p
    · exact hv.running h h rfl (hlt h) rfl husb
    · exact hv.running h h rfl hmax hmc husb
    · exact hv.running h h rfl (hlt h) hmc rfl
  | attached h =>
    have hn : v.arbState ≠ .shuttingDown := by rw [h]; decide
    exact hv.running hn (by simp) rfl (hlt hn) hmc rfl
  | failed h hf =>
    have hn : v.arbState ≠ .shuttingDown := by rw [h]; decide
    exact hv.running hn hn rfl (fails_succ_lt (hlt hn) hf) hmc husb
  | shutDown h hf => exact ⟨fun h => absurd rfl h, fun _ => hf, hmc, husb, by simp⟩
  | booted h =>
    have hn : v.arbState ≠ .shuttingDown := by rw [(hl.booting h).2]; decide
    exact hv.running hn (by simp) rfl (hlt hn) hmc husb
  | detached h =>
    have hn : v.arbState ≠ .shuttingDown := by rw [(hl.detaching h).2]; decide
    exact hv.running hn (by simp) rfl (hlt hn) hmc husb

/-- Settles O55. -/
theorem presenceInvariantKept : Obligations.PresenceInvariantKept := fun s t hm hs h =>
  (presenceInv_iff t).mpr (step_keeps_arbView_under_mode CountersFit (fun _ _ _ _ hv hl => hv.countersFit hl) s t hm
    ((presenceInv_iff s).mp hs) h)

end Sys2Proof.Machine
end

section
/-! The state after reset (O49, O50; 10_state.md R50, R51). -/
namespace Sys2Proof.Machine

theorem reset_presence (p : Peer) : State.reset.presence.get p = ⟨false, 0⟩ := by cases p <;> rfl

theorem reset_err (e : Err) : State.reset.err.get e = false := by cases e <;> rfl

/-- Settles O49. -/
theorem resetValues : Obligations.ResetValues :=
  ⟨rfl, rfl, rfl, rfl, rfl, rfl, rfl, rfl, rfl, rfl, rfl, rfl, rfl, rfl, rfl, rfl, rfl, rfl,
    fun p => by rw [reset_presence]; exact ⟨rfl, rfl⟩, rfl, rfl, reset_err, rfl⟩

/-- After reset the receiver waits for an address with an empty buffer (R26). -/
theorem reset_frxInv (c : Config) : FrxInv c State.reset where
  bufferWf        := rfl
  bufferInside    := nofun
  awaitingAddress := fun _ => rfl
  awaitingLength  := nofun
  awaitingPayload := nofun
  complete        := nofun
  declared        := fun h => h.elim nofun nofun

/-- After reset the engine is bus master and boots, and no agent is inside an operation. -/
theorem reset_modeInv : ModeInv State.reset where
  mode      := by decide
  listener  := by decide
  suspended := by decide
  connected := by decide
  modeLast  := nofun
  detaching := nofun
  txaDrains := nofun
  booting   := nofun

theorem reset_presenceInv : PresenceInv State.reset where
  belowMax := fun _ => by decide
  final    := nofun
  mc       := rfl
  usb      := rfl
  terminal := by decide

theorem reset_queueInv (c : Config) : QueueInv c State.reset where
  queueBound := Nat.zero_le _
  fifoBound  := Nat.zero_le _
  holder     := nofun
  onlyFirst  := nofun

/-- After reset TXA is idle and nothing waits to be sent. -/
theorem reset_transmitInv : TransmitInv State.reset where
  queued   := nofun
  batched  := nofun
  current  := nofun
  underway := nofun
  idle     := by decide
  echoes   := Nat.le_refl _
  sending  := nofun
  driven   := nofun
  draining := nofun
  lineIdle := rfl

/-- The values of log 3 are legal; a chip has at least one memory bank. -/
theorem reset_settingsInv : SettingsInv chip State.reset :=
  (Settings.legal_iff _ _).mpr ⟨by decide, by decide, by decide, by decide, chip_legal.memBanks_ge, rfl⟩

/-- Settles O50, one invariant at a time. -/
theorem resetMeetsInvariants : Obligations.ResetMeetsInvariants :=
  ⟨reset_frxInv chip, reset_modeInv, reset_presenceInv, reset_queueInv chip, reset_transmitInv, reset_settingsInv, rfl⟩

end Sys2Proof.Machine
end

section
/-! The receiver and DEC through one step (O51; 10_state.md R26, 41_line_transceiver.md R160 to R162,
42_frame_receiver.md R181 to R188). -/
namespace Sys2Proof.Machine

/-! ### The receiver's registers -/

/-- The receiver's registers and its buffer (R25, R26). -/
def State.recvView (s : State) : FrxState × Memory × Nat × Byte := (s.frxState, s.frxBuf, s.frxCount, s.frxLen)

theorem frxInv_of_view {c : Config} {s u : State} (h : FrxInv c s) (hv : u.recvView = s.recvView) : FrxInv c u := by
  simp only [State.recvView, Prod.mk.injEq] at hv
  obtain ⟨hst, hbuf, hcount, hlen⟩ := hv
  constructor <;> simp only [hst, hbuf, hcount, hlen]
  exacts [h.bufferWf, h.bufferInside, h.awaitingAddress, h.awaitingLength, h.awaitingPayload, h.complete, h.declared]

/-- A receiver that waits for an address again, its buffer as it was (R188). -/
theorem frxInv_fresh {c : Config} {s u : State} (h : FrxInv c s) (hbuf : u.frxBuf = s.frxBuf)
    (hst : u.frxState = .awaitingAddress) (hcount : u.frxCount = 0) : FrxInv c u := by
  constructor <;> simp only [hst, hbuf, hcount, reduceCtorEq, or_self, false_implies, implies_true]
  exacts [h.bufferWf, h.bufferInside]

/-- A store inside the buffer keeps its canonical form and its bounds (R183). -/
theorem frxInv_write {c : Config} {s : State} (h : FrxInv c s) {k : Nat} (hk : k < c.rxCap) (b : Byte) :
    (s.frxBuf.write k b).wf = true ∧ ∀ e ∈ s.frxBuf.write k b, e.1 < c.rxCap := by
  refine ⟨Memory.write_wf _ _ _ h.bufferWf, fun e he => ?_⟩
  rcases Memory.mem_write _ _ _ _ he with rfl | he
  · exact hk
  · exact h.bufferInside e he

/-- Every step of the receiver keeps its invariant (R181 to R185). -/
theorem frxInv_stepFrx {c : Config} (hcap : 5 ≤ c.rxCap) {b : Byte} {m : Level} {s t : State} (h : FrxInv c s)
    (hs : stepFrx c b m s = .next t) : FrxInv c t := by
  rcases stepFrx_next c b m s t hs with ⟨hst, -, rfl⟩ | ⟨hst, -, rfl⟩ | ⟨hst, hlt, hne, rfl⟩ | ⟨hst, hc, -, rfl⟩ |
    ⟨hst, hc, -, -, rfl⟩ | ⟨hst, hc, h5, hle, rfl⟩ | ⟨hst, hlt, hlast, rfl⟩ | ⟨hst, hlt, hmore, rfl⟩
  · exact h
  · obtain ⟨hwf, hin⟩ := frxInv_write h (show 0 < c.rxCap by omega) b
    exact ⟨hwf, hin, nofun, fun _ => ⟨Nat.le_refl 1, by simp⟩, nofun, nofun, fun h => h.elim nofun nofun⟩
  · obtain ⟨h1, h3⟩ := h.awaitingLength hst
    obtain ⟨hwf, hin⟩ := frxInv_write h hlt b
    constructor <;> simp only [storeFrx_frxState, storeFrx_frxBuf, storeFrx_frxCount, hst, reduceCtorEq, or_self,
      false_implies, forall_const]
    exacts [hwf, hin, ⟨by omega, by omega⟩]
  · obtain ⟨hwf, hin⟩ := frxInv_write h (show s.frxCount < c.rxCap by omega) b
    exact ⟨hwf, hin, fun _ => rfl, nofun, nofun, nofun, fun h => h.elim nofun nofun⟩
  · obtain ⟨hwf, hin⟩ := frxInv_write h (show s.frxCount < c.rxCap by omega) b
    exact ⟨hwf, hin, fun _ => rfl, nofun, nofun, nofun, fun h => h.elim nofun nofun⟩
  · obtain ⟨hwf, hin⟩ := frxInv_write h (show s.frxCount < c.rxCap by omega) b
    refine ⟨hwf, hin, nofun, nofun, fun _ => ⟨?_, ?_, hle⟩, nofun, fun _ => ?_⟩
    · show 4 ≤ s.frxCount + 1
      omega
    · show s.frxCount + 1 < b.toNat
      omega
    · show (s.frxBuf.write s.frxCount b).read 3 = b
      rw [Memory.read_write _ _ _ h.bufferWf, if_pos hc.symm]
  · obtain ⟨h4, -, hle⟩ := h.awaitingPayload hst
    obtain ⟨hwf, hin⟩ := frxInv_write h hlt b
    refine ⟨hwf, hin, nofun, nofun, nofun, fun _ => ⟨hlast, ?_, hle⟩, fun _ => ?_⟩
    · show 5 ≤ s.frxLen.toNat
      omega
    · show (s.frxBuf.write s.frxCount b).read 3 = s.frxLen
      rw [Memory.read_write _ _ _ h.bufferWf, if_neg (by omega)]
      exact h.declared (.inl hst)
  · obtain ⟨h4, hlen, hle⟩ := h.awaitingPayload hst
    obtain ⟨hwf, hin⟩ := frxInv_write h hlt b
    constructor <;> simp only [storeFrx_frxState, storeFrx_frxBuf, storeFrx_frxCount, storeFrx_frxLen, hst, reduceCtorEq,
      or_false, false_implies, forall_const]
    · exact hwf
    · exact hin
    · exact ⟨by omega, by omega, hle⟩
    · rw [Memory.read_write _ _ _ h.bufferWf, if_neg (by omega)]
      exact h.declared (.inl hst)

theorem pushChar_recvView (c : Config) (s : State) (ch : Character) : (pushChar c s ch).recvView = s.recvView := by
  unfold pushChar
  split <;> rfl

theorem raiseFaults_recvView (faults : List Nat) (s : State) : (raiseFaults faults s).recvView = s.recvView := by
  rw [raiseFaults_eq]; rfl

theorem hearPeer_recvView (c : Config) (cells : List Level) (s : State) : (hearPeer c cells s).recvView = s.recvView :=
  hearPeer_keeps (fun u => u.recvView = s.recvView) c (fun _ _ _ _ h => h) (fun _ _ h => h)
    (fun u ch h => (pushChar_recvView c u ch).trans h) cells s rfl

theorem hearOwn_recvView (c : Config) (contended : Bool) (ch : Character) (s : State) :
    (hearOwn c contended ch s).recvView = s.recvView :=
  hearOwn_keeps (fun u => u.recvView = s.recvView) c (fun _ _ _ _ h => h) (fun _ _ h => h)
    (fun u ch h => (pushChar_recvView c u ch).trans h) contended ch s rfl

theorem Heard.frxInv {s u : State} (h : Heard s u) (hs : FrxInv chip s) : FrxInv chip u :=
  h.keeps (FrxInv chip) (fun u l hu => frxInv_of_view hu (hearPeer_recvView chip l u))
    (fun u _ _ rest _ hst hu =>
      frxInv_stepFrx chip_legal.rxCap_ge (frxInv_of_view (u := { u with rxf := rest }) hu rfl) hst) hs

theorem Dispatched.frxInv {s u : State} {l : List Item} (h : Dispatched s u l) (hs : FrxInv chip s) :
    FrxInv chip u := by
  cases h with
  | confirm p =>
    refine frxInv_of_view hs ?_
    rw [presenceConfirm_eq]
    split <;> rfl
  | attach ha =>
    rw [attach_eq s (by rw [ha]; decide)]
    exact frxInv_fresh hs rfl rfl rfl
  | ignored | message | error | setting | detach => exact frxInv_of_view hs rfl

theorem countFailure_recvView (s : State) : (countFailure s).recvView = s.recvView := by
  rw [countFailure_eq]; rfl

theorem shutdown_recvView (s : State) : (shutdown s).recvView = s.recvView := by
  simp only [State.recvView, shutdown_frxState, shutdown_frxBuf, shutdown_frxCount, shutdown_frxLen]

theorem First.frxInv {s u : State} {d : Prop} {a : Agent} {l : List Item} (h : First s d a u l) (hs : FrxInv chip s) :
    FrxInv chip u := by
  cases h with
  | received _ _ h => exact h.frxInv hs
  | failure => exact frxInv_of_view hs (countFailure_recvView s)
  | shutdown => exact frxInv_of_view hs ((shutdown_recvView _).trans (countFailure_recvView s))
  | hears _ _ h => exact h.frxInv hs
  | respFrame v w _ _ h1 h2 h3 h4 h5 =>
    have hw := h4.frxInv (frxInv_fresh (h3.frxInv hs) rfl rfl rfl)
    exact h5.frxInv (frxInv_of_view hw rfl)
  | lstFrame v w _ _ h1 h3 h4 h5 => exact h5.frxInv (h4.frxInv (frxInv_fresh (h3.frxInv hs) rfl rfl rfl))
  | nothing | hostRejected | hostSends | enqueue | drainCaller | drainBatch | sends | pings | boot =>
    exact frxInv_of_view hs rfl

theorem Stepped.frxInv {a : Agent} {s u : State} {last all : Bool} {l : List Item} {t : Task}
    (h : Stepped chip a s last all l u t) (hs : FrxInv chip s) : FrxInv chip u := by
  cases h with
  | drained d | drainGaveUp d => cases d <;> exact frxInv_of_view hs rfl
  | pinged rest =>
    refine frxInv_of_view hs ?_
    cases last
    · rfl
    · simp only [if_true, openWindow]; split <;> rfl
  | detached => rw [detachFinal_eq]; exact frxInv_fresh hs rfl rfl rfl
  | noItem | built | queued | full | gaveUp | locked | missed | drainLocked | drainMissed | booted | answered =>
    exact frxInv_of_view hs rfl

theorem echoDone_recvView (cur : QueuedFrame) (s : State) : (echoDone cur s).recvView = s.recvView := by
  rw [echoDone_eq]; rfl

theorem TxaStep.frxInv {s t : State} (h : TxaStep s t) (hs : FrxInv chip s) : FrxInv chip t := by
  cases h with
  | started | respTimedOut => exact frxInv_fresh hs rfl rfl rfl
  | sent contended cur b => exact frxInv_of_view hs (hearOwn_recvView chip contended _ _)
  | echoed => exact frxInv_of_view hs rfl
  | echoEnded cur => exact frxInv_of_view hs (echoDone_recvView cur _)
  | echoTimedOut cur => exact frxInv_of_view hs (echoDone_recvView cur _)

theorem Atomic.frxInv {s t : State} (h : Atomic s t) (hs : FrxInv chip s) : FrxInv chip t := by
  cases h with
  | decodes faults n => exact frxInv_of_view hs (raiseFaults_recvView faults _)
  | pushes ch => exact frxInv_of_view hs (pushChar_recvView chip s ch)
  | receives b m t hst => exact frxInv_stepFrx chip_legal.rxCap_ge hs hst
  | takes | resets => exact frxInv_fresh hs rfl rfl rfl
  | txa t hb ht => exact ht.frxInv hs
  | waits | returns | rejects | locks | unlocks => exact frxInv_of_view hs rfl

theorem setTask_recvView (s : State) (a : Agent) (t : Task) : (s.setTask a t).recvView = s.recvView := by
  rw [setTask_fields]; rfl

/-- Every step keeps the receiver's invariant. -/
theorem frxInv_step (s t : State) (hs : FrxInv chip s) (h : step s = .next t) : FrxInv chip t :=
  step_keeps_task (FrxInv chip) (fun _ _ _ => True) (fun _ _ hs => frxInv_of_view hs rfl) (fun _ _ hs hu => hu.frxInv hs)
    (fun _ _ hs _ => frxInv_of_view hs rfl)
    (fun _ a _ u t' hs _ hst => frxInv_of_view (hst.frxInv hs) (setTask_recvView u a t'))
    (fun _ _ _ _ hs _ hf => ⟨hf.frxInv hs, trivial⟩) (fun u a _ hu _ => frxInv_of_view hu (setTask_recvView u a _))
    (fun _ _ hs ha => ha.frxInv hs) s t hs h

/-! ### DEC's position and its framing faults -/

/-- What a step may do to DEC's position: it stays legal, and it comes to stand after a framing fault only by raising one
(R160, R162). The flag and the trace of the faults only grow. -/
structure DecStep (s u : State) : Prop where
  legal      : decPosLegal s.decPos = true → decPosLegal u.decPos = true
  faults     : s.faultIndices.length ≤ u.faultIndices.length
  flag       : s.err.lineFramingFault = true → u.err.lineFramingFault = true
  afterFault : u.decPos.afterFault = true → s.decPos.afterFault = true ∨
    (s.faultIndices.length < u.faultIndices.length ∧ u.err.lineFramingFault = true)

/-- A step that leaves DEC alone. -/
theorem DecStep.of_same {s u : State} (hpos : u.decPos = s.decPos) (hf : u.faultIndices = s.faultIndices)
    (hflag : s.err.lineFramingFault = true → u.err.lineFramingFault = true) : DecStep s u :=
  ⟨by rw [hpos]; exact id, by rw [hf], hflag, by rw [hpos]; exact .inl⟩

theorem DecStep.refl (s : State) : DecStep s s := .of_same rfl rfl id

theorem DecStep.trans {s u v : State} (h : DecStep s u) (k : DecStep u v) : DecStep s v := by
  refine ⟨fun hl => k.legal (h.legal hl), h.faults.trans k.faults, fun hf => k.flag (h.flag hf), fun ha => ?_⟩
  rcases k.afterFault ha with hu | ⟨hlt, hflag⟩
  · exact (h.afterFault hu).imp id fun ⟨hlt, hflag⟩ => ⟨Nat.lt_of_lt_of_le hlt k.faults, k.flag hflag⟩
  · exact .inr ⟨Nat.lt_of_le_of_lt h.faults hlt, hflag⟩

theorem mark_lineFramingFault (f : ErrFlags) (e : Err) (h : f.lineFramingFault = true) :
    (f.mark e).lineFramingFault = true := by
  cases e
  case lineFramingFault => rfl
  all_goals exact h

theorem DecStep.raise (s : State) (e : Err) (i : Info) : DecStep s (s.raise e i) :=
  .of_same rfl rfl (mark_lineFramingFault s.err e)

/-- A cell inside a character (R161). -/
theorem decCell_inChar (k : Nat) (sh : BitVec 9) (l : Level) : decCell (.inChar k) sh l =
    if k < 10 then (.inChar (k + 1), sh ||| ((BitVec.ofBool l).setWidth 9 <<< (k - 1)), .nothing)
    else if l then (.idle, sh, .char ⟨sh.setWidth 8, sh.getLsbD 8⟩) else (.faulted 0, sh, .fault) := rfl

/-- One cell leaves a legal position (R160). -/
theorem decCell_legal {p : DecPos} (sh : BitVec 9) (l : Level) (h : decPosLegal p = true) :
    decPosLegal (decCell p sh l).1 = true := by
  cases p with
  | idle => cases l <;> rfl
  | inChar k =>
    simp only [decPosLegal, Bool.and_eq_true, decide_eq_true_eq] at h
    rw [decCell_inChar]
    split
    · simp only [decPosLegal, Bool.and_eq_true, decide_eq_true_eq]; omega
    · cases l <;> rfl
  | faulted n | lost n =>
    cases l with
    | false => rfl
    | true =>
      unfold decCell
      by_cases hn : n + 1 < 11
      · simp only [hn, if_true, decPosLegal, decide_true]
      · simp only [hn, if_false, decPosLegal]

/-- Only a framing fault brings the decoder from before a fault to after one (R161, R162). -/
theorem decCell_afterFault {p : DecPos} (sh : BitVec 9) (l : Level) (h : (decCell p sh l).1.afterFault = true) :
    p.afterFault = true ∨ (decCell p sh l).2.2 = .fault := by
  cases p with
  | idle => cases l <;> cases h
  | inChar k =>
    rw [decCell_inChar] at h ⊢
    by_cases hk : k < 10
    · rw [if_pos hk] at h; cases h
    · rw [if_neg hk] at h ⊢
      cases l
      · exact .inr rfl
      · cases h
  | faulted n => exact .inl rfl
  | lost n => exact .inl rfl

theorem drawnPos_legal (fault : Bool) (n : Nat) : decPosLegal (drawnPos fault n) = true := by
  have hm : n % (if fault then 33 else 11) < 33 := by
    cases fault
    · exact (Nat.mod_lt n (by decide)).trans (by decide)
    · exact Nat.mod_lt n (by decide)
  unfold drawnPos
  generalize n % (if fault then 33 else 11) = m at hm
  simp only
  split
  · rfl
  · split
    · simp only [decPosLegal, Bool.and_eq_true, decide_eq_true_eq]; omega
    · split <;> simp only [decPosLegal, decide_eq_true_eq] <;> omega

theorem pushChar_decStep (c : Config) (s : State) (ch : Character) : DecStep s (pushChar c s ch) := by
  unfold pushChar
  split
  · exact .of_same rfl rfl id
  · exact .raise s _ _

/-- What a draw leaves of DEC's registers: its faults are raised (R162; log 7). -/
theorem hearDraw_dec (c : Config) (s : State) : (hearDraw c s).decPos = s.decPos ∧
    (hearDraw c s).faultIndices = s.faultIndices ++ (c.draw s.draws).faults ∧
    (hearDraw c s).err.lineFramingFault = (s.err.lineFramingFault || (c.draw s.draws).faults != []) := by
  rw [hearDraw, raiseFaults_eq, pushChars_eq]
  refine ⟨rfl, rfl, ?_⟩
  cases (c.draw s.draws).faults <;> simp only <;> split <;> simp

theorem hearDraw_decStep (c : Config) (s : State) : DecStep s (hearDraw c s) := by
  obtain ⟨hpos, hf, hflag⟩ := hearDraw_dec c s
  refine ⟨by rw [hpos]; exact id, by rw [hf, List.length_append]; omega, fun h => by rw [hflag, h]; rfl,
    by rw [hpos]; exact .inl⟩

theorem hearCell_decStep (c : Config) (s : State) (l : Level) : DecStep s (hearCell c s l) := by
  have hlegal := decCell_legal (p := s.decPos) s.decShift l
  have hafter := decCell_afterFault (p := s.decPos) s.decShift l
  unfold hearCell
  generalize decCell s.decPos s.decShift l = r at hlegal hafter
  obtain ⟨p, sh, o⟩ := r
  have moved : o ≠ .fault → DecStep s { s with decPos := p, decShift := sh } := fun ho =>
    ⟨hlegal, Nat.le_refl _, id, fun h => .inl ((hafter h).resolve_right ho)⟩
  cases o with
  | nothing => exact moved nofun
  | char ch => exact (moved nofun).trans (pushChar_decStep c _ ch)
  | fault => exact ⟨hlegal, by simp [State.raiseFault], fun _ => rfl, fun _ => .inr ⟨by simp [State.raiseFault], rfl⟩⟩
  | drawn => exact (moved nofun).trans (hearDraw_decStep c _)

theorem hearCells_decStep (c : Config) (cells : List Level) (s : State) : DecStep s (hearCells c cells s) :=
  hearCells_keeps (DecStep s) c (fun u l h => h.trans (hearCell_decStep c u l)) cells s (.refl s)

/-- Under contention the position is drawn, one after a fault only where one was raised (log 20). -/
theorem hearContended_decStep (c : Config) (s : State) : DecStep s (hearContended c s) := by
  obtain ⟨-, hf, hflag⟩ := hearDraw_dec c s
  have hd := hearDraw_decStep c s
  refine ⟨fun _ => drawnPos_legal _ _, hd.faults, hd.flag, fun h => ?_⟩
  rcases Bool.or_eq_true_iff.mp (drawnPos_afterFault _ _ h) with h | h
  · exact .inl h
  · have hpos : 0 < (c.draw s.draws).faults.length := List.length_pos_iff.mpr (by simpa using h)
    refine .inr ⟨?_, ?_⟩
    · show _ < (hearDraw c s).faultIndices.length
      rw [hf, List.length_append]
      omega
    · show (hearDraw c s).err.lineFramingFault = true
      rw [hflag, h, Bool.or_true]

theorem hearPeer_decStep (c : Config) (cells : List Level) (s : State) : DecStep s (hearPeer c cells s) := by
  rcases hearPeer_cases c cells s with e | ⟨-, e⟩ <;> rw [e]
  · exact hearCells_decStep c cells s
  · exact hearContended_decStep c s

/-- The engine's own cells: a character that DEC is inside is given up (log 20). -/
theorem hearOwn_decStep (c : Config) (contended : Bool) (ch : Character) (s : State) :
    DecStep s (hearOwn c contended ch s) := by
  unfold hearOwn
  split
  · exact hearContended_decStep c s
  · split
    · exact hearCells_decStep c _ s
    · exact DecStep.trans (u := { s with decPos := .idle }) ⟨fun _ => rfl, Nat.le_refl _, id, nofun⟩
        (hearCells_decStep c _ _)

theorem stepFrx_decStep {c : Config} {b : Byte} {m : Level} {s t : State} (h : stepFrx c b m s = .next t) :
    DecStep s t := by
  rcases stepFrx_next c b m s t h with ⟨_, _, rfl⟩ | ⟨_, _, rfl⟩ | ⟨_, _, _, rfl⟩ | ⟨_, _, _, rfl⟩ | ⟨_, _, _, _, rfl⟩ |
    ⟨_, _, _, _, rfl⟩ | ⟨_, _, _, rfl⟩ | ⟨_, _, _, rfl⟩ <;> exact .of_same rfl rfl id

theorem Heard.decStep {s u : State} (h : Heard s u) : DecStep s u :=
  h.keeps (DecStep s) (fun u l hu => hu.trans (hearPeer_decStep chip l u))
    (fun u _ _ rest _ hst hu => hu.trans (DecStep.trans (u := { u with rxf := rest }) (.of_same rfl rfl id)
      (stepFrx_decStep hst))) (.refl s)

theorem Dispatched.decStep {s u : State} {l : List Item} (h : Dispatched s u l) : DecStep s u := by
  cases h with
  | error e i => exact .raise s e i
  | confirm p =>
    rw [presenceConfirm_eq]
    split <;> exact .of_same rfl rfl id
  | attach ha =>
    rw [attach_eq s (by rw [ha]; decide)]
    exact .of_same rfl rfl id
  | ignored | message | setting | detach => exact .of_same rfl rfl id

theorem countFailure_decStep (s : State) : DecStep s (countFailure s) := by
  rw [countFailure_eq]; exact .of_same rfl rfl id

theorem shutdown_decStep (s : State) : DecStep s (shutdown s) :=
  .of_same (shutdown_decPos s) (shutdown_faultIndices s) (by rw [shutdown_err]; exact mark_lineFramingFault _ _)

theorem First.decStep {s u : State} {d : Prop} {a : Agent} {l : List Item} (h : First s d a u l) : DecStep s u := by
  cases h with
  | received _ _ h => exact h.decStep
  | hostRejected n e i r => exact (DecStep.raise s e i).trans (.of_same rfl rfl id)
  | failure => exact countFailure_decStep s
  | shutdown => exact (countFailure_decStep s).trans (shutdown_decStep _)
  | hears _ _ h => exact h.decStep
  | respFrame v w _ _ h1 h2 h3 h4 h5 =>
    have hreset : DecStep v v.resetFrx := .of_same rfl rfl id
    have hfinish : DecStep w (finishEntry w) := .of_same rfl rfl id
    exact h3.decStep.trans (hreset.trans (h4.decStep.trans (hfinish.trans h5.decStep)))
  | lstFrame v w _ _ h1 h3 h4 h5 =>
    have hreset : DecStep v v.resetFrx := .of_same rfl rfl id
    exact h3.decStep.trans (hreset.trans (h4.decStep.trans h5.decStep))
  | nothing | hostSends | enqueue | drainCaller | drainBatch | sends | pings | boot => exact .refl _

theorem Stepped.decStep {c : Config} {a : Agent} {s u : State} {last all : Bool} {l : List Item} {t : Task}
    (h : Stepped c a s last all l u t) : DecStep s u := by
  cases h with
  | gaveUp f => exact .raise s _ _
  | drained d | drainGaveUp d => cases d <;> exact .of_same rfl rfl id
  | pinged rest =>
    cases last
    · exact .refl s
    · simp only [if_true, openWindow]; split <;> exact .of_same rfl rfl id
  | detached => rw [detachFinal_eq]; exact .of_same rfl rfl id
  | noItem | built | missed | drainMissed => exact .refl s
  | queued | full | locked | drainLocked | booted | answered => exact .of_same rfl rfl id

theorem echoDone_decStep (cur : QueuedFrame) (s : State) : DecStep s (echoDone cur s) := by
  rw [echoDone_eq]
  refine .of_same rfl rfl fun h => ?_
  cases s.txaEchoBad <;> exact h

theorem TxaStep.decStep {s t : State} (h : TxaStep s t) : DecStep s t := by
  cases h with
  | sent contended cur b =>
    have ho := hearOwn_decStep chip contended ⟨b, s.txaIdx == 0⟩
      { s with lineOut := true, waveform := s.waveform ++ charCells b (s.txaIdx == 0) }
    exact ⟨ho.legal, ho.faults, ho.flag, ho.afterFault⟩
  | echoEnded cur ch rest =>
    exact DecStep.trans (u := echoPopped cur ch rest s) (.of_same rfl rfl id) (echoDone_decStep cur _)
  | echoTimedOut cur => exact DecStep.trans (u := { s with txaEchoBad := true }) (.of_same rfl rfl id) (echoDone_decStep cur _)
  | started | echoed | respTimedOut => exact .of_same rfl rfl id

theorem raiseFaults_decStep (faults : List Nat) (s : State) : DecStep s (raiseFaults faults s) := by
  rw [raiseFaults_eq]
  refine ⟨id, by simp, fun h => ?_, .inl⟩
  simp only
  split
  · exact h
  · rfl

theorem Atomic.decStep {s t : State} (h : Atomic s t) : DecStep s t := by
  cases h with
  | rejects e i => exact (DecStep.raise s e i).trans (.of_same rfl rfl id)
  | decodes faults n =>
    have hf := raiseFaults_decStep faults { s with draws := n }
    exact ⟨hf.legal, hf.faults, hf.flag, hf.afterFault⟩
  | pushes ch => exact pushChar_decStep chip s ch
  | receives b m t hst => exact stepFrx_decStep hst
  | txa t hb ht => exact ht.decStep
  | waits | returns | takes | resets | locks | unlocks => exact .of_same rfl rfl id

theorem setTask_decStep (s : State) (a : Agent) (t : Task) : DecStep s (s.setTask a t) := by
  rw [setTask_fields]; exact .of_same rfl rfl id

theorem step_decStep (s t : State) (h : step s = .next t) : DecStep s t := by
  refine step_keeps_task (DecStep s) (fun _ _ _ => True) ?_ ?_ ?_ ?_ ?_ ?_ ?_ s t (.refl s) h
  · intro u x hu
    exact hu.trans (.of_same rfl rfl id)
  · intro u v hu hv
    exact hu.trans hv.decStep
  · intro u w hu _
    exact hu.trans (.of_same rfl rfl id)
  · intro u a _ v t' hu _ hst
    exact hu.trans (hst.decStep.trans (setTask_decStep v a t'))
  · intro u _ v _ hu _ hf
    exact ⟨hu.trans hf.decStep, trivial⟩
  · intro u a _ hu _
    exact hu.trans (setTask_decStep u a _)
  · intro u v hu hv
    exact hu.trans hv.decStep

/-- Settles O51: the receiver's registers by `frxInv_step`, DEC's position by `step_decStep`. -/
theorem receiverInvariantKept : Obligations.ReceiverInvariantKept :=
  ⟨frxInv_step, fun s t hs h => (step_decStep s t h).legal hs, fun s t h => (step_decStep s t h).afterFault⟩

end Sys2Proof.Machine
end

section
/-! The queue, its lock and `rxf` through one step (O56; 10_state.md R24, R28, 43_transmit_queue.md R200 to R206). -/
namespace Sys2Proof.Machine

/-! ### The queue and TXA's registers in the parts of a step -/

theorem Dispatched.sendView {s u : State} {l : List Item} (h : Dispatched s u l) : u.sendView = s.sendView := by
  cases h with
  | confirm p => rw [presenceConfirm_eq]; split <;> rfl
  | attach ha => rw [attach_eq s (by rw [ha]; decide)]; rfl
  | ignored | message | error | setting | detach => rfl

theorem countFailure_sendView (s : State) : (countFailure s).sendView = s.sendView := by
  rw [countFailure_eq]; rfl

theorem shutdown_sendView (s : State) : (shutdown s).sendView = s.sendView := by
  simp only [State.sendView, shutdown_q, shutdown_txaBatch, shutdown_txaCur, shutdown_txaPhase, shutdown_txaIdx,
    shutdown_txaEidx, shutdown_lineOut]

/-- The first step of an operation leaves the queue and TXA's registers as they are, but where TXA takes a frame and so
ends its response wait (44_transmit_agent.md R232). -/
theorem First.sendView {s u : State} {d : Prop} {a : Agent} {l : List Item} (h : First s d a u l) :
    u.sendView = s.sendView ∨
      (a = .txa ∧ s.txaPhase = .awaitResponse ∧ u.sendView = (finishEntry s).sendView) := by
  cases h with
  | received _ _ h => exact .inl h.sendView
  | failure => exact .inl (countFailure_sendView s)
  | shutdown => exact .inl ((shutdown_sendView _).trans (countFailure_sendView s))
  | hears _ _ h => exact .inl h.same.sendView
  | respFrame v w _ _ h1 h2 h3 h4 h5 =>
    refine .inr ⟨rfl, h1, ?_⟩
    have hw : w.sendView = s.sendView := h4.sendView.trans h3.same.sendView
    rw [h5.same.sendView]
    exact congrArg (fun v : SendView => { v with txaCur := none, txaPhase := .idle }) hw
  | lstFrame v w _ _ h1 h3 h4 h5 =>
    exact .inl (h5.same.sendView.trans (h4.sendView.trans h3.same.sendView))
  | nothing | hostRejected | hostSends | enqueue | drainCaller | drainBatch | sends | pings | boot => exact .inl rfl

theorem First.q {s u : State} {d : Prop} {a : Agent} {l : List Item} (h : First s d a u l) : u.q = s.q := by
  rcases h.sendView with e | ⟨-, -, e⟩ <;> exact congrArg SendView.q e

/-- An indivisible instruction leaves the queue and TXA's registers as they are, unless it is a step of TXA's own. -/
theorem Atomic.sendView {s t : State} (h : Atomic s t) :
    t.sendView = s.sendView ∨ (s.busy .txa = false ∧ TxaStep s t) := by
  cases h with
  | decodes faults n => exact .inl (raiseFaults_same faults _).sendView
  | pushes ch => exact .inl (pushChar_same chip s ch).sendView
  | receives b m t hs => exact .inl (stepFrx_same chip b m s t hs).sendView
  | txa t hb hs => exact .inr ⟨hb, hs⟩
  | waits | returns | rejects | takes | resets | locks | unlocks => exact .inl rfl

theorem TxaStep.q {s t : State} (h : TxaStep s t) : t.q = s.q := by
  cases h with
  | sent contended cur b => exact (hearOwn_same chip contended _ _).q
  | echoEnded cur ch rest => rw [echoDone_eq]; rfl
  | echoTimedOut cur => rw [echoDone_eq]
  | started | echoed | respTimedOut => rfl

theorem Atomic.q {s t : State} (h : Atomic s t) : t.q = s.q := by
  rcases h.sendView with e | ⟨-, ht⟩
  · exact congrArg SendView.q e
  · exact ht.q

/-! ### The lock -/

theorem Dispatched.lock {s u : State} {l : List Item} (h : Dispatched s u l) : u.lock = s.lock := by
  cases h with
  | confirm p => rw [presenceConfirm_eq]; split <;> rfl
  | attach ha => rw [attach_eq s (by rw [ha]; decide)]
  | ignored | message | error | setting | detach => rfl

/-- No first step takes or frees the lock. -/
theorem First.lock {s u : State} {d : Prop} {a : Agent} {l : List Item} (h : First s d a u l) : u.lock = s.lock := by
  cases h with
  | received _ _ h => exact h.lock
  | failure => rw [countFailure_eq]
  | shutdown => rw [shutdown_lock, countFailure_eq]
  | hears _ _ h => exact h.same.lock
  | respFrame v w _ _ h1 h2 h3 h4 h5 => exact h5.same.lock.trans (h4.lock.trans h3.same.lock)
  | lstFrame v w _ _ h1 h3 h4 h5 => exact h5.same.lock.trans (h4.lock.trans h3.same.lock)
  | nothing | hostRejected | hostSends | enqueue | drainCaller | drainBatch | sends | pings | boot => rfl

theorem TxaStep.lock {s t : State} (h : TxaStep s t) : t.lock = s.lock := by
  cases h with
  | sent contended cur b => exact (hearOwn_same chip contended _ _).lock
  | echoEnded cur ch rest => rw [echoDone_eq]; rfl
  | echoTimedOut cur => rw [echoDone_eq]
  | started | echoed | respTimedOut => rfl

/-- What an indivisible instruction does to the lock: a `try_lock` that finds it free, an `unlock` by its holder. -/
theorem Atomic.lock {s t : State} (h : Atomic s t) : t.lock = s.lock ∨ s.lock = .free ∨
    ∃ a, s.busy a = false ∧ s.lock = .held a := by
  cases h with
  | decodes faults n => exact .inl (raiseFaults_same faults _).lock
  | pushes ch => exact .inl (pushChar_same chip s ch).lock
  | receives b m t hs => exact .inl (stepFrx_same chip b m s t hs).lock
  | txa t hb hs => exact .inl hs.lock
  | locks a h => exact .inr (.inl h)
  | unlocks a hb h => exact .inr (.inr ⟨a, hb, h⟩)
  | waits | returns | rejects | takes | resets => exact .inl rfl

/-- What a step of an agent inside an operation does to the lock: it takes the free lock, or frees the one it holds. -/
theorem Stepped.lock {c : Config} {a : Agent} {s u : State} {last all : Bool} {l : List Item} {t : Task}
    (h : Stepped c a s last all l u t) : u.lock = s.lock ∨ s.lock = .free ∨ ∃ x rest, l = x :: rest ∧ x.holds = true := by
  cases h with
  | queued | full | drained => exact .inr (.inr ⟨_, _, rfl, rfl⟩)
  | locked _ _ _ h | drainLocked _ _ _ h => exact .inr (.inl h)
  | drainGaveUp d => cases d <;> exact .inl rfl
  | pinged rest =>
    cases last
    · exact .inl rfl
    · simp only [if_true, openWindow]; split <;> exact .inl rfl
  | detached => rw [detachFinal_eq]; exact .inl rfl
  | noItem | built | gaveUp | missed | drainMissed | booted | answered => exact .inl rfl

/-- Of the items of an agent only the first one may hold the lock, and then the agent is its holder (R28). -/
structure LockFits (lock : Lock) (a : Agent) (l : List Item) : Prop where
  holder    : ∀ i, l.head? = some i → i.holds = true → lock = .held a
  onlyFirst : ∀ i ∈ l.tail, i.holds = false

theorem queueInv_iff (c : Config) (s : State) : QueueInv c s ↔
    (s.q.length ≤ c.qDepth ∧ s.rxf.length ≤ c.rxfDepth) ∧ ∀ e ∈ s.tasks, LockFits s.lock e.1 e.2.items := by
  constructor
  · rintro ⟨hq, hr, hh, ho⟩
    exact ⟨⟨hq, hr⟩, fun e he => ⟨hh e he, ho e he⟩⟩
  · rintro ⟨⟨hq, hr⟩, ht⟩
    exact ⟨hq, hr, fun e he => (ht e he).holder, fun e he => (ht e he).onlyFirst⟩

/-- Items none of which holds the lock. -/
theorem LockFits.of_none {lock : Lock} {a : Agent} {l : List Item} (h : ∀ i ∈ l, i.holds = false) :
    LockFits lock a l := by
  refine ⟨fun i hi hh => ?_, fun i hi => h i (List.mem_of_mem_tail hi)⟩
  rw [h i (List.mem_of_mem_head? hi)] at hh
  cases hh

theorem LockFits.first_holds {lock : Lock} {a : Agent} {x : Item} {l : List Item} (h : LockFits lock a (x :: l))
    (hx : x.holds = true) : lock = .held a := h.holder x rfl hx

/-- What becomes of the lock matters to an agent only while it holds it. -/
theorem LockFits.change {lock lock' : Lock} {a : Agent} {l : List Item} (h : LockFits lock a l)
    (hl : lock' = lock ∨ lock ≠ .held a) : LockFits lock' a l := by
  rcases hl with rfl | hne
  · exact h
  · exact ⟨fun i hi hh => absurd (h.holder i hi hh) hne, h.onlyFirst⟩

/-- A step of an agent leaves its own items fitting the lock. -/
theorem Stepped.lockFits {c : Config} {a : Agent} {s u : State} {last all : Bool} {l : List Item} {t : Task}
    (h : Stepped c a s last all l u t) (hl : LockFits s.lock a l) : LockFits u.lock a t.items := by
  cases h with
  | noItem => exact hl
  | built | missed | drainMissed | full => exact ⟨by simp [Item.holds], hl.onlyFirst⟩
  | locked | drainLocked => exact ⟨fun _ _ _ => rfl, hl.onlyFirst⟩
  | queued | gaveUp | drained | drainGaveUp | pinged | booted | detached | answered => exact .of_none hl.onlyFirst

/-- What holds of every kind of item that operations begin with holds of all that a first step leaves; `d` says that the
operation is `dequeue_all_ready`. -/
theorem First.forall_items {s u : State} {d : Prop} {a : Agent} {l : List Item} (h : First s d a u l) (P : Item → Prop)
    (frame : ∀ p src w, P (.frame p src w)) (enq : ∀ f n, P (.enq f n false)) (batch : ∀ n, P (.drain .batch n false))
    (caller : d → ∀ n, P (.drain .caller n false)) (last : ∀ x ∈ [Item.markPing, .enterSteady, .finishDetach, .ret], P x) :
    ∀ i ∈ l, P i := by
  have frames : ∀ {l : List Item}, Frames l → ∀ i ∈ l, P i := by
    intro l hl i hi
    obtain ⟨-, p, src, w, rfl⟩ := hl i hi
    exact frame p src w
  have concat : ∀ {l : List Item} {x : Item}, Frames l → P x → ∀ i ∈ l ++ [x], P i := fun hl hx =>
    List.forall_mem_append.mpr ⟨frames hl, List.forall_mem_singleton.mpr hx⟩
  have dispatched : ∀ {v w : State} {l : List Item}, Dispatched v w l → ∀ i ∈ l, P i := by
    intro v w l hd
    cases hd with
    | detach => exact concat frames_push (last _ (by simp))
    | ignored | message | error | setting | confirm | attach => nofun
  cases h with
  | nothing | hostRejected | hears => nofun
  | received _ _ h => exact dispatched h
  | hostSends n l hl => exact concat hl (last _ (by simp))
  | enqueue a f w => exact List.forall_mem_cons.mpr ⟨enq _ _, List.forall_mem_singleton.mpr (last _ (by simp))⟩
  | drainCaller hd => exact List.forall_mem_singleton.mpr (caller hd _)
  | drainBatch => exact List.forall_mem_singleton.mpr (batch _)
  | sends a l ha hl => exact frames hl
  | pings l hl => exact concat hl (last _ (by simp))
  | failure l hl => exact concat hl (last _ (by simp))
  | shutdown l hl => exact frames hl
  | boot => exact concat frames_push (last _ (by simp))
  | respFrame v w _ _ h1 h2 h3 h4 h5 => exact dispatched h4
  | lstFrame v w _ _ h1 h3 h4 h5 => exact dispatched h4

/-- No operation begins with the lock in its agent's hands. -/
theorem First.holds {s u : State} {d : Prop} {a : Agent} {l : List Item} (h : First s d a u l) :
    ∀ i ∈ l, i.holds = false :=
  h.forall_items (fun i => i.holds = false) (fun _ _ _ => rfl) (fun _ _ => rfl) (fun _ => rfl) (fun _ _ => rfl)
    (by simp [Item.holds])

/-! ### The bounds -/

theorem pushChar_fifo {c : Config} {s : State} (ch : Character) (h : s.rxf.length ≤ c.rxfDepth) :
    (pushChar c s ch).rxf.length ≤ c.rxfDepth := by
  unfold pushChar
  split
  · next hr =>
    rw [hasRoom_iff] at hr
    simpa using hr
  · exact h

theorem stepFrx_rxf {c : Config} {b : Byte} {m : Level} {s t : State} (h : stepFrx c b m s = .next t) :
    t.rxf = s.rxf := by
  rcases stepFrx_next c b m s t h with ⟨_, _, rfl⟩ | ⟨_, _, rfl⟩ | ⟨_, _, _, rfl⟩ | ⟨_, _, _, rfl⟩ | ⟨_, _, _, _, rfl⟩ |
    ⟨_, _, _, _, rfl⟩ | ⟨_, _, _, rfl⟩ | ⟨_, _, _, rfl⟩ <;> rfl

/-- Hearing drops what finds no room, and receiving only takes characters away (R164, R231). -/
theorem Heard.fifo {s u : State} (h : Heard s u) (hs : s.rxf.length ≤ chip.rxfDepth) : u.rxf.length ≤ chip.rxfDepth := by
  refine h.keeps (fun u => u.rxf.length ≤ chip.rxfDepth) (fun u l hu => ?_) (fun u v ch rest hr hst hu => ?_) hs
  · exact hearPeer_keeps (fun u => u.rxf.length ≤ chip.rxfDepth) chip (fun _ _ _ _ h => h) (fun _ _ h => h)
      (fun _ ch h => pushChar_fifo ch h) l u hu
  · rw [hr, List.length_cons] at hu
    rw [stepFrx_rxf hst]
    exact Nat.le_of_succ_le hu

theorem Dispatched.rxf {s u : State} {l : List Item} (h : Dispatched s u l) : u.rxf = s.rxf := by
  cases h with
  | confirm p => rw [presenceConfirm_eq]; split <;> rfl
  | attach ha => rw [attach_eq s (by rw [ha]; decide)]
  | ignored | message | error | setting | detach => rfl

theorem First.fifo {s u : State} {d : Prop} {a : Agent} {l : List Item} (h : First s d a u l)
    (hs : s.rxf.length ≤ chip.rxfDepth) : u.rxf.length ≤ chip.rxfDepth := by
  cases h with
  | received _ _ h => rw [h.rxf]; exact hs
  | failure => rw [countFailure_eq]; exact hs
  | shutdown => rw [shutdown_rxf, countFailure_eq]; exact hs
  | hears _ _ h => exact h.fifo hs
  | respFrame v w _ _ h1 h2 h3 h4 h5 => exact h5.fifo (le_of_eq_of_le (congrArg _ h4.rxf) (h3.fifo hs))
  | lstFrame v w _ _ h1 h3 h4 h5 => exact h5.fifo (le_of_eq_of_le (congrArg _ h4.rxf) (h3.fifo hs))
  | nothing | hostRejected | hostSends | enqueue | drainCaller | drainBatch | sends | pings | boot => exact hs

theorem TxaStep.fifo {s t : State} (h : TxaStep s t) (hs : s.rxf.length ≤ chip.rxfDepth) :
    t.rxf.length ≤ chip.rxfDepth := by
  have popped : ∀ {ch : Character} {rest : List Character}, s.rxf = ch :: rest → rest.length ≤ chip.rxfDepth := by
    intro ch rest hr
    rw [hr, List.length_cons] at hs
    exact Nat.le_of_succ_le hs
  cases h with
  | started => exact Nat.zero_le _
  | sent contended cur b =>
    exact hearOwn_keeps (fun u => u.rxf.length ≤ chip.rxfDepth) chip (fun _ _ _ _ h => h) (fun _ _ h => h)
      (fun _ ch h => pushChar_fifo ch h) contended _ _ hs
  | echoed _ _ _ _ _ hr => exact popped hr
  | echoEnded _ _ _ _ _ _ hr => rw [echoDone_eq]; exact popped hr
  | echoTimedOut => rw [echoDone_eq]; exact hs
  | respTimedOut => exact hs

theorem Atomic.fifo {s t : State} (h : Atomic s t) (hs : s.rxf.length ≤ chip.rxfDepth) :
    t.rxf.length ≤ chip.rxfDepth := by
  cases h with
  | decodes faults n => rw [raiseFaults_eq]; exact hs
  | pushes ch => exact pushChar_fifo ch hs
  | receives b m t hst => rw [stepFrx_rxf hst]; exact hs
  | txa t hb ht => exact ht.fifo hs
  | waits | returns | rejects | takes | resets | locks | unlocks => exact hs

/-- A step of an agent inside an operation keeps both bounds: an entry joins only where there is room (R203). -/
theorem Stepped.bounds {c : Config} {a : Agent} {s u : State} {last all : Bool} {l : List Item} {t : Task}
    (h : Stepped c a s last all l u t) (hs : s.q.length ≤ c.qDepth ∧ s.rxf.length ≤ c.rxfDepth) :
    u.q.length ≤ c.qDepth ∧ u.rxf.length ≤ c.rxfDepth := by
  cases h with
  | queued f n rest hroom => exact ⟨by simpa using hroom, hs.2⟩
  | drained d => cases d <;> exact ⟨Nat.zero_le _, hs.2⟩
  | drainGaveUp d => cases d <;> exact hs
  | pinged rest =>
    cases last
    · exact hs
    · simp only [if_true, openWindow]; split <;> exact hs
  | detached => rw [detachFinal_eq]; exact ⟨hs.1, Nat.zero_le _⟩
  | noItem | built | full | gaveUp | locked | missed | drainLocked | drainMissed | booted | answered => exact hs

/-! ### The invariant -/

theorem queueInv_stepped {s u : State} {a : Agent} {t t' : Task} (h : QueueInv chip s) (ht : (a, t) ∈ s.tasks)
    (hst : Stepped chip a s t.lastOk t.allOk t.items u t') : QueueInv chip (u.setTask a t') := by
  rw [queueInv_iff] at h ⊢
  rw [setTask_q, setTask_rxf, setTask_lock]
  have own : LockFits s.lock a t.items := h.2 _ ht
  refine ⟨hst.bounds h.1, fun e he => ?_⟩
  rcases mem_setTask he with ⟨rfl, -⟩ | ⟨he, hne⟩
  · exact hst.lockFits own
  · rw [hst.tasks] at he
    refine (h.2 e he).change ?_
    rcases hst.lock with e | e | ⟨x, rest, hx, hh⟩
    · exact .inl e
    · exact .inr (by rw [e]; nofun)
    · rw [hx] at own
      refine .inr ?_
      rw [own.first_holds hh]
      exact fun k => hne (Lock.held.inj k).symm

theorem queueInv_atomic {s t : State} (h : QueueInv chip s) (ha : Atomic s t) : QueueInv chip t := by
  rw [queueInv_iff] at h ⊢
  rw [ha.q, ha.tasks]
  refine ⟨⟨h.1.1, ha.fifo h.1.2⟩, fun e he => (h.2 e he).change ?_⟩
  rcases ha.lock with e | e | ⟨b, hb, e⟩
  · exact .inl e
  · exact .inr (by rw [e]; nofun)
  · exact .inr (by rw [e]; exact fun k => (busy_false_iff s b).mp hb _ he (Lock.held.inj k).symm)

/-- Settles O56: the lock and the bounds through each part of a step. -/
theorem queueInvariantKept : Obligations.QueueInvariantKept := by
  refine step_keeps_task (QueueInv chip) (fun _ _ l => ∀ i ∈ l, i.holds = false) ?_ ?_ ?_ ?_ ?_ ?_ ?_
  · exact fun s x ⟨hq, hr, hh, ho⟩ => ⟨hq, hr, hh, ho⟩
  · intro s u h hu
    rw [queueInv_iff] at h ⊢
    rw [hu.same.q, hu.same.tasks, hu.same.lock]
    exact ⟨⟨h.1.1, hu.fifo h.1.2⟩, h.2⟩
  · exact fun s w ⟨hq, hr, hh, ho⟩ _ => ⟨hq, hr, hh, ho⟩
  · exact fun s a t u t' h ht hst => queueInv_stepped h ht hst
  · intro s a u l h _ hf
    rw [queueInv_iff] at h ⊢
    rw [hf.q, hf.tasks, hf.lock]
    exact ⟨⟨⟨h.1.1, hf.fifo h.1.2⟩, h.2⟩, hf.holds⟩
  · intro u a l h hl
    rw [queueInv_iff] at h ⊢
    rw [setTask_q, setTask_rxf, setTask_lock]
    refine ⟨h.1, fun e he => ?_⟩
    rcases mem_setTask he with ⟨rfl, -⟩ | ⟨he, -⟩
    · exact .of_none hl
    · exact h.2 e he
  · exact fun s t h ha => queueInv_atomic h ha

end Sys2Proof.Machine
end

section
/-! The frames to be sent and TXA's registers through one step (O57; 10_state.md R23, R27, R30, R50,
43_transmit_queue.md R203, R206, 44_transmit_agent.md R223 to R235). -/
namespace Sys2Proof.Machine

/-! ### The invariant as a property of TXA's part of the state and of each agent's items -/

/-- Every entry is a valid frame, and TXA's registers fit its phase. -/
structure SendFits (v : SendView) : Prop where
  queued   : ∀ f ∈ v.q, verdict f.bytes = .frame
  batched  : ∀ f ∈ v.txaBatch, verdict f.bytes = .frame
  current  : ∀ f, v.txaCur = some f → verdict f.bytes = .frame
  idle     : v.txaPhase = .idle ↔ v.txaCur = none
  echoes   : v.txaEidx ≤ v.txaIdx
  sending  : ∀ f, v.txaPhase = .sending → v.txaCur = some f → v.txaIdx < f.bytes.length
  driven   : ∀ f, v.txaPhase = .echo ∨ v.txaPhase = .awaitResponse → v.txaCur = some f → v.txaIdx = f.bytes.length
  lineIdle : v.lineOut = true

/-- The frames of an agent's items are ones that `build` returns, and a drain belongs to TXA: into the batch register
alone, while TXA is idle with an empty batch (R223). -/
structure ItemsSend (v : SendView) (a : Agent) (l : List Item) : Prop where
  sendable : ∀ i ∈ l, i.sendable = true
  draining : ∀ d n h, Item.drain d n h ∈ l →
    a = .txa ∧ (d = .batch → v.txaPhase = .idle ∧ v.txaBatch = [] ∧ l = [.drain d n h])

theorem transmitInv_iff (s : State) :
    TransmitInv s ↔ SendFits s.sendView ∧ ∀ e ∈ s.tasks, ItemsSend s.sendView e.1 e.2.items := by
  constructor
  · rintro ⟨hq, hb, hc, hu, hi, he, hs, hd, hdr, hl⟩
    exact ⟨⟨hq, hb, hc, hi, he, hs, hd, hl⟩, fun e h => ⟨hu e h, hdr e h⟩⟩
  · rintro ⟨⟨hq, hb, hc, hi, he, hs, hd, hl⟩, ht⟩
    exact ⟨hq, hb, hc, fun e h => (ht e h).sendable, hi, he, hs, hd, fun e h => (ht e h).draining, hl⟩

theorem TransmitInv.itemsSend {s : State} (h : TransmitInv s) {a : Agent} {t : Task} (ht : (a, t) ∈ s.tasks) :
    ItemsSend s.sendView a t.items := ((transmitInv_iff s).mp h).2 _ ht

/-- An agent's items see of TXA its phase and its batch, and those only if it is TXA itself. -/
theorem ItemsSend.change {v w : SendView} {a : Agent} {l : List Item} (h : ItemsSend v a l)
    (hw : a ≠ .txa ∨ (w.txaPhase = v.txaPhase ∧ w.txaBatch = v.txaBatch)) : ItemsSend w a l := by
  refine ⟨h.sendable, fun d n k hi => ?_⟩
  obtain ⟨ha, hd⟩ := h.draining d n k hi
  rcases hw with hne | ⟨hp, hb⟩
  · exact absurd ha hne
  · rw [hp, hb]; exact ⟨ha, hd⟩

/-- What is left after the first item holds no drain into the batch, so it fits whatever TXA has become. -/
theorem ItemsSend.tail {v : SendView} {a : Agent} {x : Item} {l : List Item} (h : ItemsSend v a (x :: l))
    (w : SendView) : ItemsSend w a l := by
  refine ⟨fun i hi => h.sendable i (List.mem_cons_of_mem _ hi), fun d n k hi => ?_⟩
  obtain ⟨ha, hd⟩ := h.draining d n k (List.mem_cons_of_mem _ hi)
  refine ⟨ha, fun hb => ?_⟩
  obtain ⟨-, -, hl⟩ := hd hb
  rw [(List.cons_eq_cons.mp hl).2] at hi
  cases hi

theorem ItemsSend.nil (v : SendView) (a : Agent) : ItemsSend v a [] := ⟨nofun, nofun⟩

/-- The frame that is built for a peer is valid (40_frame_codec.md R131). -/
theorem verdict_engineFrame {d : Peer} {src : Source} {w : Bool} (h : (Item.frame d src w).sendable = true)
    (st : Settings) : verdict (engineFrame d (src.payload st)) = .frame := by
  refine verdict_frameBytes _ _ _ _ ?_
  cases src with
  | fixed p => exact of_decide_eq_true h
  | setting x =>
    have hx : (pushPayload st x).length = 2 := by cases x <;> rfl
    exact le_of_eq_of_le hx (by decide)

/-- An item that goes on may stand for the first one. -/
theorem ItemsSend.continued {v : SendView} {a : Agent} {x y : Item} {l : List Item} {st : Settings}
    (h : ItemsSend v a (x :: l)) (hy : x.Continues st y) : ItemsSend v a (y :: l) := by
  have hrest := h.tail v
  have hx := h.sendable x List.mem_cons_self
  have hy' : y.sendable = true := by
    cases hy with
    | build d src w n => exact beq_iff_eq.mpr (verdict_engineFrame hx st)
    | enqueue f n m j k => exact hx
    | drain => rfl
  refine ⟨fun i hi => ?_, fun d n k hi => ?_⟩
  · rcases List.mem_cons.mp hi with rfl | hi
    · exact hy'
    · exact hrest.sendable i hi
  · rcases List.mem_cons.mp hi with rfl | hi
    · cases hy with
      | drain _ m _ j _ =>
        obtain ⟨ha, hd⟩ := h.draining _ m j List.mem_cons_self
        refine ⟨ha, fun hb => ?_⟩
        obtain ⟨hp, he, hl⟩ := hd hb
        rw [(List.cons_eq_cons.mp hl).2]
        exact ⟨hp, he, rfl⟩
    · obtain ⟨ha, hd⟩ := h.draining d n k (List.mem_cons_of_mem _ hi)
      refine ⟨ha, fun hb => ?_⟩
      obtain ⟨-, -, hl⟩ := hd hb
      rw [(List.cons_eq_cons.mp hl).2] at hi
      cases hi

/-! ### One step of an agent inside an operation -/

/-- What a step of an agent does to the queue and TXA's registers: an entry joins, or a drain takes them all, into the
batch register or for the caller, or gives up with an empty batch (R203, R206). -/
theorem Stepped.sendView {c : Config} {a : Agent} {s u : State} {last all : Bool} {l : List Item} {t : Task}
    (h : Stepped c a s last all l u t) : u.sendView = s.sendView ∨
      (∃ f n rest, l = .enq f n true :: rest ∧ u.sendView = { s.sendView with q := s.q ++ [f] }) ∨
      (∃ n rest, l = .drain .batch n true :: rest ∧ u.sendView = { s.sendView with q := [], txaBatch := s.q }) ∨
      (∃ n rest, l = .drain .caller n true :: rest ∧ u.sendView = { s.sendView with q := [] }) ∨
      (∃ rest, l = .drain .batch 0 false :: rest ∧ u.sendView = { s.sendView with txaBatch := [] }) := by
  cases h with
  | queued f n rest => exact .inr (.inl ⟨f, n, rest, rfl, rfl⟩)
  | drained d n rest =>
    cases d
    · exact .inr (.inr (.inl ⟨n, rest, rfl, rfl⟩))
    · exact .inr (.inr (.inr (.inl ⟨n, rest, rfl, rfl⟩)))
  | drainGaveUp d rest =>
    cases d
    · exact .inr (.inr (.inr (.inr ⟨rest, rfl, rfl⟩)))
    · exact .inl rfl
  | pinged rest =>
    cases last
    · exact .inl rfl
    · simp only [if_true, openWindow]; split <;> exact .inl rfl
  | detached => rw [detachFinal_eq]; exact .inl rfl
  | noItem | built | full | gaveUp | locked | missed | drainLocked | drainMissed | booted | answered => exact .inl rfl

theorem Stepped.sendFits {c : Config} {a : Agent} {s u : State} {last all : Bool} {l : List Item} {t : Task}
    (h : Stepped c a s last all l u t) (hl : ItemsSend s.sendView a l) (hs : SendFits s.sendView) :
    SendFits u.sendView := by
  rcases h.sendView with e | ⟨f, n, rest, rfl, e⟩ | ⟨n, rest, rfl, e⟩ | ⟨n, rest, rfl, e⟩ | ⟨rest, rfl, e⟩ <;> rw [e]
  · exact hs
  · refine { hs with queued := fun g hg => ?_ }
    rcases List.mem_append.mp hg with hg | hg
    · exact hs.queued g hg
    · rw [List.mem_singleton.mp hg]
      exact beq_iff_eq.mp (hl.sendable _ List.mem_cons_self)
  · exact { hs with queued := nofun, batched := hs.queued }
  · exact { hs with queued := nofun }
  · exact { hs with batched := nofun }

/-- A step of an agent leaves its own items fitting TXA's registers. -/
theorem Stepped.itemsSend {c : Config} {a : Agent} {s u : State} {last all : Bool} {l : List Item} {t : Task}
    (h : Stepped c a s last all l u t) (hl : ItemsSend s.sendView a l) : ItemsSend u.sendView a t.items := by
  cases h with
  | noItem => exact hl
  | built => exact hl.continued (.build ..)
  | full | locked | missed => exact hl.continued (st := s.set) (.enqueue ..)
  | drainLocked | drainMissed => exact hl.continued (st := s.set) (.drain ..)
  | queued | gaveUp | drained | drainGaveUp | pinged | booted | detached | answered => exact hl.tail _

/-- What one agent's step does to TXA's phase and batch concerns no other agent. -/
theorem Stepped.itemsSend_other {c : Config} {a b : Agent} {s u : State} {last all : Bool} {l m : List Item} {t : Task}
    (h : Stepped c a s last all l u t) (hl : ItemsSend s.sendView a l) (hm : ItemsSend s.sendView b m) (hab : b ≠ a) :
    ItemsSend u.sendView b m := by
  refine hm.change ?_
  rcases h.sendView with e | ⟨f, n, rest, rfl, e⟩ | ⟨n, rest, rfl, e⟩ | ⟨n, rest, rfl, e⟩ | ⟨rest, rfl, e⟩
  · exact .inr (by rw [e]; exact ⟨rfl, rfl⟩)
  · exact .inr (by rw [e]; exact ⟨rfl, rfl⟩)
  all_goals exact .inl ((hl.draining _ _ _ List.mem_cons_self).1 ▸ hab)

/-! ### TXA's own steps -/

/-- The end of an entry (R230). -/
theorem SendFits.finished {v : SendView} (h : SendFits v) : SendFits { v with txaCur := none, txaPhase := .idle } :=
  { h with
    current := nofun
    idle := by simp
    sending := nofun
    driven := nofun }

theorem finishEntry_sendView (s : State) :
    (finishEntry s).sendView = { s.sendView with txaCur := none, txaPhase := .idle } := rfl

/-- The end of an echo check (R229): the response is awaited, or the entry ends. -/
theorem echoDone_sendView (cur : QueuedFrame) (s : State) : (echoDone cur s).sendView =
    if cur.awaits then { s.sendView with txaPhase := .awaitResponse }
    else { s.sendView with txaCur := none, txaPhase := .idle } := by
  rw [echoDone_eq]
  cases cur.awaits <;> rfl

theorem SendFits.echoDone {v : SendView} {cur : QueuedFrame} (h : SendFits v) (hphase : v.txaPhase = .echo)
    (hcur : v.txaCur = some cur) : SendFits (if cur.awaits then { v with txaPhase := .awaitResponse }
      else { v with txaCur := none, txaPhase := .idle }) := by
  split
  · refine { h with idle := ?_, sending := nofun, driven := fun f _ hf => h.driven f (.inl hphase) hf }
    simp [hcur]
  · exact h.finished

/-- A popped echo character counts one more, and none is popped that was not sent (R227). -/
theorem SendFits.echoPopped {v : SendView} (h : SendFits v) (hidx : v.txaEidx < v.txaIdx) :
    SendFits { v with txaEidx := v.txaEidx + 1 } := { h with echoes := hidx }

/-- A valid frame has at least five bytes (30_encoding.md R95). -/
theorem length_pos_of_verdict {f : List Byte} (h : verdict f = .frame) : 0 < f.length := by
  have h5 := ((verdict_frame_iff f).mp h).1
  omega

theorem txaSent_sendView (contended : Bool) (ch : Character) (s : State) (wave : List Level) (idx : Nat)
    (phase : TxaPhase) :
    ({ hearOwn chip contended ch { s with lineOut := true, waveform := wave } with
      txaIdx := idx, txaPhase := phase } : State).sendView =
      { s.sendView with lineOut := true, txaIdx := idx, txaPhase := phase } :=
  congrArg (fun v : SendView => { v with txaIdx := idx, txaPhase := phase })
    (hearOwn_same chip contended ch { s with lineOut := true, waveform := wave }).sendView

theorem TxaStep.sendFits {s t : State} (h : TxaStep s t) (hs : SendFits s.sendView) : SendFits t.sendView := by
  cases h with
  | started e rest hphase hbatch =>
    have hb : ∀ f ∈ e :: rest, verdict f.bytes = .frame := fun f hf =>
      hs.batched f (show f ∈ s.txaBatch by rw [hbatch]; exact hf)
    have he := hb e List.mem_cons_self
    refine { hs with
      batched := fun f hf => hb f (List.mem_cons_of_mem _ hf)
      current := fun f hf => Option.some.inj hf ▸ he
      idle := by simp [State.sendView]
      echoes := Nat.le_refl _
      sending := fun f _ hf => Option.some.inj hf ▸ length_pos_of_verdict he
      driven := fun f hf => hf.elim nofun nofun }
  | sent contended cur b hphase hcur hb =>
    rw [txaSent_sendView]
    obtain ⟨hlt, -⟩ := List.getElem?_eq_some_iff.mp hb
    have hcur' : ∀ f, s.txaCur = some f → f = cur := fun f hf => Option.some.inj (hf.symm.trans hcur)
    have hne : s.txaCur ≠ none := by rw [hcur]; nofun
    refine { hs with
      idle := ?_
      echoes := Nat.le_succ_of_le hs.echoes
      sending := fun f hf hc => ?_
      driven := fun f hf hc => ?_
      lineIdle := rfl }
    · refine iff_of_false ?_ hne
      simp only
      split <;> nofun
    · obtain rfl := hcur' f hc
      simp only at hf ⊢
      split at hf
      · cases hf
      · show s.txaIdx + 1 < f.bytes.length
        omega
    · obtain rfl := hcur' f hc
      simp only at hf ⊢
      split at hf
      · assumption
      · exact hf.elim nofun nofun
  | echoed cur ch rest hidx => exact hs.echoPopped hidx
  | echoEnded cur ch rest hphase hidx hcur =>
    rw [echoDone_sendView]
    exact (hs.echoPopped hidx).echoDone hphase hcur
  | echoTimedOut cur hphase hcur =>
    rw [echoDone_sendView]
    exact hs.echoDone hphase hcur
  | respTimedOut => exact hs.finished

/-! ### The parts of a step -/

theorem setTask_sendView (s : State) (a : Agent) (t : Task) : (s.setTask a t).sendView = s.sendView := by
  rw [setTask_fields]; rfl

theorem transmitInv_of_view {s u : State} (h : TransmitInv s) (hv : u.sendView = s.sendView) (ht : u.tasks = s.tasks) :
    TransmitInv u := by
  rw [transmitInv_iff] at h ⊢
  rw [hv, ht]
  exact h

/-- TXA moves on while it is inside no operation: the items of the other agents fit all the same. -/
theorem transmitInv_of_free {s u : State} (h : TransmitInv s) (hb : s.busy .txa = false) (hv : SendFits u.sendView)
    (ht : u.tasks = s.tasks) : TransmitInv u := by
  rw [transmitInv_iff] at h ⊢
  rw [ht]
  exact ⟨hv, fun e he => (h.2 e he).change (.inl ((busy_false_iff s .txa).mp hb e he))⟩

theorem transmitInv_setTask {s : State} {a : Agent} {t : Task} (h : TransmitInv s)
    (ht : ItemsSend s.sendView a t.items) : TransmitInv (s.setTask a t) := by
  rw [transmitInv_iff] at h ⊢
  rw [setTask_sendView]
  refine ⟨h.1, fun e he => ?_⟩
  rcases mem_setTask he with ⟨rfl, -⟩ | ⟨he, -⟩
  · exact ht
  · exact h.2 e he

theorem transmitInv_stepped {s u : State} {a : Agent} {t t' : Task} (h : TransmitInv s) (ht : (a, t) ∈ s.tasks)
    (hst : Stepped chip a s t.lastOk t.allOk t.items u t') : TransmitInv (u.setTask a t') := by
  have hl := h.itemsSend ht
  rw [transmitInv_iff] at h ⊢
  rw [setTask_sendView]
  refine ⟨hst.sendFits hl h.1, fun e he => ?_⟩
  rcases mem_setTask he with ⟨rfl, -⟩ | ⟨he, hne⟩
  · exact hst.itemsSend hl
  · rw [hst.tasks] at he
    exact hst.itemsSend_other hl (h.2 e he) hne

theorem transmitInv_atomic {s t : State} (h : TransmitInv s) (ha : Atomic s t) : TransmitInv t := by
  rcases ha.sendView with e | ⟨hb, hst⟩
  · exact transmitInv_of_view h e ha.tasks
  · exact transmitInv_of_free h hb (hst.sendFits ((transmitInv_iff s).mp h).1) ha.tasks

theorem transmitInv_first {s u : State} {d : Prop} {a : Agent} {l : List Item} (h : TransmitInv s)
    (hb : s.busy a = false) (hf : First s d a u l) : TransmitInv u := by
  rcases hf.sendView with e | ⟨rfl, -, e⟩
  · exact transmitInv_of_view h e hf.tasks
  · refine transmitInv_of_free h hb ?_ hf.tasks
    rw [e, finishEntry_sendView]
    exact ((transmitInv_iff s).mp h).1.finished

/-- Sendable items without a drain. -/
theorem ItemsSend.of_frames {v : SendView} {a : Agent} {l : List Item} (hl : ∀ i ∈ l, i.sendable = true)
    (hd : ∀ i ∈ l, i.isDrain = false) : ItemsSend v a l := by
  refine ⟨hl, fun d n h hi => ?_⟩
  have hdrain := hd _ hi
  cases hdrain

theorem Frames.itemsSend {l : List Item} (h : Frames l) (v : SendView) (a : Agent) : ItemsSend v a l := by
  refine .of_frames (fun i hi => (h i hi).1) fun i hi => ?_
  obtain ⟨-, d, src, w, rfl⟩ := h i hi
  rfl

theorem Frames.itemsSend_concat {l : List Item} (h : Frames l) {x : Item} (hx : x.sendable = true)
    (hd : x.isDrain = false) (v : SendView) (a : Agent) : ItemsSend v a (l ++ [x]) := by
  refine .of_frames (fun i hi => ?_) fun i hi => ?_
  · rcases List.mem_append.mp hi with hi | hi
    · exact (h i hi).1
    · rw [List.mem_singleton.mp hi]; exact hx
  · rcases List.mem_append.mp hi with hi | hi
    · obtain ⟨-, d, src, w, rfl⟩ := h i hi
      rfl
    · rw [List.mem_singleton.mp hi]; exact hd

theorem Dispatched.itemsSend {s u : State} {l : List Item} (h : Dispatched s u l) (v : SendView) (a : Agent) :
    ItemsSend v a l := by
  cases h with
  | detach => exact frames_push.itemsSend_concat rfl rfl v a
  | ignored | message | error | setting | confirm | attach => exact .nil v a

/-- The items that the first step of an operation leaves: frames that can be built, or a drain of TXA's. -/
theorem First.itemsSend {s u : State} {d : Prop} {a : Agent} {l : List Item} (h : First s d a u l) :
    ItemsSend u.sendView a l := by
  cases h with
  | nothing | hostRejected | hears => exact .nil _ _
  | received _ _ h => exact h.itemsSend _ _
  | hostSends n l hl => exact hl.itemsSend_concat rfl rfl _ _
  | enqueue a f w ha hf => exact .of_frames (by simp [Item.sendable, hf]) (by simp [Item.isDrain])
  | drainCaller => exact ⟨by simp [Item.sendable], by simp⟩
  | drainBatch h1 h2 h3 =>
    refine ⟨by simp [Item.sendable], fun x n k hi => ?_⟩
    obtain ⟨rfl, rfl, rfl⟩ := Item.drain.inj (List.mem_singleton.mp hi)
    exact ⟨rfl, fun _ => ⟨h1, h2, rfl⟩⟩
  | sends a l ha hl => exact hl.itemsSend _ _
  | pings l hl => exact hl.itemsSend_concat rfl rfl _ _
  | failure l hl => exact hl.itemsSend_concat rfl rfl _ _
  | shutdown l hl => exact hl.itemsSend _ _
  | boot => exact frames_push.itemsSend_concat rfl rfl _ _
  | respFrame v w _ _ h1 h2 h3 h4 h5 => exact h4.itemsSend _ _
  | lstFrame v w _ _ h1 h3 h4 h5 => exact h4.itemsSend _ _

/-- Settles O57: the frames and TXA's registers through each part of a step. -/
theorem transmitInvariantKept : Obligations.TransmitInvariantKept := by
  refine step_keeps_task TransmitInv (fun u a l => ItemsSend u.sendView a l) ?_ ?_ ?_ ?_ ?_ ?_ ?_
  · exact fun s x h => transmitInv_of_view h rfl rfl
  · exact fun s u h hu => transmitInv_of_view h hu.same.sendView hu.same.tasks
  · exact fun s w h _ => transmitInv_of_view h rfl rfl
  · exact fun s a t u t' h ht hst => transmitInv_stepped h ht hst
  · exact fun s a u l h hb hf => ⟨transmitInv_first h hb hf, hf.itemsSend⟩
  · exact fun u a l h hl => transmitInv_setTask h hl
  · exact fun s t h ha => transmitInv_atomic h ha

end Sys2Proof.Machine
end

section
/-! The order of the frames to be sent through one step (O59; 10_state.md R27, 20_memory.md R74, 43_transmit_queue.md R208,
44_transmit_agent.md R230, R236, R237). -/
namespace Sys2Proof.Machine

/-! ### How the frames to be sent may change -/

/-- `pendingFrames` of TXA's part of the state. -/
def SendView.pending (v : SendView) : List QueuedFrame := v.txaCur.toList ++ v.txaBatch ++ v.q

theorem pendingFrames_eq (s : State) : s.pendingFrames = s.sendView.pending := rfl

/-- The frame in progress may leave: its response wait, or its echo check when it awaits no response, can end. -/
def SendView.Leaves (v : SendView) (f : QueuedFrame) : Prop :=
  v.txaCur = some f ∧ (v.txaPhase = .awaitResponse ∨ v.txaPhase = .echo ∧ f.awaits = false)

/-- The frames keep their order: at most the one in front leaves, and `new` ones join behind; the one in progress stays in
progress or leaves. -/
def Advances (v w : SendView) (new : List QueuedFrame) : Prop :=
  (∃ n, n ≤ 1 ∧ w.pending = v.pending.drop n ++ new ∧ (n = 1 → ∃ f, v.Leaves f)) ∧
  ∀ f, v.txaCur = some f → w.txaCur = some f ∨ v.Leaves f

theorem Advances.of_pending {v w : SendView} (hp : w.pending = v.pending)
    (hc : ∀ f, v.txaCur = some f → w.txaCur = some f) : Advances v w [] :=
  ⟨⟨0, Nat.zero_le 1, by rw [hp, List.drop_zero, List.append_nil], nofun⟩, fun f hf => .inl (hc f hf)⟩

theorem Advances.refl (v : SendView) : Advances v v [] := .of_pending rfl fun _ h => h

/-- The frame in progress leaves (R230). -/
theorem Advances.finish {v : SendView} {f : QueuedFrame} (h : v.Leaves f) :
    Advances v { v with txaCur := none, txaPhase := .idle } [] := by
  refine ⟨⟨1, Nat.le_refl 1, ?_, fun _ => ⟨f, h⟩⟩, fun g hg => .inr ?_⟩
  · simp [SendView.pending, h.1]
  · obtain rfl := Option.some.inj (h.1.symm.trans hg)
    exact h

/-- More frames join behind, the frame in progress staying. -/
theorem Advances.append {v w x : SendView} {new more : List QueuedFrame} (h : Advances v w new)
    (hp : x.pending = w.pending ++ more) (hc : x.txaCur = w.txaCur) : Advances v x (new ++ more) := by
  obtain ⟨⟨n, hn, hw, hl⟩, hcur⟩ := h
  exact ⟨⟨n, hn, by rw [hp, hw, List.append_assoc], hl⟩, by rw [hc]; exact hcur⟩

/-! ### The parts of a step -/

/-- While TXA is idle no frame is in progress (R30). -/
theorem SendFits.cur_none {v : SendView} (h : SendFits v) (hi : v.txaPhase = .idle) : v.txaCur = none := h.idle.mp hi

theorem SendFits.cur_some {v : SendView} (h : SendFits v) (hi : v.txaPhase ≠ .idle) : ∃ f, v.txaCur = some f :=
  Option.ne_none_iff_exists'.mp fun hn => hi (h.idle.mpr hn)

/-- A response wait that ends lets the frame in progress leave (R232, R234). -/
theorem SendFits.advances_finish {v : SendView} (h : SendFits v) (hp : v.txaPhase = .awaitResponse) :
    Advances v { v with txaCur := none, txaPhase := .idle } [] := by
  obtain ⟨f, hf⟩ := h.cur_some (by rw [hp]; decide)
  exact .finish ⟨hf, .inl hp⟩

/-- An echo check that ends lets the frame leave when no response is awaited (R229). -/
theorem advances_echoDone {v w : SendView} {cur : QueuedFrame} (hp : v.txaPhase = .echo) (hc : v.txaCur = some cur)
    (hw : w = { v with txaEidx := w.txaEidx }) : Advances v (if cur.awaits then { w with txaPhase := .awaitResponse }
      else { w with txaCur := none, txaPhase := .idle }) [] := by
  rw [hw]
  cases ha : cur.awaits with
  | true => exact .of_pending rfl fun _ h => h
  | false =>
    obtain ⟨hn, hcur⟩ := Advances.finish (v := v) (f := cur) ⟨hc, .inr ⟨hp, ha⟩⟩
    exact ⟨hn, hcur⟩

/-- TXA's own steps: the first frame of the batch comes into progress, or the one in progress leaves at the end of its
echo check or response wait; none is added. -/
theorem TxaStep.advances {s t : State} (h : TxaStep s t) (hs : SendFits s.sendView) :
    Advances s.sendView t.sendView [] := by
  cases h with
  | started e rest hphase hbatch =>
    have hcur : s.txaCur = none := hs.cur_none hphase
    refine .of_pending ?_ fun f hf => absurd (hcur.symm.trans hf) nofun
    simp [SendView.pending, State.sendView, hcur, hbatch]
  | sent contended cur b =>
    rw [txaSent_sendView]
    exact .of_pending rfl fun _ h => h
  | echoed => exact .of_pending rfl fun _ h => h
  | echoEnded cur ch rest hphase hidx hcur =>
    rw [echoDone_sendView]
    exact advances_echoDone hphase hcur rfl
  | echoTimedOut cur hphase hcur =>
    rw [echoDone_sendView]
    exact advances_echoDone hphase hcur rfl
  | respTimedOut hphase => exact hs.advances_finish hphase

theorem TransmitInv.sendFits {s : State} (h : TransmitInv s) : SendFits s.sendView := ((transmitInv_iff s).mp h).1

theorem Atomic.advances {s t : State} (h : Atomic s t) (hs : TransmitInv s) : Advances s.sendView t.sendView [] := by
  rcases h.sendView with e | ⟨-, ht⟩
  · rw [e]; exact .refl _
  · exact ht.advances hs.sendFits

/-- The first step of an operation adds no frame; where TXA takes a response, the frame in progress leaves. -/
theorem First.advances {s u : State} {d : Prop} {a : Agent} {l : List Item} (h : First s d a u l) (hs : TransmitInv s) :
    Advances s.sendView u.sendView [] := by
  rcases h.sendView with e | ⟨-, hp, e⟩ <;> rw [e]
  · exact .refl _
  · exact hs.sendFits.advances_finish hp

/-- A step of an agent that has no drain for a caller left: frames join behind, none when the agent is TXA, which only
moves the queue into its empty batch register. -/
theorem Stepped.joins {c : Config} {a : Agent} {s u : State} {last all : Bool} {l : List Item} {t : Task}
    (h : Stepped c a s last all l u t) (hl : ItemsSend s.sendView a l)
    (hd : a = .txa → ∀ i ∈ l, i.isDrain = true) (hno : ∀ n k, Item.drain .caller n k ∉ l) :
    ∃ more, u.sendView.pending = s.sendView.pending ++ more ∧ u.sendView.txaCur = s.sendView.txaCur ∧
      (a = .txa → more = []) := by
  rcases h.sendView with e | ⟨f, n, rest, rfl, e⟩ | ⟨n, rest, rfl, e⟩ | ⟨n, rest, rfl, e⟩ | ⟨rest, rfl, e⟩ <;> rw [e]
  · exact ⟨[], (List.append_nil _).symm, rfl, fun _ => rfl⟩
  · exact ⟨[f], (List.append_assoc _ _ _).symm, rfl, fun ha => nomatch hd ha _ List.mem_cons_self⟩
  · obtain ⟨-, hb⟩ := hl.draining _ _ _ List.mem_cons_self
    obtain ⟨-, hbatch, -⟩ := hb rfl
    refine ⟨[], ?_, rfl, fun _ => rfl⟩
    simp only [SendView.pending, hbatch, List.append_nil]
    rfl
  · exact absurd List.mem_cons_self (hno n true)
  · obtain ⟨-, hb⟩ := hl.draining _ _ _ List.mem_cons_self
    obtain ⟨-, hbatch, -⟩ := hb rfl
    refine ⟨[], ?_, rfl, fun _ => rfl⟩
    simp only [SendView.pending, hbatch, List.append_nil]

/-! ### No batch is handed to a caller -/

/-- No agent is inside a drain that hands its batch to its caller (log 22). -/
def State.keepsBatches (s : State) : Prop := ∀ e ∈ s.tasks, ∀ n h, Item.drain .caller n h ∉ e.2.items

theorem keepsBatches_setTask {s : State} {a : Agent} {t : Task} (h : s.keepsBatches)
    (ht : ∀ n k, Item.drain .caller n k ∉ t.items) : (s.setTask a t).keepsBatches := by
  intro e he
  rcases mem_setTask he with ⟨rfl, -⟩ | ⟨he, -⟩
  · exact ht
  · exact h e he

/-- A drain for a caller comes from one only. -/
theorem Stepped.no_caller {c : Config} {a : Agent} {s u : State} {last all : Bool} {l : List Item} {t : Task}
    (h : Stepped c a s last all l u t) (hno : ∀ n k, Item.drain .caller n k ∉ l) :
    ∀ n k, Item.drain .caller n k ∉ t.items := by
  intro n k hi
  rcases h.items with ⟨-, e⟩ | ⟨x, rest, rfl, e | ⟨y, e, hy⟩⟩ <;> rw [e] at hi
  · cases hi
  · exact hno n k (List.mem_cons_of_mem _ hi)
  · rcases List.mem_cons.mp hi with rfl | hi
    · cases hy with
      | drain _ m _ j _ => exact hno m j List.mem_cons_self
    · exact hno n k (List.mem_cons_of_mem _ hi)

theorem First.no_caller {s u : State} {d : Prop} {a : Agent} {l : List Item} (h : First s d a u l) (hd : ¬ d) :
    ∀ n k, Item.drain .caller n k ∉ l := fun n k hi =>
  h.forall_items (fun i => ∀ n k, i ≠ .drain .caller n k) (fun _ _ _ _ _ => nofun) (fun _ _ _ _ => nofun)
    (fun _ _ _ => nofun) (fun h => absurd h hd) (by simp) _ hi n k rfl

/-! ### Runs of an operation -/

/-- What a step from `s` keeps on its way: the invariants, and the frames in their order, none added when `own` holds. -/
structure Ordered (own : Prop) (s x : State) : Prop where
  transmit : TransmitInv x
  mode     : ModeInv x
  batches  : x.keepsBatches
  advances : ∃ new, Advances s.sendView x.sendView new ∧ (own → new = [])

/-- A further step of an agent, TXA when `own` holds. -/
theorem Ordered.agentStep {own : Prop} {s x : State} {a : Agent} (h : Ordered own s x) (hown : own → a = .txa) :
    Ordered own s (agentStep chip a x) := by
  rcases agentStep_cases chip a x with e | ⟨t, u, t', ht, hst, e⟩ <;> rw [e]
  · exact h
  · obtain ⟨htr, hm, hno, new, hadv, hnew⟩ := h
    obtain ⟨more, hp, hc, hmore⟩ := hst.joins (htr.itemsSend ht) (hm.itemsFit ht).txaDrains (hno _ ht)
    refine ⟨transmitInv_stepped htr ht hst, modeInv_stepped hm ht hst, keepsBatches_setTask ?_ (hst.no_caller (hno _ ht)),
      new ++ more, ?_, fun ho => ?_⟩
    · intro e he
      rw [hst.tasks] at he
      exact hno e he
    · rw [setTask_sendView]
      exact hadv.append hp hc
    · rw [hnew ho, hmore (hown ho)]
      rfl

/-- A step that adds no frame and leaves the tasks alone. -/
theorem Ordered.of_advances {own : Prop} {s x : State} (htr : TransmitInv x) (hm : ModeInv x) (hno : s.keepsBatches)
    (ht : x.tasks = s.tasks) (hadv : Advances s.sendView x.sendView []) : Ordered own s x :=
  ⟨htr, hm, fun e he => hno e (ht ▸ he), [], hadv, fun _ => rfl⟩

theorem Ordered.heard {own : Prop} {s x : State} (h : Heard s x) (htr : TransmitInv s) (hm : ModeInv s)
    (hno : s.keepsBatches) : Ordered own s x :=
  .of_advances (transmitInv_of_view htr h.same.sendView h.same.tasks) (modeInv_of_view hm h.arbView h.same.tasks) hno
    h.same.tasks (by rw [h.same.sendView]; exact .refl _)

theorem Ordered.atomic {own : Prop} {s x : State} (h : Atomic s x) (htr : TransmitInv s) (hm : ModeInv s)
    (hno : s.keepsBatches) : Ordered own s x :=
  .of_advances (transmitInv_atomic htr h) (modeInv_of_view hm h.arbView h.tasks) hno h.tasks (h.advances htr)

/-- An operation, each of whose first steps is as `First` says and hands no batch to a caller, run whole; its agent is TXA
when `own` holds. -/
theorem Ordered.whole {own : Prop} {s t : State} {o : Opening} (htr : TransmitInv s) (hm : ModeInv s)
    (hno : s.keepsBatches) (hown : own → o.agent = .txa) (hheld : Heard s o.held)
    (hfirst : ∀ b, o.first = .next b → First s False o.agent b.state b.rest) (h : o.whole chip s = .next t) :
    Ordered own s t := by
  refine whole_keeps (Ordered own s) o s t (fun x hx => hx.agentStep hown) (fun b hb => (hfirst b hb).tasks)
    (fun u hu => ?_) h
  rcases begin_next o s u hu with rfl | ⟨hb, b, hf, rfl⟩
  · exact .heard hheld htr hm hno
  · have hF := hfirst b hf
    have hu : Ordered own s b.state :=
      .of_advances (transmitInv_first htr hb hF) (modeInv_first hm hb hF) hno hF.tasks (hF.advances htr)
    split
    · exact hu
    · exact ⟨transmitInv_setTask hu.transmit hF.itemsSend, modeInv_setTask hu.mode (hF.itemsFit hm),
        keepsBatches_setTask hu.batches (hF.no_caller id), by rw [setTask_sendView]; exact hu.advances⟩

/-- The first step of an operation, the rest left to its agent. -/
theorem begin_advances {s t : State} {i : Instr} {o : Opening} (hw : i.wf = true) (ho : openingOf i s = some o)
    (htr : TransmitInv s) (h : o.begin s = .next t) : Advances s.sendView t.sendView [] := by
  rcases begin_next o s t h with rfl | ⟨-, b, hf, rfl⟩
  · rw [(opening_held i s o ho).same.sendView]
    exact .refl _
  · have hadv := (opening_first i s o hw ho b hf).advances htr
    split
    · exact hadv
    · rw [setTask_sendView]; exact hadv

/-- An instruction other than `dequeue_all_ready` run to its end. -/
theorem Ordered.exec {own : Prop} {s t : State} {i : Instr} (hw : i.wf = true) (hi : i ≠ .dequeueAllReady)
    (htr : TransmitInv s) (hm : ModeInv s) (hno : s.keepsBatches)
    (hown : ∀ o, openingOf i s = some o → own → o.agent = .txa) (h : exec i s = .next t) : Ordered own s t := by
  cases ho : openingOf i s with
  | none => exact .atomic (exec_atomic ho h) htr hm hno
  | some o =>
    rw [exec_whole i s o ho] at h
    exact .whole htr hm hno (hown o ho) (opening_held i s o ho)
      (fun b hb => (opening_first i s o hw ho b hb).mono hi) h

/-! ### The events in which only TXA and DEC act -/

theorem owner_of_busMaster {s : State} (h : s.busMode = .busMaster) : s.owner = .txa := by
  rw [State.owner, h]

/-- Log 9: the operation of a frame that arrives belongs to the owner of `rxf`. -/
theorem Arrives.agent {i : Instr} {s : State} {o : Opening} (h : Arrives chip i) (ho : openingOf i s = some o) :
    o.agent = s.owner := by
  obtain ⟨hd, code, args, hw, hb⟩ := h
  rw [openingOf_arrival i hd code args s hw hb] at ho
  obtain rfl := Option.some.inj ho
  rfl

/-- TXA is the agent of every operation of several steps among TXA's seven. -/
theorem runsTxa_agent {s v : State} {i : Instr} {o : Opening} (hv : v.busMode = s.busMode)
    (h : s.runsTxa chip (.call i)) (ho : openingOf i v = some o) : o.agent = .txa := by
  rcases h with h | ⟨_, h⟩ | ⟨j, hj, h⟩ | ⟨-, _, h, -⟩
  · cases h
  · cases h
  · obtain rfl : i = j := hj.elim (fun h => Event.call.inj h) nofun
    rcases h with (rfl | rfl | ⟨_, rfl⟩ | rfl | rfl | rfl | rfl) | ⟨hm, ⟨_, rfl⟩ | h⟩
    · obtain rfl := Option.some.inj ho; rfl
    · cases ho
    · cases ho
    · cases ho
    · cases ho
    · obtain rfl := Option.some.inj ho; rfl
    · cases ho
    · obtain rfl := Option.some.inj ho
      exact owner_of_busMaster (hv.trans hm)
    · rw [h.agent ho]
      exact owner_of_busMaster (hv.trans hm)
  · cases h

theorem runsTxa_wire {s : State} {bytes : List Byte} (h : s.runsTxa chip (.wire bytes)) :
    s.busMode = .busMaster ∧ ∀ i, decode bytes = .ok i → Arrives chip i := by
  rcases h with h | ⟨_, h⟩ | ⟨_, h, -⟩ | ⟨hm, b, hb, h⟩
  · cases h
  · cases h
  · exact h.elim nofun nofun
  · obtain rfl := Event.wire.inj hb
    exact ⟨hm, h⟩

theorem runsTxa_agentEvent {s : State} {a : Agent} (h : s.runsTxa chip (.agent a)) : a = .txa := by
  rcases h with h | ⟨_, h⟩ | ⟨_, h, -⟩ | ⟨-, _, h, -⟩
  · exact Event.agent.inj h
  · cases h
  · exact h.elim nofun nofun
  · cases h

/-- What one event does to the frames to be sent, the event taken from the script. -/
theorem runEvent_advances {s v t : State} {e : Event} (hv : v.busMode = s.busMode) (htr : TransmitInv v)
    (hm : ModeInv v) (hno : v.keepsBatches) (he : e ≠ .call .dequeueAllReady) (h : runEvent e v = .next t) :
    ∃ new, Advances v.sendView t.sendView new ∧ (s.runsTxa chip e → new = []) := by
  cases e with
  | wire bytes =>
    simp only [runEvent] at h
    cases hd : decode bytes with
    | ok i =>
      rw [hd] at h
      refine (Ordered.exec (decode_wf bytes i hd) (fun e => decode_not_dequeue bytes (e ▸ hd)) htr hm hno
        (fun o ho hr => ?_) h).advances
      obtain ⟨hmode, harr⟩ := runsTxa_wire hr
      rw [(harr i hd).agent ho]
      exact owner_of_busMaster (hv.trans hmode)
    | error er =>
      rw [hd] at h
      refine (Ordered.whole htr hm hno (fun hr => ?_) (.cells v _ .refl) (fun b hb => openArrival_first _ _ _ _ hb)
        h).advances
      exact owner_of_busMaster (hv.trans (runsTxa_wire hr).1)
  | line cells =>
    obtain rfl := Host.Outcome.next.inj h
    exact (Ordered.heard (.cells v cells .refl) htr hm hno).advances
  | call i =>
    simp only [runEvent] at h
    split at h
    · next hw =>
      exact (Ordered.exec hw (fun e => he (e ▸ rfl)) htr hm hno (fun o ho hr => runsTxa_agent hv hr ho) h).advances
    · cases h
  | start i =>
    simp only [runEvent] at h
    split at h
    · next hw =>
      unfold startInstr at h
      split at h
      · next o ho => exact ⟨[], begin_advances hw ho htr h, fun _ => rfl⟩
      · next ho => exact ⟨[], (exec_atomic ho h).advances htr, fun _ => rfl⟩
    · cases h
  | agent a =>
    obtain rfl := Host.Outcome.next.inj h
    have hv : Ordered (s.runsTxa chip (.agent a)) v v := .heard .refl htr hm hno
    exact (hv.agentStep runsTxa_agentEvent).advances
  | store w =>
    simp only [runEvent] at h
    split at h
    · obtain rfl := Host.Outcome.next.inj h
      exact ⟨[], .refl _, fun _ => rfl⟩
    · cases h

/-- Settles O59: the event taken from the script leaves the frames in order (`runEvent_advances`). -/
theorem noFrameOvertakes : Obligations.NoFrameOvertakes := by
  intro s t htr hm hcall hno h
  suffices ordered : ∃ new, Advances s.sendView t.sendView new ∧
      ((∃ e rest, s.script = e :: rest ∧ s.runsTxa chip e) → new = []) by
    obtain ⟨new, ⟨⟨n, hn, hp, hl⟩, hc⟩, hnew⟩ := ordered
    refine ⟨⟨n, new, hn, ?_, hl, hnew⟩, hc⟩
    rw [pendingFrames_eq, pendingFrames_eq]
    exact hp
  unfold step at h
  cases hs : s.script with
  | nil =>
    rw [hs] at h
    obtain rfl := Host.Outcome.next.inj h
    exact ⟨[], .refl _, fun _ => rfl⟩
  | cons e rest =>
    rw [hs] at h
    obtain ⟨new, hadv, hnew⟩ := runEvent_advances (s := s) (v := { s with script := rest }) rfl
      (transmitInv_of_view htr rfl rfl) (modeInv_of_view hm rfl rfl) hno (fun e' => hcall rest (e' ▸ hs)) h
    refine ⟨new, hadv, ?_⟩
    rintro ⟨e', rest', hs', hr⟩
    obtain ⟨rfl, -⟩ := List.cons_eq_cons.mp hs'
    exact hnew hr

end Sys2Proof.Machine
end

section
/-! What one step runs (O46; 10_state.md R36, R52, 20_memory.md R80, 44_transmit_agent.md R222, R233, 46_dispatcher.md R310;
logs 1, 2, 7, 9). -/
namespace Sys2Proof.Machine

/-- Log 1: a step takes the next event from the script and runs it. -/
theorem step_event {s : State} {e : Event} {rest : List Event} (h : s.script = e :: rest) :
    step s = runEvent e { s with script := rest } := by
  unfold step
  rw [h]

theorem step_no_event {s : State} (h : s.script = []) : step s = .next s := by
  unfold step
  rw [h]

theorem runEvent_call {i : Instr} (hw : i.wf = true) (s : State) : runEvent (.call i) s = exec i s := if_pos hw

theorem runEvent_start {i : Instr} (hw : i.wf = true) (s : State) : runEvent (.start i) s = startInstr i s := if_pos hw

/-- Log 2: the first step of an operation whose agent is inside none; the agent keeps the rest. -/
theorem startInstr_begun {i : Instr} {s : State} {o : Opening} {b : Begun} (ho : openingOf i s = some o)
    (hb : s.busy o.agent = false) (hf : o.first = .next b) : startInstr i s =
      .next (if b.rest = [] then b.state else b.state.setTask o.agent ⟨b.rest, true, true⟩) := by
  unfold startInstr Opening.begin
  rw [ho]
  simp only [hb, hf, andThen, Bool.false_eq_true, if_false, List.isEmpty_iff]

theorem startInstr_atomic {i : Instr} {s : State} (ho : openingOf i s = none) : startInstr i s = exec i s := by
  unfold startInstr
  rw [ho]

/-- R80: what a peer drives is heard, under contention while the engine sends. -/
theorem hearPeer_eq (c : Config) (cells : List Level) (s : State) : hearPeer c cells s =
    if s.txaPhase = .sending ∧ cells ≠ [] then afterContention c s else hearCells c cells s := by
  unfold hearPeer
  rw [hearContended_eq]

/-! ### A frame that is rejected -/

/-- Log 9: while the owner of `rxf` does not parse, or is inside an operation, a frame is only heard (R222). -/
theorem openArrival_heard (c : Config) (f : List Byte) (s : State) (h : s.busy s.owner = true ∨ s.parses = false) :
    (openArrival c f s).whole c s = .next (hearPeer c (frameCells f) s) :=
  h.elim (whole_busy (openArrival c f s) c s) (openArrival_unparsed c f s)

/-- Taking complete bytes from the receiver receives them with the receiver waiting for an address again (R187, R232). -/
theorem takeFrame_afterBytes (c : Config) (k : State → State) (f : List Byte) (s : State) (m : Memory) (sh : BitVec 9)
    (hf : f.length < 256) (hc : s.frxCount = 0) (ha : s.frxState = .awaitingAddress)
    (hm : ∀ (n : Nat) (b : Byte), f[n]? = some b → m.read n = b) :
    takeFrame c k { s.afterBytes f m sh with frxCount := f.length, frxState := .complete } =
      ⟨k (receiveFrame c f (s.afterBytes f m sh)).state, (receiveFrame c f (s.afterBytes f m sh)).rest⟩ := by
  have htaken : ({ s.afterBytes f m sh with frxCount := f.length, frxState := .complete } : State).takenFrame = f :=
    takenFrame_eq f _ rfl hf hm
  have hreset : ({ s.afterBytes f m sh with frxCount := f.length, frxState := .complete } : State).resetFrx =
      s.afterBytes f m sh := by
    simp only [State.resetFrx, State.afterBytes, ← hc, ← ha]
  rw [takeFrame, htaken, hreset]

/-- The fourth of a frame's bytes is its length, so it has fewer than 256 (30_encoding.md R95). -/
theorem length_lt_of_lengthByte {f : List Byte} (h : (f[3]?).map BitVec.toNat = some f.length) : f.length < 256 := by
  obtain ⟨b, -, hb⟩ := Option.map_eq_some_iff.mp h
  rw [← hb]
  exact b.isLt

/-- Bytes with their own length byte that fit the buffer arrive at an engine that is ready: they are received, and the
consumer's own step ends (R231, R232). -/
theorem openArrival_received (f : List Byte) (s : State) (hr : Ready chip s) (hfit : f.length ≤ chip.rxCap)
    (h3 : (f[3]?).map BitVec.toNat = some f.length) (h5 : 5 ≤ f.length) :
    ∃ (m : Memory) (sh : BitVec 9), HoldsFrame chip f s.frxBuf m ∧ (openArrival chip f s).first = .next
      ⟨afterFrame s.busMode (receiveFrame chip f (s.afterBytes f m sh)).state,
        (receiveFrame chip f (s.afterBytes f m sh)).rest⟩ := by
  have hc : s.frxCount = 0 := hr.frx.awaitingAddress hr.fresh
  obtain ⟨m, sh, hstored, hrest, e⟩ := arriveChars_frame chip s.busMode f s chip_legal.rxfDepth chip_legal.rxCap_ge
    hr.between hr.quiet hr.empty hr.fresh hr.frx.bufferWf h5 h3
  have hfirst : (openArrival chip f s).first = arriveChars chip s.busMode (frameChars f) s := if_pos hr.parses
  refine ⟨m, sh, ⟨hstored, hrest⟩, ?_⟩
  rw [hfirst, e, if_pos hfit]
  exact congrArg _ (takeFrame_afterBytes chip _ f s m sh (length_lt_of_lengthByte h3) hc hr.fresh
    fun n b hn => hstored n b hn (.inr hfit))

/-- A code outside the command map has no route (R310). -/
theorem routeCommand_unknown {hd : Header} {args : List Byte} {code : Byte} {er : DecodeError}
    (h : decodeCommand hd args code = .error er) (c : Config) (x : Inbound) (s : State) :
    routeCommand c code x s = (discard x s).done := by
  unfold decodeCommand at h
  unfold routeCommand
  generalize code.toNat = n at h ⊢
  split at h
  case h_15 =>
    split
    case h_9 => rfl
    all_goals contradiction
  all_goals cases h

/-- The command map knows no checksum (R99, R134). -/
theorem decodeCommand_ne_badChecksum {hd : Header} {args : List Byte} {code : Byte} :
    decodeCommand hd args code ≠ .error .badChecksum := by
  unfold decodeCommand
  split <;> nofun

/-- Bytes that decode to no command are rejected with the error the rules name (R134, R233, R310). -/
theorem receiveFrame_rejected {f : List Byte} {er : DecodeError} (h : decode f = .error er) (c : Config) (s : State) :
    (er = .badChecksum → receiveFrame c f s = (s.raise .checksumMismatch (.bytes f)).done) ∧
    (er = .noCommand ∨ (∃ code, er = .unknownCommand code) →
      receiveFrame c f s = (s.raise .unknownCommand (.bytes f)).done) := by
  cases hv : verdict f with
  | frameMalformed =>
    simp only [decode, hv] at h
    obtain rfl := Except.error.inj h
    exact ⟨nofun, by simp⟩
  | checksumMismatch =>
    simp only [decode, hv] at h
    obtain rfl := Except.error.inj h
    exact ⟨fun _ => by simp only [receiveFrame, raiseVerdict, hv], by simp⟩
  | frame =>
    simp only [decode, hv] at h
    simp only [receiveFrame, hv, dispatchFrame]
    cases hp : framePayload f with
    | nil =>
      rw [hp] at h
      obtain rfl := Except.error.inj h
      exact ⟨nofun, fun _ => rfl⟩
    | cons code args =>
      rw [hp] at h
      exact ⟨fun e => absurd (e ▸ h) decodeCommand_ne_badChecksum, fun _ => routeCommand_unknown h c _ s⟩

/-- The end of the consumer's step is the end of a response wait where TXA owns `rxf` (R232, R235). -/
theorem afterFrame_eq (m : BusMode) (t : State) :
    afterFrame m t = if m = .busMaster then { t with txaCur := none, txaPhase := .idle } else t := by
  cases m <;> rfl

/-- Bytes that are no command, at an engine that is ready: stored, and rejected with one error. -/
theorem arrival_rejected (f : List Byte) (s : State) (er : DecodeError) (hd : decode f = .error er) (hr : Ready chip s)
    (hfit : f.length ≤ chip.rxCap) (h3 : (f[3]?).map BitVec.toNat = some f.length) (h5 : 5 ≤ f.length) :
    ∃ (m : Memory) (sh : BitVec 9), HoldsFrame chip f s.frxBuf m ∧
      (er = .badChecksum → (openArrival chip f s).whole chip s =
        .next (afterFrame s.busMode ((s.afterBytes f m sh).raise .checksumMismatch (.bytes f)))) ∧
      (er = .noCommand ∨ (∃ code, er = .unknownCommand code) → (openArrival chip f s).whole chip s =
        .next (afterFrame s.busMode ((s.afterBytes f m sh).raise .unknownCommand (.bytes f)))) := by
  obtain ⟨m, sh, hholds, hfirst⟩ := openArrival_received f s hr hfit h3 h5
  obtain ⟨hsum, hcode⟩ := receiveFrame_rejected hd chip (s.afterBytes f m sh)
  have whole : ∀ {e : Err} {i : Info}, receiveFrame chip f (s.afterBytes f m sh) = ((s.afterBytes f m sh).raise e i).done →
      (openArrival chip f s).whole chip s = .next (afterFrame s.busMode ((s.afterBytes f m sh).raise e i)) := by
    intro e i he
    rw [he] at hfirst
    exact whole_next _ chip s _ hr.free hfirst
  exact ⟨m, sh, hholds, fun e => whole (hsum e), fun e => whole (hcode e)⟩

theorem ready_script {c : Config} {s : State} (h : Ready c s) (x : List Event) : Ready c { s with script := x } :=
  ⟨h.between, h.quiet, h.empty, h.fresh, frxInv_of_view h.frx rfl, h.parses, h.free, h.mode⟩

/-- Settles O46: one equation per event (`step_event`), and for bytes that are no command the arrival of a frame that is
only heard, heard under contention, or rejected. -/
theorem stepRunsDecoded : Obligations.StepRunsDecoded := by
  intro s
  refine ⟨step_no_event, ?_, ?_, ?_, ?_, ?_, ?_⟩
  · intro i rest hw hs
    rw [step_event hs, runEvent_call hw]
  · intro i rest hw hs
    rw [step_event hs, runEvent_start hw]
    exact ⟨startInstr_atomic, fun o b => startInstr_begun⟩
  · intro a rest hs
    exact step_event hs
  · intro w rest hw hs
    rw [step_event hs]
    exact if_pos hw
  · intro cells rest hs
    rw [step_event hs]
    exact congrArg _ (hearPeer_eq chip cells _)
  · intro bytes rest hs
    rw [step_event hs]
    refine ⟨fun i hd => ⟨decode_wf bytes i hd, ?_⟩, fun er hd => ?_⟩
    · simp only [runEvent, hd]
    · have hrun : runEvent (.wire bytes) { s with script := rest } =
          (openArrival chip bytes { s with script := rest }).whole chip { s with script := rest } := by
        simp only [runEvent, hd, receiveRejected]
      rw [hrun]
      refine ⟨rfl, fun hb hidle hq => ?_, fun hb hq hne => ?_, fun hr hfit h3 h5 => ?_⟩
      · obtain ⟨sh, e⟩ := hearPeer_frame chip bytes { s with script := rest } hidle hq
        exact ⟨sh, (openArrival_heard chip bytes { s with script := rest } hb).trans (congrArg _ e)⟩
      · exact (openArrival_heard chip bytes { s with script := rest } hb).trans
          (congrArg _ (hearPeer_frame_sending chip bytes _ hne hq))
      · obtain ⟨m, sh, ⟨hstored, hunchanged⟩, hsum, hcode⟩ :=
          arrival_rejected bytes { s with script := rest } er hd (ready_script hr rest) hfit h3 h5
        simp only [afterFrame_eq] at hsum hcode
        exact ⟨m, sh, fun k b hk => hstored k b hk (.inr hfit), fun k hk => hunchanged k (.inl hk), hsum, hcode⟩

end Sys2Proof.Machine
end

section
/-! What DEC delivers to `rxf` (O9, O41): `DEC.push`, the cells of a peer, `decode_cells` called by name, and the
engine's own characters (20_memory.md R80, 41_line_transceiver.md R160 to R166, 44_transmit_agent.md R226; logs 6, 7, 14,
20, 21). -/
namespace Sys2Proof.Machine

/-! ### Characters and cells that arrive -/

theorem pushChar_of_room {c : Config} {s : State} (ch : Character) (h : s.rxf.length < c.rxfDepth) :
    pushChar c s ch = { s with rxf := s.rxf ++ [ch] } := if_pos ((hasRoom_iff _ _).mpr h)

theorem pushChar_of_full {c : Config} {s : State} (ch : Character) (h : c.rxfDepth ≤ s.rxf.length) :
    pushChar c s ch = s.raise .rxOverrun (.char ch) := if_neg (by rw [hasRoom_iff]; omega)

/-- A step on cells of a peer. -/
theorem step_line {s : State} {cells : List Level} {rest : List Event} (h : s.script = .line cells :: rest) :
    step s = .next (hearPeer chip cells { s with script := rest }) := step_event h

/-- `decode_cells` called by name (log 6) starts between characters, where the bits DEC has collected do not matter. -/
theorem decodeCells_eq (c : Config) (cells : List Level) (s : State) (h : s.decPos = .idle) :
    let r := decRun c 0 ⟨s.decPos, s.decShift, s.draws, [], []⟩ cells
    decodeCells c cells s = { s with
      draws := r.draws
      err := if r.faults = [] then s.err else { s.err with lineFramingFault := true }
      out := s.out ++ List.replicate r.faults.length faultLogged
      faultIndices := s.faultIndices ++ r.faults
      returns := s.returns ++ [(none, .chars r.chars)] } := by
  obtain ⟨hdraws, hchars, hfaults⟩ :=
    decRun_shift c cells 0 ⟨.idle, s.decShift, s.draws, [], []⟩ ⟨.idle, 0, s.draws, [], []⟩ ⟨rfl, rfl, rfl, rfl⟩ nofun
  simp only [decodeCells, raiseFaults_eq, h, hdraws, hchars, hfaults]
  rfl

/-- Settles O9: `DEC.push` by whether `rxf` has room, cells under contention by `hearPeer_sending`, and all other cells by
`hearCells_eq`, which says that hearing is a run of the decoder with each character pushed at once. -/
theorem characterDelivered : Obligations.CharacterDelivered := by
  refine ⟨fun ch s => ⟨fun h => congrArg _ (pushChar_of_room ch h), fun h => congrArg _ (pushChar_of_full ch h)⟩,
    fun cells rest s hs hq hne => ?_, fun cells rest s hs hq => ⟨fun hidle => ?_, ?_⟩⟩
  · exact (step_line hs).trans (congrArg _ (hearPeer_sending chip cells { s with script := rest } hq hne))
  · exact congrArg _ (decodeCells_eq chip cells { s with script := rest } hidle)
  · obtain ⟨logged, js, heard, hcount, hfaults, hdropped⟩ := hearCells_eq chip cells { s with script := rest }
    refine ⟨logged, js, ?_, hcount, hfaults, hdropped⟩
    exact (step_line hs).trans (congrArg _ ((hearPeer_quiet chip cells { s with script := rest } hq).trans heard))

/-! ### The engine's own characters -/

/-- DEC neither reads nor writes what the engine drives. -/
theorem hearCell_driven (c : Config) (s : State) (l out : Level) (wave : List Level) :
    hearCell c { s with lineOut := out, waveform := wave } l =
      { hearCell c s l with lineOut := out, waveform := wave } := by
  unfold hearCell
  simp only
  split
  · rfl
  · unfold pushChar; split <;> rfl
  · rfl
  · simp only [hearDraw, raiseFaults_eq, pushChars_eq]

theorem hearCells_driven (c : Config) (cells : List Level) (s : State) (out : Level) (wave : List Level) :
    hearCells c cells { s with lineOut := out, waveform := wave } =
      { hearCells c cells s with lineOut := out, waveform := wave } := by
  induction cells generalizing s with
  | nil => rfl
  | cons l ls ih => exact (congrArg (hearCells c ls) (hearCell_driven c s l out wave)).trans (ih _)

theorem hearOwn_driven (c : Config) (contended : Bool) (ch : Character) (s : State) (out : Level) (wave : List Level) :
    hearOwn c contended ch { s with lineOut := out, waveform := wave } =
      { hearOwn c contended ch s with lineOut := out, waveform := wave } := by
  cases contended with
  | true => simp only [hearOwn, if_true, hearContended_eq]; rfl
  | false =>
    simp only [hearOwn, Bool.false_eq_true, if_false]
    split
    · exact hearCells_driven c _ s out wave
    · exact hearCells_driven c _ { s with decPos := .idle } out wave

/-- A character that the engine drives alone comes back exactly, unless DEC is lost after a framing fault (R226). -/
theorem hearOwn_exact (c : Config) (b : Byte) (m : Level) (s : State) (h : s.decPos.afterFault = false) :
    hearOwn c false ⟨b, m⟩ s =
      { afterPush c [⟨b, m⟩] s with decPos := .idle, decShift := charBits b m } := by
  have heard : hearOwn c false ⟨b, m⟩ s = hearCells c (charCells b m) { s with decPos := .idle } := by
    simp [hearOwn, h]
  rw [heard, hearCells_char c b m { s with decPos := .idle } rfl]
  exact pushChars_eq c [⟨b, m⟩] _

/-- After a framing fault DEC hears the engine's cells as any others (R162, log 20). -/
theorem hearOwn_afterFault (c : Config) (ch : Character) (s : State) (h : s.decPos.afterFault = true) :
    hearOwn c false ch s = hearCells c (charCells ch.byte ch.marker) s := by
  simp [hearOwn, h]

/-- A peer drives too: a draw (R80). -/
theorem hearOwn_contended (c : Config) (ch : Character) (s : State) : hearOwn c true ch s = afterContention c s :=
  hearContended_eq c s

/-- `TXA.send_char` while there is a character to send (R226): what DEC hears, and what the engine drives. -/
theorem txaSendChar_sends {c : Config} {s : State} {cur : QueuedFrame} {b : Byte} (contended : Bool)
    (hphase : s.txaPhase = .sending) (hcur : s.txaCur = some cur) (hb : cur.bytes[s.txaIdx]? = some b) :
    txaSendChar c contended s = { hearOwn c contended ⟨b, s.txaIdx == 0⟩ s with
      lineOut := true
      waveform := s.waveform ++ charCells b (s.txaIdx == 0)
      txaIdx := s.txaIdx + 1
      txaPhase := if s.txaIdx + 1 = cur.bytes.length then .echo else .sending } := by
  have hidx := (hearOwn_same c contended ⟨b, s.txaIdx == 0⟩ s).txaIdx
  have hdriven := hearOwn_driven c contended ⟨b, s.txaIdx == 0⟩ s true (s.waveform ++ charCells b (s.txaIdx == 0))
  simp only [hphase, hcur] at hdriven
  simp only [txaSendChar, hphase, hcur, hb, if_true, hdriven, hidx]

/-- An indivisible step of TXA, which is inside no operation. -/
theorem txaStep_free {f : State → State} {s : State} (h : s.busy .txa = false) : txaStep f s = .next (f s) :=
  if_neg (by simp [h])

/-- A step that is not enabled leaves the state as it is, whether TXA is busy or not (log 10). -/
theorem txaStep_stays {f : State → State} {s : State} (h : f s = s) : txaStep f s = .next s := by
  unfold txaStep
  rw [h, ite_self]

/-- Without a fault, contention leaves DEC between characters or in one (log 20). -/
theorem afterContention_decPos (c : Config) (s : State) :
    s.decPos.afterFault = true ∨ (c.draw s.draws).faults ≠ [] ∨ (afterContention c s).decPos.afterFault = false := by
  cases h : (afterContention c s).decPos.afterFault with
  | false => exact .inr (.inr rfl)
  | true =>
    have hfault : (s.decPos.afterFault || (c.draw s.draws).faults != []) = true := drawnPos_afterFault _ _ h
    rw [Bool.or_eq_true, bne_iff_ne] at hfault
    exact hfault.imp id .inl

/-- Settles O41: the state that `TXA.send_char` leaves (`txaSendChar_sends`), with what DEC hears by case: the character
exactly, its cells as any others after a fault, or a draw. -/
theorem characterSent : Obligations.CharacterSent := by
  refine ⟨fun b s hq => txaStep_stays (if_neg hq), fun cur b s hb hphase hcur hbyte => ?_⟩
  intro drives
  have sends : ∀ contended, exec (.txaSendChar contended) s =
      .next (drives (hearOwn chip contended ⟨b, s.txaIdx == 0⟩ s)) := fun contended =>
    (txaStep_free hb).trans (congrArg _ (txaSendChar_sends contended hphase hcur hbyte))
  refine ⟨fun hf => ⟨charBits b (s.txaIdx == 0), ?_⟩, fun hf => ?_, ?_, afterContention_decPos chip s⟩
  · rw [sends, hearOwn_exact chip b _ s hf]
  · rw [sends, hearOwn_afterFault chip _ s hf]
  · rw [sends, hearOwn_contended]

end Sys2Proof.Machine
end

section
/-! What the engine drives (O60; 20_memory.md R81, 44_transmit_agent.md R221, R224): only a character that TXA sends
changes the line, and only `TXA.start` begins a transmission. -/
namespace Sys2Proof.Machine

/-! ### The line -/

/-- What the engine drives: the level now, and the cells driven so far (R23, R221). -/
def State.driven (s : State) : Level × List Level := (s.lineOut, s.waveform)

theorem SameBeyondLine.driven {s u : State} (h : SameBeyondLine s u) : u.driven = s.driven :=
  Prod.ext h.lineOut h.waveform

theorem Dispatched.driven {s u : State} {l : List Item} (h : Dispatched s u l) : u.driven = s.driven := by
  cases h with
  | confirm p => rw [presenceConfirm_eq]; split <;> rfl
  | attach ha => rw [attach_eq s (by rw [ha]; decide)]; rfl
  | ignored | message | error | setting | detach => rfl

theorem countFailure_driven (s : State) : (countFailure s).driven = s.driven := by
  rw [countFailure_eq]; rfl

theorem shutdown_driven (s : State) : (shutdown s).driven = s.driven :=
  Prod.ext (shutdown_lineOut s) (shutdown_waveform s)

/-- No first step of an operation drives the line. -/
theorem First.driven {s u : State} {d : Prop} {a : Agent} {l : List Item} (h : First s d a u l) :
    u.driven = s.driven := by
  cases h with
  | received _ _ h => exact h.driven
  | failure => exact countFailure_driven s
  | shutdown => exact (shutdown_driven _).trans (countFailure_driven s)
  | hears _ _ h => exact h.same.driven
  | respFrame v w _ _ h1 h2 h3 h4 h5 =>
    have hreset : v.resetFrx.driven = s.driven := h3.same.driven
    have hfinish : (finishEntry w).driven = v.resetFrx.driven := h4.driven
    exact h5.same.driven.trans (hfinish.trans hreset)
  | lstFrame v w _ _ h1 h3 h4 h5 => exact h5.same.driven.trans (h4.driven.trans h3.same.driven)
  | nothing | hostRejected | hostSends | enqueue | drainCaller | drainBatch | sends | pings | boot => rfl

/-- No step of an agent inside an operation drives the line. -/
theorem Stepped.driven {c : Config} {a : Agent} {s u : State} {last all : Bool} {l : List Item} {t : Task}
    (h : Stepped c a s last all l u t) : u.driven = s.driven := by
  cases h with
  | drained d | drainGaveUp d => cases d <;> rfl
  | pinged rest =>
    cases last
    · rfl
    · simp only [if_true, openWindow]; split <;> rfl
  | detached => rw [detachFinal_eq]; rfl
  | noItem | built | queued | full | gaveUp | locked | missed | drainLocked | drainMissed | booted | answered => rfl

theorem agentStep_driven (c : Config) (a : Agent) (s : State) : (agentStep c a s).driven = s.driven := by
  rcases agentStep_cases c a s with e | ⟨t, u, t', -, hst, e⟩ <;> rw [e]
  rw [setTask_fields]
  exact hst.driven

/-- Of TXA's own steps only that of a character drives the line, and only in `Sending` (R226). -/
theorem TxaStep.driven {s t : State} (h : TxaStep s t) (hq : s.txaPhase ≠ .sending) : t.driven = s.driven := by
  cases h with
  | sent contended cur b hphase => exact absurd hphase hq
  | echoEnded cur ch rest => rw [echoDone_eq]; rfl
  | echoTimedOut cur => rw [echoDone_eq]; rfl
  | started | echoed | respTimedOut => rfl

theorem Atomic.driven {s t : State} (h : Atomic s t) (hq : s.txaPhase ≠ .sending) : t.driven = s.driven := by
  cases h with
  | decodes faults n => exact (raiseFaults_same faults { s with draws := n }).driven
  | pushes ch => exact (pushChar_same chip s ch).driven
  | receives b m t hs => exact (stepFrx_same chip b m s t hs).driven
  | txa t hb hs => exact hs.driven hq
  | waits | returns | rejects | takes | resets | locks | unlocks => rfl

/-- Outside phase `Sending` no step drives the line. -/
theorem step_driven (s t : State) (hq : s.txaPhase ≠ .sending) (h : step s = .next t) : t.driven = s.driven := by
  refine step_reaches s t (fun v => v.txaPhase ≠ .sending ∧ v.driven = s.driven) (fun v => v.driven = s.driven)
    ?_ ?_ ?_ ?_ ?_ ?_ ?_ ?_ ⟨hq, rfl⟩ h
  · exact fun v x hv => hv
  · exact fun v u hv hu => hu.same.driven.trans hv.2
  · exact fun v w hv _ => hv.2
  · exact fun v a hv => (agentStep_driven chip a v).trans hv.2
  · exact fun v a hv => (agentStep_driven chip a v).trans hv
  · exact fun v a u hv _ hf => hf.driven.trans hv.2
  · intro v a u l hv _ hf _
    rw [setTask_fields]
    exact hf.driven.trans hv.2
  · exact fun v i u hv _ hi he => (exec_atomic hi he).driven hv.1 |>.trans hv.2

/-! ### The beginning of a transmission -/

theorem First.idle {s u : State} {d : Prop} {a : Agent} {l : List Item} (h : First s d a u l)
    (hs : s.txaPhase = .idle) : u.txaPhase = .idle := by
  rcases h.sendView with e | ⟨-, -, e⟩
  · exact (congrArg SendView.txaPhase e).trans hs
  · exact congrArg SendView.txaPhase e

/-- No step of an agent inside an operation changes TXA's phase. -/
theorem agentStep_txaPhase (c : Config) (a : Agent) (s : State) : (agentStep c a s).txaPhase = s.txaPhase := by
  rcases agentStep_cases c a s with e | ⟨t, u, t', -, hst, e⟩ <;> rw [e]
  rw [setTask_fields]
  rcases hst.sendView with e | ⟨_, _, _, -, e⟩ | ⟨_, _, -, e⟩ | ⟨_, _, -, e⟩ | ⟨_, -, e⟩ <;>
    exact congrArg SendView.txaPhase e

/-- A step of TXA's own while TXA is idle and suspended leaves it idle (R224). -/
theorem txaStep_idle {f : State → State} {s t : State} (h : txaStep f s = .next t) (hs : s.txaPhase = .idle)
    (hf : (f s).txaPhase = .idle) : t.txaPhase = .idle := by
  rcases txaStep_next h with rfl | ⟨-, rfl⟩
  · exact hs
  · exact hf

theorem txaEchoChar_idle {s : State} (hs : s.txaPhase = .idle) : (txaEchoChar s).txaPhase = .idle := by
  rw [show txaEchoChar s = s from if_neg fun h => by simp [hs] at h]
  exact hs

/-- An indivisible instruction starts no transmission while TXA is idle and suspended: `TXA.start` is not enabled
(R225), the other steps of TXA find it idle, and no other instruction writes its phase. -/
theorem exec_idle {i : Instr} {s t : State} (hi : openingOf i s = none) (hs : s.txaPhase = .idle)
    (hsusp : s.txaSuspended = true) (h : exec i s = .next t) : t.txaPhase = .idle := by
  have off : ∀ p : TxaPhase, p ≠ .idle → s.txaPhase ≠ p := fun p hp e => hp (e ▸ hs)
  have same : ∀ {u : State}, Host.Outcome.next u = Host.Outcome.next (φ := Fault) (ρ := Refusal) t →
      u.txaPhase = s.txaPhase → t.txaPhase = .idle := fun e hu => Host.Outcome.next.inj e ▸ hu.trans hs
  cases i
  case txaStart =>
    exact txaStep_idle h hs (by rw [show txaStart s = s from if_neg (by simp [hsusp])]; exact hs)
  case txaSendChar =>
    exact txaStep_idle h hs (by rw [show txaSendChar chip _ s = s from if_neg (off _ (by decide))]; exact hs)
  case txaEchoChar => exact txaStep_idle h hs (txaEchoChar_idle hs)
  case txaEchoTimeout =>
    exact txaStep_idle h hs (by rw [show txaEchoTimeout s = s from if_neg fun k => off _ (by decide) k.1]; exact hs)
  case txaRespTimeout =>
    exact txaStep_idle h hs (by rw [show txaRespTimeout s = s from if_neg (off _ (by decide))]; exact hs)
  case readStatus | sum8 | bitTicks | encodeChar | encodeFrameCells | encodeFrame | frxReset => exact same h rfl
  case decPush ch => exact same h (pushChar_same chip s ch).txaPhase
  case decodeCells cells => exact same h (raiseFaults_same _ { s with draws := _ }).txaPhase
  case frxStep b m => exact (stepFrx_same chip b m s t h).txaPhase.trans hs
  case build rx tx p =>
    simp only [exec, execBuild] at h
    split at h <;> exact same h rfl
  case validate bytes =>
    refine same h ?_
    unfold raiseVerdict
    split <;> rfl
  case frxTake =>
    simp only [exec, execFrxTake] at h
    split at h
    · exact same h rfl
    · cases h
  case tryLock a =>
    simp only [exec, execTryLock, takeLock_eq] at h
    split at h
    · exact same h rfl
    · refine same h ?_
      split <;> rfl
  case unlock a =>
    simp only [exec, execUnlock] at h
    split at h
    · exact same h rfl
    · split at h
      · exact same h rfl
      · cases h
  all_goals cases hi

/-- From an idle and suspended TXA every step leaves it idle. -/
theorem step_idle (s t : State) (hs : s.txaPhase = .idle) (hsusp : s.txaSuspended = true) (h : step s = .next t) :
    t.txaPhase = .idle := by
  refine step_reaches s t (fun v => v.txaPhase = .idle ∧ v.txaSuspended = true) (fun v => v.txaPhase = .idle)
    ?_ ?_ ?_ ?_ ?_ ?_ ?_ ?_ ⟨hs, hsusp⟩ h
  · exact fun v x hv => hv
  · exact fun v u hv hu => hu.same.txaPhase.trans hv.1
  · exact fun v w hv _ => hv.1
  · exact fun v a hv => (agentStep_txaPhase chip a v).trans hv.1
  · exact fun v a hv => (agentStep_txaPhase chip a v).trans hv
  · exact fun v a u hv _ hf => hf.idle hv.1
  · intro v a u l hv _ hf _
    rw [setTask_fields]
    exact hf.idle hv.1
  · exact fun v i u hv _ hi he => exec_idle hi hv.1 hv.2 he

/-- Settles O60: of what a step is made of (`step_reaches`) only TXA's own steps drive the line, in `Sending`, and only
`TXA.start` begins a transmission, which a suspended TXA does not do. -/
theorem lineDrivenOnlyWhileSending : Obligations.LineDrivenOnlyWhileSending := fun s t h =>
  ⟨fun hq => (Prod.ext_iff.mp (step_driven s t hq h)).symm, fun hs hsusp => step_idle s t hs hsusp h⟩

end Sys2Proof.Machine
end

section
/-! Wire commands that the engine sends, and agents that are inside an operation (O27, O38; 20_memory.md R61, R80,
45_bus_arbiter.md R252, R258, R271, 47_host_operations.md R320 to R331; logs 2, 7, 9, 10). -/
namespace Sys2Proof.Machine

/-! ### A command the engine builds is a host operation of HOST(0) -/

theorem sentTo_peerAddr (p : Peer) : sentTo ⟨peerAddr p, 0x80, 0x00⟩ = some p :=
  (sentTo_eq_some_iff _ p).mpr ⟨rfl, rfl, rfl⟩

theorem getsSettings_iff (p : Peer) : getsSettings p = true ↔ p ≠ .usb := by cases p <;> simp [getsSettings]

/-- The header of a frame the engine builds for a peer, where that peer gets what `ok` says. -/
theorem sentTo_filter {p : Peer} {ok : Peer → Bool} (h : ok p = true) :
    (sentTo ⟨peerAddr p, 0x80, 0x00⟩).filter ok = some p := by
  rw [sentTo_peerAddr, Option.filter_some, if_pos h]

/-- A setting to a peer that gets the settings (R258, R322). -/
theorem openingOf_setting {p : Peer} (h : p ≠ .usb) (v : Byte) (s : State) :
    let hd : Header := ⟨peerAddr p, 0x80, 0x00⟩
    openingOf (.masterVolume hd [v]) s = some (sendOne .setVolume p 0x0A v (v ≤ volMax) s) ∧
    openingOf (.balance hd [v]) s = some (sendOne .setBalance p 0x0B v (v ≤ balFadMax) s) ∧
    openingOf (.fader hd [v]) s = some (sendOne .setFader p 0x0C v (v ≤ balFadMax) s) ∧
    openingOf (.subVolume hd [v]) s = some (sendOne .setSubVolume p 0x0D v (v ≤ subMax) s) := by
  simp only [openingOf, openMasterVolume, openBalance, openFader, openSubVolume,
    sentTo_filter ((getsSettings_iff p).mpr h), and_self]

/-- A memory bank to an address of `SET_DESTS` (R328). -/
theorem openingOf_memory {p : Peer} (h : p ∈ chip.setDests) (v : Byte) (s : State) :
    openingOf (.changeMemory ⟨peerAddr p, 0x80, 0x00⟩ [v]) s =
      some (sendOne .setMemory p 0x0F v (bankOnWire chip v) s) := by
  simp only [openingOf, openChangeMemory, sentTo_filter (ok := chip.setDests.contains) (List.contains_iff_mem.mpr h)]

/-- A source change to `SRC_CHANGE_DEST` (R330). -/
theorem openingOf_source (s : State) :
    openingOf (.changeSource ⟨peerAddr chip.srcChangeDest, 0x80, 0x00⟩ []) s =
      some (hostCall 0 .requestSourceChange true .nothing (sourceChangeItems chip.srcChangeDest) s) := by
  simp only [openingOf, openChangeSource,
    sentTo_filter (ok := (· == chip.srcChangeDest)) (beq_self_eq_true chip.srcChangeDest)]

/-- A presence check to any peer (R254, R331). -/
theorem openingOf_check (p : Peer) (s : State) :
    openingOf (.checkPresent ⟨peerAddr p, 0x80, 0x00⟩ []) s =
      some (hostCall 0 .checkPresence true .nothing [.frame p (.fixed [0x11]) true] s) := by
  simp only [openingOf, openCheckPresent, sentTo_peerAddr, pingItems_host]

/-- A power-off to the Master Controller (R329). -/
theorem openingOf_powerOff (s : State) :
    openingOf (.powerOff ⟨peerAddr .mc, 0x80, 0x00⟩ []) s =
      some (hostCall 0 .powerOffMainUnit true .nothing powerOffItems s) := rfl

/-- A wire command is the one that its header, code and arguments decode to (R99, R100). -/
theorem decodeCommand_of_wireParts {i : Instr} {hd : Header} {code : Byte} {args : List Byte}
    (hw : i.wireParts = some (hd, code, args)) : decodeCommand hd args code = .ok i := by
  cases i <;> cases hw <;> rfl

/-- Whatever frame the engine builds, its command is opened as a host operation of HOST(0) (log 9). -/
theorem openingOf_engineBuilds {i : Instr} {hd : Header} {code : Byte} {args : List Byte} (s : State)
    (hw : i.wireParts = some (hd, code, args)) (hb : EngineBuilds chip hd code args) :
    ∃ op legal info items, openingOf i s = some (hostCall 0 op legal info items s) := by
  obtain ⟨rx, tx, rsv⟩ := hd
  obtain ⟨rfl, rfl, hlayout⟩ := hb
  have hi := decodeCommand_of_wireParts hw
  rcases hlayout with ⟨hrx, hcode, hlen⟩ | ⟨⟨p, hp, rfl⟩, rfl, hlen⟩ | ⟨rfl, rfl, rfl⟩ | ⟨hrx, rfl, rfl⟩ | ⟨rfl, rfl, rfl⟩
  · obtain ⟨v, rfl⟩ := List.length_eq_one_iff.mp hlen
    obtain ⟨p, hp, rfl⟩ : ∃ p, p ≠ .usb ∧ rx = peerAddr p :=
      hrx.elim (fun h => ⟨.mc, by decide, h⟩) fun h => ⟨.dsp, by decide, h⟩
    obtain ⟨hvol, hbal, hfad, hsub⟩ := openingOf_setting hp v s
    simp only [List.mem_cons, List.not_mem_nil, or_false] at hcode
    rcases hcode with rfl | rfl | rfl | rfl <;> obtain rfl := Except.ok.inj hi
    · exact ⟨_, _, _, _, hvol⟩
    · exact ⟨_, _, _, _, hbal⟩
    · exact ⟨_, _, _, _, hfad⟩
    · exact ⟨_, _, _, _, hsub⟩
  · obtain ⟨v, rfl⟩ := List.length_eq_one_iff.mp hlen
    obtain rfl := Except.ok.inj hi
    exact ⟨_, _, _, _, openingOf_memory hp v s⟩
  · obtain rfl := Except.ok.inj hi
    exact ⟨_, _, _, _, openingOf_source s⟩
  · obtain ⟨p, rfl⟩ : ∃ p, rx = peerAddr p :=
      hrx.elim (fun h => ⟨.mc, h⟩) fun h => h.elim (fun h => ⟨.dsp, h⟩) fun h => ⟨.usb, h⟩
    obtain rfl := Except.ok.inj hi
    exact ⟨_, _, _, _, openingOf_check p s⟩
  · obtain rfl := Except.ok.inj hi
    exact ⟨_, _, _, _, openingOf_powerOff s⟩

/-! ### A host operation run whole -/

/-- In `ShuttingDown` a host operation is rejected first (R320). -/
theorem hostCall_inert (c : Config) (n : Nat) (op : HostOp) (legal : Bool) (info : Info) (items : List Item) (s : State)
    (hb : s.busy (.host n) = false) (ha : s.arbState = .shuttingDown) :
    (hostCall n op legal info items s).whole c s =
      .next ((s.raise .engineInert (.op op)).giveReturn (some (.host n)) (.result .engineInert)) := by
  rw [whole_next _ c s _ hb rfl, hostFirst, if_pos ha]
  rfl

/-- A value outside its range is rejected (R321). -/
theorem hostCall_outOfRange (c : Config) (n : Nat) (op : HostOp) (info : Info) (items : List Item) (s : State)
    (hb : s.busy (.host n) = false) (ha : s.arbState ≠ .shuttingDown) :
    (hostCall n op false info items s).whole c s =
      .next ((s.raise .valueOutOfRange info).giveReturn (some (.host n)) (.result .valueOutOfRange)) := by
  rw [whole_next _ c s _ hb rfl, hostFirst, if_neg ha]
  rfl

/-- Otherwise its frames are enqueued in a row, and its caller is told whether all of them found room (R322, R323). -/
theorem hostCall_sends (c : Config) (hc : 1 ≤ c.enqRetryMax) (n : Nat) (op : HostOp) (info : Info)
    (x : Peer × Source × Bool) (l : List (Peer × Source × Bool)) (s : State) (hb : s.busy (.host n) = false)
    (ha : s.arbState ≠ .shuttingDown) :
    (hostCall n op true info ((x :: l).map fun y => .frame y.1 y.2.1 y.2.2) s).whole c s =
      .next ((afterEnqueues c ((x :: l).map (entryOf s.set)) s).giveReturn (some (.host n))
        (.result (enqueuesResult c ((x :: l).map (entryOf s.set)) s))) := by
  rw [whole_next _ c s _ hb rfl, hostFirst, if_neg ha, if_pos rfl]
  show Host.Outcome.next (runItems c (.host n) (_ ++ [.ret]) true true s) = _
  rw [runItems_frames c (.host n) hc [.ret] l x]
  simp only [runItems, hostResult, enqueuesResult, List.length_map, Bool.true_and, decide_eq_true_eq]

/-- The frames of a settings push by what they are built from (R258). -/
def pushSources : List (Peer × Source × Bool) :=
  [Peer.mc, Peer.dsp].flatMap fun d =>
    [(d, .setting .volume, false), (d, .setting .subVolume, false), (d, .setting .balance, false),
     (d, .setting .fader, false)]

theorem pushItems_eq_map : pushItems = pushSources.map fun y => .frame y.1 y.2.1 y.2.2 := rfl

theorem map_entryOf_pushSources (st : Settings) : pushSources.map (entryOf st) = pushedFrames st := rfl

/-- One value to one peer, where the engine runs: sent when it is in range (R321, R322). -/
theorem sendOne_whole {c : Config} (hc : 1 ≤ c.enqRetryMax) (op : HostOp) (p : Peer) (cmd v : Byte) {legal : Bool}
    {P : Prop} [Decidable P] (hl : legal = true ↔ P) (s : State) (hb : s.busy (.host 0) = false)
    (ha : s.arbState ≠ .shuttingDown) :
    (sendOne op p cmd v legal s).whole c s = .next (if P then
      let fs : List QueuedFrame := [⟨engineFrame p [cmd, v], false⟩]
      (afterEnqueues c fs s).giveReturn (some (.host 0)) (.result (enqueuesResult c fs s))
    else (s.raise .valueOutOfRange (.opValue op v)).giveReturn (some (.host 0)) (.result .valueOutOfRange)) := by
  cases legal with
  | true =>
    rw [if_pos (hl.mp rfl)]
    exact hostCall_sends c hc 0 op _ (p, .fixed [cmd, v], false) [] s hb ha
  | false =>
    rw [if_neg fun h => Bool.false_ne_true (hl.mpr h)]
    exact hostCall_outOfRange c 0 op _ _ s hb ha

theorem bankOnWire_iff (c : Config) (v : Byte) : bankOnWire c v = true ↔ 1 ≤ v.toNat ∧ v.toNat ≤ c.memBanks := by
  unfold bankOnWire
  split
  · next h => exact ⟨nofun, fun k => absurd k.1 (by omega)⟩
  · next h => rw [decide_eq_true_iff]; exact ⟨fun k => ⟨by omega, k⟩, And.right⟩

/-- A value of a register in its range, as the byte on the wire (R37 to R40). -/
theorem inRange_iff (v m : Byte) : decide (v ≤ m) = true ↔ v.toNat ≤ m.toNat := decide_eq_true_iff

/-- Settles O38: each command opens as a host operation of HOST(0) to the receiver of its header (`openingOf_setting` and
the lemmas after it), which is rejected in `ShuttingDown`, rejected out of range, or sent. -/
theorem wireCommandsSent : Obligations.WireCommandsSent := by
  refine ⟨fun p v s hb ha => ?_, fun p v s hb ha => ?_⟩
  · have inert := fun op legal info items => hostCall_inert chip 0 op legal info items s hb ha
    refine ⟨fun hp => ?_, fun hp => (exec_whole _ s _ (openingOf_memory hp v s)).trans (inert ..), ?_,
      (exec_whole _ s _ (openingOf_check p s)).trans (inert ..), ?_⟩
    · obtain ⟨hvol, hbal, hfad, hsub⟩ := openingOf_setting hp v s
      exact ⟨(exec_whole _ s _ hvol).trans (inert ..), (exec_whole _ s _ hbal).trans (inert ..),
        (exec_whole _ s _ hfad).trans (inert ..), (exec_whole _ s _ hsub).trans (inert ..)⟩
    · rintro rfl
      exact (exec_whole _ s _ (openingOf_source s)).trans (inert ..)
    · rintro rfl
      exact (exec_whole _ s _ (openingOf_powerOff s)).trans (inert ..)
  · have hc := chip_legal.enqRetryMax
    have one := fun op cmd (legal : Bool) (P : Prop) [Decidable P] (hl : legal = true ↔ P) =>
      sendOne_whole hc op p cmd v hl s hb ha
    have frames := fun op info x l => hostCall_sends chip hc 0 op info x l s hb ha
    refine ⟨fun hp => ?_, fun hp => ?_, ?_, ?_, ?_⟩
    · obtain ⟨hvol, hbal, hfad, hsub⟩ := openingOf_setting hp v s
      exact ⟨(exec_whole _ s _ hvol).trans (one _ _ _ _ (inRange_iff v volMax)),
        (exec_whole _ s _ hbal).trans (one _ _ _ _ (inRange_iff v balFadMax)),
        (exec_whole _ s _ hfad).trans (one _ _ _ _ (inRange_iff v balFadMax)),
        (exec_whole _ s _ hsub).trans (one _ _ _ _ (inRange_iff v subMax))⟩
    · exact (exec_whole _ s _ (openingOf_memory hp v s)).trans (one _ _ _ _ (bankOnWire_iff chip v))
    · rintro rfl
      rw [exec_whole _ s _ (openingOf_source s), sourceChangeItems, pushItems_eq_map, ← map_entryOf_pushSources]
      exact frames _ _ (_, .fixed [0x10], true) pushSources
    · exact (exec_whole _ s _ (openingOf_check p s)).trans (frames _ _ (p, .fixed [0x11], true) [])
    · rintro rfl
      exact (exec_whole _ s _ (openingOf_powerOff s)).trans (frames _ _ (.mc, .fixed [0x6E], false) [])

/-! ### An agent inside an operation -/

/-- An agent inside an operation begins no other, whole or by its first step (R271). -/
theorem exec_busy {i : Instr} {s : State} {o : Opening} (ho : openingOf i s = some o) (hb : s.busy o.agent = true) :
    exec i s = .next o.held := (exec_whole i s o ho).trans (whole_busy o chip s hb)

theorem startInstr_busy {i : Instr} {s : State} {o : Opening} (ho : openingOf i s = some o)
    (hb : s.busy o.agent = true) : startInstr i s = .next o.held := by
  unfold startInstr
  rw [ho]
  exact if_pos hb

/-- An operation that is selected by name leaves nothing behind when its agent is busy. -/
theorem held_of_named {i : Instr} {s : State} {o : Opening} (hw : i.wireParts = none) (ho : openingOf i s = some o) :
    o.held = s := by
  cases i
  case setVolume | setBalance | setFader | setSubVolume | setMemory | powerOffMainUnit | requestSourceChange |
      checkPresence | enqueue | dequeueAllReady | ping | pushSettings | dispatch | txaDrain | txaRespChar | lstChar |
      pollTick | arbBootCompletion =>
    obtain rfl := Option.some.inj ho
    rfl
  case inputSourceName | masterVolume | balance | fader | subVolume | changeMemory | changeSource | checkPresent |
      isPresent | usbConnected | firmwareVersion | isDisconnected | getCurrentSourceName | powerOff => cases hw
  all_goals cases ho

theorem exec_named_busy {i : Instr} {s : State} {o : Opening} (hw : i.wireParts = none) (ho : openingOf i s = some o)
    (hb : s.busy o.agent = true) : exec i s = .next s :=
  (exec_busy ho hb).trans (congrArg _ (held_of_named hw ho))

/-- TXA's own steps wait while TXA is inside a drain. -/
theorem txaStep_busy {f : State → State} {s : State} (h : s.busy .txa = true) : txaStep f s = .next s := if_pos h

/-- A command the engine would send is not sent while HOST(0) is busy (log 9). -/
theorem engineBuilds_busy {i : Instr} {hd : Header} {code : Byte} {args : List Byte} {s : State}
    (hw : i.wireParts = some (hd, code, args)) (hb : EngineBuilds chip hd code args)
    (hbusy : s.busy (.host 0) = true) : exec i s = .next s ∧ startInstr i s = .next s := by
  obtain ⟨op, legal, info, items, ho⟩ := openingOf_engineBuilds s hw hb
  exact ⟨exec_busy ho hbusy, startInstr_busy ho hbusy⟩

/-- A command that arrives while the owner of `rxf` is busy is only heard (R166, R222). -/
theorem arrival_busy {i : Instr} {hd : Header} {code : Byte} {args : List Byte} {s : State}
    (hw : i.wireParts = some (hd, code, args)) (hb : ¬ EngineBuilds chip hd code args)
    (hbusy : s.busy s.owner = true) {t : State} (ht : hearPeer chip (frameCells (commandFrame hd code args)) s = t) :
    exec i s = .next t ∧ startInstr i s = .next t := by
  have ho := openingOf_arrival i hd code args s hw hb
  subst ht
  exact ⟨exec_busy ho hbusy, startInstr_busy ho hbusy⟩

/-- Settles O27: what a busy agent is asked to begin leaves the state as it was (`held_of_named`), but for the cells of a
frame that arrives (`arrival_busy`). -/
theorem busyAgentsBeginNothing : Obligations.BusyAgentsBeginNothing := by
  intro s
  refine ⟨fun hb => ⟨exec_named_busy rfl rfl hb, exec_named_busy rfl rfl hb⟩, fun hb b => ?_,
    fun hb => exec_named_busy rfl rfl hb, fun hb f => exec_named_busy rfl rfl hb, fun a hb f w p => ?_, fun h hb v => ?_,
    fun i o hw ho hb => (startInstr_busy ho hb).trans (congrArg _ (held_of_named hw ho)), ?_⟩
  · exact ⟨exec_named_busy rfl rfl hb, txaStep_busy hb, txaStep_busy hb, txaStep_busy hb, txaStep_busy hb,
      exec_named_busy rfl rfl hb, txaStep_busy hb, exec_named_busy rfl rfl hb⟩
  · exact ⟨if_pos hb, if_pos hb, exec_named_busy rfl rfl hb, exec_named_busy rfl rfl hb, exec_named_busy rfl rfl hb⟩
  · exact ⟨exec_named_busy rfl rfl hb, exec_named_busy rfl rfl hb, exec_named_busy rfl rfl hb,
      exec_named_busy rfl rfl hb, exec_named_busy rfl rfl hb, exec_named_busy rfl rfl hb, exec_named_busy rfl rfl hb,
      exec_named_busy rfl rfl hb⟩
  · intro i hd code args hw
    refine ⟨engineBuilds_busy hw, fun hb hbusy hidle hq => ?_, fun hb hbusy hq => ?_⟩
    · obtain ⟨sh, e⟩ := hearPeer_frame chip (commandFrame hd code args) s hidle hq
      exact ⟨sh, arrival_busy hw hb hbusy e⟩
    · exact arrival_busy hw hb hbusy (hearPeer_frame_sending chip _ s (List.cons_ne_nil _ _) hq)

end Sys2Proof.Machine
end

section
/-! The codes of 30_encoding.md: wire commands and their frames (R95 to R101), the cells of a character and of a frame
(R90, R91, R151, R153), cells packed into timed items (R93, R94, R154). -/
namespace Sys2Proof.Machine

/-! ### Wire commands and their frames -/

/-- A well-formed wire command's arguments fit a frame (R96). -/
theorem argsFit_of_wireParts {i : Instr} {hd : Header} {code : Byte} {args : List Byte} (hi : i.wf = true)
    (hw : i.wireParts = some (hd, code, args)) : argsFit args = true := by
  cases i <;> cases hw <;> exact hi

/-- The command map takes a code to the one command that is written with it (R100). -/
theorem decodeCommand_ok_iff {hd : Header} {code : Byte} {args : List Byte} {i : Instr} :
    decodeCommand hd args code = .ok i ↔ i.wireParts = some (hd, code, args) := by
  refine ⟨fun h => ?_, decodeCommand_of_wireParts⟩
  unfold decodeCommand at h
  split at h
  case h_15 => cases h
  all_goals
    next hcode =>
    obtain rfl := Except.ok.inj h
    exact congrArg (fun c => some (hd, c, args)) (BitVec.eq_of_toNat_eq hcode.symm)

/-- Bytes that decode are a command's frame (R95, R99, R134). -/
theorem commandFrame_of_decode {bytes : List Byte} {i : Instr} (h : decode bytes = .ok i) :
    ∃ hd code args, i.wireParts = some (hd, code, args) ∧ bytes = commandFrame hd code args := by
  unfold decode at h
  split at h
  case h_1 => cases h
  case h_2 => cases h
  case h_3 hv =>
    have hbytes := (frameBytes_of_verdict bytes hv).1
    cases hp : framePayload bytes with
    | nil => rw [hp] at h; cases h
    | cons code args =>
      rw [hp] at h hbytes
      exact ⟨_, code, args, decodeCommand_ok_iff.mp h, hbytes.symm⟩

/-- What `encode` writes: the frame of the command's parts (R95, R99, R110). -/
theorem encode_eq_some_iff {i : Instr} {f : List Byte} :
    encode i = some f ↔ ∃ hd code args, i.wireParts = some (hd, code, args) ∧ f = commandFrame hd code args := by
  simp [encode, Option.map_eq_some_iff, eq_comm (a := f)]

/-- A well-formed wire command is read back from its frame. -/
theorem decode_of_encode {i : Instr} {f : List Byte} (hi : i.wf = true) (hf : encode i = some f) : decode f = .ok i := by
  obtain ⟨hd, code, args, hw, rfl⟩ := encode_eq_some_iff.mp hf
  rw [decode_commandFrame hd code args (argsFit_of_wireParts hi hw), decodeCommand_of_wireParts hw]

/-- Settles O48: both directions go through the frame of the command's parts. -/
theorem decodeEncodeAgree : Obligations.DecodeEncodeAgree :=
  ⟨fun _ _ => decode_of_encode,
    fun bytes i h => ⟨decode_wf bytes i h, encode_eq_some_iff.mpr (commandFrame_of_decode h)⟩⟩

/-- Settles O47: each of the five frames is what `encode` writes for its command; the sixth fails the checksum. -/
theorem writtenFramesDecode : Obligations.WrittenFramesDecode :=
  ⟨decode_of_encode rfl rfl, decode_of_encode rfl rfl, decode_of_encode rfl rfl, decode_of_encode rfl rfl,
    decode_of_encode rfl rfl, rfl⟩

/-! ### Cells -/

/-- Cell `k + 1` of a character is bit `k` of its byte (R90, R151; log 15). -/
theorem charCells_data (b : Byte) (m : Level) {k : Nat} (hk : k < 8) :
    (charCells b m)[k + 1]? = some (b.toNat / 2 ^ k % 2 == 1) := by
  have hcell : (charCells b m)[k + 1]? = some (b.getLsbD k) := by
    interval_cases k <;> rfl
  rw [hcell, ← BitVec.testBit_toNat, Nat.testBit_eq_decide_div_mod_eq, beq_eq_decide]

/-- Byte `k` of a frame is its character `k`, with marker 1 at `k = 0` alone (R91). -/
theorem frameChars_getElem? (f : List Byte) (k : Nat) :
    (frameChars f)[k]? = f[k]?.map fun b => ⟨b, k == 0⟩ := by
  cases f with
  | nil => rfl
  | cons b f => cases k <;> simp [frameChars]

/-- Characters stand back to back: eleven cells each, in order (R92). -/
theorem charsCells_slice {l : List Character} {k : Nat} {ch : Character} (h : l[k]? = some ch) :
    ((charsCells l).drop (11 * k)).take 11 = charCells ch.byte ch.marker := by
  induction l generalizing k with
  | nil => cases h
  | cons x l ih =>
    cases k with
    | zero =>
      obtain rfl := Option.some.inj h
      exact List.take_left' (charCells_length ..)
    | succ k =>
      have hdrop : (charsCells (x :: l)).drop (11 * (k + 1)) = (charsCells l).drop (11 * k) := by
        rw [charsCells, Nat.mul_succ, Nat.add_comm, ← charCells_length x.byte x.marker, List.drop_length_add_append,
          charCells_length]
      rw [hdrop]
      exact ih h

/-- Settles O5, by the cells of one character (`charCells_data`) and their places in a frame (`charsCells_slice`). -/
theorem characterAndFrameCells : Obligations.CharacterAndFrameCells := by
  intro s
  refine ⟨fun b m => ⟨charCells b m, rfl, rfl, rfl, fun k hk => charCells_data b m hk, rfl, rfl⟩,
    fun f => ⟨frameCells f, rfl, frameCells_length f, fun k b hb => ?_⟩⟩
  have hch : (frameChars f)[k]? = some ⟨b, k == 0⟩ := by rw [frameChars_getElem?, hb, Option.map_some]
  exact charsCells_slice hch

/-! ### Timed items -/

/-- The timed item of a cell and of the cell after it, where there is one; else its second half is the filler (R94). -/
def packedItem (t : Nat) (l0 : Level) : Option Level → TimedItem
  | some l1 => ⟨t, l0, t, l1⟩
  | none => ⟨t, l0, 0, true⟩

theorem packCells_length (t : Nat) (l : List Level) : (packCells t l).length = (l.length + 1) / 2 := by
  induction l using packCells.induct with
  | case1 => rfl
  | case2 x => simp [packCells]
  | case3 x y rest ih =>
    simp only [packCells, List.length_cons, ih]
    omega

/-- Item `k` is packed from cells `2 * k` and `2 * k + 1` (R154). -/
theorem packCells_getElem? (t : Nat) (l : List Level) (k : Nat) :
    (packCells t l)[k]? = l[2 * k]?.map fun l0 => packedItem t l0 l[2 * k + 1]? := by
  induction l using packCells.induct generalizing k with
  | case1 => rfl
  | case2 x => cases k <;> rfl
  | case3 x y rest ih =>
    cases k with
    | zero => rfl
    | succ k => exact ih k

/-- Settles O6, by the items of any list of cells (`packCells_length`, `packCells_getElem?`). -/
theorem timedItemsPackCells : Obligations.TimedItemsPackCells := by
  intro f s
  have hlen : (frameItems chip f).length = (11 * f.length + 1) / 2 := by
    rw [frameItems, packCells_length, frameCells_length]
  refine ⟨frameItems chip f, rfl, hlen, fun k hk => ?_⟩
  have hcell : 2 * k < (frameCells f).length := by rw [frameCells_length]; omega
  refine ⟨(frameCells f)[2 * k], List.getElem?_eq_getElem hcell, ?_⟩
  rw [frameItems, packCells_getElem?, List.getElem?_eq_getElem hcell, Option.map_some]
  cases (frameCells f)[2 * k + 1]? <;> rfl

end Sys2Proof.Machine
end

section
/-! The Frame Codec (O1, O2, O3; 40_frame_codec.md R130, R131, R134, R136): what one byte does to the checksum, what
`validate` finds in bytes followed by a checksum byte, and the three operations called by name (log 6). -/
namespace Sys2Proof.Machine

/-! ### The checksum -/

theorem checksum_toNat (l : List Byte) : (checksum l).toNat = (l.map BitVec.toNat).sum % 256 := by
  induction l with
  | nil => rfl
  | cons b l ih => rw [checksum_cons, BitVec.toNat_add, ih, List.map_cons, List.sum_cons, Nat.add_mod_mod]

/-- A byte put in place of another leaves the checksum only where it is the same byte (R130). -/
theorem checksum_set_eq_iff {l : List Byte} {k : Nat} (b : Byte) (h : k < l.length) :
    checksum (l.set k b) = checksum l ↔ l[k]? = some b := by
  induction l generalizing k with
  | nil => exact absurd h (Nat.not_lt_zero k)
  | cons x l ih =>
    cases k with
    | zero =>
      rw [List.set_cons_zero, checksum_cons, checksum_cons, BitVec.add_left_inj, List.getElem?_cons_zero,
        Option.some.injEq, eq_comm]
    | succ k =>
      rw [List.set_cons_succ, checksum_cons, checksum_cons, BitVec.add_right_inj, List.getElem?_cons_succ]
      exact ih (Nat.lt_of_succ_lt_succ h)

/-- Settles O1, by the recursion of `checksum`: its value, its value on a concatenation, its value after a change. -/
theorem checksumIsByteSum : Obligations.ChecksumIsByteSum :=
  ⟨checksum_toNat, fun l m => by rw [checksum_append, BitVec.toNat_add],
    fun _ _ b hk hne => mt (checksum_set_eq_iff b hk).mp hne, rfl, rfl⟩

/-! ### What `validate` finds -/

theorem verdict_of_short {f : List Byte} (h : f.length < 5) : verdict f = .frameMalformed := if_pos h

/-- The checks of R134 on bytes followed by the byte that stands for their checksum. -/
theorem verdict_concat {f : List Byte} (x : Byte) (h : 4 ≤ f.length) :
    verdict (f ++ [x]) = if checksum f ≠ x then .checksumMismatch
      else if (f.getD 3 0).toNat ≠ f.length + 1 then .frameMalformed else .frame := by
  have hlen : (f ++ [x]).length = f.length + 1 := List.length_append
  have h3 : (f ++ [x]).getD 3 0 = f.getD 3 0 := List.getD_append f [x] 0 3 h
  rw [verdict, if_neg (by omega), List.dropLast_concat, List.getLastD_concat, h3, hlen]

theorem verdict_concat_of_checksum_ne {f : List Byte} {x : Byte} (h : 4 ≤ f.length) (hx : checksum f ≠ x) :
    verdict (f ++ [x]) = .checksumMismatch := by
  rw [verdict_concat x h, if_pos hx]

theorem verdict_concat_checksum {f : List Byte} {n : Byte} (h : 4 ≤ f.length) (hn : f[3]? = some n) :
    verdict (f ++ [checksum f]) = if n.toNat = f.length + 1 then .frame else .frameMalformed := by
  rw [verdict_concat _ h, if_neg (not_not.mpr rfl), List.getD_eq_getElem?_getD, hn, Option.getD_some, ite_not]

/-- A valid frame is at least four bytes followed by their checksum (R133). -/
theorem eq_concat_of_verdict_frame {f : List Byte} (h : verdict f = .frame) :
    ∃ g, 4 ≤ g.length ∧ f = g ++ [checksum g] := by
  obtain ⟨hlen, hsum, -⟩ := (verdict_frame_iff f).mp h
  rcases List.eq_nil_or_concat' f with rfl | ⟨g, x, rfl⟩
  · exact absurd hlen (by decide)
  · rw [List.dropLast_concat, List.getLastD_concat] at hsum
    rw [List.length_append] at hlen
    exact ⟨g, Nat.le_of_succ_le_succ hlen, by rw [hsum]⟩

/-- One byte replaced, be it the checksum byte or one before it, is a checksum mismatch (R136). -/
theorem verdict_set_of_frame {f : List Byte} {k : Nat} {b : Byte} (h : verdict f = .frame) (hk : k < f.length)
    (hb : f[k]? ≠ some b) : verdict (f.set k b) = .checksumMismatch := by
  obtain ⟨g, hg, rfl⟩ := eq_concat_of_verdict_frame h
  rcases Nat.lt_or_ge k g.length with hlt | hge
  · rw [List.getElem?_append_left hlt] at hb
    rw [List.set_append_left k b hlt]
    exact verdict_concat_of_checksum_ne (by rwa [List.length_set]) (mt (checksum_set_eq_iff b hlt).mp hb)
  · rw [List.length_append] at hk
    obtain rfl : k = g.length := Nat.le_antisymm (Nat.le_of_lt_succ hk) hge
    rw [List.getElem?_concat_length] at hb
    rw [List.set_append_right _ b hge, Nat.sub_self, List.set_cons_zero]
    exact verdict_concat_of_checksum_ne hg (hb ∘ congrArg some)

theorem buildFrame_of_le {rx tx : Byte} {p : List Byte} (h : p.length ≤ 250) :
    buildFrame rx tx p = some (frameBytes rx tx 0x00 p) := if_neg (Nat.not_lt.mpr h)

theorem buildFrame_of_gt {rx tx : Byte} {p : List Byte} (h : 250 < p.length) : buildFrame rx tx p = none := if_pos h

/-- Settles O2: a built frame has its own length byte and checksum (`verdict_frameBytes`), one replaced byte is
`verdict_set_of_frame`, and in a frame with no payload 1 added to the receiver and taken from the transmitter cancel. -/
theorem buildThenValidate : Obligations.BuildThenValidate := by
  refine ⟨fun rx tx p hp => ⟨frameBytes rx tx 0x00 p, buildFrame_of_le hp, verdict_frameBytes rx tx 0x00 p hp,
      frameReceiver_frameBytes .., frameTransmitter_frameBytes .., framePayload_frameBytes ..⟩,
    fun f k b => verdict_set_of_frame, ?_⟩
  exact ⟨[0x00, 0x80, 0x00, 0x05, 0x85], 0, 1, 0x01, 0x7F, by decide⟩

/-! ### The operations called by name -/

theorem exec_build_of_le {rx tx : Byte} {p : List Byte} (s : State) (h : p.length ≤ 250) :
    exec (.build rx tx p) s = .next (s.giveReturn none (.bytes (frameBytes rx tx 0x00 p))) := by
  show execBuild rx tx p s = _
  rw [execBuild, buildFrame_of_le h]

theorem exec_build_of_gt {rx tx : Byte} {p : List Byte} (s : State) (h : 250 < p.length) :
    exec (.build rx tx p) s =
      .next ((s.raise .payloadTooLarge (.size p.length)).giveReturn none (.failed .payloadTooLarge)) := by
  show execBuild rx tx p s = _
  rw [execBuild, buildFrame_of_gt h]

theorem exec_validate_of_frame {f : List Byte} (s : State) (h : verdict f = .frame) :
    exec (.validate f) s = .next (s.giveReturn none (.bytes f)) := by
  show execValidate f s = _
  rw [execValidate, raiseVerdict, verdictValue, h]

theorem exec_validate_of_checksumMismatch {f : List Byte} (s : State) (h : verdict f = .checksumMismatch) :
    exec (.validate f) s =
      .next ((s.raise .checksumMismatch (.bytes f)).giveReturn none (.failed .checksumMismatch)) := by
  show execValidate f s = _
  rw [execValidate, raiseVerdict, verdictValue, h]

theorem exec_validate_of_frameMalformed {f : List Byte} (s : State) (h : verdict f = .frameMalformed) :
    exec (.validate f) s =
      .next ((s.raise .frameMalformed (.size f.length)).giveReturn none (.failed .frameMalformed)) := by
  show execValidate f s = _
  rw [execValidate, raiseVerdict, verdictValue, h]

/-- Settles O3, one outcome of `build` and `validate` at a time, with the verdict of R134 in each case. -/
theorem codecOperations : Obligations.CodecOperations := by
  intro s
  refine ⟨fun _ => rfl, fun _ _ _ hp => exec_build_of_le s hp, fun _ _ _ hp => exec_build_of_gt s hp,
    fun _ hf => exec_validate_of_frameMalformed s (verdict_of_short hf), fun f x hlen hx => ?_, fun f n hlen hn => ?_⟩
  · rw [List.length_append] at hlen
    exact exec_validate_of_checksumMismatch s (verdict_concat_of_checksum_ne (Nat.le_of_succ_le_succ hlen) hx)
  · have hv := verdict_concat_checksum hlen hn
    by_cases hc : n.toNat = f.length + 1
    · rw [if_pos hc] at hv ⊢
      exact exec_validate_of_frame s hv
    · rw [if_neg hc] at hv ⊢
      rw [exec_validate_of_frameMalformed s hv, List.length_append]
      rfl

end Sys2Proof.Machine
end

section
/-! The transceiver's cells by name (O4, O7, O8; 41_line_transceiver.md R150, R161 to R163): the duration
of a cell, and what `decode_cells` hands back and raises, by what a run of the decoder leaves (logs 6, 7, 14). -/
namespace Sys2Proof.Machine

/-! ### The duration of a cell -/

/-- The duration is the natural number nearest to `TICK_HZ / baud`, of two equally near ones the greater (R150). -/
theorem ticksPerBit_bounds (c : Config) {rate : Nat} (h : 0 < rate) :
    2 * rate * ticksPerBit c rate ≤ 2 * c.tickHz + rate ∧
    2 * c.tickHz + rate < 2 * rate * (ticksPerBit c rate + 1) :=
  ⟨Nat.mul_div_le _ _, Nat.lt_mul_div_succ _ (Nat.mul_pos Nat.two_pos h)⟩

/-- At 38 400 baud the least legal tick rate gives one tick (R150, 92_eei_decisions.md D4). -/
theorem ticksPerBit_baud_pos {c : Config} (h : c.Legal) : 1 ≤ ticksPerBit c baud := by
  have hleast := h.tickHz
  refine Nat.div_pos ?_ (by decide)
  unfold baud
  omega

/-- Settles O4: the quotient's bounds (`ticksPerBit_bounds`), and the tick rate of a legal configuration. -/
theorem cellDurationRounds : Obligations.CellDurationRounds :=
  ⟨fun rate _ hrate => ⟨ticksPerBit chip rate, rfl, ticksPerBit_bounds chip hrate⟩, ticksPerBit_baud_pos chip_legal⟩

/-! ### `decode_cells` called by name -/

/-- The decoder where `decode_cells` starts: between characters, with nothing reported (log 6). -/
def DecRun.start (draws : Nat) : DecRun := ⟨.idle, 0, draws, [], []⟩

/-- What `decode_cells` does to the state, by what its run of the decoder leaves; DEC's own registers have no part. -/
theorem exec_decodeCells {cells : List Level} {s : State} {r : DecRun} (h : decRun chip 0 (.start s.draws) cells = r) :
    exec (.decodeCells cells) s = .next { s with
      draws := r.draws
      err := if r.faults = [] then s.err else { s.err with lineFramingFault := true }
      out := s.out ++ List.replicate r.faults.length faultLogged
      faultIndices := s.faultIndices ++ r.faults
      returns := s.returns ++ [(none, .chars r.chars)] } := by
  subst h
  show Host.Outcome.next (decodeCells chip cells s) = _
  rw [decodeCells, raiseFaults_eq]
  rfl

theorem frameChars_eq_mapIdx (f : List Byte) : frameChars f = f.mapIdx fun k b => ⟨b, k == 0⟩ :=
  List.ext_getElem? fun k => by rw [frameChars_getElem?, List.getElem?_mapIdx]

/-- A frame between idle cells gives its characters, and neither a fault nor a draw (R163). -/
theorem decRun_frame (c : Config) (f : List Byte) (before after draws : Nat) :
    ∃ sh, decRun c 0 (.start draws) (List.replicate before true ++ frameCells f ++ List.replicate after true) =
      ⟨.idle, sh, draws, frameChars f, []⟩ := by
  obtain ⟨sh, hchars⟩ := decRun_chars c (frameChars f) (0 + (List.replicate before true).length) (.start draws) rfl
  refine ⟨sh, ?_⟩
  rw [decRun_append, decRun_append, decRun_idle c before _ (.start draws) rfl, frameCells, hchars]
  exact decRun_idle c after _ _ rfl

/-- A character with a low stop cell, eleven or more idle cells and a character: one fault with the index of the first
start cell, which takes a draw, and the second character alone (R162). -/
theorem decRun_badStop_recover (c : Config) (b b' : Byte) (m m' : Level) (before idle draws : Nat) (h : 11 ≤ idle) :
    decRun c 0 (.start draws) (List.replicate before true ++ (charCells b m).dropLast ++ [false] ++
        List.replicate idle true ++ charCells b' m') =
      ⟨.idle, charBits b' m', draws + 1, [⟨b', m'⟩], [before]⟩ := by
  have hcells : List.replicate before true ++ (charCells b m).dropLast ++ [false] ++ List.replicate idle true ++
      charCells b' m' = List.replicate before true ++
        ((charCells b m).dropLast ++ [false] ++ (List.replicate idle true ++ (charCells b' m' ++ []))) := by
    simp only [List.append_assoc, List.append_nil]
  rw [hcells, decRun_append, decRun_idle c before _ (.start draws) rfl, List.length_replicate, Nat.zero_add,
    decRun_badStop c b m before (.start draws) rfl, decRun_append, decRun_recover c idle _ _ 0 rfl (by omega) (by omega),
    decRun_char c b' m' _ _ rfl]
  rfl

/-- Settles O7, by the run of the decoder over a frame between idle cells (`decRun_frame`). -/
theorem cellRoundTrip : Obligations.CellRoundTrip := by
  intro f before after s
  obtain ⟨sh, hrun⟩ := decRun_frame chip f before after s.draws
  rw [exec_decodeCells hrun, frameChars_eq_mapIdx]
  simp

/-- Settles O8: what the run leaves depends on the cells and the draws alone (`exec_decodeCells`), and the run over a
character with a low stop cell and one after it is `decRun_badStop_recover`. -/
theorem framingFaultDropsCharacter : Obligations.FramingFaultDropsCharacter := by
  refine ⟨fun cells d => ?_, fun b b' m m' before idle s hidle => ?_⟩
  · exact ⟨_, _, _, fun s hd => exec_decodeCells (r := decRun chip 0 (.start d) cells) (by rw [hd])⟩
  · exact exec_decodeCells (decRun_badStop_recover chip b b' m m' before idle s.draws hidle)

end Sys2Proof.Machine
end

section
/-! The Frame Receiver (O10 to O14; 42_frame_receiver.md R181 to R191): what one character does in each of its states, said
once, and what the characters of a frame do, by the state in the middle of a frame (logs 6, 12, 21). -/
namespace Sys2Proof.Machine

/-! ### One character -/

theorem exec_frxStep (b : Byte) (m : Level) (s : State) : exec (.frxStep b m) s = stepFrx chip b m s := rfl

/-- A marked character starts a frame (R181). -/
theorem stepFrx_marked (c : Config) (b : Byte) {s : State} (h : s.frxState = .awaitingAddress) :
    stepFrx c b true s = .next { s with
      frxBuf := s.frxBuf.write 0 b, frxCount := 1, frxState := .awaitingLength } := by
  rw [stepFrx, h]
  rfl

/-- A character of the header before the declared length is stored (R182). -/
theorem stepFrx_header {c : Config} (hcap : 5 ≤ c.rxCap) (b : Byte) (m : Level) {s : State}
    (h : s.frxState = .awaitingLength) (h3 : s.frxCount < 3) : stepFrx c b m s = .next (s.storeFrx b) := by
  rw [stepFrx, h]
  simp only
  rw [if_neg (by omega), if_neg (by omega)]

/-- The fourth character is the declared length, and decides how the receiver goes on (R182, R184, R185). -/
theorem stepFrx_lengthByte {c : Config} (hcap : 5 ≤ c.rxCap) (b : Byte) (m : Level) {s : State}
    (h : s.frxState = .awaitingLength) (h3 : s.frxCount = 3) :
    stepFrx c b m s =
      (let stored : State := { s with frxBuf := s.frxBuf.write 3 b, frxLen := b, frxCount := 4 }
      if b.toNat < 5 then .next (stored.raise .frameMalformed (.size b.toNat)).resetFrx
      else if c.rxCap < b.toNat then .next (stored.raise .bufferTooSmall (.sizes b.toNat c.rxCap)).resetFrx
      else .next { stored with frxState := .awaitingPayload }) := by
  rw [stepFrx, h]
  simp only
  rw [if_neg (by omega), if_pos (by omega), State.storeFrx, h3]
  rfl

theorem stepFrx_complete (c : Config) (b : Byte) (m : Level) {s : State} (h : s.frxState = .complete) :
    stepFrx c b m s = .refused .frxStepInComplete := by
  rw [stepFrx, h]

/-- Settles O10: the two kinds of character (`stepFrx_unmarked`, `stepFrx_marked`). -/
theorem receiverAwaitsMarkedByte : Obligations.ReceiverAwaitsMarkedByte :=
  fun b s h => ⟨stepFrx_unmarked chip b s h, stepFrx_marked chip b h⟩

/-- Settles O11: the characters before the declared length (`stepFrx_header`), and the three ways the length byte can go
(`stepFrx_lengthByte`). -/
theorem receiverReadsHeader : Obligations.ReceiverReadsHeader := by
  intro b m s h
  have hcap := chip_legal.rxCap_ge
  refine ⟨fun _ h3 => stepFrx_header hcap b m h h3, fun h3 => ?_⟩
  rw [exec_frxStep, stepFrx_lengthByte hcap b m h h3]
  refine ⟨fun hshort => ?_, fun hge hlong => ?_, fun hge hfit => ?_⟩
  · exact if_pos hshort
  · exact (if_neg (Nat.not_lt.mpr hge)).trans (if_pos hlong)
  · exact (if_neg (Nat.not_lt.mpr hge)).trans (if_neg (Nat.not_lt.mpr hfit))

/-- Settles O12: under R26 the count is below the declared length, which is at most `RX_CAP`, so the byte is stored
(`stepFrx_payload`). -/
theorem receiverCountsToLength : Obligations.ReceiverCountsToLength := by
  intro b m s hinv h
  obtain ⟨-, hcount, hlen⟩ := hinv.awaitingPayload h
  exact stepFrx_payload chip b m s h (hcount.trans_le hlen)

/-! ### Handing over -/

theorem exec_frxTake_of_complete {s : State} (h : s.frxState = .complete) :
    exec .frxTake s = .next (s.resetFrx.giveReturn none (.bytes s.takenFrame)) := if_pos h

theorem exec_frxTake_of_incomplete {s : State} (h : s.frxState ≠ .complete) :
    exec .frxTake s = .refused .frxTakeNotComplete := if_neg h

/-- Settles O13, by whether a frame is complete. -/
theorem receiverHandsOver : Obligations.ReceiverHandsOver :=
  fun _ => ⟨exec_frxTake_of_complete, exec_frxTake_of_incomplete, rfl, fun b m h => stepFrx_complete chip b m h⟩

/-! ### The buffer with the first bytes of a frame -/

/-- The buffer with bytes written to it from address 0 on. -/
def Memory.store (m : Memory) (g : List Byte) : Memory := g.zipIdx.foldl (fun m e => m.write e.2 e.1) m

theorem Memory.store_concat (m : Memory) (g : List Byte) (b : Byte) :
    m.store (g ++ [b]) = (m.store g).write g.length b := by
  simp [Memory.store, List.zipIdx_append]

theorem Memory.store_wf {m : Memory} (h : m.wf = true) (g : List Byte) : (m.store g).wf = true := by
  induction g using List.reverseRecOn with
  | nil => exact h
  | append_singleton g b ih =>
    rw [Memory.store_concat]
    exact Memory.write_wf _ _ _ ih

theorem Memory.read_store {m : Memory} (h : m.wf = true) (g : List Byte) (a : Nat) :
    (m.store g).read a = (g[a]?).getD (m.read a) := by
  induction g using List.reverseRecOn with
  | nil => rfl
  | append_singleton g b ih =>
    rw [Memory.store_concat, Memory.read_write _ _ _ (Memory.store_wf h g), ih]
    by_cases ha : a = g.length
    · rw [if_pos ha, ha, List.getElem?_concat_length, Option.getD_some]
    · rw [if_neg ha, List.getElem?_append]
      split
      · rfl
      · rw [List.getElem?_eq_none (by omega), List.getElem?_eq_none (by simp; omega)]

/-! ### In the middle of a frame -/

/-- `frx_state` after `k` bytes of a frame of `n` bytes. -/
def FrxState.after (n k : Nat) : FrxState :=
  if k = 0 then .awaitingAddress else if k < 4 then .awaitingLength else if k = n then .complete else .awaitingPayload

theorem FrxState.after_header {n k : Nat} (h1 : 1 ≤ k) (h4 : k < 4) : FrxState.after n k = .awaitingLength := by
  rw [FrxState.after, if_neg (by omega), if_pos h4]

theorem FrxState.after_payload {n k : Nat} (h4 : 4 ≤ k) :
    FrxState.after n k = if k = n then .complete else .awaitingPayload := by
  rw [FrxState.after, if_neg (by omega), if_neg (by omega)]

theorem FrxState.after_ne_complete {n k : Nat} (h : k < n) : FrxState.after n k ≠ .complete := by
  rw [FrxState.after, if_neg (Nat.ne_of_lt h)]
  split_ifs <;> nofun

/-- A receiver that waited for an address, after the bytes `g` of a frame of `n` bytes (R182, R183). -/
def State.midFrame (s : State) (n : Nat) (g : List Byte) : State :=
  { s with
    frxBuf := s.frxBuf.store g
    frxCount := g.length
    frxLen := if g.length < 4 then s.frxLen else BitVec.ofNat 8 n
    frxState := .after n g.length }

theorem State.midFrame_concat (s : State) (n : Nat) (g : List Byte) (b : Byte) :
    s.midFrame n (g ++ [b]) = { s with
      frxBuf := (s.frxBuf.store g).write g.length b
      frxCount := g.length + 1
      frxLen := if g.length + 1 < 4 then s.frxLen else BitVec.ofNat 8 n
      frxState := .after n (g.length + 1) } := by
  simp only [State.midFrame, Memory.store_concat, List.length_append, List.length_singleton]

/-- One byte more of a valid frame that fits the buffer: only the first one must be marked. -/
theorem stepFrx_midFrame {c : Config} {f : List Byte} (hv : verdict f = .frame) (hfit : f.length ≤ c.rxCap)
    {g rest : List Byte} {b : Byte} (hf : f = g ++ b :: rest) {m : Level} (hm : g = [] → m = true) (s : State) :
    stepFrx c b m (s.midFrame f.length g) = .next (s.midFrame f.length (g ++ [b])) := by
  obtain ⟨h3, h5, h256⟩ := lengthByte_of_verdict hv
  have hcap : 5 ≤ c.rxCap := h5.trans hfit
  have hlt : g.length < f.length := by rw [hf, List.length_append, List.length_cons]; omega
  have hb : f[g.length]? = some b := by rw [hf, List.getElem?_append_right (Nat.le_refl _), Nat.sub_self]; rfl
  rw [State.midFrame_concat]
  rcases (by omega : g.length = 0 ∨ (1 ≤ g.length ∧ g.length < 3) ∨ g.length = 3 ∨ 4 ≤ g.length) with
    hk | ⟨h1, hk⟩ | hk | hk
  · obtain rfl := List.length_eq_zero_iff.mp hk
    obtain rfl := hm rfl
    exact stepFrx_marked c b rfl
  · rw [stepFrx_header hcap b m (FrxState.after_header h1 (by omega)) hk,
      FrxState.after_header (Nat.le_add_left ..) (by omega), if_pos (by omega)]
    simp only [State.storeFrx, State.midFrame, if_pos (show g.length < 4 by omega),
      FrxState.after_header h1 (show g.length < 4 by omega)]
  · rw [hk] at hb
    have hn : b.toNat = f.length := by simpa [hb] using h3
    rw [stepFrx_lengthByte hcap b m (FrxState.after_header (by omega) (by omega)) hk]
    simp only [if_neg (show ¬ b.toNat < 5 by omega), if_neg (show ¬ c.rxCap < b.toNat by omega), State.midFrame, hk]
    rw [FrxState.after_payload (Nat.le_refl 4), if_neg (by omega), if_neg (by omega), ← hn, BitVec.ofNat_toNat,
      BitVec.setWidth_eq]
  · have hpay : (s.midFrame f.length g).frxState = .awaitingPayload :=
      (FrxState.after_payload hk).trans (if_neg (Nat.ne_of_lt hlt))
    have hlen : (BitVec.ofNat 8 f.length).toNat = f.length := Nat.mod_eq_of_lt h256
    rw [stepFrx_payload c b m _ hpay (hlt.trans_le hfit), FrxState.after_payload (Nat.le_succ_of_le hk)]
    simp only [State.storeFrx, State.midFrame, if_neg (show ¬ g.length < 4 by omega),
      if_neg (show ¬ g.length + 1 < 4 by omega), hlen]

/-! ### A whole frame -/

/-- A receiver waits for a frame: the registers of R26 in `AwaitingAddress`, and a buffer in its canonical form. -/
structure State.AwaitsFrame (s : State) : Prop where
  state  : s.frxState = .awaitingAddress
  count  : s.frxCount = 0
  buffer : s.frxBuf.wf = true

theorem FrxInv.awaitsFrame {c : Config} {s : State} (h : FrxInv c s) (hs : s.frxState = .awaitingAddress) :
    s.AwaitsFrame := ⟨hs, h.awaitingAddress hs, h.bufferWf⟩

theorem State.AwaitsFrame.midFrame_nil {s : State} (h : s.AwaitsFrame) (n : Nat) : s.midFrame n [] = s := by
  show { s with frxCount := 0, frxState := .awaitingAddress } = s
  rw [← h.state, ← h.count]

/-- After the frame is taken the receiver waits again. -/
theorem State.AwaitsFrame.taken {s : State} (h : s.AwaitsFrame) (n : Nat) (f : List Byte) :
    (s.midFrame n f).resetFrx.AwaitsFrame := ⟨rfl, rfl, Memory.store_wf h.buffer f⟩

/-- With its last byte the frame is complete. -/
theorem midFrame_complete {f : List Byte} (hv : verdict f = .frame) (s : State) :
    (s.midFrame f.length f).frxState = .complete :=
  (FrxState.after_payload (Nat.le_of_succ_le (lengthByte_of_verdict hv).2.1)).trans (if_pos rfl)

/-- The receiver hands over exactly the frame. -/
theorem State.AwaitsFrame.takenFrame_midFrame {s : State} (h : s.AwaitsFrame) {f : List Byte}
    (hv : verdict f = .frame) : (s.midFrame f.length f).takenFrame = f := by
  obtain ⟨-, h5, h256⟩ := lengthByte_of_verdict hv
  refine takenFrame_eq f _ (if_neg (by omega)) h256 fun k b hk => ?_
  show (s.frxBuf.store f).read k = b
  rw [Memory.read_store h.buffer, hk, Option.getD_some]

theorem frameChars_bytes (f : List Byte) : (frameChars f).map Character.byte = f := by
  cases f <;> simp [frameChars, Function.comp_def]

theorem frameChars_head_marked (f : List Byte) : ∀ ch ∈ (frameChars f).head?, ch.marker = true := by
  cases f <;> simp [frameChars]

/-! ### The instructions -/

/-- The instruction that feeds a character to the receiver. -/
def feedChar (ch : Character) : Instr := .frxStep ch.byte ch.marker

theorem execAll_cons {i : Instr} {s t : State} (h : exec i s = .next t) (is : List Instr) :
    execAll (i :: is) s = execAll is t := by
  rw [execAll, h]
  rfl

theorem execAll_append {is : List Instr} {s t : State} (h : execAll is s = .next t) (js : List Instr) :
    execAll (is ++ js) s = execAll js t := by
  induction is generalizing s with
  | nil => rw [← Host.Outcome.next.inj h]; rfl
  | cons i is ih =>
    cases hi : exec i s with
    | next u =>
      rw [execAll_cons hi] at h
      rw [List.cons_append, execAll_cons hi, ih h]
    | fault r =>
      rw [execAll, hi] at h
      cases h
    | refused r =>
      rw [execAll, hi] at h
      cases h

/-- Unmarked characters outside a frame change nothing (R181). -/
theorem execAll_unmarked {s : State} (h : s.frxState = .awaitingAddress) (junk : List Byte) :
    execAll (junk.map fun b => .frxStep b false) s = .next s := by
  induction junk with
  | nil => rfl
  | cons b junk ih =>
    rw [List.map_cons, execAll_cons ((exec_frxStep b false s).trans (stepFrx_unmarked chip b s h))]
    exact ih

/-- The characters that are left of a frame, from the middle of it. -/
theorem execAll_midFrame {f : List Byte} (hv : verdict f = .frame) (hfit : f.length ≤ chip.rxCap) (s : State)
    {chs : List Character} {g : List Byte} (hf : f = g ++ chs.map Character.byte)
    (hm : g = [] → ∀ ch ∈ chs.head?, ch.marker = true) :
    execAll (chs.map feedChar) (s.midFrame f.length g) = .next (s.midFrame f.length f) := by
  induction chs generalizing g with
  | nil =>
    obtain rfl : f = g := hf.trans (List.append_nil g)
    rfl
  | cons ch chs ih =>
    have hstep : exec (feedChar ch) (s.midFrame f.length g) = .next (s.midFrame f.length (g ++ [ch.byte])) :=
      (exec_frxStep ch.byte ch.marker _).trans (stepFrx_midFrame hv hfit hf (fun hg => hm hg ch rfl) s)
    rw [List.map_cons, execAll_cons hstep]
    exact ih (by simpa using hf) (by simp)

/-- The characters of a frame make it complete in the buffer (R182, R183). -/
theorem execAll_frame {f : List Byte} (hv : verdict f = .frame) (hfit : f.length ≤ chip.rxCap) {s : State}
    (h : s.AwaitsFrame) :
    execAll (f.mapIdx fun k b => .frxStep b (k == 0)) s = .next (s.midFrame f.length f) := by
  have hfeed : (f.mapIdx fun k b => Instr.frxStep b (k == 0)) = (frameChars f).map feedChar :=
    List.ext_getElem? fun k => by
      rw [List.getElem?_map, frameChars_getElem?, List.getElem?_mapIdx, Option.map_map]
      rfl
  have hrun := execAll_midFrame hv hfit s (chs := frameChars f) (g := [])
    (frameChars_bytes f).symm fun _ => frameChars_head_marked f
  rwa [h.midFrame_nil, ← hfeed] at hrun

/-- Fed to a receiver that waits, and taken, a frame is handed over whole, and the receiver waits again (R187). -/
theorem execAll_frame_taken {f : List Byte} (hv : verdict f = .frame) (hfit : f.length ≤ chip.rxCap) {s : State}
    (h : s.AwaitsFrame) :
    execAll (f.mapIdx (fun k b => .frxStep b (k == 0)) ++ [.frxTake]) s = .next { s with
      frxBuf := s.frxBuf.store f, frxLen := BitVec.ofNat 8 f.length
      returns := s.returns ++ [(none, .bytes f)] } := by
  have hlong : ¬ f.length < 4 := Nat.not_lt.mpr (Nat.le_of_succ_le (lengthByte_of_verdict hv).2.1)
  rw [execAll_append (execAll_frame hv hfit h), execAll_cons (exec_frxTake_of_complete (midFrame_complete hv s)),
    h.takenFrame_midFrame hv, execAll, State.midFrame, if_neg hlong]
  simp only [State.resetFrx, State.giveReturn, ← h.state, ← h.count]

/-! ### The pure function -/

/-- Where nothing is logged, forgetting what was logged changes nothing. -/
theorem eq_self_of_out_nil {s : State} (h : s.out = []) : ({ s with out := [] } : State) = s := by rw [← h]

/-- Unmarked characters outside a frame are discarded (R181). -/
theorem receiveFrom_unmarked (c : Config) {s : State} (h : s.frxState = .awaitingAddress) (ho : s.out = [])
    (junk : List Byte) (tl : List Character) :
    receiveFrom c (junk.map (fun b => ⟨b, false⟩) ++ tl) s = receiveFrom c tl s := by
  induction junk with
  | nil => rfl
  | cons b junk ih =>
    rw [List.map_cons, List.cons_append, receiveFrom_step c b false _ s s ?_ ho (by rw [h]; decide), ih]
    rw [eq_self_of_out_nil ho]
    exact stepFrx_unmarked c b s h

/-- The characters of a part of a frame that is not its end give nothing. -/
theorem receiveFrom_midFrame {c : Config} {f : List Byte} (hv : verdict f = .frame) (hfit : f.length ≤ c.rxCap)
    {s : State} (ho : s.out = []) (tl : List Character) {chs : List Character} {g rest : List Byte}
    (hf : f = g ++ chs.map Character.byte ++ rest) (hrest : rest ≠ [])
    (hm : g = [] → ∀ ch ∈ chs.head?, ch.marker = true) :
    receiveFrom c (chs ++ tl) (s.midFrame f.length g) =
      receiveFrom c tl (s.midFrame f.length (g ++ chs.map Character.byte)) := by
  induction chs generalizing g with
  | nil => rw [List.map_nil, List.append_nil]; rfl
  | cons ch chs ih =>
    have hstep := stepFrx_midFrame hv hfit (hf.trans (List.append_assoc ..)) (fun hg => hm hg ch rfl) s
    have hlt : g.length + 1 < f.length := by
      have := List.length_pos_iff.mpr hrest
      rw [hf]
      simp only [List.length_append, List.map_cons, List.length_cons]
      omega
    have hgoes : (s.midFrame f.length (g ++ [ch.byte])).frxState ≠ .complete := by
      rw [State.midFrame_concat]
      exact FrxState.after_ne_complete hlt
    rw [List.cons_append, receiveFrom_step c ch.byte ch.marker _ (s.midFrame f.length g)
      (s.midFrame f.length (g ++ [ch.byte])) ?_ ho hgoes]
    · simpa using ih (g := g ++ [ch.byte]) (by simpa using hf) (by simp)
    · rwa [eq_self_of_out_nil (s := s.midFrame f.length g) ho]

/-- A whole frame is given back, and the receiver waits for the next. -/
theorem receiveFrom_frame {c : Config} {f : List Byte} (hv : verdict f = .frame) (hfit : f.length ≤ c.rxCap)
    {s : State} (h : s.AwaitsFrame) (ho : s.out = []) (tl : List Character) :
    receiveFrom c (frameChars f ++ tl) s = .frame f :: receiveFrom c tl (s.midFrame f.length f).resetFrx := by
  obtain ⟨-, h5, -⟩ := lengthByte_of_verdict hv
  obtain hnil | ⟨chs, last, hlast⟩ := List.eq_nil_or_concat' (frameChars f)
  · rw [← frameChars_length, hnil] at h5
    exact absurd h5 (by decide)
  · have hbytes : f = chs.map Character.byte ++ [last.byte] := by
      rw [← frameChars_bytes f, hlast, List.map_append, List.map_singleton]
    have hmark := frameChars_head_marked f
    have hbefore := receiveFrom_midFrame hv hfit ho (last :: tl) (chs := chs) (g := []) hbytes
      (List.cons_ne_nil _ _) fun _ ch hch => hmark ch (by rw [hlast, List.head?_append, hch]; rfl)
    have hstep := stepFrx_midFrame hv hfit hbytes (m := last.marker)
      (fun hnil => hmark last (by rw [hlast, List.map_eq_nil_iff.mp hnil]; rfl)) s
    rw [← hbytes] at hstep
    rw [h.midFrame_nil, List.nil_append] at hbefore
    rw [hlast, List.append_assoc, List.singleton_append]
    rw [hbefore, receiveFrom_done c last.byte last.marker tl (s.midFrame f.length (chs.map Character.byte))
      (s.midFrame f.length f) ?_ ho (midFrame_complete hv s), h.takenFrame_midFrame hv]
    rwa [eq_self_of_out_nil (s := s.midFrame f.length (chs.map Character.byte)) ho]

/-- Frames back to back are given back in order. -/
theorem receiveFrom_frames {c : Config} {fs : List (List Byte)} (hfs : ∀ f ∈ fs, verdict f = .frame ∧ f.length ≤ c.rxCap)
    {s : State} (h : s.AwaitsFrame) (ho : s.out = []) : receiveFrom c (fs.flatMap frameChars) s = fs.map .frame := by
  induction fs generalizing s with
  | nil => rfl
  | cons f fs ih =>
    obtain ⟨⟨hv, hfit⟩, hrest⟩ := List.forall_mem_cons.mp hfs
    rw [List.flatMap_cons, receiveFrom_frame hv hfit h ho, ih hrest (h.taken f.length f) ho, List.map_cons]

/-- The characters of a frame without its end give nothing. -/
theorem receiveFrom_incomplete {c : Config} {f : List Byte} (hv : verdict f = .frame) (hfit : f.length ≤ c.rxCap)
    {s : State} (h : s.AwaitsFrame) (ho : s.out = []) {n : Nat} (hn : n < f.length) :
    receiveFrom c ((frameChars f).take n) s = [] := by
  have hsplit : f = [] ++ ((frameChars f).take n).map Character.byte ++ f.drop n := by
    rw [List.nil_append, List.map_take, frameChars_bytes, List.take_append_drop]
  have hrest : f.drop n ≠ [] := fun hnil => by
    have := List.drop_eq_nil_iff.mp hnil
    omega
  have hmark : ∀ ch ∈ ((frameChars f).take n).head?, ch.marker = true := fun ch hch => by
    refine frameChars_head_marked f ch ?_
    rw [List.head?_take] at hch
    split at hch
    · cases hch
    · exact hch
  have hrun := receiveFrom_midFrame hv hfit ho [] hsplit hrest fun _ => hmark
  rwa [h.midFrame_nil, List.append_nil] at hrun

/-- A declared length that aborts the frame is collected as its error (R184, R185). -/
theorem receiveFrom_aborted {c : Config} (hcap : 5 ≤ c.rxCap) (x y z n : Byte) (m2 m3 m4 : Level) {s : State}
    (h : s.frxState = .awaitingAddress) :
    (n.toNat < 5 → receiveFrom c [⟨x, true⟩, ⟨y, m2⟩, ⟨z, m3⟩, ⟨n, m4⟩] s = [.aborted .frameMalformed (.size n.toNat)]) ∧
    (5 ≤ n.toNat → c.rxCap < n.toNat → receiveFrom c [⟨x, true⟩, ⟨y, m2⟩, ⟨z, m3⟩, ⟨n, m4⟩] s =
      [.aborted .bufferTooSmall (.sizes n.toNat c.rxCap)]) := by
  have hthree := receiveFrom_three c hcap x y z m2 m3 [⟨n, m4⟩] s h
  refine ⟨fun hshort => ?_, fun hge hlong => ?_⟩
  · rw [hthree, receiveFrom, stepFrx_lengthByte hcap n m4 rfl rfl]
    simp only [if_pos hshort]
    rfl
  · rw [hthree, receiveFrom, stepFrx_lengthByte hcap n m4 rfl rfl]
    simp only [if_neg (Nat.not_lt.mpr hge), if_pos hlong]
    rfl

/-- The cells of a frame are decoded to its characters (R163). -/
theorem decRun_frameCells_chars (c : Config) (f : List Byte) :
    (decRun c 0 (.start 0) (frameCells f)).chars = frameChars f := by
  obtain ⟨sh, hrun⟩ := decRun_frame c f 0 0 0
  rw [List.replicate_zero, List.nil_append, List.append_nil] at hrun
  rw [hrun]

/-- Settles O14: the characters of a frame one instruction at a time (`execAll_frame_taken`), and the pure function on
frames in a row, on the cells of one, on one that is incomplete, and on aborts (the `receiveFrom` lemmas). -/
theorem frameRoundTrip : Obligations.FrameRoundTrip := by
  have hreset : State.reset.AwaitsFrame := (reset_frxInv chip).awaitsFrame rfl
  refine ⟨fun f junk s hv hfit hinv hs => ?_, fun fs junk hfs => ?_, fun f hv hfit => ⟨?_, fun n hn => ?_⟩,
    fun a b c n m2 m3 m4 => ?_⟩
  · have hwaits := hinv.awaitsFrame hs
    refine ⟨s.frxBuf.store f, ?_, fun a ha => ?_⟩
    · rw [List.append_assoc, execAll_append (execAll_unmarked hs junk)]
      exact execAll_frame_taken hv hfit hwaits
    · rw [Memory.read_store hwaits.buffer, List.getElem?_eq_none ha, Option.getD_none]
  · simp only [← frameChars_eq_mapIdx]
    rw [receiveFrames, receiveFrom_unmarked chip rfl rfl, receiveFrom_frames hfs hreset rfl]
  · have hframe := receiveFrom_frame hv hfit hreset rfl []
    rw [List.append_nil, ← decRun_frameCells_chars chip] at hframe
    exact hframe
  · rw [← frameChars_eq_mapIdx]
    exact receiveFrom_incomplete hv hfit hreset rfl hn
  · obtain ⟨hshort, hlong⟩ := receiveFrom_aborted chip_legal.rxCap_ge a b c n m2 m3 m4 (s := State.reset) rfl
    exact ⟨hshort, fun h => hlong (chip_legal.rxCap_ge.trans h.le) h⟩

end Sys2Proof.Machine
end

section
/-! The Transmit Queue by name (O15 to O18, O22; 43_transmit_queue.md R200 to R211, 44_transmit_agent.md R223, R224,
45_bus_arbiter.md R254 to R259, R271): the lock, enqueues and drains run whole, pings and settings pushes, and operations
taken step by step (logs 2, 6, 10, 12, 16, 22, 23, 25, 26). -/
namespace Sys2Proof.Machine

/-! ### The lock -/

/-- `try_lock` by an agent that is inside no operation (R201). -/
theorem exec_tryLock_free {a : Agent} {s : State} (hb : s.busy a = false) : exec (.tryLock a) s =
    .next ((takeLock a s).1.giveReturn (some a) (.bool (takeLock a s).2)) := if_neg (by simp [hb])

/-- `unlock` by an agent that is inside no operation (R202). -/
theorem exec_unlock_free {a : Agent} {s : State} (hb : s.busy a = false) : exec (.unlock a) s =
    if s.lock = .held a then .next { s with lock := .free } else .refused .unlockNotHeld := if_neg (by simp [hb])

/-- Settles O15, by whether the lock is free, and by whether the caller holds it. -/
theorem lockTakenAndFreed : Obligations.LockTakenAndFreed := by
  intro a s hb
  rw [exec_tryLock_free hb, exec_unlock_free hb, takeLock_eq]
  refine ⟨fun hfree => ?_, fun b hheld => ?_, fun hheld => if_pos hheld, fun hnot => if_neg hnot⟩
  · rw [if_pos hfree]; rfl
  · rw [if_neg (by rw [hheld]; exact Lock.noConfusion)]; rfl

/-! ### Operations that are enabled under a condition -/

section
variable {a : Agent} {c : Config} {s : State} {b : Begun} {p : Prop} [Decidable p]

/-- An operation that is not enabled leaves the state as it is, whether its agent is busy or not (log 10). -/
theorem whole_disabled (hp : ¬ p) : (Opening.mk a (.next (if p then b else s.done)) s).whole c s = .next s := by
  rw [if_neg hp]
  cases hb : s.busy a with
  | true => exact whole_busy _ c s hb
  | false => exact whole_done a c s s s hb

theorem whole_enabled (hp : p) (hb : s.busy a = false) : (Opening.mk a (.next (if p then b else s.done)) s).whole c s =
    .next (runItems c a b.rest true true b.state) := by
  rw [if_pos hp]
  exact whole_mk a c s s b hb

end

/-- The producers that call by name (R200; log 10). -/
theorem mayEnqueue_iff (a : Agent) : mayEnqueue a = true ↔ a = .arb ∨ ∃ h, a = .host h := by
  cases a <;> simp [mayEnqueue]

theorem not_mayEnqueue {a : Agent} (h : a = .txa ∨ a = .lst) : ¬ mayEnqueue a = true := by
  rcases h with rfl | rfl <;> exact Bool.false_ne_true

/-! ### One enqueue -/

theorem one_le_roomLeft_iff (c : Config) (s : State) : 1 ≤ roomLeft c s ↔ s.lock = .free ∧ s.q.length < c.qDepth := by
  unfold roomLeft
  split
  · next hfree => simp only [hfree, true_and]; omega
  · next hheld => simp [hheld]

/-- A frame that finds room is pushed at the back (R203). -/
theorem afterEnqueues_one_of_room {c : Config} {s : State} (f : QueuedFrame) (h : 1 ≤ roomLeft c s) :
    afterEnqueues c [f] s = { s with q := s.q ++ [f] } := by
  simp [afterEnqueues, h, List.take_of_length_le, List.drop_of_length_le]

/-- A frame that finds no room is dropped with `QueueFull` (R210, R211). -/
theorem afterEnqueues_one_of_full {c : Config} {s : State} (f : QueuedFrame) (h : ¬ 1 ≤ roomLeft c s) :
    afterEnqueues c [f] s = s.raise .queueFull (.bytes f.bytes) := by
  have hnone : roomLeft c s = 0 := by omega
  simp [afterEnqueues, hnone, State.raise]

/-- `enqueue` by a producer, run whole: one enqueue, and its result for the caller. -/
theorem exec_enqueue {a : Agent} (ha : mayEnqueue a = true) (f : List Byte) (w : Bool) {s : State}
    (hb : s.busy a = false) : exec (.enqueue a f w) s =
      .next ((afterEnqueues chip [⟨f, w⟩] s).giveReturn (some a)
        (.result (hostResult (decide (1 ≤ roomLeft chip s))))) := by
  refine (whole_enabled ha hb).trans ?_
  simp only [runItems, finishEnqueue_eq _ _ _ _ chip_legal.enqRetryMax, Bool.true_and]

/-- Settles O16: TXA and LST are not enabled (`whole_disabled`), and a producer's frame is pushed or dropped by whether the
queue takes it (`exec_enqueue`). -/
theorem enqueuePushesOrDrops : Obligations.EnqueuePushesOrDrops := by
  refine ⟨fun a f w s ha => whole_disabled (not_mayEnqueue ha), fun a f w s ha hb => ?_⟩
  rw [exec_enqueue ((mayEnqueue_iff a).mpr ha) f w hb]
  refine ⟨fun hfree hlt => ?_, fun hno => ?_⟩
  · have hroom := (one_le_roomLeft_iff chip s).mpr ⟨hfree, hlt⟩
    rw [afterEnqueues_one_of_room _ hroom, decide_eq_true hroom]
    rfl
  · have hfull : ¬ 1 ≤ roomLeft chip s := fun h => by
      obtain ⟨hfree, hlt⟩ := (one_le_roomLeft_iff chip s).mp h
      exact hno.elim (· hfree) hlt.not_ge
    rw [afterEnqueues_one_of_full _ hfull, decide_eq_false hfull]
    rfl

/-! ### Drains -/

/-- A drain run whole by TXA (R206, R207). -/
theorem runItems_drain (c : Config) (hc : 1 ≤ c.deqRetryMax) (a : Agent) (d : DrainTo) (s : State) :
    runItems c a [.drain d c.deqRetryMax false] true true s =
      if s.lock = .free then deliver d s.q { s with q := [] } else deliver d [] s :=
  finishDrain_eq d c.deqRetryMax s hc

/-- TXA's own drain where it is enabled (R223). -/
theorem exec_txaDrain_enabled {s : State} (hb : s.busy .txa = false)
    (he : s.txaPhase = .idle ∧ s.txaBatch = [] ∧ s.txaSuspended = false) : exec .txaDrain s =
      .next (if s.lock = .free then { s with q := [], txaBatch := s.q } else s) := by
  refine (whole_enabled he hb).trans (congrArg _ ((runItems_drain chip chip_legal.deqRetryMax .txa .batch s).trans ?_))
  obtain ⟨-, hbatch, -⟩ := he
  congr 1
  rw [deliver, ← hbatch]

/-- Settles O17: both drains are one `runItems_drain`; TXA's own is not enabled (`whole_disabled`), or finds the lock held
and leaves its empty batch. -/
theorem drainTakesAll : Obligations.DrainTakesAll := by
  intro s hb
  have hcall : exec .dequeueAllReady s = _ :=
    (whole_mk .txa chip s s _ hb).trans (congrArg _ (runItems_drain chip chip_legal.deqRetryMax .txa .caller s))
  refine ⟨fun hfree => ?_, fun hheld => ?_, fun hidle hbatch hruns hfree => ?_, fun hno => ?_⟩
  · rw [hcall, if_pos hfree]; rfl
  · rw [hcall, if_neg hheld]; rfl
  · rw [exec_txaDrain_enabled hb ⟨hidle, hbatch, hruns⟩, if_pos hfree]
  · by_cases he : s.txaPhase = .idle ∧ s.txaBatch = [] ∧ s.txaSuspended = false
    · have hheld : s.lock ≠ .free := by simpa [he] using hno
      rw [exec_txaDrain_enabled hb he, if_neg hheld]
    · exact whole_disabled he

/-! ### Pings and settings pushes -/

/-- ARB's ping of the DSP run whole: the window opens where the frame was queued and the arbiter runs (R254, R257). -/
theorem runItems_pingDsp (c : Config) (hc : 1 ≤ c.enqRetryMax) (s : State) :
    runItems c .arb (pingItems .arb .dsp) true true s = { afterEnqueues c [checkFrame .dsp] s with
      pingOutstanding := if 1 ≤ roomLeft c s ∧ s.arbState ≠ .shuttingDown then true else s.pingOutstanding } := by
  refine (runItems_frame c .arb hc .dsp [0x11] true [.markPing] true true s).trans ?_
  by_cases hroom : 1 ≤ roomLeft c s
  · by_cases hdown : s.arbState = .shuttingDown <;>
      simp [runItems, openWindow, hroom, hdown, afterEnqueues, checkFrame, engineFrame]
  · simp [runItems, hroom, afterEnqueues, checkFrame, engineFrame]

/-- Every other ping run whole is one frame (R254). -/
theorem runItems_ping (c : Config) (hc : 1 ≤ c.enqRetryMax) {a : Agent} {p : Peer} (h : ¬ (a = .arb ∧ p = .dsp))
    (s : State) : runItems c a (pingItems a p) true true s = afterEnqueues c [checkFrame p] s := by
  rw [pingItems, if_neg h]
  exact runItems_frame c a hc p [0x11] true [] true true s

/-- Settles O22: TXA and LST are not enabled (`whole_disabled`), and a producer's ping or push is its frames in a row
(`runItems_ping`, `runItems_pingDsp`, `runItems_push`). -/
theorem pingAndPush : Obligations.PingAndPush := by
  have hc := chip_legal.enqRetryMax
  refine ⟨fun a p s ha => ⟨whole_disabled (not_mayEnqueue ha), whole_disabled (not_mayEnqueue ha)⟩,
    fun a s ha hb => ?_⟩
  have hmay := (mayEnqueue_iff a).mpr ha
  refine ⟨fun p hp => (whole_enabled hmay hb).trans (congrArg _ (runItems_ping chip hc hp s)), ?_,
    (whole_enabled hmay hb).trans (congrArg _ (runItems_push chip a hc [] true true s))⟩
  rintro rfl
  exact (whole_enabled hmay hb).trans (congrArg _ (runItems_pingDsp chip hc s))

/-! ### Operations step by step -/

theorem agentSteps_succ_last (c : Config) (a : Agent) (n : Nat) (s : State) :
    agentSteps c a (n + 1) s = agentStep c a (agentSteps c a n s) := by
  induction n generalizing s with
  | zero => rfl
  | succ n ih => exact ih (agentStep c a s)

/-- What an agent that started in `s` can reach by steps of its own, no other agent in between. -/
def ReachedAlone (c : Config) (a : Agent) (s u : State) : Prop := ∃ n, agentSteps c a n s = u

theorem ReachedAlone.refl (c : Config) (a : Agent) (s : State) : ReachedAlone c a s s := ⟨0, rfl⟩

theorem ReachedAlone.agentStep {c : Config} {a : Agent} {s u : State} (h : ReachedAlone c a s u) :
    ReachedAlone c a s (agentStep c a u) := by
  obtain ⟨n, rfl⟩ := h
  exact ⟨n + 1, agentSteps_succ_last c a n s⟩

/-- An agent with no step left forgets its task. -/
theorem agentStep_of_no_items {c : Config} {a : Agent} {t : Task} {s : State} (ht : s.taskOf a = some t)
    (h : t.items = []) : agentStep c a s = s.clearTask a := by
  unfold agentStep itemStep State.setTask
  simp [ht, h]

/-- An agent that goes on undisturbed reaches the end of its operation's uninterrupted run. -/
theorem reachedAlone_runItems {a : Agent} {t : Task} {s : State} (ht : s.taskOf a = some t) :
    ReachedAlone chip a s ((runItems chip a t.items t.lastOk t.allOk s).clearTask a) := by
  by_cases h : t.items = []
  · rw [h, runItems, ← agentStep_of_no_items ht h]
    exact (ReachedAlone.refl chip a s).agentStep
  · exact runItems_keeps (ReachedAlone chip a s) a (fun _ => ReachedAlone.agentStep) t s ht h (.refl chip a s)

/-- The first step of an operation and then its agent's steps make the run of the whole. -/
theorem reachedAlone_whole {o : Opening} {s t : State} (tasks : ∀ b, o.first = .next b → b.state.tasks = s.tasks)
    (h : o.whole chip s = .next t) : ∃ u, o.begin s = .next u ∧ ReachedAlone chip o.agent u t :=
  whole_keeps (fun v => ∃ u, o.begin s = .next u ∧ ReachedAlone chip o.agent u v) o s t
    (fun _ ⟨u, hu, hv⟩ => ⟨u, hu, hv.agentStep⟩) tasks (fun u hu => ⟨u, hu, .refl chip o.agent u⟩) h

/-- An operation run whole stops only in its first step. -/
theorem begin_eq_whole_of_stops {c : Config} {o : Opening} {s : State} (h : ∀ t, o.whole c s ≠ .next t) :
    o.begin s = o.whole c s := by
  cases hb : s.busy o.agent with
  | true => exact absurd (whole_busy o c s hb) (h _)
  | false =>
    cases hf : o.first with
    | next b => exact absurd (whole_next o c s b hb hf) (h _)
    | fault r | refused r => simp [Opening.begin, Opening.whole, hb, hf, andThen]

theorem startInstr_opening {i : Instr} {s : State} {o : Opening} (ho : openingOf i s = some o) :
    startInstr i s = o.begin s := by
  unfold startInstr
  rw [ho]

/-- Settles O18: a task's steps reach its uninterrupted run (`reachedAlone_runItems`); an instruction is one indivisible
step, or an operation, whose agent's steps reach the run of the whole (`reachedAlone_whole`). -/
theorem wholeRunIsStepsInARow : Obligations.WholeRunIsStepsInARow := by
  refine ⟨fun a t s => reachedAlone_runItems, fun i s => ?_⟩
  cases ho : openingOf i s with
  | none =>
    rw [startInstr_atomic ho]
    exact ⟨fun t ht => ⟨t, .arb, 0, fun o h => absurd h.symm (Option.some_ne_none o), ht, rfl⟩, fun r => id, fun r => id⟩
  | some o =>
    rw [startInstr_opening ho, exec_whole i s o ho]
    refine ⟨fun t ht => ?_, fun r hr => ?_, fun r hr => ?_⟩
    · obtain ⟨u, hu, n, hn⟩ := reachedAlone_whole (opening_tasks i s o ho) ht
      exact ⟨u, o.agent, n, fun o' ho' => congrArg Opening.agent (Option.some.inj ho'), hu, hn⟩
    · exact (begin_eq_whole_of_stops fun _ ht => by rw [ht] at hr; cases hr).trans hr
    · exact (begin_eq_whole_of_stops fun _ ht => by rw [ht] at hr; cases hr).trans hr

end Sys2Proof.Machine
end


section
/-! The transmit agent's other indivisible steps (O40, O42, O43; 44_transmit_agent.md R222 to R236): the start of an
entry, the echo check and the two timeouts (logs 10, 24). -/
namespace Sys2Proof.Machine

/-! ### The start of an entry -/

theorem txaStart_held {s : State} (h : s.txaPhase ≠ .idle ∨ s.txaSuspended = true ∨ s.txaBatch = []) :
    txaStart s = s := by
  unfold txaStart
  split
  · next hen =>
    obtain ⟨hidle, hrun⟩ := hen
    have hempty : s.txaBatch = [] := (h.resolve_left (not_not.mpr hidle)).resolve_left (by simp [hrun])
    rw [hempty]
  · rfl

theorem txaStart_starts {s : State} {e : QueuedFrame} {rest : List QueuedFrame} (hphase : s.txaPhase = .idle)
    (hrun : s.txaSuspended = false) (hbatch : s.txaBatch = e :: rest) : txaStart s = { s with
      txaBatch := rest, txaCur := some e, rxf := [], frxCount := 0, frxState := .awaitingAddress
      txaIdx := 0, txaEidx := 0, txaEchoBad := false, txaPhase := .sending } := by
  rw [txaStart, if_pos ⟨hphase, hrun⟩, hbatch]
  rfl

/-- Settles O40, by whether `TXA.start` is enabled (`txaStart_held`, `txaStart_starts`). -/
theorem transmissionStarts : Obligations.TransmissionStarts :=
  ⟨fun _ h => txaStep_stays (txaStart_held h), fun _ _ _ hb hphase hrun hbatch =>
    (txaStep_free hb).trans (congrArg _ (txaStart_starts hphase hrun hbatch))⟩

/-! ### The echo check -/

theorem txaEchoChar_held {s : State} (h : (s.txaPhase ≠ .sending ∧ s.txaPhase ≠ .echo) ∨ s.txaIdx ≤ s.txaEidx ∨
    s.rxf = [] ∨ s.busMode = .usbPassthrough) : txaEchoChar s = s := by
  unfold txaEchoChar
  split
  · next hen =>
    obtain ⟨hphase, hdue, hmode⟩ := hen
    have hempty : s.rxf = [] := by
      rcases h with ⟨hsending, hecho⟩ | hnone | hempty | husb
      · exact absurd hphase (not_or.mpr ⟨hsending, hecho⟩)
      · exact absurd hdue (Nat.not_lt.mpr hnone)
      · exact hempty
      · rw [hmode] at husb
        cases husb
    split
    · next ch rest _ hpop => exact absurd (hempty.symm.trans hpop) (List.cons_ne_nil ch rest).symm
    · rfl
  · rfl

/-- An echo that is due is popped and compared; the last one, after the last character is sent, ends the check (R227). -/
theorem txaEchoChar_compares {s : State} {cur : QueuedFrame} {ch : Character} {rest : List Character}
    (hmode : s.busMode = .busMaster) (hphase : s.txaPhase = .sending ∨ s.txaPhase = .echo)
    (hdue : s.txaEidx < s.txaIdx) (hcur : s.txaCur = some cur) (hrxf : s.rxf = ch :: rest) :
    txaEchoChar s = if s.txaPhase = .echo ∧ s.txaEidx + 1 = cur.bytes.length
      then echoDone cur (echoPopped cur ch rest s) else echoPopped cur ch rest s := by
  rw [txaEchoChar, if_pos ⟨hphase, hdue, hmode⟩]
  obtain ⟨⟩ := s
  subst hcur hrxf
  rfl

/-- Settles O42: an echo that is due is compared (`txaEchoChar_compares`), and the end of the check is `echoDone_eq`. -/
theorem echoCompared : Obligations.EchoCompared := by
  refine ⟨fun s h => txaStep_stays (txaEchoChar_held h), fun cur ch rest s hb hmode hphase hdue hcur hrxf => ?_⟩
  have hexec : exec .txaEchoChar s = .next (if s.txaPhase = .echo ∧ s.txaEidx + 1 = cur.bytes.length
      then echoDone cur (echoPopped cur ch rest s) else echoPopped cur ch rest s) :=
    (txaStep_free hb).trans (congrArg _ (txaEchoChar_compares hmode hphase hdue hcur hrxf))
  rw [hexec]
  refine ⟨fun hmore => ?_, fun hecho hlast => ?_⟩
  · have hnot : ¬ (s.txaPhase = .echo ∧ s.txaEidx + 1 = cur.bytes.length) := by
      rintro ⟨hecho, hlast⟩
      rcases hmore with hsending | hleft
      · exact absurd (hsending.symm.trans hecho) (by decide)
      · exact hleft hlast
    rw [if_neg hnot]
    rfl
  · rw [if_pos ⟨hecho, hlast⟩, echoDone_eq, ← hcur]
    rfl

/-! ### The two timeouts -/

theorem txaEchoTimeout_held {s : State} (h : s.txaPhase ≠ .echo ∨ s.rxf ≠ []) : txaEchoTimeout s = s :=
  if_neg fun ⟨hphase, hrxf⟩ => h.elim (· hphase) (· hrxf)

theorem txaEchoTimeout_ends {s : State} {cur : QueuedFrame} (hphase : s.txaPhase = .echo) (hrxf : s.rxf = [])
    (hcur : s.txaCur = some cur) : txaEchoTimeout s = echoDone cur { s with txaEchoBad := true } := by
  rw [txaEchoTimeout, if_pos ⟨hphase, hrxf⟩, hcur]

/-- Settles O43: both timeouts by whether they are enabled; the echo check ends as a mismatch (`echoDone_eq`). -/
theorem waitsTimeOut : Obligations.WaitsTimeOut := by
  refine ⟨fun s => ⟨fun h => txaStep_stays (txaEchoTimeout_held h), fun h => txaStep_stays (if_neg h)⟩, fun s hb => ?_⟩
  refine ⟨fun cur hphase hrxf hcur => ?_, fun hphase => (txaStep_free hb).trans (congrArg _ (if_pos hphase))⟩
  have hends : exec .txaEchoTimeout s = .next (echoDone cur { s with txaEchoBad := true }) :=
    (txaStep_free hb).trans (congrArg _ (txaEchoTimeout_ends hphase hrxf hcur))
  rw [hends, echoDone_eq, ← hcur]
  rfl

end Sys2Proof.Machine
end

section
/-! A consumer of `rxf` (O44; 44_transmit_agent.md R231 to R235, 46_dispatcher.md R290, R291): what one character does
under the receiver's invariant, and TXA's response wait (log 10). -/
namespace Sys2Proof.Machine

/-! ### One character of a frame -/

/-- A character that does not complete a frame: the receiver takes it and stops nowhere (R181 to R185). -/
theorem stepFrx_incomplete {c : Config} (hcap : 5 ≤ c.rxCap) (b : Byte) (m : Level) {s : State} (hinv : FrxInv c s)
    (hs : s.frxState ≠ .complete) (hmore : s.frxState ≠ .awaitingPayload ∨ s.frxCount + 1 ≠ s.frxLen.toNat) :
    ∃ t, stepFrx c b m s = .next t ∧ t.frxState ≠ .complete := by
  cases h : s.frxState with
  | awaitingAddress =>
    cases m with
    | false => exact ⟨_, stepFrx_unmarked c b s h, hs⟩
    | true => exact ⟨_, stepFrx_marked c b h, by simp⟩
  | awaitingLength =>
    obtain ⟨-, hcount⟩ := hinv.awaitingLength h
    rcases hcount.lt_or_eq with h3 | h3
    · exact ⟨_, stepFrx_header hcap b m h h3, hs⟩
    · rw [stepFrx_lengthByte hcap b m h h3]
      dsimp only
      split
      · exact ⟨_, rfl, by simp⟩
      · split
        · exact ⟨_, rfl, by simp⟩
        · exact ⟨_, rfl, by simp⟩
  | awaitingPayload =>
    obtain ⟨-, hcount, hlen⟩ := hinv.awaitingPayload h
    refine ⟨_, stepFrx_payload c b m s h (hcount.trans_le hlen), ?_⟩
    simp [hmore.resolve_left (not_not.mpr h)]
  | complete => exact absurd h hs

/-- The first bytes of a buffer, after the next one is written. -/
theorem Memory.firstBytes_write {m : Memory} (h : m.wf = true) (n : Nat) (b : Byte) :
    (m.write n b).firstBytes (n + 1) = m.firstBytes n ++ [b] := by
  have hbelow : (List.range n).map (m.write n b).read = (List.range n).map m.read :=
    List.map_congr_left fun a ha => by rw [Memory.read_write m n b h, if_neg (List.mem_range.mp ha).ne]
  rw [Memory.firstBytes, List.range_succ, List.map_append, hbelow, List.map_singleton, Memory.read_write m n b h,
    if_pos rfl]
  rfl

/-- The receiver after the byte that completes a frame, and the frame taken (R183, R187). -/
def State.frameTaken (s : State) (b : Byte) : State :=
  { s with frxBuf := s.frxBuf.write s.frxCount b, frxCount := 0, frxState := .awaitingAddress }

/-- The bytes stored so far, and the one that completes the frame. -/
def State.frameWith (s : State) (b : Byte) : List Byte := s.frxBuf.firstBytes s.frxCount ++ [b]

/-- The length byte of a frame that the receiver completes is its length, so it is a frame or its checksum is wrong
(40_frame_codec.md R134, 42_frame_receiver.md R182, R183). -/
theorem verdict_frameWith {c : Config} {s : State} (hinv : FrxInv c s) (h : s.frxState = .awaitingPayload)
    (hlast : s.frxCount + 1 = s.frxLen.toNat) (b : Byte) : verdict (s.frameWith b) ≠ .frameMalformed := by
  obtain ⟨h4, -⟩ := hinv.awaitingPayload h
  have hlen : (s.frxBuf.firstBytes s.frxCount).length = s.frxCount := by simp [Memory.firstBytes]
  have h3 : (s.frxBuf.firstBytes s.frxCount).getD 3 0 = s.frxLen := by
    rw [← hinv.declared (.inl h)]
    simp [Memory.firstBytes, show 3 < s.frxCount by omega]
  rw [State.frameWith, verdict_concat b (hlen.symm ▸ h4), h3, hlen, ite_not (s.frxLen.toNat = _), if_pos hlast.symm]
  split <;> decide

/-! ### The step of a consumer -/

/-- A character that completes no frame is fed to the receiver, and the consumer's step ends. -/
theorem consumeChar_incomplete {c : Config} (k : State → State) {s t : State} {ch : Character} {rest : List Character}
    (hrxf : s.rxf = ch :: rest) (ht : stepFrx c ch.byte ch.marker { s with rxf := rest } = .next t)
    (hmore : t.frxState ≠ .complete) : consumeChar c k s = .next t.done := by
  rw [consumeChar, popChar, hrxf]
  dsimp only
  rw [ht]
  exact congrArg _ (if_neg hmore)

section
variable {c : Config} (k : State → State) {s : State} {ch : Character} {rest : List Character}
  (hrxf : s.rxf = ch :: rest) (hinv : FrxInv c s) (hpayload : s.frxState = .awaitingPayload)
  (hlast : s.frxCount + 1 = s.frxLen.toNat)
include hrxf hinv hpayload hlast

/-- The character that completes a frame: the frame is taken and received in the same step (R232, R290). -/
theorem consumeChar_completes :
    let b := receiveFrame c (s.frameWith ch.byte) (({ s with rxf := rest } : State).frameTaken ch.byte)
    consumeChar c k s = .next ⟨k b.state, b.rest⟩ := by
  obtain ⟨-, hcount, hlen⟩ := hinv.awaitingPayload hpayload
  have hstep := stepFrx_payload c ch.byte ch.marker { s with rxf := rest } hpayload (hcount.trans_le hlen)
  have htaken : (s.frxBuf.write s.frxCount ch.byte).firstBytes s.frxLen.toNat = s.frameWith ch.byte := by
    rw [← hlast]
    exact Memory.firstBytes_write hinv.bufferWf s.frxCount ch.byte
  rw [consumeChar, popChar, hrxf]
  dsimp only
  rw [hstep, if_pos hlast, ← htaken]
  rfl

/-- A completed frame that is valid is dispatched (R232, R290). -/
theorem consumeChar_valid (hv : verdict (s.frameWith ch.byte) = .frame) :
    let b := dispatchFrame c (s.frameWith ch.byte) (({ s with rxf := rest } : State).frameTaken ch.byte)
    consumeChar c k s = .next ⟨k b.state, b.rest⟩ := by
  rw [consumeChar_completes k hrxf hinv hpayload hlast, receiveFrame, hv]

/-- A completed frame that is not valid is discarded, with its checksum reported (R233, R291). -/
theorem consumeChar_invalid (hv : verdict (s.frameWith ch.byte) ≠ .frame) :
    consumeChar c k s = .next (k ((({ s with rxf := rest } : State).frameTaken ch.byte).raise .checksumMismatch
      (.bytes (s.frameWith ch.byte)))).done := by
  have hsum : verdict (s.frameWith ch.byte) = .checksumMismatch := by
    cases hf : verdict (s.frameWith ch.byte) with
    | frame => exact absurd hf hv
    | frameMalformed => exact absurd hf (verdict_frameWith hinv hpayload hlast ch.byte)
    | checksumMismatch => rfl
  rw [consumeChar_completes k hrxf hinv hpayload hlast]
  simp only [receiveFrame, raiseVerdict, hsum]
  rfl

end

/-! ### The response wait -/

/-- Where TXA has nothing to pop, or is not to pop, its step of the response wait does nothing (R222; log 10). -/
theorem exec_txaRespChar_held {s : State}
    (h : s.txaPhase ≠ .awaitResponse ∨ s.rxf = [] ∨ s.busMode = .usbPassthrough) : exec .txaRespChar s = .next s := by
  have hfirst : (openTxaRespChar chip s).first = .next s.done := by
    unfold openTxaRespChar
    dsimp only
    split
    · next hen =>
      obtain ⟨hphase, hmode⟩ := hen
      have hempty : s.rxf = [] := (h.resolve_left (not_not.mpr hphase)).resolve_right (by simp [hmode])
      rw [consumeChar, popChar, hempty]
    · rfl
  cases hb : s.busy .txa with
  | true => exact whole_busy (openTxaRespChar chip s) chip s hb
  | false => exact whole_next (openTxaRespChar chip s) chip s s.done hb hfirst

/-- In the response wait TXA's step is a consumer's, run whole (R231). -/
theorem exec_txaRespChar_consumes {s u : State} {l : List Item} (hb : s.busy .txa = false)
    (hmode : s.busMode = .busMaster) (hphase : s.txaPhase = .awaitResponse)
    (hc : consumeChar chip finishEntry s = .next ⟨u, l⟩) : exec .txaRespChar s = .next (runItems chip .txa l true true u) :=
  whole_next (openTxaRespChar chip s) chip s ⟨u, l⟩ hb ((if_pos ⟨hphase, hmode⟩).trans hc)

/-- What TXA's step does with a valid frame: `dispatch`, and the end of the wait (R232, R235). -/
theorem runItems_finishEntry (f : List Byte) {s : State} (hb : s.busy .txa = false) (hmode : s.busMode = .busMaster)
    (hphase : s.txaPhase = .awaitResponse) (harb : s.arbState ≠ .usbPassthrough) :
    ∃ t, exec (.dispatch f) s = .next t ∧
      runItems chip .txa (dispatchFrame chip f s).rest true true (finishEntry (dispatchFrame chip f s).state) =
        { t with txaCur := none, txaPhase := .idle } := by
  have hparses : s.parses = true := by simp [State.parses, hmode, hphase]
  have howner : s.owner = .txa := owner_of_busMaster hmode
  have hruns := runItems_afterFrame f s fun _ => harb
  simp only [howner, hmode, if_true] at hruns
  refine ⟨_, exec_dispatch_parsed f s hparses (howner ▸ hb), ?_⟩
  rw [howner]
  exact hruns

/-- Settles O44: a character that completes no frame goes to the receiver (`stepFrx_incomplete`); one that does is taken
with its frame, and a valid frame runs as `dispatch` does (`runItems_finishEntry`). -/
theorem responseReceived : Obligations.ResponseReceived := by
  refine ⟨fun s => exec_txaRespChar_held, fun ch rest s hb hmode harb hphase hrxf hinv hs => ?_⟩
  intro popped f taken
  refine ⟨fun hmore => ?_, fun hpayload hlast => ⟨fun hvalid => ?_, fun hinvalid => ?_⟩⟩
  · obtain ⟨t, ht, hne⟩ := stepFrx_incomplete chip_legal.rxCap_ge ch.byte ch.marker
      (frxInv_of_view (u := popped) hinv rfl) hs hmore
    exact ⟨t, ht, exec_txaRespChar_consumes hb hmode hphase (consumeChar_incomplete finishEntry hrxf ht hne)⟩
  · obtain ⟨t, ht, hruns⟩ := runItems_finishEntry f (s := taken) hb hmode hphase harb
    have hconsumed := consumeChar_valid finishEntry hrxf hinv hpayload hlast hvalid
    exact ⟨t, ht, (exec_txaRespChar_consumes hb hmode hphase hconsumed).trans (congrArg _ hruns)⟩
  · exact exec_txaRespChar_consumes hb hmode hphase (consumeChar_invalid finishEntry hrxf hinv hpayload hlast hinvalid)

end Sys2Proof.Machine
end

section
/-! The arbiter's state diagram (O53; 45_bus_arbiter.md R250, R256, R260, R262, R266): one step takes at most one edge,
for a step that takes one leaves nobody an item that writes the mode; and a concrete step along each of the four. -/
namespace Sys2Proof.Machine

/-! ### The edges -/

theorem arbEdge_iff (x y : ArbState) : arbEdge x y = true ↔ y = x ∨ (x, y) ∈
    [(ArbState.booting, ArbState.steadyPolling), (.steadyPolling, .usbPassthrough), (.usbPassthrough, .steadyPolling),
     (.steadyPolling, .shuttingDown)] := by
  cases x <;> cases y <;> decide

theorem arbEdge_self (x : ArbState) : arbEdge x x = true := (arbEdge_iff x x).mpr (.inl rfl)

/-- What a step does to the arbiter's registers is one edge of the diagram, or none. -/
theorem ArbStep.arbEdge {l : List Item} {a : Agent} {v w : ArbView} (h : ArbStep l v w) (hl : ItemsFit v.arbState a l) :
    arbEdge v.arbState w.arbState = true := by
  cases h with
  | kept | setting | confirmed | failed | pinged => exact arbEdge_self v.arbState
  | attached h | shutDown h => rw [h]; rfl
  | booted h =>
    obtain ⟨-, hboot⟩ := hl.booting h
    rw [hboot]; rfl
  | detached h =>
    obtain ⟨-, hpass⟩ := hl.detaching h
    rw [hpass]; rfl

/-! ### Handlers that will not write the mode -/

/-- No agent has a step left that writes the arbiter's state. -/
def State.ModeSettled (s : State) : Prop := ∀ e ∈ s.tasks, ∀ i ∈ e.2.items, i.writesMode = false

/-- Items that fit a state in which no handler that writes the mode begins. -/
theorem ItemsFit.writesMode {st : ArbState} {a : Agent} {l : List Item} (h : ItemsFit st a l) (hb : st ≠ .booting)
    (hp : st ≠ .usbPassthrough) : ∀ i ∈ l, i.writesMode = false := by
  intro i hi
  cases i with
  | enterSteady => exact absurd (h.booting hi).2 hb
  | finishDetach => exact absurd (h.detaching hi).2 hp
  | frame | enq | drain | markPing | ret => rfl

theorem ModeInv.modeSettled {s : State} (h : ModeInv s) (hb : s.arbState ≠ .booting) (hp : s.arbState ≠ .usbPassthrough) :
    s.ModeSettled := fun _ he => (h.itemsFit he).writesMode hb hp

theorem modeSettled_setTask {s : State} {a : Agent} {t : Task} (h : s.ModeSettled)
    (ht : ∀ i ∈ t.items, i.writesMode = false) : (s.setTask a t).ModeSettled := by
  intro e he
  rcases mem_setTask he with ⟨rfl, -⟩ | ⟨he, -⟩
  · exact ht
  · exact h e he

/-- What a step of an agent leaves of items that write no mode writes none. -/
theorem Stepped.writesMode {c : Config} {a : Agent} {s u : State} {last all : Bool} {l : List Item} {t : Task}
    (h : Stepped c a s last all l u t) (hl : ∀ i ∈ l, i.writesMode = false) : ∀ i ∈ t.items, i.writesMode = false := by
  rcases h.items with ⟨-, e⟩ | ⟨x, rest, rfl, e | ⟨y, e, hy⟩⟩ <;> rw [e]
  · exact nofun
  · exact fun i hi => hl i (List.mem_cons_of_mem _ hi)
  · exact List.forall_mem_cons.mpr ⟨hy.writesMode, fun i hi => hl i (List.mem_cons_of_mem _ hi)⟩

/-- A step of an agent keeps the arbiter's state, or writes it and enters `SteadyPolling`. -/
theorem Stepped.arbState {c : Config} {a : Agent} {s u : State} {last all : Bool} {l : List Item} {t : Task}
    (h : Stepped c a s last all l u t) :
    u.arbState = s.arbState ∨ (u.arbState = .steadyPolling ∧ ∃ i ∈ l, i.writesMode = true) := by
  rcases h.arbView with e | ⟨rest, rfl, rfl⟩ | ⟨rest, rfl, rfl⟩ | ⟨rest, rfl, rfl⟩
  · exact .inl (arbView_arbState e)
  · unfold openWindow
    split <;> exact .inl rfl
  · exact .inr ⟨rfl, _, List.mem_cons_self, rfl⟩
  · exact .inr ⟨by rw [detachFinal_eq], _, List.mem_cons_self, rfl⟩

/-- A frame that changes the mode at once leaves nothing to be run: the attach is one step (R262). -/
theorem Dispatched.arbState_or_nil {s u : State} {l : List Item} (h : Dispatched s u l) :
    u.arbState = s.arbState ∨ l = [] := by
  cases h with
  | detach => exact .inl rfl
  | ignored | message | error | setting | confirm | attach => exact .inr rfl

/-- A first step that changes the arbiter's state leaves no item that changes it again. -/
theorem First.arbState_or_settled {s u : State} {d : Prop} {a : Agent} {l : List Item} (h : First s d a u l) :
    u.arbState = s.arbState ∨ ∀ i ∈ l, i.writesMode = false := by
  have hnil : l = [] → ∀ i ∈ l, i.writesMode = false := by rintro rfl; exact nofun
  cases h with
  | received _ _ h => exact h.arbState_or_nil.imp_right hnil
  | failure l hl => exact .inr (hl.writesMode_concat rfl)
  | shutdown l hl => exact .inr hl.writesMode
  | respFrame v w _ _ h1 h2 h3 h4 h5 =>
    exact h4.arbState_or_nil.imp (fun e => h5.same.arbState.trans (e.trans h3.same.arbState)) hnil
  | lstFrame v w _ _ h1 h3 h4 h5 =>
    exact h4.arbState_or_nil.imp (fun e => h5.same.arbState.trans (e.trans h3.same.arbState)) hnil
  | hears _ _ h => exact .inl h.same.arbState
  | nothing | hostRejected | hostSends | enqueue | drainCaller | drainBatch | sends | pings | boot => exact .inl rfl

/-! ### One step -/

/-- What a step from arbiter state `st` keeps on its way: it has taken no edge yet, or one and takes no other. -/
structure OneEdge (st : ArbState) (x : State) : Prop where
  mode    : ModeInv x
  edge    : arbEdge st x.arbState = true
  settled : x.arbState = st ∨ x.ModeSettled

theorem OneEdge.of_same {st : ArbState} {x : State} (hm : ModeInv x) (h : x.arbState = st) : OneEdge st x :=
  ⟨hm, h ▸ arbEdge_self _, .inl h⟩

/-- Only an agent's step from the state in which the whole step began takes an edge, and it ends in `SteadyPolling`, where
no handler that writes the mode is in progress. -/
theorem OneEdge.agentStep {st : ArbState} {x : State} (h : OneEdge st x) (a : Agent) : OneEdge st (agentStep chip a x) := by
  rcases agentStep_cases chip a x with e | ⟨t, u, t', ht, hst, e⟩ <;> rw [e]
  · exact h
  have hmode : ModeInv (u.setTask a t') := modeInv_stepped h.mode ht hst
  have harb : (u.setTask a t').arbState = u.arbState := setTask_arbState u a t'
  rcases hst.arbState with hkept | ⟨hsteady, i, hi, hw⟩
  · refine ⟨hmode, by rw [harb, hkept]; exact h.edge, h.settled.imp (fun e => (harb.trans hkept).trans e) fun hs => ?_⟩
    exact modeSettled_setTask (fun e he => hs e (hst.tasks ▸ he)) (hst.writesMode (hs _ ht))
  · have hfrom : x.arbState = st := h.settled.resolve_right fun hs => by
      rw [hs _ ht i hi] at hw
      cases hw
    refine ⟨hmode, ?_, .inr (hmode.modeSettled ?_ ?_)⟩
    · rw [harb, ← hfrom]
      exact hst.arbStep.arbEdge (h.mode.itemsFit ht)
    all_goals rw [harb, hsteady]; decide

/-- The first step of an operation takes an edge only from `SteadyPolling`, where no handler that writes the mode is in
progress. -/
theorem OneEdge.first {v u : State} {d : Prop} {a : Agent} {l : List Item} (hm : ModeInv v) (hb : v.busy a = false)
    (hf : First v d a u l) : OneEdge v.arbState u := by
  have hstep := hf.arbStep
  refine ⟨modeInv_first hm hb hf, hstep.arbEdge (.nil _ a), ?_⟩
  rcases hstep.arbState with e | e | ⟨hi, -⟩ | ⟨hi, -⟩
  · exact .inl e
  · have hsteady : v.arbState = .steadyPolling := e
    have hs : v.ModeSettled := hm.modeSettled (by rw [hsteady]; decide) (by rw [hsteady]; decide)
    exact .inr fun e he => hs e (hf.tasks ▸ he)
  · cases hi
  · cases hi

theorem OneEdge.setTask {v u : State} {d : Prop} {a : Agent} {l : List Item} (hm : ModeInv v) (hb : v.busy a = false)
    (hf : First v d a u l) : OneEdge v.arbState (u.setTask a ⟨l, true, true⟩) := by
  have hu := OneEdge.first hm hb hf
  have harb : (u.setTask a ⟨l, true, true⟩).arbState = u.arbState := setTask_arbState u a _
  refine ⟨modeInv_setTask hu.mode (hf.itemsFit hm), harb ▸ hu.edge, ?_⟩
  rcases hf.arbState_or_settled with e | hl
  · exact .inl (harb.trans e)
  · exact hu.settled.imp harb.trans fun hs => modeSettled_setTask hs hl

/-- Every step takes at most one edge (R250). -/
theorem step_oneEdge {s t : State} (hm : ModeInv s) (h : step s = .next t) : OneEdge s.arbState t := by
  have same : ∀ {v u : State}, ModeInv v ∧ v.arbState = s.arbState → u.arbView = v.arbView → u.tasks = v.tasks →
      OneEdge s.arbState u := fun ⟨hv, e⟩ hview ht =>
    .of_same (modeInv_of_view hv hview ht) ((arbView_arbState hview).trans e)
  refine step_reaches s t (fun v => ModeInv v ∧ v.arbState = s.arbState) (OneEdge s.arbState) ?_ ?_ ?_ ?_ ?_ ?_ ?_ ?_
    ⟨hm, rfl⟩ h
  · exact fun v x ⟨hv, e⟩ => ⟨modeInv_of_view hv rfl rfl, e⟩
  · exact fun v u hv hu => same hv hu.arbView hu.same.tasks
  · exact fun v w ⟨hv, e⟩ _ => .of_same (modeInv_store hv w) e
  · exact fun v a ⟨hv, e⟩ => (OneEdge.of_same hv e).agentStep a
  · exact fun v a hv => hv.agentStep a
  · exact fun v a u ⟨hv, e⟩ hb hf => e ▸ OneEdge.first hv hb hf
  · exact fun v a u l ⟨hv, e⟩ hb hf _ => e ▸ OneEdge.setTask hv hb hf
  · exact fun v i u hv _ hi he =>
      have ha := exec_atomic hi he
      same hv ha.arbView ha.tasks

/-! ### A step along each edge -/

/-- The boot handler, its push done (R260). -/
def bootEnds : State :=
  { State.reset with tasks := [(.arb, ⟨[.enterSteady], true, true⟩)], script := [.agent .arb] }

/-- TXA waits for a response while the arbiter polls, and the USB Host's IsPresent is dispatched (R262). -/
def hostAttaches : State :=
  { State.reset with arbState := .steadyPolling, txaPhase := .awaitResponse
                     script := [.call (.dispatch (frameBytes 0x80 0x5A 0x00 [0x12]))] }

/-- The detach handler of the listener, its push done (R266). -/
def detachEnds : State :=
  { State.reset with arbState := .usbPassthrough, busMode := .usbPassthrough, lstActive := true, txaSuspended := true
                     set := { State.reset.set with usbConnected := true }
                     tasks := [(.lst, ⟨[.finishDetach], true, true⟩)], script := [.agent .lst] }

/-- The DSP has failed four times, and the tick finds its fifth ping unanswered (R256). -/
def fifthFailure : State :=
  { State.reset with arbState := .steadyPolling, pingOutstanding := true
                     presence := { State.reset.presence with dsp := ⟨false, 4⟩ }, script := [.start .pollTick] }

theorem modeInv_bootEnds : ModeInv bootEnds := by constructor <;> decide
theorem modeInv_hostAttaches : ModeInv hostAttaches := by constructor <;> decide
theorem modeInv_detachEnds : ModeInv detachEnds := by constructor <;> decide
theorem modeInv_fifthFailure : ModeInv fifthFailure := by constructor <;> decide

/-- Settles O53: a step takes at most one edge (`step_oneEdge`), and each of the four is taken from a concrete state. -/
theorem fourArbiterEdges : Obligations.FourArbiterEdges := by
  unfold Obligations.FourArbiterEdges
  intro edges
  refine ⟨fun s t hm h => (arbEdge_iff _ _).mp (step_oneEdge hm h).edge, ?_⟩
  simp only [edges, List.forall_mem_cons, List.not_mem_nil, false_imp_iff, implies_true, and_true]
  exact ⟨⟨bootEnds, _, modeInv_bootEnds, rfl, rfl, rfl⟩, ⟨hostAttaches, _, modeInv_hostAttaches, rfl, rfl, rfl⟩,
    ⟨detachEnds, _, modeInv_detachEnds, rfl, rfl, rfl⟩, ⟨fifthFailure, _, modeInv_fifthFailure, rfl, rfl, rfl⟩⟩

end Sys2Proof.Machine
end

section
/-! The arbiter's handlers run whole (O23 to O26, O28 to O32; 45_bus_arbiter.md R253 to R269, 46_dispatcher.md R293 to
R297): boot completion, the poll tick, and the frames that confirm presence, attach and detach (logs 2, 10, 24). -/
namespace Sys2Proof.Machine

/-! ### Boot completion -/

/-- Settles O23: not enabled (`whole_disabled`), or the push in a row (`runItems_push`) and then the state. -/
theorem bootCompletes : Obligations.BootCompletes := by
  refine fun s hb => ⟨fun hboot hdsp => ?_, fun hno => whole_disabled fun ⟨hboot, hdsp⟩ => ?_⟩
  · exact (whole_enabled ⟨hboot, hdsp⟩ hb).trans
      (congrArg _ (runItems_push chip .arb chip_legal.enqRetryMax [.enterSteady] true true s))
  · exact hno.elim (· hboot) (by simp [hdsp])

/-! ### The poll tick -/

/-- An operation whose first step does nothing, whether its agent is busy or not. -/
theorem whole_idle (a : Agent) (c : Config) (s : State) : (Opening.mk a (.next s.done) s).whole c s = .next s :=
  whole_disabled (p := False) (b := s.done) not_false

theorem exec_pollTick {s : State} (hb : s.busy .arb = false) :
    exec .pollTick s = .next (runItems chip .arb (tickFirst s).rest true true (tickFirst s).state) :=
  whole_mk .arb chip s s (tickFirst s) hb

theorem exec_pollTick_done {s : State} (h : tickFirst s = s.done) : exec .pollTick s = .next s := by
  show (Opening.mk .arb (.next (tickFirst s)) s).whole chip s = .next s
  rw [h]
  exact whole_idle .arb chip s

/-- The tick in `Booting` (R253). -/
theorem tickFirst_booting {s : State} (h : s.arbState = .booting) :
    tickFirst s = if s.presence.dsp.present then s.done else ⟨s, pingItems .arb .dsp⟩ := by
  rw [tickFirst, h]

/-- The tick in `SteadyPolling` where no ping is outstanding (R255). -/
theorem tickFirst_answered {s : State} (h : s.arbState = .steadyPolling) (hp : s.pingOutstanding = false) :
    tickFirst s = ⟨s, pingItems .arb .usb ++ pingItems .arb .dsp⟩ := by
  simp only [tickFirst, h, hp, Bool.false_eq_true, if_false]

/-- The tick in `SteadyPolling` where the last ping of the DSP is unanswered (R255, R256). -/
theorem tickFirst_unanswered {s : State} (h : s.arbState = .steadyPolling) (hp : s.pingOutstanding = true) :
    tickFirst s = if s.presence.dsp.fails = 4 then ⟨shutdown (countFailure s), powerOffItems⟩
      else ⟨countFailure s, pingItems .arb .usb ++ pingItems .arb .dsp⟩ := by
  have hfifth : (countFailure s).presence.dsp.fails = pingFailMax ↔ s.presence.dsp.fails = 4 := by
    rw [countFailure_fails, pingFailMax]
    bv_omega
  simp only [tickFirst, h, hp, if_true, hfifth]

/-- The tick in the other two states (R269). -/
theorem tickFirst_ignored {s : State} (h : s.arbState = .usbPassthrough ∨ s.arbState = .shuttingDown) :
    tickFirst s = s.done := by
  rcases h with h | h <;> rw [tickFirst, h]

/-- The last line of ARB's ping of the DSP, while it runs and no window is open: one opens if the frame was queued (R254). -/
theorem runItems_markPing (c : Config) (a : Agent) (last all : Bool) {s : State} (h : s.arbState ≠ .shuttingDown)
    (hp : s.pingOutstanding = false) : runItems c a [.markPing] last all s = { s with pingOutstanding := last } := by
  cases last with
  | true => exact if_neg h
  | false =>
    show s = { s with pingOutstanding := false }
    rw [← hp]

/-- The pings of `SteadyPolling` run whole while no window is open: the USB Host's and then the DSP's, whose window opens
where both were queued (R254, R255, R259). -/
theorem runItems_pollPings {s : State} (h : s.arbState ≠ .shuttingDown) (hp : s.pingOutstanding = false) :
    runItems chip .arb (pingItems .arb .usb ++ pingItems .arb .dsp) true true s =
      { afterEnqueues chip [checkFrame .usb, checkFrame .dsp] s with
        pingOutstanding := decide (2 ≤ roomLeft chip s) } :=
  (runItems_frames chip .arb chip_legal.enqRetryMax [.markPing] [(.dsp, .fixed [0x11], true)]
    (.usb, .fixed [0x11], true) true true s).trans (runItems_markPing chip .arb _ _ h hp)

/-- The indivisible part of the shutdown transition (R256). -/
theorem shutdown_eq (s : State) : shutdown s = { s with
    arbState := .shuttingDown
    err := { s.err with presenceFailureTerminal := true }
    out := s.out ++ [.log .presenceFailureTerminal (.peer .dsp), .escalation .dsp] } := by
  simp [shutdown, State.raise, State.emit, ErrFlags.mark]

/-- Settles O24: in `Booting` by whether the DSP is present, in `SteadyPolling` both pings (`runItems_pollPings`). -/
theorem tickPings : Obligations.TickPings := by
  refine fun s hb => ⟨fun hboot hdsp => ?_, fun hboot hdsp => exec_pollTick_done ?_, fun hsteady hping => ?_⟩
  · have hrun : s.arbState ≠ .shuttingDown := by rw [hboot]; decide
    rw [exec_pollTick hb, tickFirst_booting hboot, hdsp]
    refine congrArg _ ((runItems_pingDsp chip chip_legal.enqRetryMax s).trans ?_)
    simp only [hrun, ne_eq, not_false_eq_true, and_true]
  · rw [tickFirst_booting hboot, if_pos hdsp]
  · have hrun : s.arbState ≠ .shuttingDown := by rw [hsteady]; decide
    rw [exec_pollTick hb, tickFirst_answered hsteady hping, runItems_pollPings hrun hping]

/-- Settles O25: the failure is counted (`countFailure_eq`), and then both pings (`runItems_pollPings`) or, the fifth time,
the shutdown and its one frame (`runItems_frame`). -/
theorem tickCountsFailures : Obligations.TickCountsFailures := by
  intro s hb hsteady hping counted
  have hcounted : countFailure s = counted := countFailure_eq s
  have hrun : counted.arbState ≠ .shuttingDown := by
    show s.arbState ≠ _
    rw [hsteady]; decide
  rw [exec_pollTick hb, tickFirst_unanswered hsteady hping, hcounted]
  refine ⟨fun hmore => ?_, fun hfifth => ?_⟩
  · rw [if_neg hmore]
    exact congrArg _ (runItems_pollPings hrun rfl)
  · rw [if_pos hfifth, shutdown_eq]
    exact congrArg _ (runItems_frame chip .arb chip_legal.enqRetryMax .mc [0x6E] false [] true true _)

/-- Settles O26: the tick's first step does nothing (`tickFirst_ignored`). -/
theorem tickIgnored : Obligations.TickIgnored := fun _ h => exec_pollTick_done (tickFirst_ignored h)

/-! ### The frames that are dispatched -/

/-- A dispatched frame with a command is run by the route of the command (R292). -/
theorem dispatchFrame_frameBytes (c : Config) (rx tx rsv code : Byte) (args : List Byte) (s : State) :
    dispatchFrame c (frameBytes rx tx rsv (code :: args)) s =
      routeCommand c code ⟨frameBytes rx tx rsv (code :: args), rx, tx, args⟩ s := by
  simp only [dispatchFrame, framePayload_frameBytes, frameReceiver_frameBytes, frameTransmitter_frameBytes]

/-- A frame whose dispatch does nothing, whatever the owner of `rxf` is doing. -/
theorem exec_dispatch_done {f : List Byte} {s : State} (h : dispatchFrame chip f s = s.done) :
    exec (.dispatch f) s = .next s := by
  show (Opening.mk s.owner (.next (if s.parses then dispatchFrame chip f s else s.done)) s).whole chip s = .next s
  rw [h, ite_self]
  exact whole_idle s.owner chip s

/-- An IsPresent to the engine, dispatched (R293 to R295). -/
theorem exec_isPresent (tx rsv : Byte) (args : List Byte) {s : State} (hb : s.busy s.owner = false)
    (hp : s.parses = true) : exec (.dispatch (frameBytes addrRN tx rsv (0x12 :: args))) s =
      .next (recvIsPresent ⟨frameBytes addrRN tx rsv (0x12 :: args), addrRN, tx, args⟩ s) := by
  rw [exec_dispatch_parsed _ s hp hb, dispatchFrame_frameBytes]
  rfl

/-- The route of an IsPresent is its transmitter's (R293 to R295). -/
theorem recvIsPresent_mc (f args : List Byte) (s : State) :
    recvIsPresent ⟨f, addrRN, addrMC, args⟩ s = presenceConfirm .mc s := rfl
theorem recvIsPresent_dsp (f args : List Byte) (s : State) :
    recvIsPresent ⟨f, addrRN, addrDSP, args⟩ s = presenceConfirm .dsp s := rfl
theorem recvIsPresent_usb (f args : List Byte) (s : State) :
    recvIsPresent ⟨f, addrRN, addrUSB, args⟩ s = usbAttach s := rfl

/-- An IsDisconnected from the USB Host is the detach trigger (R297). -/
theorem dispatchFrame_isDisconnected (c : Config) (rsv : Byte) (args : List Byte) (s : State) :
    dispatchFrame c (frameBytes addrRN addrUSB rsv (0x35 :: args)) s = usbDetach s := by
  rw [dispatchFrame_frameBytes]
  rfl

theorem usbDetach_passthrough {s : State} (h : s.arbState = .usbPassthrough) :
    usbDetach s = ⟨s, pushItems ++ [.finishDetach]⟩ := by
  rw [usbDetach, h]

theorem usbDetach_ignored {s : State} (h : s.arbState ≠ .usbPassthrough) : usbDetach s = s.done := by
  unfold usbDetach
  split
  · next hp => exact absurd hp h
  all_goals rfl

theorem usbAttach_polling {s : State} (h : s.arbState = .steadyPolling) : usbAttach s = attach s := by
  rw [usbAttach, h]

/-- Outside `SteadyPolling` the USB Host's presence is confirmed like any other's, in `ShuttingDown` not at all (R263). -/
theorem usbAttach_elsewhere {s : State} (h : s.arbState ≠ .steadyPolling) : usbAttach s = presenceConfirm .usb s := by
  cases hs : s.arbState with
  | booting | usbPassthrough => rw [usbAttach, hs]
  | steadyPolling => exact absurd hs h
  | shuttingDown => rw [usbAttach, hs, presenceConfirm_eq, if_pos hs]

/-! ### Presence -/

/-- Settles O28: the routes of the three senders, and `presenceConfirm_eq`. -/
theorem presenceConfirmed : Obligations.PresenceConfirmed := by
  refine fun rsv args s hb hp => ⟨fun hrun => ⟨?_, ?_⟩, fun hdown tx htx => ?_⟩
  · refine (exec_isPresent addrMC rsv args hb hp).trans (congrArg _ ?_)
    rw [recvIsPresent_mc, presenceConfirm_eq, if_neg hrun]
    rfl
  · refine (exec_isPresent addrDSP rsv args hb hp).trans (congrArg _ ?_)
    rw [recvIsPresent_dsp, presenceConfirm_eq, if_neg hrun]
    rfl
  · have ignored : ∀ p, presenceConfirm p s = s := fun p => if_pos hdown
    refine (exec_isPresent tx rsv args hb hp).trans (congrArg _ ?_)
    rcases htx with rfl | rfl | rfl
    · exact (recvIsPresent_mc _ args s).trans (ignored .mc)
    · exact (recvIsPresent_dsp _ args s).trans (ignored .dsp)
    · exact (recvIsPresent_usb _ args s).trans ((usbAttach_elsewhere (by rw [hdown]; decide)).trans (ignored .usb))

/-- Settles O30. -/
theorem attachOnlyFromPolling : Obligations.AttachOnlyFromPolling := by
  intro rsv args s hb hp hst
  obtain ⟨hpoll, hdown⟩ : s.arbState ≠ .steadyPolling ∧ s.arbState ≠ .shuttingDown := by
    rcases hst with h | h <;> rw [h] <;> decide
  refine (exec_isPresent addrUSB rsv args hb hp).trans (congrArg _ ?_)
  rw [recvIsPresent_usb, usbAttach_elsewhere hpoll, presenceConfirm_eq, if_neg hdown]
  rfl

/-! ### Attach and detach -/

/-- Settles O29, by `attach_eq`. -/
theorem attachTransition : Obligations.AttachTransition := by
  intro rsv args s hb hp hst
  refine (exec_isPresent addrUSB rsv args hb hp).trans (congrArg _ ?_)
  rw [recvIsPresent_usb, usbAttach_polling hst, attach_eq s (by rw [hst]; decide)]
  rfl

/-- Settles O31: the push in a row (`runItems_push`), and then the final step (`detachFinal_eq`). -/
theorem detachTransition : Obligations.DetachTransition := by
  intro rsv args s hb hp hst
  have hruns : runItems chip s.owner (pushItems ++ [.finishDetach]) true true s =
      detachFinal (afterEnqueues chip (pushedFrames s.set) s) :=
    runItems_push chip s.owner chip_legal.enqRetryMax [.finishDetach] true true s
  have hframe : dispatchFrame chip (frameBytes 0x80 0x5A rsv (0x35 :: args)) s = usbDetach s :=
    dispatchFrame_isDisconnected chip rsv args s
  rw [exec_dispatch_parsed _ s hp hb, hframe, usbDetach_passthrough hst, hruns, detachFinal_eq]
  rfl

/-- Settles O32: the detach trigger's dispatch does nothing (`usbDetach_ignored`). -/
theorem detachIgnored : Obligations.DetachIgnored := fun rsv args s h =>
  exec_dispatch_done ((dispatchFrame_isDisconnected chip rsv args s).trans (usbDetach_ignored h))

end Sys2Proof.Machine
end

section
/-! The dispatcher's other routes (O33 to O37; 46_dispatcher.md R292, R296, R298 to R303, R310, R311): what the input-source
name, the sniffed settings and the passed-on messages do, and what becomes of a frame on no route (log 24). -/
namespace Sys2Proof.Machine

/-! ### A frame that leaves no steps -/

/-- `dispatch`, where it leaves its agent no steps (R292). -/
theorem exec_dispatch_of_done {f : List Byte} {s u : State} (hb : s.busy s.owner = false) (hp : s.parses = true)
    (h : dispatchFrame chip f s = u.done) : exec (.dispatch f) s = .next u := by
  rw [exec_dispatch_parsed f s hp hb, h]
  rfl

/-- The same from the route of the frame's command. -/
theorem exec_dispatch_routed {rx tx rsv code : Byte} {args : List Byte} {s u : State} (hb : s.busy s.owner = false)
    (hp : s.parses = true) (h : routeCommand chip code ⟨frameBytes rx tx rsv (code :: args), rx, tx, args⟩ s = u.done) :
    exec (.dispatch (frameBytes rx tx rsv (code :: args))) s = .next u :=
  exec_dispatch_of_done hb hp ((dispatchFrame_frameBytes chip rx tx rsv code args s).trans h)

/-! ### The two rejections -/

theorem discard_eq (x : Inbound) (s : State) : discard x s = { s with
    err := { s.err with unknownCommand := true }
    out := s.out ++ [.log .unknownCommand (.bytes x.bytes)] } := rfl

theorem rejectInbound_eq (x : Inbound) (s : State) : rejectInbound x s = { s with
    err := { s.err with inboundRejected := true }
    out := s.out ++ [.log .inboundRejected (.bytes x.bytes)] } := rfl

/-! ### The input-source name -/

/-- The input-source name from the DSP (R296). -/
theorem recvInputSourceName_dsp (f args : List Byte) (s : State) :
    recvInputSourceName ⟨f, addrRN, addrDSP, args⟩ s =
      if args.length < 16 then rejectInbound ⟨f, addrRN, addrDSP, args⟩ s
      else { s with
        set := { s.set with sourceName := args.take 16 }
        out := s.out ++ [.settingChanged .sourceName] } := if_pos rfl

/-- Settles O33: the route, with enough bytes for a name and without. -/
theorem sourceNameStored : Obligations.SourceNameStored := by
  refine fun rsv args s hb hp => ⟨fun hfits => ?_, fun hshort => ?_⟩ <;>
    refine exec_dispatch_routed hb hp (congrArg State.done ((recvInputSourceName_dsp _ args s).trans ?_))
  · rw [if_neg hfits.not_gt]
  · rw [if_pos hshort, rejectInbound_eq]

/-! ### Sniffed settings -/

/-- Between the USB Host and the Master Controller a command without its value is rejected (R300 to R302). -/
theorem recvMasterVolume_nil (f : List Byte) (s : State) : recvMasterVolume ⟨f, addrMC, addrUSB, []⟩ s =
    rejectInbound ⟨f, addrMC, addrUSB, []⟩ s := rfl
theorem recvSubVolume_nil (f : List Byte) (s : State) : recvSubVolume ⟨f, addrMC, addrUSB, []⟩ s =
    rejectInbound ⟨f, addrMC, addrUSB, []⟩ s := rfl
theorem recvChangeMemory_nil (c : Config) (f : List Byte) (s : State) : recvChangeMemory c ⟨f, addrMC, addrUSB, []⟩ s =
    rejectInbound ⟨f, addrMC, addrUSB, []⟩ s := rfl

/-- A sniffed MasterVolume (R300). -/
theorem recvMasterVolume_cons (f l : List Byte) (v : Byte) (s : State) :
    recvMasterVolume ⟨f, addrMC, addrUSB, v :: l⟩ s =
      if 0x78 < v.toNat then rejectInbound ⟨f, addrMC, addrUSB, v :: l⟩ s
      else { s with set := { s.set with masterVolume := v }, out := s.out ++ [.settingChanged .masterVolume] } := if_pos rfl

/-- A sniffed SubVolume (R301). -/
theorem recvSubVolume_cons (f l : List Byte) (v : Byte) (s : State) :
    recvSubVolume ⟨f, addrMC, addrUSB, v :: l⟩ s =
      if 0x18 < v.toNat then rejectInbound ⟨f, addrMC, addrUSB, v :: l⟩ s
      else { s with set := { s.set with subVolume := v }, out := s.out ++ [.settingChanged .subVolume] } := if_pos rfl

/-- The bank of a wire value, which is the bank plus one. -/
theorem sub_one_eq_ofNat {v : Byte} (h : 1 ≤ v.toNat) : v - 1 = BitVec.ofNat 8 (v.toNat - 1) := by
  bv_omega

/-- A sniffed ChangeMemory (R302). -/
theorem recvChangeMemory_cons (c : Config) (f l : List Byte) (v : Byte) (s : State) :
    recvChangeMemory c ⟨f, addrMC, addrUSB, v :: l⟩ s =
      if v.toNat < 1 ∨ c.memBanks < v.toNat then rejectInbound ⟨f, addrMC, addrUSB, v :: l⟩ s
      else { s with
        set := { s.set with memoryBank := BitVec.ofNat 8 (v.toNat - 1) }
        out := s.out ++ [.settingChanged .memoryBank] } := by
  refine (if_pos rfl).trans ?_
  dsimp only
  by_cases hlow : v.toNat < 1
  · rw [if_pos hlow, if_pos (.inl hlow)]
  · rw [if_neg hlow, sub_one_eq_ofNat (Nat.not_lt.mp hlow)]
    simp only [hlow, false_or]
    rfl

/-- Settles O34: for each of the two volumes, its route without a value and with one. -/
theorem volumesSniffed : Obligations.VolumesSniffed := by
  refine fun rsv args s hb hp => ⟨exec_dispatch_routed hb hp (congrArg State.done ?_),
    exec_dispatch_routed hb hp (congrArg State.done ?_)⟩
  · cases args with
    | nil => exact recvMasterVolume_nil _ s
    | cons v l => exact recvMasterVolume_cons _ l v s
  · cases args with
    | nil => exact recvSubVolume_nil _ s
    | cons v l => exact recvSubVolume_cons _ l v s

/-- Settles O35: the route without a value and with one. -/
theorem changeMemorySniffed : Obligations.ChangeMemorySniffed := by
  refine fun rsv args s hb hp => exec_dispatch_routed hb hp (congrArg State.done ?_)
  cases args with
  | nil => exact recvChangeMemory_nil chip _ s
  | cons v l => exact recvChangeMemory_cons chip _ l v s

/-! ### Messages passed on -/

/-- FirmwareVersion and UsbConnected from the USB Host are messages (R298, R299). -/
theorem recvFirmwareVersion_usb (f args : List Byte) (s : State) :
    recvFirmwareVersion ⟨f, addrRN, addrUSB, args⟩ s = s.emit (.peerMessage addrUSB 0x14 args) := if_pos rfl
theorem recvUsbConnected_usb (f args : List Byte) (s : State) :
    recvUsbConnected ⟨f, addrRN, addrUSB, args⟩ s = s.emit (.peerMessage addrUSB 0x13 args) := if_pos rfl

/-- Settles O36. -/
theorem peerMessagesPassedOn : Obligations.PeerMessagesPassedOn := fun _ args s hb hp =>
  ⟨exec_dispatch_routed hb hp (congrArg State.done (recvFirmwareVersion_usb _ args s)),
    exec_dispatch_routed hb hp (congrArg State.done (recvUsbConnected_usb _ args s))⟩

/-! ### Frames on no route -/

/-- The ten routes of R293 to R302: receiver, transmitter and command code. `routeCommand_unrouted` says that the
dispatcher has no others. -/
def dispatchRoutes : List (Byte × Byte × Byte) :=
  [(0x80, 0x00, 0x12), (0x80, 0x46, 0x12), (0x80, 0x5A, 0x12), (0x80, 0x46, 0x09), (0x80, 0x5A, 0x35),
   (0x80, 0x5A, 0x14), (0x80, 0x5A, 0x13), (0x00, 0x5A, 0x0A), (0x00, 0x5A, 0x0D), (0x00, 0x5A, 0x0F)]

theorem Inbound.route_iff (x : Inbound) (rx tx : Byte) : x.route rx tx = true ↔ x.receiver = rx ∧ x.transmitter = tx := by
  simp [Inbound.route]

/-- A frame on none of the ten routes is discarded whatever its command is: a command with routes checks that the frame
is on one of them, and no other has any (R303, R310). -/
theorem routeCommand_unrouted {x : Inbound} {code : Byte} (h : (x.receiver, x.transmitter, code) ∉ dispatchRoutes)
    (c : Config) (s : State) : routeCommand c code x s = (discard x s).done := by
  have off {n : Nat} (hn : code.toNat = n) (rx tx : Byte) (hm : (rx, tx, BitVec.ofNat 8 n) ∈ dispatchRoutes) :
      ¬ x.route rx tx = true := by
    subst hn
    rw [BitVec.ofNat_toNat, BitVec.setWidth_eq] at hm
    rw [Inbound.route_iff]
    rintro ⟨rfl, rfl⟩
    exact h hm
  unfold routeCommand
  split
  case h_1 hn => exact congrArg State.done (if_neg (off hn addrRN addrDSP (by decide)))
  case h_2 hn | h_3 hn | h_4 hn => exact congrArg State.done (if_neg (off hn addrMC addrUSB (by decide)))
  case h_5 hn =>
    rw [recvIsPresent, if_neg (off hn addrRN addrMC (by decide)), if_neg (off hn addrRN addrDSP (by decide)),
      if_neg (off hn addrRN addrUSB (by decide))]
  case h_6 hn | h_7 hn => exact congrArg State.done (if_neg (off hn addrRN addrUSB (by decide)))
  case h_8 hn => exact if_neg (off hn addrRN addrUSB (by decide))
  case h_9 => rfl

/-- A frame with an empty payload has no command (R292). -/
theorem dispatchFrame_empty (c : Config) (rx tx rsv : Byte) (s : State) : dispatchFrame c (frameBytes rx tx rsv []) s =
    (discard ⟨frameBytes rx tx rsv [], rx, tx, []⟩ s).done := by
  simp only [dispatchFrame, framePayload_frameBytes, frameReceiver_frameBytes, frameTransmitter_frameBytes]

/-- Settles O37, by `routeCommand_unrouted` and, without a command, `dispatchFrame_empty`. -/
theorem unroutedDiscarded : Obligations.UnroutedDiscarded := fun rx tx rsv s hb hp =>
  ⟨fun code args h =>
    exec_dispatch_routed hb hp (routeCommand_unrouted (x := ⟨frameBytes rx tx rsv (code :: args), rx, tx, args⟩) h chip s),
    exec_dispatch_of_done hb hp (dispatchFrame_empty chip rx tx rsv s)⟩

end Sys2Proof.Machine
end

section
/-! The listener's step by name (O45; 46_dispatcher.md R290, R291): a consumer of `rxf` with nothing to end (log 10). -/
namespace Sys2Proof.Machine

theorem owner_of_usbPassthrough {s : State} (h : s.busMode = .usbPassthrough) : s.owner = .lst := by
  rw [State.owner, h]

/-- Where LST is not active or has nothing to pop, its step does nothing (R290; log 10). -/
theorem exec_lstChar_held {s : State} (hb : s.busy .lst = false) (h : s.lstActive = false ∨ s.rxf = []) :
    exec .lstChar s = .next s := by
  refine whole_next (openLstChar chip s) chip s s.done hb ?_
  unfold openLstChar
  dsimp only
  split
  · next hactive => rw [consumeChar, popChar, h.resolve_left (by simp [hactive])]
  · rfl

/-- While it is active, LST's step is a consumer's, run whole (R290). -/
theorem exec_lstChar_consumes {s u : State} {l : List Item} (hb : s.busy .lst = false) (hactive : s.lstActive = true)
    (hc : consumeChar chip id s = .next ⟨u, l⟩) : exec .lstChar s = .next (runItems chip .lst l true true u) :=
  whole_next (openLstChar chip s) chip s ⟨u, l⟩ hb ((if_pos hactive).trans hc)

/-- `dispatch` by LST (R290, R292). -/
theorem exec_dispatch_listening (f : List Byte) {s : State} (hb : s.busy .lst = false)
    (hmode : s.busMode = .usbPassthrough) (hactive : s.lstActive = true) : exec (.dispatch f) s =
      .next (runItems chip .lst (dispatchFrame chip f s).rest true true (dispatchFrame chip f s).state) := by
  have howner : s.owner = .lst := owner_of_usbPassthrough hmode
  have hparses : s.parses = true := by rw [State.parses, hmode, hactive]
  rw [exec_dispatch_parsed f s hparses (howner ▸ hb), howner]

/-- Settles O45: a character that completes no frame goes to the receiver (`stepFrx_incomplete`); one that does is taken
with its frame, and a valid frame runs as `dispatch` does (`exec_dispatch_listening`). -/
theorem listenerReceives : Obligations.ListenerReceives := by
  refine fun s hb => ⟨exec_lstChar_held hb, fun ch rest hmode hactive hrxf hinv hs => ?_⟩
  intro popped f taken
  refine ⟨fun hmore => ?_, fun hpayload hlast => ⟨fun hvalid => ?_, fun hinvalid => ?_⟩⟩
  · obtain ⟨t, ht, hne⟩ := stepFrx_incomplete chip_legal.rxCap_ge ch.byte ch.marker
      (frxInv_of_view (u := popped) hinv rfl) hs hmore
    exact ⟨t, ht, exec_lstChar_consumes hb hactive (consumeChar_incomplete id hrxf ht hne)⟩
  · exact ⟨_, exec_dispatch_listening f (s := taken) hb hmode hactive,
      exec_lstChar_consumes hb hactive (consumeChar_valid id hrxf hinv hpayload hlast hvalid)⟩
  · exact exec_lstChar_consumes hb hactive (consumeChar_invalid id hrxf hinv hpayload hlast hinvalid)

end Sys2Proof.Machine
end

section
/-! The command port by name (O19 to O21; 47_host_operations.md R320 to R333): an operation of any HOST is rejected, or
its frames are enqueued in a row and its caller is told the result (logs 2, 6, 10). -/
namespace Sys2Proof.Machine

section
variable {h : Nat} {s : State}

/-! ### Value operations -/

/-- The frames of `send_value` by what they are built from (R322). -/
def valueSources (dests : List Peer) (cmd v : Byte) : List (Peer × Source × Bool) :=
  dests.map fun d => (d, .fixed [cmd, v], false)

theorem sendValueItems_eq_map (c : Config) (cmd v : Byte) :
    sendValueItems c cmd v = (valueSources c.setDests cmd v).map fun y => .frame y.1 y.2.1 y.2.2 := by
  rw [valueSources, List.map_map]
  rfl

theorem map_entryOf_valueSources (dests : List Peer) (cmd v : Byte) (st : Settings) :
    (valueSources dests cmd v).map (entryOf st) = valueFrames dests cmd v := List.map_map

/-- `send_value` of a legal value, run whole: `SET_DESTS` names a peer, so there is a frame to send (R322, R323). -/
theorem hostCall_sendValue {c : Config} (hc : c.Legal) (op : HostOp) (info : Info) (cmd v : Byte) {legal : Bool}
    (hl : legal = true) (hb : s.busy (.host h) = false) (ha : s.arbState ≠ .shuttingDown) :
    (hostCall h op legal info (sendValueItems c cmd v) s).whole c s =
      .next ((afterEnqueues c (valueFrames c.setDests cmd v) s).giveReturn (some (.host h))
        (.result (enqueuesResult c (valueFrames c.setDests cmd v) s))) := by
  obtain ⟨d, ds, hdests⟩ := List.exists_cons_of_ne_nil hc.setDests
  rw [hl, sendValueItems_eq_map, ← map_entryOf_valueSources _ _ _ s.set, hdests]
  exact hostCall_sends c hc.enqRetryMax h op info (d, .fixed [cmd, v], false) (valueSources ds cmd v) s hb ha

/-- The byte sent for a bank, as the sum of R328. -/
theorem ofNat_toNat_add_one (v : Byte) : BitVec.ofNat 8 (v.toNat + 1) = v + 1 := by
  rw [BitVec.ofNat_add, BitVec.ofNat_toNat, BitVec.setWidth_eq]
  rfl

/-! ### Presence checks -/

/-- The presence check of a peer, run whole, is one frame; HOST's ping opens no polling window (R331). -/
theorem exec_checkPresence_peer (p : Peer) (hb : s.busy (.host h) = false) (ha : s.arbState ≠ .shuttingDown) :
    exec (.checkPresence h (peerAddr p)) s = .next ((afterEnqueues chip [checkFrame p] s).giveReturn (some (.host h))
      (.result (enqueuesResult chip [checkFrame p] s))) := by
  have hp : peerOf (peerAddr p) = some p := (peerOf_eq_some_iff _ p).mpr rfl
  show (openCheckPresence h (peerAddr p) s).whole chip s = _
  rw [openCheckPresence, checkPresenceItems, hp]
  simp only [pingItems_host]
  exact hostCall_sends chip chip_legal.enqRetryMax h .checkPresence _ (p, .fixed [0x11], true) [] s hb ha

/-- The addresses that are a peer's (R331). -/
theorem peerOf_isSome_iff (a : Byte) : (peerOf a).isSome = true ↔ a = 0x00 ∨ a = 0x46 ∨ a = 0x5A := by
  simp only [Option.isSome_iff_exists, peerOf_eq_some_iff]
  constructor
  · rintro ⟨p, rfl⟩
    cases p <;> decide
  · rintro (rfl | rfl | rfl)
    exacts [⟨.mc, rfl⟩, ⟨.dsp, rfl⟩, ⟨.usb, rfl⟩]

/-! ### Rejections -/

/-- An operand that is not legal is rejected, whatever the operation would send (R321). -/
theorem hostCall_illegal (c : Config) (op : HostOp) (info : Info) (items : List Item) {legal : Bool}
    (hl : ¬ legal = true) (hb : s.busy (.host h) = false) (ha : s.arbState ≠ .shuttingDown) :
    (hostCall h op legal info items s).whole c s =
      .next ((s.raise .valueOutOfRange info).giveReturn (some (.host h)) (.result .valueOutOfRange)) := by
  rw [Bool.eq_false_of_not_eq_true hl]
  exact hostCall_outOfRange c h op info items s hb ha

end

/-- Settles O19: each operation is one `hostCall_sendValue` with its own range. -/
theorem hostValueOperations : Obligations.HostValueOperations := by
  intro h v s hb ha
  have sends := fun op cmd x (legal : Bool) (hl : legal = true) =>
    hostCall_sendValue chip_legal op (.opValue op v) cmd x hl hb ha
  refine ⟨fun hv => ?_, fun hv => ?_, fun hv => ?_, fun hv => ?_, fun hv => ?_⟩
  · exact sends .setVolume 0x0A v _ ((inRange_iff v volMax).mpr hv)
  · exact sends .setBalance 0x0B v _ ((inRange_iff v balFadMax).mpr hv)
  · exact sends .setFader 0x0C v _ ((inRange_iff v balFadMax).mpr hv)
  · exact sends .setSubVolume 0x0D v _ ((inRange_iff v subMax).mpr hv)
  · rw [ofNat_toNat_add_one]
    exact sends .setMemory 0x0F (v + 1) _ (decide_eq_true hv)

/-- Settles O21: `read_status` only answers; the other operations are their frames in a row (`hostCall_sends`), a source
change with those of a settings push, a presence check with one (`exec_checkPresence_peer`). -/
theorem hostCommands : Obligations.HostCommands := by
  refine ⟨fun _ _ => rfl, fun h s hb ha => ?_⟩
  have frames := fun op x l => hostCall_sends chip chip_legal.enqRetryMax h op .nothing x l s hb ha
  refine ⟨frames .powerOffMainUnit (.mc, .fixed [0x6E], false) [], ?_, exec_checkPresence_peer .mc hb ha,
    exec_checkPresence_peer .dsp hb ha, exec_checkPresence_peer .usb hb ha⟩
  show (openRequestSourceChange chip h s).whole chip s = _
  rw [openRequestSourceChange, sourceChangeItems, pushItems_eq_map, ← map_entryOf_pushSources]
  exact frames .requestSourceChange (chip.srcChangeDest, .fixed [0x10], true) pushSources

/-- Settles O20: an operand that is not legal is rejected (`hostCall_illegal`), and in `ShuttingDown` every operation is
(`hostCall_inert`). -/
theorem hostRejections : Obligations.HostRejections := by
  intro h v s hb
  refine ⟨fun ha => ?_, fun ha => ?_⟩
  · have range := fun op items (legal : Bool) (hl : ¬ legal = true) =>
      hostCall_illegal chip op (.opValue op v) items hl hb ha
    refine ⟨fun hv => ?_, fun hv => ?_, fun hv => ?_, fun hv => ?_, fun hv => ?_, fun hmc hdsp husb => ?_⟩
    · exact range .setVolume _ _ (mt (inRange_iff v volMax).mp hv.not_ge)
    · exact range .setBalance _ _ (mt (inRange_iff v balFadMax).mp hv.not_ge)
    · exact range .setFader _ _ (mt (inRange_iff v balFadMax).mp hv.not_ge)
    · exact range .setSubVolume _ _ (mt (inRange_iff v subMax).mp hv.not_ge)
    · exact range .setMemory _ _ (mt of_decide_eq_true hv.not_gt)
    · exact range .checkPresence _ _ (mt (peerOf_isSome_iff v).mp (·.elim hmc (·.elim hdsp husb)))
  · have inert := fun op legal info items => hostCall_inert chip h op legal info items s hb ha
    exact ⟨inert .setVolume .., inert .setBalance .., inert .setFader .., inert .setSubVolume .., inert .setMemory ..,
      inert .powerOffMainUnit .., inert .requestSourceChange .., inert .checkPresence ..⟩

end Sys2Proof.Machine
end
